-- ==== Sys2Proof/Word.lean ====
section
/-! DEFINITION. The words of the part's interfaces and the three two-way names (links, wheels, axes) that its
commands use. Everything that a test could show wrong stands under Machine. -/

namespace Sys2Proof

/-- One byte of a link (spec/12, R202). -/
abbrev Byte := BitVec 8

/-- A 32-bit wrapping count: reel count, wheel count, frame number (spec/00 section 0.7). -/
abbrev Count := BitVec 32

/-- The two links (spec/00 section 0.7). -/
inductive Link where
  | tether
  | carriage
deriving DecidableEq, Repr

/-- The two wheel encoders (spec/01 section 1.5). -/
inductive Wheel where
  | left
  | right
deriving DecidableEq, Repr

/-- The two axes of the camera head (spec/05 section 5.1). -/
inductive Axis where
  | pan
  | tilt
deriving DecidableEq, Repr

end Sys2Proof
end

