-- ==== Sys2Proof/Syntax.lean ====
section
/-! DEFINITION. The commands: one constructor for each row of spec/opcode_table.json. -/

namespace Sys2Proof

/-- The levels on the pins that power-on reads (spec/11 R198, spec/10 R194, spec/01 R20, spec/05 R105). -/
structure Pins where
  /-- BAUD[1:0] -/
  baud : BitVec 2
  /-- FRAMERATE: false is 25 fps, true is 30 fps -/
  frameRate : Bool
  leftA : Bool
  leftB : Bool
  rightA : Bool
  rightB : Bool
  /-- PORT-RESET asserted -/
  portReset : Bool
  /-- the TILT INDEX level -/
  tiltIndex : Bool
deriving DecidableEq, Repr

/-- What the lamp-head sensor does in the four phases of a poll (spec/04 R85). -/
structure SensorAnswer where
  /-- it acknowledges its address in the write direction -/
  addressAck : Bool
  /-- it acknowledges the pointer byte -/
  pointerAck : Bool
  /-- it acknowledges its address in the read direction -/
  readAck : Bool
  high : Byte
  low : Byte
deriving DecidableEq, Repr

/-- The commands. `dt` is the number of microseconds of the internal time base that pass between the command before and
this one (log 1). `rx` and `mosi` are the bytes a link has received since its last frame event, the last of them the one
that makes the event (log 7). A served request names the link whose queue is served: its payload is that of the oldest
request there (spec/10 R188). -/
inductive Instr where
  | powerOn (pins : Pins)
  | reelReport (dt : Nat) (rx : List Byte)
  | presenceTimerExpiry (dt : Nat)
  | wheelTransition (dt : Nat) (wheel : Wheel) (a b : Bool)
  | wheelHistorySample (dt : Nat)
  | driveReport (dt : Nat)
  | driveFreshExpiry (dt : Nat)
  | frameBoundary (dt : Nat)
  | sensorWriteStart (dt : Nat)
  | sensorWriteComplete (dt : Nat)
  | commitDeadlineExpiry (dt : Nat)
  | strobeWindowOpen (dt : Nat)
  | strobeWindowClose (dt : Nat)
  /-- `sdaClocks`: the SCL clocks for which the sensor goes on holding SDA low; 0 when SDA is free (spec/04 R86). -/
  | thermalPollDue (dt : Nat) (sdaClocks : Nat)
  | pollTransactionEnd (dt : Nat) (answer : SensorAnswer)
  | busTimeout (dt : Nat)
  | headHistorySample (dt : Nat)
  | axisStep (dt : Nat) (axis : Axis)
  | axisRest (dt : Nat) (axis : Axis)
  | indexPass (dt : Nat) (axis : Axis)
  | homingLimit (dt : Nat) (axis : Axis)
  | tetherFrameArrival (dt : Nat) (rx : List Byte)
  | tetherFrameError (dt : Nat) (rx : List Byte)
  | linkAliveTimeout (dt : Nat)
  | messageBegin (dt : Nat)
  | messageEnd (dt : Nat)
  | csFalling (dt : Nat)
  | carriageFrameArrival (dt : Nat) (mosi : List Byte)
  | carriageFrameError (dt : Nat) (mosi : List Byte)
  | csRising (dt : Nat) (mosi : List Byte)
  | replyDelivered (dt : Nat) (mosi : List Byte)
  | portReset (dt : Nat)
  | portResetRelease (dt : Nat)
  | requestBadKind (dt : Nat) (link : Link)
  | chainageQuery (dt : Nat) (link : Link)
  | setDatum (dt : Nat) (link : Link)
  | setSetting (dt : Nat) (link : Link)
  | getSetting (dt : Nat) (link : Link)
  | headHome (dt : Nat) (link : Link)
  | headMove (dt : Nat) (link : Link)
  | headStop (dt : Nat) (link : Link)
  | headPark (dt : Nat) (link : Link)
  | headRelease (dt : Nat) (link : Link)
  | headQuery (dt : Nat) (link : Link)
  | lampQuery (dt : Nat) (link : Link)
  | still (dt : Nat) (link : Link)
  | markPoint (dt : Nat) (link : Link)
  | openObs (dt : Nat) (link : Link)
  | closeObs (dt : Nat) (link : Link)
  | voidObs (dt : Nat) (link : Link)
  | annotate (dt : Nat) (link : Link)
  | readLog (dt : Nat) (link : Link)
  | trimLog (dt : Nat) (link : Link)
  | readStamps (dt : Nat) (link : Link)
  | conditionsQuery (dt : Nat) (link : Link)
  | ackConditions (dt : Nat) (link : Link)
  | restartSurvey (dt : Nat) (link : Link)
  | startupWriteComplete (dt : Nat)
  /-- `x`, `y`: the pixel's column and line from the top-left corner; `value`: its 10-bit luminance (spec/03 R60, R61). -/
  | pixelArrival (dt : Nat) (x y : Nat) (value : BitVec 10)
  | strayByte (dt : Nat) (mosi : List Byte)
deriving DecidableEq, Repr

end Sys2Proof
end

