-- ==== Sys2Proof/Decode.lean ====
section
/-! DEFINITION. The command a word spells. No row of spec/opcode_table.json has bits (every row's "fields" is empty),
so no word spells a command (log 33). -/

namespace Sys2Proof

/-- The command that the `nbits` bits of `w` spell by the table: none, because the table gives no row any bits. -/
def decodeTableWord (_nbits _w : Nat) : Option Instr := none

end Sys2Proof
end

