-- ==== Sys2Proof/Machine/SettingsTable.lean ====
section
/-! DEFINITION. The table of settings (spec/11 section 11.1): every setting's id, range, default, owner and the way a
written value is brought into its range; and the store that holds their values. -/

namespace Sys2Proof.Machine

/-- The five numeric settings of an overlay row (spec/07 section 7.1). -/
inductive RowField where
  | enable
  | source
  | column
  | line
  | width
deriving DecidableEq, Repr

/-- The settings that hold a number (spec/11 section 11.1). -/
inductive NumId where
  /-- LATENCY -/
  | latency
  /-- FILL_LIMIT -/
  | fillLimit
  /-- REEL_TIMEOUT -/
  | reelTimeout
  /-- LEFT_SENSE -/
  | leftSense
  /-- RIGHT_SENSE -/
  | rightSense
  /-- DRIVE_FRESH -/
  | driveFresh
  /-- REEL_SCALE -/
  | reelScale
  /-- REEL_SENSE -/
  | reelSense
  /-- WHEEL_SCALE -/
  | wheelScale
  /-- TOL_FIXED -/
  | tolFixed
  /-- TOL_RATIO -/
  | tolRatio
  /-- DIS_FIXED -/
  | disFixed
  /-- DIS_RATIO -/
  | disRatio
  /-- CORR_SHIFT -/
  | corrShift
  /-- CORR_MAX -/
  | corrMax
  /-- SLACK_MAX -/
  | slackMax
  /-- LENS_OFFSET -/
  | lensOffset
  /-- DATUM_OWNER -/
  | datumOwner
  /-- EXPOSURE_PROGRAM -/
  | exposureProgram
  /-- TARGET -/
  | target
  /-- DEADBAND -/
  | deadband
  /-- CLIP_LIMIT -/
  | clipLimit
  /-- BLUR_ALLOW -/
  | blurAllow
  /-- HEAD_MOTION_CAP -/
  | headMotionCap
  /-- GAIN_MAX -/
  | gainMax
  /-- E_FIXED -/
  | eFixed
  /-- G_FIXED -/
  | gFixed
  /-- METER_X -/
  | meterX
  /-- METER_Y -/
  | meterY
  /-- METER_W -/
  | meterW
  /-- METER_H -/
  | meterH
  /-- RING_FULL -/
  | ringFull
  /-- SPOT_FULL -/
  | spotFull
  /-- BODY_FULL -/
  | bodyFull
  /-- RING_WEIGHT -/
  | ringWeight
  /-- SPOT_WEIGHT -/
  | spotWeight
  /-- BODY_WEIGHT -/
  | bodyWeight
  /-- LAMP_SOURCE -/
  | lampSource
  /-- LAMP_MANUAL -/
  | lampManual
  /-- STROBE -/
  | strobe
  /-- LOST_LINK_LEVEL -/
  | lostLinkLevel
  /-- THERMAL_ADDR -/
  | thermalAddr
  /-- BUDGET -/
  | budget
  /-- BASE -/
  | base
  /-- LAMP_RESERVE -/
  | lampReserve
  /-- MOTOR_RESERVE -/
  | motorReserve
  /-- STREAM -/
  | stream
  /-- DECIMATION -/
  | decimation
  /-- FLASH_TIME -/
  | flashTime
  /-- GUARD -/
  | guardWidth
  /-- AUTO_STILL -/
  | autoStill
  /-- LINK_TIMEOUT -/
  | linkTimeout
  /-- ROWn_ENABLE, ROWn_SOURCE, ROWn_COLUMN, ROWn_LINE, ROWn_WIDTH -/
  | row (n : Fin 4) (field : RowField)
deriving DecidableEq, Repr

/-- How a written number is brought into its setting's range (spec/11 R195). -/
inductive Norm where
  /-- the nearest end of the range -/
  | clamp
  /-- a sense: -1, or +1 for 0 and above +1 (spec/01 R15, spec/02 R26) -/
  | sense
  /-- WHEEL_SCALE: in range and even, an odd value going down (spec/02 R26) -/
  | even
  /-- a coded setting: any other code is stored as this one -/
  | coded (other : Int)
deriving DecidableEq, Repr

/-- One line of the settings table. -/
structure NumRow where
  id : Nat
  lo : Int
  dflt : Int
  hi : Int
  owner : Link
  norm : Norm
deriving DecidableEq, Repr

/-- The offset of a row field in its row's block of ids and of store places. -/
def RowField.offset : RowField → Nat
  | .enable => 0
  | .source => 1
  | .column => 2
  | .line => 3
  | .width => 4

/-- The line of an overlay row's numeric setting (spec/07 section 7.1, spec/11 section 11.1). -/
def rowSetting (n : Fin 4) (field : RowField) : NumRow :=
  let id := 70 + 8 * n.val + field.offset
  match field with
  | .enable => ⟨id, 0, [1, 1, 1, 0].getD n.val 0, 1, .tether, .coded 0⟩
  | .source => ⟨id, 0, [1, 2, 3, 4].getD n.val 0, 4, .tether, .coded 0⟩
  | .column => ⟨id, 0, [1, 43, 1, 50].getD n.val 0, 59, .tether, .clamp⟩
  | .line => ⟨id, 0, [1, 1, 22, 22].getD n.val 0, 27, .tether, .clamp⟩
  | .width => ⟨id, 1, [12, 16, 12, 8].getD n.val 1, 40, .tether, .clamp⟩

/-- The settings table's line of a numeric setting: id, MIN, DEFAULT, MAX, owner (spec/11 section 11.1). -/
def NumId.line : NumId → NumRow
  | .latency => ⟨1, 0, 40, 250, .tether, .clamp⟩
  | .fillLimit => ⟨2, 0, 2, 7, .tether, .clamp⟩
  | .reelTimeout => ⟨3, 50, 250, 2000, .tether, .clamp⟩
  | .leftSense => ⟨4, (-1), 1, 1, .carriage, .sense⟩
  | .rightSense => ⟨5, (-1), 1, 1, .carriage, .sense⟩
  | .driveFresh => ⟨6, 100, 500, 2000, .carriage, .clamp⟩
  | .reelScale => ⟨10, 100, 5000, 100000, .tether, .clamp⟩
  | .reelSense => ⟨11, (-1), 1, 1, .tether, .sense⟩
  | .wheelScale => ⟨12, 2, 250, 20000, .carriage, .even⟩
  | .tolFixed => ⟨13, 0, 3000, 50000, .tether, .clamp⟩
  | .tolRatio => ⟨14, 0, 13, 255, .tether, .clamp⟩
  | .disFixed => ⟨15, 0, 1000, 50000, .carriage, .clamp⟩
  | .disRatio => ⟨16, 0, 32, 255, .carriage, .clamp⟩
  | .corrShift => ⟨17, 0, 3, 7, .tether, .clamp⟩
  | .corrMax => ⟨18, 0, 5000, 50000, .tether, .clamp⟩
  | .slackMax => ⟨19, 0, 2000, 10000, .tether, .clamp⟩
  | .lensOffset => ⟨20, (-1000), 0, 1000, .tether, .clamp⟩
  | .datumOwner => ⟨21, 0, 0, 1, .tether, .coded 0⟩
  | .exposureProgram => ⟨30, 0, 0, 2, .tether, .coded 0⟩
  | .target => ⟨31, 64, 400, 960, .tether, .clamp⟩
  | .deadband => ⟨32, 0, 24, 200, .tether, .clamp⟩
  | .clipLimit => ⟨33, 0, 50, 1000, .tether, .clamp⟩
  | .blurAllow => ⟨34, 0, 1500, 20000, .tether, .clamp⟩
  | .headMotionCap => ⟨35, 20, 4000, 34000, .tether, .clamp⟩
  | .gainMax => ⟨36, 16, 256, 256, .tether, .clamp⟩
  | .eFixed => ⟨37, 20, 10000, 34000, .tether, .clamp⟩
  | .gFixed => ⟨38, 16, 16, 256, .tether, .clamp⟩
  | .meterX => ⟨39, 0, 180, 719, .tether, .clamp⟩
  | .meterY => ⟨40, 0, 144, 575, .tether, .clamp⟩
  | .meterW => ⟨41, 0, 360, 720, .tether, .clamp⟩
  | .meterH => ⟨42, 0, 288, 576, .tether, .clamp⟩
  | .ringFull => ⟨45, 0, 240, 500, .tether, .clamp⟩
  | .spotFull => ⟨46, 0, 180, 500, .tether, .clamp⟩
  | .bodyFull => ⟨47, 0, 120, 500, .tether, .clamp⟩
  | .ringWeight => ⟨48, 0, 100, 100, .tether, .clamp⟩
  | .spotWeight => ⟨49, 0, 50, 100, .tether, .clamp⟩
  | .bodyWeight => ⟨50, 0, 0, 100, .tether, .clamp⟩
  | .lampSource => ⟨51, 0, 0, 2, .tether, .coded 2⟩
  | .lampManual => ⟨52, 0, 500, 1000, .tether, .clamp⟩
  | .strobe => ⟨53, 0, 1, 1, .tether, .coded 1⟩
  | .lostLinkLevel => ⟨54, 0, 300, 1000, .tether, .clamp⟩
  | .thermalAddr => ⟨55, 8, 76, 119, .tether, .clamp⟩
  | .budget => ⟨56, 0, 600, 3000, .tether, .clamp⟩
  | .base => ⟨57, 0, 80, 1000, .tether, .clamp⟩
  | .lampReserve => ⟨58, 0, 100, 1000, .tether, .clamp⟩
  | .motorReserve => ⟨59, 0, 300, 3000, .tether, .clamp⟩
  | .stream => ⟨64, 0, 0, 1, .tether, .coded 0⟩
  | .decimation => ⟨65, 1, 1, 25, .tether, .clamp⟩
  | .flashTime => ⟨66, 0, 5, 30, .tether, .clamp⟩
  | .guardWidth => ⟨100, 0, 150, 2000, .tether, .clamp⟩
  | .autoStill => ⟨101, 0, 0, 2, .tether, .coded 0⟩
  | .linkTimeout => ⟨108, 500, 2000, 10000, .tether, .clamp⟩
  | .row n field => rowSetting n field

/-- The place of a numeric setting in the store. -/
def NumId.place : NumId → Fin 72
  | .latency => 0
  | .fillLimit => 1
  | .reelTimeout => 2
  | .leftSense => 3
  | .rightSense => 4
  | .driveFresh => 5
  | .reelScale => 6
  | .reelSense => 7
  | .wheelScale => 8
  | .tolFixed => 9
  | .tolRatio => 10
  | .disFixed => 11
  | .disRatio => 12
  | .corrShift => 13
  | .corrMax => 14
  | .slackMax => 15
  | .lensOffset => 16
  | .datumOwner => 17
  | .exposureProgram => 18
  | .target => 19
  | .deadband => 20
  | .clipLimit => 21
  | .blurAllow => 22
  | .headMotionCap => 23
  | .gainMax => 24
  | .eFixed => 25
  | .gFixed => 26
  | .meterX => 27
  | .meterY => 28
  | .meterW => 29
  | .meterH => 30
  | .ringFull => 31
  | .spotFull => 32
  | .bodyFull => 33
  | .ringWeight => 34
  | .spotWeight => 35
  | .bodyWeight => 36
  | .lampSource => 37
  | .lampManual => 38
  | .strobe => 39
  | .lostLinkLevel => 40
  | .thermalAddr => 41
  | .budget => 42
  | .base => 43
  | .lampReserve => 44
  | .motorReserve => 45
  | .stream => 46
  | .decimation => 47
  | .flashTime => 48
  | .guardWidth => 49
  | .autoStill => 50
  | .linkTimeout => 51
  | .row n field => ⟨52 + 5 * n.val + field.offset, by have h := n.isLt; cases field <;> simp only [RowField.offset] <;> omega⟩

/-- The numeric settings that are not an overlay row's. -/
def NumId.plain : List NumId :=
  [.latency, .fillLimit, .reelTimeout, .leftSense, .rightSense, .driveFresh, .reelScale, .reelSense, .wheelScale, .tolFixed, .tolRatio, .disFixed, .disRatio, .corrShift, .corrMax, .slackMax, .lensOffset, .datumOwner, .exposureProgram, .target, .deadband, .clipLimit, .blurAllow, .headMotionCap, .gainMax, .eFixed]
  ++ [.gFixed, .meterX, .meterY, .meterW, .meterH, .ringFull, .spotFull, .bodyFull, .ringWeight, .spotWeight, .bodyWeight, .lampSource, .lampManual, .strobe, .lostLinkLevel, .thermalAddr, .budget, .base, .lampReserve, .motorReserve, .stream, .decimation, .flashTime, .guardWidth, .autoStill, .linkTimeout]

/-- Every numeric setting, in the order of the store's places. -/
def NumId.all : List NumId :=
  NumId.plain ++ (List.finRange 4).flatMap fun n =>
    [NumId.row n .enable, .row n .source, .row n .column, .row n .line, .row n .width]

/-- What a setting id names (spec/11 section 11.1): a number, an overlay row's text, or a link's mask. -/
inductive SettingRef where
  | num (k : NumId)
  | text (n : Fin 4)
  | mask (link : Link)
deriving DecidableEq, Repr

/-- The id of a row's text setting: 75 + 8n. -/
def textId (n : Fin 4) : Nat := 75 + 8 * n.val

/-- The id of a link's mask: 104 and 105. -/
def maskId : Link → Nat
  | .tether => 104
  | .carriage => 105

/-- The id a reference stands for. -/
def SettingRef.id : SettingRef → Nat
  | .num k => k.line.id
  | .text n => textId n
  | .mask l => maskId l

/-- What an id names, or nothing: ids missing from the table are unknown (spec/11 section 11.1). -/
def SettingRef.ofId (id : Nat) : Option SettingRef :=
  if id = 104 then some (.mask .tether)
  else if id = 105 then some (.mask .carriage)
  else match (List.finRange 4).find? (fun n => textId n == id) with
    | some n => some (.text n)
    | none => (NumId.all.find? (fun k => k.line.id == id)).map .num

/-- The link that owns a setting (spec/11 section 11.1). -/
def SettingRef.owner : SettingRef → Link
  | .num k => k.line.owner
  | .text _ => .tether
  | .mask l => l

/-- The default of CARRIAGE_MASK: latches 0, 2, 4, 5, 9, 11, 12, 13, 14 (spec/09 section 9.2). -/
def carriageMaskDefault : BitVec 16 := 0x7A35

/-- The default of TETHER_MASK: all sixteen (spec/09 section 9.2). -/
def tetherMaskDefault : BitVec 16 := 0xFFFF

/-- The Settings Store's values (spec/11 section 11.1): a number for each numeric setting, a text for each overlay row,
and the two masks. -/
structure Settings where
  nums : Vector Int 72
  texts : Vector (List Byte) 4
  tetherMask : BitVec 16
  carriageMask : BitVec 16
deriving DecidableEq, Repr

/-- The defaults of the numeric settings, in the order of their places. -/
def defaultNums : Vector Int 72 := Vector.ofFn fun i => ((NumId.all.map fun k => k.line.dflt).getD i.val 0)

/-- Every setting at its default (spec/11 R197). -/
def Settings.defaults : Settings :=
  ⟨defaultNums, Vector.replicate 4 [], tetherMaskDefault, carriageMaskDefault⟩

/-- The stored value of a numeric setting. -/
def Settings.num (s : Settings) (k : NumId) : Int := s.nums[k.place]

/-- The stored value of a setting that is never negative, as a natural number. -/
def Settings.nat (s : Settings) (k : NumId) : Nat := (s.num k).toNat

/-- Store a number. -/
def Settings.putNum (s : Settings) (k : NumId) (v : Int) : Settings := { s with nums := s.nums.set k.place v }

/-- Store an overlay row's text. -/
def Settings.putText (s : Settings) (n : Fin 4) (t : List Byte) : Settings := { s with texts := s.texts.set n t }

/-- Store a link's mask. -/
def Settings.putMask (s : Settings) (l : Link) (m : BitVec 16) : Settings :=
  match l with
  | .tether => { s with tetherMask := m }
  | .carriage => { s with carriageMask := m }

/-- A link's mask. -/
def Settings.mask (s : Settings) : Link → BitVec 16
  | .tether => s.tetherMask
  | .carriage => s.carriageMask

/-- The value a write stores (spec/11 R195 and the rule of the setting's "Acts" column). -/
def NumRow.store (r : NumRow) (v : Int) : Int :=
  match r.norm with
  | .clamp => max r.lo (min r.hi v)
  | .sense => if v < 0 then -1 else 1
  | .even => let c := max r.lo (min r.hi v); c - c % 2
  | .coded other => if r.lo ≤ v ∧ v ≤ r.hi then v else other

end Sys2Proof.Machine
end

