-- ==== Sys2Proof/Machine/Blocks.lean ====
section
/-! DEFINITION. The state of each block of the part as plain data, one structure a block, with the spec's names
(spec/00 section 0.4). Instants are microseconds of the internal time base; a running timer is the instant at which it
expires. -/

namespace Sys2Proof.Machine

/-! ## Frames on the links (spec/10 section 10.1) -/

/-- A frame's TAG, KIND and payload. LEN and the CRC follow from them. -/
structure Frame where
  tag : Byte
  kind : Byte
  payload : List Byte
deriving DecidableEq, Repr

/-- A receive framer: in HUNT, or collecting a frame's body, with `escaped` set while a 0x7D is held (tether only) and
the unescaped body bytes so far, LEN first (spec/10 R178, R184). -/
inductive Framer where
  | hunt
  | collecting (escaped : Bool) (body : List Byte)
deriving DecidableEq, Repr

/-- What a received byte can complete (spec/10 R178, R184). -/
inductive RxEvent where
  | valid (f : Frame)
  | lengthError
  | crcError
  | broken
  | stray
deriving DecidableEq, Repr

/-- The statuses of a reply (spec/00 section 0.7, spec/12 section 12.3). -/
inductive Status where
  | done
  | clamped
  | merged
  | busy
  | notPermitted
  | notReady
  | locked
  | full
  | noSuch
  | badForm
  | wrongState
deriving DecidableEq, Repr

/-! ## Conditions (spec/09 section 9.1) -/

inductive Condition where
  | reelLost
  | reelRebased
  | wheelSlip
  | slackLimit
  | wheelFault
  | datumTaken
  | lampDerated
  | lampShutdown
  | thermalSensorFault
  | budgetOver
  | lightLimited
  | headDone
  | headLost
  | stillDone
  | stampsLost
  | logNearFull
deriving DecidableEq, Repr

/-- The Condition Latches: the pending counts of each link (spec/09 section 9.1). -/
structure Conditions where
  tether : Vector Nat 16
  carriage : Vector Nat 16
deriving DecidableEq, Repr

/-! ## Reel Input (spec/01 section 1.2) -/

inductive ReelMachine where
  | acquire
  | sync
  | check
deriving DecidableEq, Repr

/-- The seven counters of spec/01 R12. -/
structure ReelStats where
  duplicates : Nat
  suspects : Nat
  missing : Nat
  fills : Nat
  rebases : Nat
  noCount : Nat
  malformed : Nat
deriving DecidableEq, Repr

structure ReelInput where
  machine : ReelMachine
  /-- expected number e -/
  expected : BitVec 6
  /-- suspect number q -/
  suspect : BitVec 6
  zeroedPending : Bool
  /-- presence timer: stopped, or the instant it expires -/
  presence : Option Nat
  stats : ReelStats
deriving DecidableEq, Repr

/-! ## Wheel Counter (spec/01 section 1.5) -/

structure WheelRecord where
  count : Count
  lineA : Bool
  lineB : Bool
  /-- sense in use, +1 or -1 -/
  sense : Int
  errors : Nat
  /-- health: true is FAULT -/
  fault : Bool
deriving DecidableEq, Repr

/-- Both wheel counts at one instant. -/
structure WheelCounts where
  left : Count
  right : Count
deriving DecidableEq, Repr

/-- An entry of the wheel history ring (spec/01 R18). -/
structure WheelSample where
  time : Nat
  counts : WheelCounts
deriving DecidableEq, Repr

structure WheelCounter where
  left : WheelRecord
  right : WheelRecord
  /-- oldest first, at most 64 -/
  history : List WheelSample
deriving DecidableEq, Repr

/-! ## Drive state (spec/01 section 1.7) -/

inductive Direction where
  | stopped
  | forward
  | reverse
deriving DecidableEq, Repr

structure DriveState where
  fresh : Bool
  direction : Direction
  demand : Nat
  inclination : Option Int
  /-- freshness timer -/
  timer : Option Nat
deriving DecidableEq, Repr

/-! ## Chainage Reckoner (spec/02 section 2.1) -/

inductive StepClass where
  | track
  | payout
  | takeup
  | slip
  | retrieve
  | cableOnly
  | datum
deriving DecidableEq, Repr

inductive Selection where
  | mean
  | left
  | right
deriving DecidableEq, Repr

/-- The record of the last settled point. -/
structure Anchor where
  /-- R_a -/
  count : Count
  /-- t_a -/
  time : Nat
  /-- L_a and R'_a -/
  wheels : WheelCounts
  /-- F, in micrometres -/
  f : Int
  cls : StepClass
  sel : Selection
deriving DecidableEq, Repr

/-- The settings in effect of a batch (spec/02 R26). -/
structure ReckonSettings where
  reelScale : Int
  reelSense : Int
  wheelScale : Int
  tolFixed : Int
  tolRatio : Int
  disFixed : Int
  disRatio : Int
  corrShift : Nat
  corrMax : Int
  /-- S_max in micrometres -/
  slackMax : Int
deriving DecidableEq, Repr

inductive LastKind where
  | noStep
  | fill
  | settled
  | rebase
  | datum
deriving DecidableEq, Repr

structure LastStep where
  kind : LastKind
  cls : StepClass
  sel : Selection
  disagree : Bool
deriving DecidableEq, Repr

structure Reckoner where
  anchor : Anchor
  /-- S -/
  slack : Int
  /-- C -/
  cable : Int
  /-- V0, or unset -/
  v0 : Option Int
  datumTaken : Bool
  /-- pending datum in mm -/
  pendingDatum : Option Int
  /-- v_s -/
  speed : Int
  slipCount : Nat
  eff : ReckonSettings
  last : LastStep
deriving DecidableEq, Repr

/-- The quality of a reported chainage (spec/02 R43). -/
inductive Quality where
  | good
  | slack
  | slip
  | cable
  | wheel
  | noDatum
deriving DecidableEq, Repr

/-! ## Frames and exposure (spec/03) -/

/-- A settings set (spec/03 section 3.2). `startUp` marks the start-up set of R55 and its repetitions (log 17). -/
structure FrameSet where
  exposure : Nat
  gain : Nat
  level : Nat
  strobe : Bool
  still : Bool
  clean : Bool
  target : Nat
  lightLimited : Bool
  late : Bool
  startUp : Bool
deriving DecidableEq, Repr

/-- The three bank weights that travel with a set (spec/04 R76), or three bank levels. -/
structure Banks where
  ring : Nat
  spot : Nat
  body : Nat
deriving DecidableEq, Repr

/-- A place of the pipeline: a set with its profile, and whether its commit outcome has come (spec/03 R55). -/
structure PipeSlot where
  set : FrameSet
  profile : Banks
  settled : Bool
deriving DecidableEq, Repr

/-- A set handed to SSP whose commit outcome has not come. `age` counts the boundaries since its frame was the frame
numbered c: 0 for that frame, 1 for the frame in readout (log 16). -/
structure Commit where
  age : Nat
  set : FrameSet
  profile : Banks
  deadline : Nat
  /-- the clearance demand stood when the set was computed (spec/03 R65) -/
  demandStood : Bool
  /-- HEAD_MOTION_CAP, as limited, as the computation read it (spec/03 R65, R70, log 37) -/
  cap : Nat
deriving DecidableEq, Repr

structure PendingStill where
  frame : Count
  requester : Link
  clean : Bool
deriving DecidableEq, Repr

/-- The head clearance held by FXC: NONE, WAITING, GIVEN (spec/03 R65). -/
inductive Clearance where
  | unasked
  | waiting
  | given
deriving DecidableEq, Repr

structure FrameTimer where
  /-- false: 25 fps, true: 30 fps -/
  rate30 : Bool
  counter : Count
  origin : Nat
  /-- the frame in readout; none before the first boundary after power-on -/
  ended : Option PipeSlot
  /-- the frame numbered c -/
  current : PipeSlot
  /-- oldest first -/
  commits : List Commit
  prevLimited : Bool
  pendingStill : Option PendingStill
  clearance : Clearance
deriving DecidableEq, Repr

/-- A write to the image sensor: E and G, and in the start-up write alone the frame period (spec/03 R51, R57). -/
structure SensorWrite where
  period : Option Nat
  exposure : Nat
  gain : Nat
deriving DecidableEq, Repr

/-- The sensor port: the write in flight, which for a frame is that of the oldest outstanding commit, and the bytes of the
latest write that have been clocked to the sensor (spec/03 R57, log 23). -/
structure SensorPort where
  write : Option SensorWrite
  sent : List Byte
deriving DecidableEq, Repr

/-- The metering window in use: columns x0 to x1 - 1, lines y0 to y1 - 1 (spec/03 R60). -/
structure MeterWindow where
  x0 : Nat
  x1 : Nat
  y0 : Nat
  y1 : Nat
deriving DecidableEq, Repr

/-- M and clip (spec/03 R61). -/
structure Measure where
  mean : Nat
  clip : Nat
deriving DecidableEq, Repr

structure ImageStats where
  window : MeterWindow
  count : Nat
  sum : Nat
  bright : Nat
  held : Option Measure
deriving DecidableEq, Repr

/-! ## Lamps (spec/04) -/

/-- The frame in drive (spec/04 section 4.2). -/
structure DriveRecord where
  frame : Count
  level : Nat
  profile : Banks
  strobe : Bool
  exposure : Nat
  banks : Banks
deriving DecidableEq, Repr

/-- The strobe window (spec/04 R79): none; timed from a boundary; or lit until an instant at given bank levels. -/
inductive StrobeWindow where
  | closed
  | timed (boundary : Nat)
  | lit (until_ : Nat) (banks : Banks)
deriving DecidableEq, Repr

structure LampDriver where
  record : DriveRecord
  window : StrobeWindow
  /-- the lost-link override and its level (spec/04 R95) -/
  override : Option Nat
  overDemand : Bool
  /-- Pfull_eff as last given to FXC -/
  pfull : Nat
deriving DecidableEq, Repr

inductive ThermalState where
  | normal
  | derate
  | shutdown
  | fault
deriving DecidableEq, Repr

inductive PollOutcome where
  | success
  | addressNack
  | pointerNack
  | busTimeout
deriving DecidableEq, Repr

/-- The phases of a poll transaction (spec/04 R85). -/
inductive PollPhase where
  | pointer
  | pointerByte
  | read
  | data
deriving DecidableEq, Repr

structure Poll where
  addr : Nat
  phase : PollPhase
  /-- the instant at which the transaction began -/
  begun : Nat
deriving DecidableEq, Repr

structure PollCounters where
  successes : Nat
  addressNacks : Nat
  pointerNacks : Nat
  busTimeouts : Nat
  skipped : Nat
deriving DecidableEq, Repr

/-- What the part puts on the I2C bus (spec/04 R85, R86). -/
inductive BusSignal where
  /-- a clock of SCL that frees a held SDA -/
  | clock
  | start
  | repeatedStart
  /-- the sensor's address, with the read direction or the write direction -/
  | address (addr : Nat) (read : Bool)
  | pointer (value : Byte)
  | acknowledge
  | noAcknowledge
  | stop
  /-- the part stops driving SCL and SDA -/
  | release
deriving DecidableEq, Repr

structure ThermalMonitor where
  state : ThermalState
  lastTemp : Option Int
  failures : Nat
  successes : Nat
  poll : Option Poll
  /-- the instant of the last poll that fell due; 0 before the first -/
  lastDue : Nat
  lastOutcome : Option PollOutcome
  counters : PollCounters
  ceiling : Nat
  /-- what the part has sent on the bus for the last poll that fell due with no transaction in flight, oldest first -/
  bus : List BusSignal
deriving DecidableEq, Repr

/-! ## Head (spec/05) -/

inductive AxisState where
  | unhomed
  | homing
  | idle
  | moving
  | stopping
deriving DecidableEq, Repr

/-- Start pending, with the travel that waits for clearance (spec/05 R102). -/
inductive StartPending where
  | clear
  | move
  | home
deriving DecidableEq, Repr

inductive LossCause where
  | noCause
  | indexNotFound
  | indexMismatch
deriving DecidableEq, Repr

structure AxisRecord where
  state : AxisState
  /-- the position; the axis is homed exactly when it is present -/
  pos : Option Int
  target : Option Int
  /-- signed steps still to go on the chosen way to the target -/
  togo : Int
  limit : Nat
  /-- the square of the present speed at `clock`, the speed in millionths of (0.1 degree)/s (spec/05 R101, log 11) -/
  speedSq : Nat
  /-- the distance covered in the present direction since the last whole step; one step is `stepSpan` -/
  part : Nat
  /-- the instant that `speedSq` and `part` describe, in microseconds over the deceleration; 0 at rest -/
  clock : Nat
  /-- the direction of travel: true is positive -/
  up : Bool
  /-- the direction of the last STEP pulse of this travel; none at rest and before its first -/
  lastStep : Option Bool
  homingTravel : Nat
  startPending : StartPending
  /-- a homing search begins when the axis comes to rest (spec/05 R109) -/
  searchOwed : Bool
  lossCause : LossCause
  corrections : Nat
deriving DecidableEq, Repr

inductive HeadKind where
  | home
  | move
  | park
deriving DecidableEq, Repr

inductive HeadOutcome where
  | reached
  | stopped
  | superseded
  | lost
  | linkLost
deriving DecidableEq, Repr

structure HeadOperation where
  kind : HeadKind
  origin : Link
  /-- phase: false is ACTIVE, true is STOPPING -/
  stopping : Bool
deriving DecidableEq, Repr

structure Completion where
  kind : HeadKind
  outcome : HeadOutcome
  pan : Option Int
  tilt : Option Int
  time : Nat
deriving DecidableEq, Repr

/-- An entry of the head history ring (spec/05 R115). -/
structure HeadSample where
  time : Nat
  pan : Option Int
  tilt : Option Int
deriving DecidableEq, Repr

structure HeadPositioner where
  pan : AxisRecord
  tilt : AxisRecord
  /-- the TILT index input's level -/
  tiltIndex : Bool
  /-- the park lock: true is HELD -/
  lock : Bool
  op : Option HeadOperation
  outcome : HeadOutcome
  /-- the clearance demand: true is raised -/
  demand : Bool
  restTime : Nat
  doneTether : Option Completion
  doneCarriage : Option Completion
  /-- oldest first, at most 64 -/
  history : List HeadSample
deriving DecidableEq, Repr

/-! ## Stamps and overlay (spec/06, spec/07) -/

structure Stamp where
  frame : Count
  time : Nat
  chainage : Option Int
  quality : Quality
  datumPending : Bool
  speed : Int
  slackMm : Int
  pan : Option Int
  tilt : Option Int
  moving : Bool
  exposure : Nat
  gain : Nat
  level : Nat
  strobe : Bool
  still : Bool
  clean : Bool
  lightLimited : Bool
  late : Bool
  inclination : Option Int
  openIds : List Nat
  markId : Option Nat
deriving DecidableEq, Repr

/-- A mark handed to the Stamp Unit: a record's id and code (spec/06 R124, spec/07 R136). -/
structure Mark where
  id : Nat
  code : List Byte
deriving DecidableEq, Repr

structure StampUnit where
  /-- oldest first, at most 128 -/
  stamps : List Stamp
  cursorTether : Count
  cursorCarriage : Count
  lostTether : Nat
  lostCarriage : Nat
  pendingMark : Option Mark
  /-- STAMP in flight -/
  inFlight : Option Count
deriving DecidableEq, Repr

structure OverlayRow where
  column : Nat
  line : Nat
  cells : List Byte
deriving DecidableEq, Repr

structure Flash where
  mark : Mark
  remaining : Nat
deriving DecidableEq, Repr

structure Overlay where
  /-- in increasing row number -/
  rows : List OverlayRow
  flash : Option Flash
  /-- the pixel last passed to VIDEO OUT -/
  pixel : Option (BitVec 10)
deriving DecidableEq, Repr

/-! ## Observation Log (spec/08) -/

inductive ObsKind where
  | point
  | continuous
deriving DecidableEq, Repr

inductive ObsState where
  | opened
  | closed
  | voided
deriving DecidableEq, Repr

structure Observation where
  id : Nat
  code : List Byte
  kind : ObsKind
  state : ObsState
  start : Option Int
  finish : Option Int
  clock : Option Nat
  fromTether : Bool
  fromCarriage : Bool
  frame : Count
  stillFrame : Option Count
  closedByDatum : Bool
  remark : List Byte
deriving DecidableEq, Repr

structure ObsLog where
  records : List Observation
  nextId : Nat
  guardMemory : List Nat
deriving DecidableEq, Repr

/-! ## Ports (spec/10) -/

/-- The counters of spec/10 R193; a port leaves at 0 the ones it does not keep. -/
structure PortCounters where
  valid : Nat
  lengthErrors : Nat
  crcErrors : Nat
  broken : Nat
  partials : Nat
  stray : Nat
  wrongLink : Nat
  busy : Nat
  dropped : Nat
  losses : Nat
  resends : Nat
deriving DecidableEq, Repr

/-- A message in the tether transmit queue (spec/10 R179). -/
inductive TxMessage where
  | reply (f : Frame)
  | refusal (f : Frame)
  | attention
deriving DecidableEq, Repr

/-- The message on the tether line: its wire bytes, the instant it began, and whether it is a STAMP message. -/
structure LineMessage where
  wire : List Byte
  begun : Nat
  isStamp : Bool
deriving DecidableEq, Repr

structure TetherPort where
  framer : Framer
  /-- link state: true is UP -/
  up : Bool
  alive : Option Nat
  requests : List Frame
  transmit : List TxMessage
  line : Option LineMessage
  baud : BitVec 2
  counters : PortCounters
deriving DecidableEq, Repr

/-- An SPI transaction (spec/10 R185, R187): none, open and clocking a reply or 0x00, or open and ignored to its end. -/
inductive Transaction where
  | absent
  | active (sending : Bool)
  | ignored
deriving DecidableEq, Repr

/-- The pending reply and the count of its bytes clocked. -/
structure PendingReply where
  frame : Frame
  clocked : Nat
deriving DecidableEq, Repr

structure CarriagePort where
  framer : Framer
  transaction : Transaction
  requests : List Frame
  slot : Option PendingReply
  refusals : List Frame
  heldInReset : Bool
  counters : PortCounters
deriving DecidableEq, Repr

end Sys2Proof.Machine
end

