-- ==== Sys2Proof/Machine/PowerOn.lean ====
section
/-! DEFINITION. The power-on column of each block's lifecycle table. The pin levels that power-on reads are arguments. -/

namespace Sys2Proof.Machine

/-- spec/01 R13. -/
def ReelInput.powerOn : ReelInput := ⟨.acquire, 0, 0, false, none, ⟨0, 0, 0, 0, 0, 0, 0⟩⟩

/-- spec/01 R20: the line state is the levels on the lines. -/
def WheelCounter.powerOn (p : Pins) : WheelCounter :=
  ⟨⟨0, p.leftA, p.leftB, 1, 0, false⟩, ⟨0, p.rightA, p.rightB, 1, 0, false⟩, []⟩

/-- spec/01 R24. -/
def DriveState.powerOn : DriveState := ⟨false, .stopped, 0, none, none⟩

/-- The Reckoner's settings in effect as copied from the store (spec/02 R26). S_max is SLACK_MAX times 1,000. -/
def ReckonSettings.ofStore (s : Settings) : ReckonSettings :=
  ⟨s.num .reelScale, s.num .reelSense, s.num .wheelScale, s.num .tolFixed, s.num .tolRatio, s.num .disFixed,
    s.num .disRatio, s.nat .corrShift, s.num .corrMax, s.num .slackMax * 1000⟩

/-- spec/02 R50. The last-step record's class, selection and flag are the model's choice (log 18). -/
def Reckoner.powerOn : Reckoner :=
  ⟨⟨0, 0, ⟨0, 0⟩, 0, .track, .mean⟩, 0, 0, none, false, none, 0, 0, ReckonSettings.ofStore Settings.defaults,
    ⟨.noStep, .track, .mean, false⟩⟩

/-- The start-up set of spec/03 R55, with STROBE as it stands at power-on (its default, ON). -/
def FrameSet.startUpSet : FrameSet := ⟨8000, 16, 0, true, false, false, 4000000, false, false, true⟩

/-- The default weights (spec/04 section 4.1; log 17). -/
def Banks.defaultWeights : Banks := ⟨100, 50, 0⟩

/-- The start-up set in the pipeline: applied at once, without a write (spec/03 R55). -/
def PipeSlot.startUp : PipeSlot := ⟨.startUpSet, .defaultWeights, true⟩

/-- spec/03 R75. -/
def FrameTimer.powerOn (p : Pins) : FrameTimer :=
  ⟨p.frameRate, 0, 0, none, .startUp, [], false, none, .unasked⟩

/-- The frame period Tf in microseconds (spec/03 section 3.1). -/
def FrameTimer.period (f : FrameTimer) : Nat := if f.rate30 then 33333 else 40000

/-- The start-up write is in flight: the frame period with the exposure and gain of the start-up set
(spec/03 R51, R75). -/
def SensorPort.powerOn (p : Pins) : SensorPort :=
  ⟨some ⟨some (FrameTimer.powerOn p).period, FrameSet.startUpSet.exposure, FrameSet.startUpSet.gain⟩, []⟩

/-- spec/03 R75: counts empty, M and clip invalid. The window is set at each boundary; before the first there is no
readout (log 24). -/
def ImageStats.powerOn : ImageStats := ⟨⟨180, 540, 144, 432⟩, 0, 0, 0, none⟩

/-- spec/04 R98: frame 0's start-up set in drive, banks dark. -/
def LampDriver.powerOn : LampDriver :=
  ⟨⟨0, 0, .defaultWeights, true, 8000, ⟨0, 0, 0⟩⟩, .closed, none, false, 0⟩

/-- spec/04 R98. -/
def ThermalMonitor.powerOn : ThermalMonitor := ⟨.normal, none, 0, 0, none, 0, none, ⟨0, 0, 0, 0, 0⟩, 1000, []⟩

/-- spec/05 R117; the speed limit is the axis maximum. -/
def AxisRecord.powerOn (maxSpeed : Nat) : AxisRecord :=
  ⟨.unhomed, none, none, 0, maxSpeed, 0, 0, 0, true, none, 0, .clear, false, .noCause, 0⟩

/-- spec/05 R117. -/
def HeadPositioner.powerOn (p : Pins) : HeadPositioner :=
  ⟨.powerOn 600, .powerOn 450, p.tiltIndex, false, none, .reached, false, 0, none, none, []⟩

/-- spec/06 R134. -/
def StampUnit.powerOn : StampUnit := ⟨[], 0, 0, 0, 0, none, none⟩

/-- spec/07 R146. -/
def Overlay.powerOn : Overlay := ⟨[], none, none⟩

/-- spec/08 R167. -/
def ObsLog.powerOn : ObsLog := ⟨[], 1, []⟩

/-- spec/09 R175. -/
def Conditions.powerOn : Conditions := ⟨Vector.replicate 16 0, Vector.replicate 16 0⟩

/-- spec/10 R194. -/
def PortCounters.zero : PortCounters := ⟨0, 0, 0, 0, 0, 0, 0, 0, 0, 0, 0⟩

/-- spec/10 R194. -/
def TetherPort.powerOn (p : Pins) : TetherPort := ⟨.hunt, false, none, [], [], none, p.baud, .zero⟩

/-- spec/10 R194: held in reset as PORT-RESET stands. -/
def CarriagePort.powerOn (p : Pins) : CarriagePort := ⟨.hunt, .absent, [], none, [], p.portReset, .zero⟩

/-- The pin levels of State.reset: every pin low, PORT-RESET released (log 5). -/
def Pins.low : Pins := ⟨0, false, false, false, false, false, false, false⟩

end Sys2Proof.Machine
end

