-- ==== Sys2Proof/Machine/State.lean ====
section
/-! DEFINITION. The whole state of the part, its state after reset, and the (empty) ways in which a step could stop. -/

namespace Sys2Proof.Machine

/-- The part: the commands that wait, the time base, and every block (spec/00 section 0.4). -/
structure State where
  /-- the commands that wait, first in first out -/
  pending : List Instr
  /-- the internal time base, microseconds from power-on (spec/01 R1) -/
  timeBase : Nat
  rin : ReelInput
  wct : WheelCounter
  drv : DriveState
  chr : Reckoner
  fxc : FrameTimer
  ssp : SensorPort
  ist : ImageStats
  ldr : LampDriver
  ltm : ThermalMonitor
  hdp : HeadPositioner
  stu : StampUnit
  ovg : Overlay
  obl : ObsLog
  cnd : Conditions
  tlp : TetherPort
  cgp : CarriagePort
  set : Settings
deriving DecidableEq, Repr

/-- The spec describes no event that stops the part: every error it names is an effect on state. No step of the model
answers with a fault; the one constructor below is raised by no one (safe), and stands so that the type is not empty. -/
inductive Fault where
  /-- raised by no step of the part; safe -/
  | neverRaised
deriving DecidableEq, Repr

/-- The reasons a command could be refused. -/
inductive Refusal where
  /-- the command's row has no meaning yet; raised by a refused arm of exec alone, and no arm is refused (safe) -/
  | notModelled (mnemonic : String)
deriving DecidableEq, Repr

/-- The part right after power-on with the given pin levels (spec/11 R198), with nothing waiting. -/
def State.powerOn (p : Pins) : State where
  pending := []
  timeBase := 0
  rin := .powerOn
  wct := .powerOn p
  drv := .powerOn
  chr := .powerOn
  fxc := .powerOn p
  ssp := .powerOn p
  ist := .powerOn
  ldr := .powerOn
  ltm := .powerOn
  hdp := .powerOn p
  stu := .powerOn
  ovg := .powerOn
  obl := .powerOn
  cnd := .powerOn
  tlp := .powerOn p
  cgp := .powerOn p
  set := .defaults

/-- The machine right after reset: the power-on state, every pin low (log 5). -/
def State.reset : State := State.powerOn Pins.low

end Sys2Proof.Machine
end

