-- ==== Sys2Proof/Machine/Ops.lean ====
section
/-! DEFINITION. The shared operations: rounding and saturation, encoded fields, the time base, timers and the pieces of
blocks that several commands use. -/

namespace Sys2Proof.Machine

/-! ## Arithmetic (spec/00 section 0.7) -/

/-- Truncated toward zero. -/
def truncDiv (a b : Int) : Int := a.tdiv b

/-- Rounded to the nearest, halves away from zero. -/
def roundDiv (a : Int) (b : Nat) : Int :=
  let m : Int := ((2 * a.natAbs + b) / (2 * b) : Nat)
  if a < 0 then -m else m

/-- The next integer toward plus infinity. -/
def ceilDiv (a b : Nat) : Nat := (a + b - 1) / b

/-- Brought to the nearest end of a range. -/
def clampInt (lo hi v : Int) : Int := max lo (min hi v)

/-- A natural number brought into a range. -/
def clampNat (lo hi v : Nat) : Nat := max lo (min hi v)

/-- The signed 32-bit difference of two wrapping counts (spec/00 section 0.7). -/
def diff32 (a b : Count) : Int := (a - b).toInt

/-- Add to a 16-bit saturating counter. -/
def sat16 (n k : Nat) : Nat := min 65535 (n + k)

/-- Add one to an 8-bit saturating counter. -/
def sat8 (n : Nat) : Nat := min 255 (n + 1)

/-- The largest number below 2^bits whose square is at most `n`, from its highest bit down, above `r`. -/
def isqrtFrom (n : Nat) : Nat → Nat → Nat
  | 0, r => r
  | bits + 1, r => isqrtFrom n bits (if (r + 2 ^ bits) * (r + 2 ^ bits) ≤ n then r + 2 ^ bits else r)

/-- The largest whole number whose square is at most `n`, for `n` below 2^64. -/
def isqrt (n : Nat) : Nat := isqrtFrom n 32 0

/-- Keep the newest `n` entries of a list that is oldest first. -/
def keepNewest {α : Type} (n : Nat) (l : List α) : List α := l.drop (l.length - n)

/-! ## Encoded fields, high byte first (spec/12 R202) -/

def u8 (n : Nat) : List Byte := [BitVec.ofNat 8 n]
def u16 (n : Nat) : List Byte := [BitVec.ofNat 8 (n / 256), BitVec.ofNat 8 n]
def u32 (n : Nat) : List Byte := u16 (n / 65536) ++ u16 (n % 65536)
def s16 (v : Int) : List Byte := u16 (v % 65536).toNat
def s32 (v : Int) : List Byte := u32 (v % 4294967296).toNat

/-- An optional s16 with the sentinel 0x8000. -/
def s16opt : Option Int → List Byte
  | some v => s16 v
  | none => [0x80, 0]

/-- An optional s32 with the sentinel 0x80000000. -/
def s32opt : Option Int → List Byte
  | some v => s32 v
  | none => [0x80, 0, 0, 0]

/-- A flag byte from its bits, bit 0 first. -/
def flags (bits : List Bool) : List Byte :=
  u8 (bits.foldr (fun b n => 2 * n + (if b then 1 else 0)) 0)

/-- A text: its count and its codes (spec/12 R202). -/
def textField (t : List Byte) : List Byte := u8 t.length ++ t

/-! ## The time base (spec/01 R1, spec/03 R54) -/

/-- `dt` microseconds of the internal time base pass (log 1, log 8). -/
def State.elapse (s : State) (dt : Nat) : State := { s with timeBase := (s.timeBase + dt) % 2 ^ 64 }

/-- A timer of `ms` milliseconds started now. -/
def State.startTimer (s : State) (ms : Nat) : Option Nat := some (s.timeBase + ms * 1000)

/-- A timer's expiry has come (log 3). -/
def State.due (s : State) : Option Nat → Bool
  | some t => decide (t ≤ s.timeBase)
  | none => false

/-- The survey time of an instant (spec/03 R54). -/
def State.surveyTime (s : State) (t : Nat) : Nat :=
  if t < s.fxc.origin then 0 else (t - s.fxc.origin) / 1000 % 2 ^ 32

/-- Frames a second. -/
def FrameTimer.rate (f : FrameTimer) : Nat := if f.rate30 then 30 else 25

/-- Lines of a frame. -/
def FrameTimer.lines (f : FrameTimer) : Nat := if f.rate30 then 480 else 576

/-! ## Wheel counts (spec/01) -/

/-- The live counts. -/
def WheelCounter.live (w : WheelCounter) : WheelCounts := ⟨w.left.count, w.right.count⟩

/-- The aligned wheel sample for an instant (spec/01 R19). -/
def WheelCounter.sampleAt (w : WheelCounter) (t : Nat) : WheelCounts :=
  match (w.history.filter fun e => decide (e.time ≤ t)).getLast? with
  | some e => e.counts
  | none =>
    match w.history.head? with
    | some e => e.counts
    | none => w.live

/-! ## The drive state's effective values (spec/01 R22) -/

/-- The effective direction; none is UNKNOWN. -/
def DriveState.effDirection (d : DriveState) : Option Direction := if d.fresh then some d.direction else none

/-- The effective demand: that held, or MOTOR_RESERVE while STALE. -/
def State.effDemand (s : State) : Nat := if s.drv.fresh then s.drv.demand else s.set.nat .motorReserve

/-- The effective inclination. -/
def DriveState.effInclination (d : DriveState) : Option Int := if d.fresh then d.inclination else none

/-! ## Lamp budget (spec/04 section 4.5) -/

/-- Pavail (spec/04 R92). -/
def State.pavail (s : State) : Nat :=
  (max (s.set.num .lampReserve) (s.set.num .budget - s.set.num .base - s.effDemand)).toNat

/-- The motor allowance (spec/04 R93). -/
def State.motorAllowance (s : State) : Nat :=
  (max 0 (s.set.num .budget - s.set.num .base - s.set.num .lampReserve)).toNat

/-- Pfull_eff from the stored profile (spec/04 R76). -/
def State.profilePower (s : State) : Nat :=
  (s.set.nat .ringFull * s.set.nat .ringWeight + s.set.nat .spotFull * s.set.nat .spotWeight
    + s.set.nat .bodyFull * s.set.nat .bodyWeight) / 100

/-- The three stored weights. -/
def State.storedWeights (s : State) : Banks := ⟨s.set.nat .ringWeight, s.set.nat .spotWeight, s.set.nat .bodyWeight⟩

/-- The lamp sources (spec/04 section 4.3). -/
inductive LampSource where
  | auto
  | manual
  | off
deriving DecidableEq, Repr

/-- A lamp source from its code (spec/11 section 11.1). -/
def LampSource.ofCode (v : Int) : LampSource := if v = 0 then .auto else if v = 1 then .manual else .off

/-- A lamp source's code. -/
def LampSource.code : LampSource → Nat
  | .auto => 0
  | .manual => 1
  | .off => 2

/-- The source in force (spec/04 R95, R96). -/
def State.sourceInForce (s : State) : LampSource :=
  match s.ldr.override with
  | some _ => .manual
  | none => .ofCode (s.set.num .lampSource)

/-- The manual level in force (spec/04 R95, R96). -/
def State.manualInForce (s : State) : Nat :=
  match s.ldr.override with
  | some v => v
  | none => s.set.nat .lampManual

/-! ## Head geometry (spec/05 section 5.1) -/

/-- Maximum speed in (0.1 degree)/s. -/
def maxSpeed : Axis → Nat
  | .pan => 600
  | .tilt => 450

/-- Deceleration in (0.1 degree)/s². -/
def deceleration : Axis → Nat
  | .pan => 6000
  | .tilt => 4500

/-- Homing speed. -/
def homingSpeed : Axis → Nat
  | .pan => 150
  | .tilt => 112

/-- Homing limit in steps (spec/05 R104, R105). -/
def homingLimitSteps : Axis → Nat
  | .pan => 4000
  | .tilt => 2800

/-- The record of an axis. -/
def HeadPositioner.axis (h : HeadPositioner) : Axis → AxisRecord
  | .pan => h.pan
  | .tilt => h.tilt

/-- Replace the record of an axis. -/
def HeadPositioner.putAxis (h : HeadPositioner) (ax : Axis) (a : AxisRecord) : HeadPositioner :=
  match ax with
  | .pan => { h with pan := a }
  | .tilt => { h with tilt := a }

/-- An axis at rest is UNHOMED or IDLE (spec/05 R100). -/
def AxisRecord.atRest (a : AxisRecord) : Bool := a.state == .unhomed || a.state == .idle

/-- The head is at rest when both axes are (spec/05 R100). -/
def HeadPositioner.atRest (h : HeadPositioner) : Bool := h.pan.atRest && h.tilt.atRest

/-- The position at an instant (spec/05 R115). -/
def HeadPositioner.anglesAt (h : HeadPositioner) (t : Nat) : Option Int × Option Int :=
  match (h.history.filter fun e => decide (e.time ≤ t)).getLast? with
  | some e => (e.pan, e.tilt)
  | none =>
    match h.history.head? with
    | some e => (e.pan, e.tilt)
    | none => (h.pan.pos, h.tilt.pos)

/-- FXC reads the head as in motion (spec/03 R65, spec/05 R116). -/
def HeadPositioner.inMotion (h : HeadPositioner) : Bool := !h.atRest || h.demand

end Sys2Proof.Machine
end

