-- ==== Sys2Proof/Machine/Exposure.lean ====
section
/-! DEFINITION. The exposure computation (spec/03 section 3.4): stages 1 to 4 as functions of what the computation
reads. -/

namespace Sys2Proof.Machine

/-- The exposure programs (spec/03 section 3.4). -/
inductive Program where
  | auto
  | shutter
  | manual
deriving DecidableEq, Repr

/-- A program from its code (spec/11 section 11.1). -/
def Program.ofCode (v : Int) : Program := if v = 1 then .shutter else if v = 2 then .manual else .auto

/-- What one computation reads (spec/03 section 3.4). -/
structure ExposureInputs where
  /-- Tf -/
  tf : Nat
  program : Program
  target : Nat
  deadband : Nat
  clipLimit : Nat
  blurAllow : Nat
  headCap : Nat
  gainMax : Nat
  eFixed : Nat
  gFixed : Nat
  /-- v_s -/
  speed : Int
  /-- the head is in motion (R65) -/
  motion : Bool
  /-- I_thermal -/
  ceiling : Nat
  pavail : Nat
  pfull : Nat
  source : LampSource
  /-- the manual level in force -/
  manual : Nat
  strobe : Bool
  /-- the pending still's clean option, when this frame is the still -/
  still : Option Bool
  /-- the applied set of the measured frame -/
  measured : FrameSet
  measure : Option Measure
deriving DecidableEq, Repr

/-- The longest exposure, Tf - 6,000 (spec/03 R53). -/
def ExposureInputs.longest (x : ExposureInputs) : Nat := x.tf - 6000

/-- The product P of a set: floor(E x I x G / 16) (spec/03 R62). -/
def FrameSet.product (f : FrameSet) : Nat := f.exposure * f.level * f.gain / 16

/-- Stage 1: Mt_eff (spec/03 R62). -/
def effectiveTarget (target clipLimit clip : Nat) : Nat := if clipLimit < clip then target * 3 / 4 else target

/-- Stage 2: P' from a measurement that is used (spec/03 R63). -/
def nextProduct (p mean mt deadband : Nat) : Nat :=
  let moved := if ((mean : Int) - mt).natAbs ≤ deadband then p else clampNat (p / 2) (2 * p) (p * mt / max mean 8)
  max 20 moved

/-- Stages 1 and 2: the target product P' (spec/03 R62, R63). -/
def ExposureInputs.targetProduct (x : ExposureInputs) : Nat :=
  match x.measure with
  | none => x.measured.target
  | some m =>
    if x.measured.still || x.measured.startUp then x.measured.target
    else nextProduct x.measured.product m.mean (effectiveTarget x.target x.clipLimit m.clip) x.deadband

/-- HEAD_MOTION_CAP as limited (spec/03 section 3.4, footnote). -/
def ExposureInputs.headLimit (x : ExposureInputs) : Nat := min x.headCap x.longest

/-- The blur cap E_blur, absent at zero speed or with no allowance (spec/03 R64). -/
def ExposureInputs.blurCap (x : ExposureInputs) : Option Nat :=
  if x.speed ≠ 0 ∧ 0 < x.blurAllow then some (x.blurAllow * 1000 / x.speed.natAbs) else none

/-- A minimum with a term that may be absent. -/
def capBy (n : Nat) : Option Nat → Nat
  | some m => min n m
  | none => n

/-- Stage 3: E_cap (spec/03 R64). -/
def ExposureInputs.exposureCap (x : ExposureInputs) : Nat :=
  max 20 (capBy (capBy x.longest x.blurCap) (if x.motion then some x.headLimit else none))

/-- The fixed exposure of the SHUTTER and MANUAL programs (spec/03 R64). -/
def ExposureInputs.fixedExposure (x : ExposureInputs) : Nat :=
  capBy (clampNat 20 x.longest x.eFixed) (if x.motion then some x.headLimit else none)

/-- The lamp-source ceiling; a still's is 1000 unless the source is OFF (spec/03 R66). -/
def ExposureInputs.sourceCeiling (x : ExposureInputs) : Nat :=
  match x.source, x.still with
  | .off, _ => 0
  | _, some _ => 1000
  | .auto, none => 1000
  | .manual, none => x.manual

/-- I_top (spec/03 R66). -/
def ExposureInputs.levelTop (x : ExposureInputs) : Nat := min x.ceiling x.sourceCeiling

/-- The power limit on I for an exposure E (spec/03 R66). -/
def ExposureInputs.powerLimit (x : ExposureInputs) (e : Nat) : Nat :=
  if x.pfull = 0 then 0
  else if x.strobe then x.pavail * x.tf * 1000 / x.pfull / e
  else x.pavail * 1000 / x.pfull

/-- The loop chooses the lamp level: source AUTO and no still (spec/03 R67, R68). -/
def ExposureInputs.loopLevel (x : ExposureInputs) : Bool := x.source == .auto && x.still.isNone

/-- The exposure of the frame (spec/03 R67 steps 1 and 2, R68). -/
def ExposureInputs.exposure (x : ExposureInputs) (p : Nat) : Nat :=
  match x.program with
  | .auto => if x.levelTop = 0 then x.exposureCap else min x.exposureCap (max 20 (ceilDiv p x.levelTop))
  | .shutter => x.fixedExposure
  | .manual => x.fixedExposure

/-- The lamp level of the frame (spec/03 R67 step 3, R68). -/
def ExposureInputs.level (x : ExposureInputs) (p e : Nat) : Nat :=
  let top := min x.levelTop (x.powerLimit e)
  if x.loopLevel then min top (p / e) else top

/-- The gain that step 4 of R67 gives. -/
def solvedGain (gainMax p e i : Nat) : Nat :=
  if p ≤ e * i then 16 else if i = 0 then gainMax else min gainMax (ceilDiv (16 * p) (e * i))

/-- The gain of the frame (spec/03 R67 step 4, R68). -/
def ExposureInputs.gain (x : ExposureInputs) (p e i : Nat) : Nat :=
  match x.program with
  | .manual => x.gFixed
  | .auto => solvedGain x.gainMax p e i
  | .shutter => solvedGain x.gainMax p e i

/-- The set of one computation (spec/03 R62 to R69). -/
def ExposureInputs.solve (x : ExposureInputs) : FrameSet :=
  let p := x.targetProduct
  let e := x.exposure p
  let i := x.level p e
  let g := x.gain p e i
  { exposure := e, gain := g, level := i, strobe := x.strobe
    still := x.still.isSome, clean := x.still == some true
    target := p, lightLimited := decide (e * i * g < 16 * p), late := false, startUp := false }

/-- The copy of the previous frame's applied set that a late frame takes (spec/03 R58). -/
def FrameSet.lateCopy (f : FrameSet) : FrameSet := { f with late := true, still := false, clean := false }

end Sys2Proof.Machine
end

