-- ==== Sys2Proof/Machine/Flags.lean ====
section
/-! DEFINITION. The Condition Latches (spec/09): latch numbers, counts, masks, attention, and the one operation that
raises a condition. -/

namespace Sys2Proof.Machine

/-- The latch number of a condition (spec/09 section 9.1). -/
def Condition.latch : Condition → Fin 16
  | .reelLost => 0
  | .reelRebased => 1
  | .wheelSlip => 2
  | .slackLimit => 3
  | .wheelFault => 4
  | .datumTaken => 5
  | .lampDerated => 6
  | .lampShutdown => 7
  | .thermalSensorFault => 8
  | .budgetOver => 9
  | .lightLimited => 10
  | .headDone => 11
  | .headLost => 12
  | .stillDone => 13
  | .stampsLost => 14
  | .logNearFull => 15

/-- The links in a condition's audience; HEAD_DONE, STILL_DONE and STAMPS_LOST go to the link the event names
(spec/09 section 9.1, R169). -/
def Condition.audience (c : Condition) (named : Link) : List Link :=
  match c with
  | .lampDerated => [.tether]
  | .thermalSensorFault => [.tether]
  | .lightLimited => [.tether]
  | .headDone => [named]
  | .stillDone => [named]
  | .stampsLost => [named]
  | _ => [.tether, .carriage]

/-- A link's pending counts. -/
def Conditions.counts (c : Conditions) : Link → Vector Nat 16
  | .tether => c.tether
  | .carriage => c.carriage

/-- Replace a link's pending counts. -/
def Conditions.putCounts (c : Conditions) (l : Link) (v : Vector Nat 16) : Conditions :=
  match l with
  | .tether => { c with tether := v }
  | .carriage => { c with carriage := v }

/-- Some count is nonzero and its latch is in the mask (spec/09 R171). -/
def attentionOf (counts : Vector Nat 16) (mask : BitVec 16) : Bool :=
  (List.finRange 16).any fun n => decide (0 < counts[n]) && mask.getLsbD n.val

/-- A link's attention (spec/09 R171); the ATTENTION line is the carriage's. -/
def State.attention (s : State) (l : Link) : Bool := attentionOf (s.cnd.counts l) (s.set.mask l)

/-- The ATTENTION line (spec/09 R171). -/
def State.attentionLine (s : State) : Bool := s.attention .carriage

/-- An ATTENTION message goes into the tether transmit queue, unless one waits there (spec/09 R172). -/
def State.placeAttention (s : State) : State :=
  if s.tlp.transmit.contains .attention then s
  else { s with tlp := { s.tlp with transmit := s.tlp.transmit ++ [.attention] } }

/-- The tether's attention was `was` before an event: a turn from off to on while the tether is UP places an ATTENTION
message (spec/09 R172). -/
def State.afterAttention (s : State) (was : Bool) : State :=
  if !was && s.attention .tether && s.tlp.up then s.placeAttention else s

/-- One link counts one raising (spec/09 R168). -/
def State.countFor (c : Condition) (s : State) (l : Link) : State :=
  let v := s.cnd.counts l
  State.afterAttention
    { s with cnd := s.cnd.putCounts l (v.set c.latch (sat8 v[c.latch])) } (s.attention .tether)

/-- A condition is raised for a link it names (spec/09 R168, R169). -/
def State.raiseFor (s : State) (c : Condition) (named : Link) : State := (c.audience named).foldl (State.countFor c) s

/-- A condition whose audience is fixed is raised (spec/09 R168). -/
def State.raise (s : State) (c : Condition) : State := s.raiseFor c .tether

/-- Conditions raised in order. -/
def State.raiseAll (s : State) (cs : List Condition) : State := cs.foldl State.raise s

end Sys2Proof.Machine
end

