-- ==== Sys2Proof/Machine/Lamps.lean ====
section
/-! DEFINITION. The Lamp Driver's banks, strobe window and outputs (spec/04 sections 4.1 and 4.2). -/

namespace Sys2Proof.Machine

/-- The level of each bank for a lamp level and a profile (spec/04 R77). -/
def bankLevels (level : Nat) (w : Banks) : Banks := ⟨level * w.ring / 100, level * w.spot / 100, level * w.body / 100⟩

/-- The drive record takes a frame's applied set and profile (spec/04 R78). -/
def LampDriver.drive (l : LampDriver) (frame : Count) (f : FrameSet) (w : Banks) : LampDriver :=
  { l with record := ⟨frame, f.level, w, f.strobe, f.exposure, bankLevels f.level w⟩ }

/-- LAMP-EN: asserted while any bank level of the record is above 0 (spec/04 R81). -/
def LampDriver.enable (l : LampDriver) : Bool :=
  decide (0 < l.record.banks.ring) || decide (0 < l.record.banks.spot) || decide (0 < l.record.banks.body)

/-- The three PWM outputs: the bank levels while the banks are lit, low while they are dark or LAMP-EN is released
(spec/04 R79 to R81). -/
def LampDriver.outputs (l : LampDriver) : Banks :=
  if !l.enable then ⟨0, 0, 0⟩
  else if !l.record.strobe then l.record.banks
  else match l.window with
    | .lit _ b => b
    | .closed => ⟨0, 0, 0⟩
    | .timed _ => ⟨0, 0, 0⟩

/-- The strobe window opens Tf - E after the boundary that times it (spec/04 R79). -/
def State.windowOpens (s : State) : State :=
  let r := s.ldr.record
  match s.ldr.window with
  | .timed b =>
    if r.strobe && decide (b + (s.fxc.period - r.exposure) ≤ s.timeBase) then
      { s with ldr := { s.ldr with window := .lit (s.timeBase + r.exposure) r.banks } }
    else s
  | .closed => s
  | .lit _ _ => s

/-- STROBE_WINDOW_OPEN (spec/04 R79). -/
def execStrobeWindowOpen (dt : Nat) (s : State) : Host.Outcome State Fault Refusal := .next (s.elapse dt).windowOpens

/-- The strobe window closes after E when no boundary has closed it (spec/04 R79). -/
def State.windowCloses (s : State) : State :=
  match s.ldr.window with
  | .lit t _ => if t ≤ s.timeBase then { s with ldr := { s.ldr with window := .closed } } else s
  | .closed => s
  | .timed _ => s

/-- STROBE_WINDOW_CLOSE (spec/04 R79). -/
def execStrobeWindowClose (dt : Nat) (s : State) : Host.Outcome State Fault Refusal := .next (s.elapse dt).windowCloses

end Sys2Proof.Machine
end

