-- ==== Sys2Proof/Config.lean ====
section
/-! DEFINITION. What the spec leaves open and the machine still uses: the shapes of the overlay's glyphs, the layout
of a write to the image sensor, and the ends of a poll that times out on the I2C bus. -/

namespace Sys2Proof

/-- Whether the glyph of character code `code` covers the pixel at column `x` (0 to 11) and line `y` (0 to 19) of its
cell. The spec gives the cell's size and the two luminances (spec/07, R138, R139) and no shape: a FREE VALUE
(log 10). -/
opaque Config.glyph (code : Byte) (x y : Nat) : Bool

/-- The byte at a place of a write to the image sensor: one of the 6 that carry the exposure and the gain of a frame, or
one of the 8 of the start-up write, which carries the frame period as well. The spec gives the counts and what the bytes
carry (spec/03, R51, R57) and no layout: a FREE VALUE (log 51). -/
opaque Config.sensorByte (period : Option Nat) (exposure gain place : Nat) : Byte

/-- How many signals a poll transaction that began at an instant had sent behind its first address when SCL was held low
for good. The spec ends it there whatever its phase (spec/04, R86), and no command tells the phase: a FREE VALUE
(log 53). -/
opaque Config.timeoutPlace (begun : Nat) : Nat

/-- Whether a stop condition is sent when SDA is still low after the ninth clock. The spec has every failure end with a
stop condition and a release (spec/04, R85), and this one end the transaction at once, before its start condition
(R86): a FREE VALUE (log 54). -/
opaque Config.stopAfterNinthClock : Bool

end Sys2Proof
end

