-- ==== Sys2Proof/Machine/Operands.lean ====
section
/-! DEFINITION. The operands of requests: the fields of a payload (spec/12 sections 12.1 and 12.4). -/

namespace Sys2Proof.Machine

/-- The byte at a place of a payload; the length test of spec/10 R190 comes before any field is read. -/
def byteAt (p : List Byte) (i : Nat) : Nat := (p.getD i 0).toNat

/-- A u16 field, high byte first. -/
def u16At (p : List Byte) (i : Nat) : Nat := byteAt p i * 256 + byteAt p (i + 1)

/-- A u32 field. -/
def u32At (p : List Byte) (i : Nat) : Nat := u16At p i * 65536 + u16At p (i + 2)

/-- An s16 field, two's complement. -/
def s16At (p : List Byte) (i : Nat) : Int := let n := u16At p i; if n < 32768 then n else (n : Int) - 65536

/-- An s32 field, two's complement. -/
def s32At (p : List Byte) (i : Nat) : Int := let n := u32At p i; if n < 2147483648 then n else (n : Int) - 4294967296

/-- An optional s16 field: 0x8000 is absent (spec/12 R202). -/
def s16optAt (p : List Byte) (i : Nat) : Option Int := if u16At p i = 32768 then none else some (s16At p i)

/-- A set of latch numbers, bit n for latch n (spec/12 R202). -/
def setAt (p : List Byte) (i : Nat) : BitVec 16 := BitVec.ofNat 16 (u16At p i)

/-- A text: a count and that many codes. -/
def textAt (p : List Byte) (i : Nat) : List Byte := (p.drop (i + 1)).take (byteAt p i)

/-- The value of a SET SETTING (spec/12 section 12.4). -/
inductive SettingValue where
  | num (v : Int)
  | text (t : List Byte)
  | set (m : BitVec 16)
deriving DecidableEq, Repr

/-- The value of a SET SETTING payload: kind byte 0 number, 1 text, 2 set. -/
def settingValueAt (p : List Byte) : Option SettingValue :=
  match byteAt p 2 with
  | 0 => some (.num (s32At p 3))
  | 1 => some (.text (textAt p 3))
  | 2 => some (.set (setAt p 3))
  | _ => none

/-- The payload length of a SET SETTING is the one its own bytes imply: 7 for a number, 5 for a set, 4 plus the text
count for a text; a value-kind byte other than 0, 1, 2 fails the test (spec/12 R203). -/
def setSettingLength (p : List Byte) : Bool :=
  decide (4 ≤ p.length) &&
    match byteAt p 2 with
    | 0 => p.length == 7
    | 1 => p.length == 4 + byteAt p 3
    | 2 => p.length == 5
    | _ => false

/-- The payload length of an ANNOTATE is 3 plus its text count (spec/12 R203). -/
def annotateLength (p : List Byte) : Bool := decide (3 ≤ p.length) && p.length == 3 + byteAt p 2

/-- A well-formed reel report (spec/01 section 1.1, spec/12 section 12.4). -/
structure ReelReport where
  seq : BitVec 6
  zeroed : Bool
  noCount : Bool
  count : Count
deriving DecidableEq, Repr

/-- A reel report's payload, or none when it is malformed: wrong length, or a sequence number above 63 (spec/01 R1). -/
def reelReportOf (p : List Byte) : Option ReelReport :=
  if p.length = 6 ∧ byteAt p 0 ≤ 63 then
    some ⟨BitVec.ofNat 6 (byteAt p 0), (p.getD 1 0).getLsbD 0, (p.getD 1 0).getLsbD 1, BitVec.ofNat 32 (u32At p 2)⟩
  else none

/-- A drive report's fields (spec/12 section 12.4); the direction code is one of three. -/
structure DriveReport where
  direction : Direction
  demand : Nat
  inclination : Option Int
deriving DecidableEq, Repr

/-- A direction from its code (spec/12 section 12.3). -/
def directionOf : Nat → Option Direction
  | 0 => some .stopped
  | 1 => some .forward
  | 2 => some .reverse
  | _ => none

/-- A drive report's payload; none when the direction code is not one of the three (spec/01 R21). -/
def driveReportOf (p : List Byte) : Option DriveReport :=
  (directionOf (byteAt p 0)).map fun d => ⟨d, u16At p 1, s16optAt p 3⟩

/-! ## Answers (spec/12 sections 12.2 and 12.3) -/

/-- The code of a status (spec/12 section 12.3). -/
def Status.code : Status → Nat
  | .done => 0
  | .clamped => 1
  | .merged => 2
  | .busy => 3
  | .notPermitted => 4
  | .notReady => 5
  | .locked => 6
  | .full => 7
  | .noSuch => 8
  | .badForm => 9
  | .wrongState => 10

/-- DONE, CLAMPED and MERGED: the statuses whose replies carry content (spec/12 R203). -/
def Status.carries : Status → Bool
  | .done => true
  | .clamped => true
  | .merged => true
  | _ => false

/-- What the owning block makes of a request: the state after it, the reply's status and its content. -/
structure Answer where
  state : State
  status : Status
  content : List Byte
deriving DecidableEq, Repr

/-- A reply with the status alone. -/
def Answer.bare (s : State) (st : Status) : Answer := ⟨s, st, []⟩

/-- DONE, or CLAMPED when a value was brought into its range. -/
def doneOr (clamped : Bool) : Status := if clamped then .clamped else .done

/-- The reply's payload: the status, then the content for the statuses that carry one (spec/12 R203). -/
def Answer.payload (a : Answer) : List Byte := u8 a.status.code ++ (if a.status.carries then a.content else [])

/-- The encodings, from the first on, that fit together in a number of bytes (spec/12 R204, section 12.7). -/
def takeFitting : Nat → List (List Byte) → List (List Byte)
  | _, [] => []
  | room, e :: rest => if e.length ≤ room then e :: takeFitting (room - e.length) rest else []

end Sys2Proof.Machine
end

