-- ==== Sys2Proof/Machine/Chainage.lean ====
section
/-! DEFINITION. What every reader of the chainage sees (spec/02 section 2.6) and the log's part in a datum
(spec/08 R164). -/

namespace Sys2Proof.Machine

/-- The fused and the provisional chainage stay within 1,000,000,000 micrometres (spec/02 R36, R42). -/
def saturate (v : Int) : Int := clampInt (-1000000000) 1000000000 v

/-- The wheel distance for two count differences under a selection; Kw is even, so the mean is exact
(spec/02 R28, R41). -/
def wheelDistance (sel : Selection) (kw dl dr : Int) : Int :=
  match sel with
  | .mean => (dl + dr) * kw / 2
  | .left => dl * kw
  | .right => dr * kw

/-- A selection that names a wheel in FAULT falls back to the healthy one, and so does MEAN with one in FAULT
(spec/02 R41). -/
def usableSelection (sel : Selection) (leftFault rightFault : Bool) : Selection :=
  match sel with
  | .mean => if leftFault then .right else if rightFault then .left else .mean
  | .left => if leftFault then .right else .left
  | .right => if rightFault then .left else .right

/-- The provisional chainage is held at F: both wheels in FAULT, or class SLIP or CABLE-ONLY with the Reel Input in SYNC
or CHECK (spec/02 R41). -/
def heldAtF (cls : StepClass) (leftFault rightFault acquire : Bool) : Bool :=
  (leftFault && rightFault) || (!acquire && (cls == .slip || cls == .cableOnly))

/-- The provisional chainage at the instant of the given wheel counts (spec/02 R41, R42). -/
def Reckoner.carry (c : Reckoner) (w : WheelCounter) (acquire : Bool) (n : WheelCounts) : Int :=
  let a := c.anchor
  saturate <|
    if heldAtF a.cls w.left.fault w.right.fault acquire then a.f
    else a.f + wheelDistance (usableSelection a.sel w.left.fault w.right.fault) c.eff.wheelScale
      (diff32 n.left a.wheels.left) (diff32 n.right a.wheels.right)

/-- The Reel Input is in ACQUIRE. -/
def State.inAcquire (s : State) : Bool := s.rin.machine == .acquire

/-- The provisional chainage for the instant of the given counts. -/
def State.provisionalAt (s : State) (n : WheelCounts) : Int := s.chr.carry s.wct s.inAcquire n

/-- The provisional chainage at the live counts. -/
def State.provisionalNow (s : State) : Int := s.provisionalAt s.wct.live

/-- A chainage with the lens offset, in micrometres. -/
def State.withLens (s : State) (um : Int) : Int := um + s.set.num .lensOffset * 1000

/-- A chainage in interface form: the lens offset added, rounded to the millimetre (spec/02 R42). -/
def State.linkMm (s : State) (um : Int) : Int := roundDiv (s.withLens um) 1000

/-- The present chainage as the links and the log read it: absent until a datum is taken (spec/02 R42). -/
def State.chainageNow (s : State) : Option Int :=
  if s.chr.datumTaken then some (s.linkMm s.provisionalNow) else none

/-- The quality of a reported chainage (spec/02 R43). -/
def State.quality (s : State) : Quality :=
  if !s.chr.datumTaken then .noDatum
  else if s.inAcquire then .wheel
  else
    match s.chr.anchor.cls with
    | .track => .good
    | .takeup => .good
    | .retrieve => .good
    | .datum => .good
    | .payout => .slack
    | .slip => .slip
    | .cableOnly => .cable

/-- The slack at the links: S / 1000 truncated (spec/02 R34). -/
def State.slackMm (s : State) : Int := truncDiv s.chr.slack 1000

/-- The log's part in a datum: every OPEN record closes at the given chainage, closed by datum, and the guard memory is
emptied (spec/08 R164). -/
def ObsLog.closeByDatum (o : ObsLog) (mm : Int) : ObsLog :=
  { o with
    records := o.records.map fun r =>
      if r.state = .opened then { r with state := .closed, finish := some mm, closedByDatum := true } else r
    guardMemory := [] }

end Sys2Proof.Machine
end

