-- ==== Sys2Proof/Machine/Reckoner.lean ====
section
/-! DEFINITION. The Chainage Reckoner (spec/02): the six stages of a settled step, fill items, rebases, the ACQUIRE
hold-over and datums. -/

namespace Sys2Proof.Machine

/-- What the Reel Input hands the Reckoner for one report (spec/01 R3): a step batch with `fills` fill items and the
settled item, or a rebase batch; with the report's count and aligned time. -/
inductive Batch where
  | step (fills : Nat) (count : Count) (time : Nat)
  | rebase (count : Count) (time : Nat)
deriving DecidableEq, Repr

/-- Stage 2: the wheel delta, the selection and the disagreement flag (spec/02 R28). -/
structure WheelDelta where
  dw : Option Int
  sel : Selection
  disagree : Bool
deriving DecidableEq, Repr

/-- Stage 2 (spec/02 R28). -/
def wheelDelta (eff : ReckonSettings) (leftFault rightFault : Bool) (anchorSel : Selection) (dl dr : Int) : WheelDelta :=
  let dL := dl * eff.wheelScale
  let dR := dr * eff.wheelScale
  let limit := eff.disFixed + truncDiv (max (dL.natAbs : Int) dR.natAbs * eff.disRatio) 256
  match leftFault, rightFault with
  | true, true => ⟨none, anchorSel, false⟩
  | true, false => ⟨some dR, .right, false⟩
  | false, true => ⟨some dL, .left, false⟩
  | false, false =>
    if ((dL - dR).natAbs : Int) ≤ limit then ⟨some (wheelDistance .mean eff.wheelScale dl dr), .mean, false⟩
    else if dL.natAbs ≤ dR.natAbs then ⟨some dL, .left, true⟩
    else ⟨some dR, .right, true⟩

/-- Stage 4's answer: the increment, the new S, the class, and the conditions raised. -/
structure Verdict where
  inc : Int
  slack : Int
  cls : StepClass
  raised : List Condition
deriving DecidableEq, Repr

/-- FORWARD (spec/02 R30). -/
def verdictForward (dw dC tol slack smax : Int) : Verdict :=
  let x := dw - dC
  if (x.natAbs : Int) ≤ tol then ⟨dw, slack, .track, []⟩
  else if x < 0 then
    if smax < slack - x then ⟨dw, smax, .payout, [.slackLimit]⟩ else ⟨dw, slack - x, .payout, []⟩
  else
    let u := min slack x
    if x - u ≤ tol then ⟨dw, slack - u, .takeup, []⟩ else ⟨dC + u, slack - u, .slip, [.wheelSlip]⟩

/-- REVERSE with dC at or below 0 (spec/02 R31). -/
def verdictReverse (dC slack : Int) : Verdict :=
  let u := min slack (-dC)
  ⟨dC + u, slack - u, .retrieve, []⟩

/-- STOPPED, and REVERSE with dC above 0 (spec/02 R32). -/
def verdictStopped (dw dC tol slack smax : Int) : Verdict :=
  let trial := slack + dC - dw
  if smax < trial then ⟨dw, smax, .payout, [.slackLimit]⟩
  else if trial < 0 then ⟨dw + trial, 0, .retrieve, []⟩
  else ⟨dw, trial, if ((dC - dw).natAbs : Int) ≤ tol then .track else .payout, []⟩

/-- CABLE-ONLY (spec/02 R33). -/
def verdictCableOnly (dC slack : Int) : Verdict := ⟨dC, slack, .cableOnly, []⟩

/-- Stages 3 and 4: the rule by the direction and the wheels' health (spec/02 R29 to R33). -/
def verdict (dir : Option Direction) (dw : Option Int) (dC tol slack smax : Int) : Verdict :=
  match dw, dir with
  | none, _ => verdictCableOnly dC slack
  | some _, none => verdictCableOnly dC slack
  | some w, some .forward => verdictForward w dC tol slack smax
  | some w, some .stopped => verdictStopped w dC tol slack smax
  | some w, some .reverse => if dC ≤ 0 then verdictReverse dC slack else verdictStopped w dC tol slack smax

/-- Stage 5: the correction (spec/02 R35). V0 is set at every TRACK step; with V0 unset, which no run reaches at a
step, there is no residual to correct (log 21). -/
def correction (eff : ReckonSettings) (v0 : Option Int) (cable slack f inc : Int) (cls : StepClass) : Int :=
  match cls, v0 with
  | .track, some v => clampInt (-eff.corrMax) eff.corrMax (roundDiv (v + cable - slack - (f + inc)) (2 ^ eff.corrShift))
  | _, _ => 0

/-- The step speed (spec/02 R37). -/
def stepSpeed (fNew fOld : Int) (tNew tOld : Nat) : Int :=
  if tNew = tOld then 0 else truncDiv ((fNew - fOld) * 1000) ((tNew : Int) - tOld)

/-- The smoothed speed (spec/02 R37). -/
def smoothSpeed (vs v : Int) : Int := clampInt (-2000) 2000 (vs + truncDiv (v - vs) 4)

/-- Stage 1: the cable delta (spec/02 R27). -/
def Reckoner.cableDelta (c : Reckoner) (count : Count) : Int :=
  diff32 count c.anchor.count * c.eff.reelScale * c.eff.reelSense

/-- Stage 2 measured from the anchor to a wheel sample. -/
def Reckoner.wheelStage (c : Reckoner) (w : WheelCounter) (n : WheelCounts) : WheelDelta :=
  wheelDelta c.eff w.left.fault w.right.fault c.anchor.sel
    (diff32 n.left c.anchor.wheels.left) (diff32 n.right c.anchor.wheels.right)

/-- One fill or settled item: the six stages and the speed (spec/02 R27 to R37), with the conditions it raises. -/
def Reckoner.item (c : Reckoner) (w : WheelCounter) (dir : Option Direction) (kind : LastKind) (count : Count)
    (time : Nat) : Reckoner × List Condition :=
  let n := w.sampleAt time
  let dC := c.cableDelta count
  let cable := c.cable + dC
  let wd := c.wheelStage w n
  let tol := c.eff.tolFixed + truncDiv ((dC.natAbs : Int) * c.eff.tolRatio) 256
  let v := verdict dir wd.dw dC tol c.slack c.eff.slackMax
  let corr := correction c.eff c.v0 cable v.slack c.anchor.f v.inc v.cls
  let fNew := saturate (c.anchor.f + v.inc + corr)
  ({ c with
      anchor := ⟨count, time, n, fNew, v.cls, wd.sel⟩
      slack := v.slack
      cable := cable
      speed := smoothSpeed c.speed (stepSpeed fNew c.anchor.f time c.anchor.time)
      slipCount := if v.cls = .slip then sat16 c.slipCount 1 else c.slipCount
      last := ⟨kind, v.cls, wd.sel, wd.disagree⟩ },
    v.raised)

/-- The interpolated count of fill item i of n (spec/02 R38). -/
def fillCount (a : Anchor) (count : Count) (i n : Nat) : Count :=
  a.count + BitVec.ofInt 32 (truncDiv (diff32 count a.count * i) (n + 1))

/-- The interpolated time of fill item i of n (spec/02 R38). -/
def fillTime (a : Anchor) (time i n : Nat) : Nat := a.time + (time - a.time) * i / (n + 1)

/-- The fill items of a step batch, interpolated from the anchor at the start of the batch (spec/02 R38). -/
def Reckoner.fills (c : Reckoner) (w : WheelCounter) (dir : Option Direction) (a0 : Anchor) (count : Count)
    (time n : Nat) : Reckoner × List Condition :=
  (List.range n).foldl (fun acc k =>
    let r := acc.1.item w dir .fill (fillCount a0 count (k + 1) n) (fillTime a0 time (k + 1) n)
    (r.1, acc.2 ++ r.2)) (c, [])

/-- The start of a batch: the settings are taken in, and a lower SLACK_MAX caps S (spec/02 R26, R34). -/
def Reckoner.begin_ (c : Reckoner) (set : Settings) : Reckoner × List Condition :=
  let eff := ReckonSettings.ofStore set
  if eff.slackMax < c.slack then ({ c with eff := eff, slack := eff.slackMax }, [.slackLimit])
  else ({ c with eff := eff }, [])

/-- A pending datum's settled item (spec/02 R45): stages 1 and 2, then the anchor at the datum. The last-step record's
class DATUM and its selection and flag, those of stage 2, are the model's choice (log 18). -/
def Reckoner.datumItem (c : Reckoner) (w : WheelCounter) (value : Int) (count : Count) (time : Nat) : Reckoner :=
  let n := w.sampleAt time
  let cable := c.cable + c.cableDelta count
  let wd := c.wheelStage w n
  { c with
    anchor := ⟨count, time, n, value * 1000, .datum, wd.sel⟩
    slack := 0
    cable := cable
    v0 := some (value * 1000 - cable)
    datumTaken := true
    pendingDatum := none
    last := ⟨.datum, .datum, wd.sel, wd.disagree⟩ }

/-- An immediate datum (spec/02 R46). The last-step record's class DATUM and its kept selection and flag are the model's
choice (log 18). -/
def Reckoner.immediateDatum (c : Reckoner) (live : WheelCounts) (value : Int) : Reckoner :=
  { c with
    anchor := { c.anchor with f := value * 1000, wheels := live, cls := .datum }
    slack := 0
    v0 := none
    datumTaken := true
    pendingDatum := none
    last := { c.last with kind := .datum, cls := .datum } }

/-- The chainage a datum reports to the log: that just before it, or, when none had been taken, the one it gives
immediately after (spec/02 R47). -/
def State.datumNotice (before after : State) : Int :=
  if before.chr.datumTaken then before.linkMm before.provisionalNow else after.linkMm after.provisionalNow

/-- A datum takes the Reckoner to `c`: DATUM_TAKEN is raised and the log is notified (spec/02 R45 to R47). -/
def State.takeDatum (s : State) (c : Reckoner) : State :=
  let after := { s with chr := c }
  let notice := s.datumNotice after
  { (after.raise .datumTaken) with obl := s.obl.closeByDatum notice }

/-- An immediate datum on the wheels (spec/02 R46). -/
def State.applyImmediateDatum (s : State) (value : Int) : State :=
  s.takeDatum (s.chr.immediateDatum s.wct.live value)

/-- A rebase item (spec/02 R39). -/
def State.rebaseItem (s : State) (count : Count) (time : Nat) : State :=
  let n := s.wct.sampleAt time
  let f := s.provisionalAt n
  { s with
    chr := { s.chr with
      anchor := { s.chr.anchor with count := count, time := time, wheels := n, f := f }
      v0 := some (f - s.chr.cable + s.chr.slack)
      last := { s.chr.last with kind := .rebase } } }

/-- The settled item of a step batch, taken as a pending datum when there is one (spec/02 R25, R45). -/
def State.settledItem (s : State) (dir : Option Direction) (count : Count) (time : Nat) : State :=
  match s.chr.pendingDatum with
  | some value => s.takeDatum (s.chr.datumItem s.wct value count time)
  | none =>
    let r := s.chr.item s.wct dir .settled count time
    { s with chr := r.1 }.raiseAll r.2

/-- A wheel at a checkpoint: health evaluated, errors reset, the stored sense taken into use (spec/01 R15 to R17). -/
def WheelRecord.checkpoint (w : WheelRecord) (sense : Int) : WheelRecord :=
  { w with fault := w.fault && decide (w.errors ≠ 0), errors := 0, sense := sense }

/-- The wheel checkpoint at the end of a batch (spec/02 R25). -/
def State.checkpoint (s : State) : State :=
  { s with wct := { s.wct with
      left := s.wct.left.checkpoint (s.set.num .leftSense)
      right := s.wct.right.checkpoint (s.set.num .rightSense) } }

/-- The Reckoner takes a batch whole (spec/02 R25): settings, direction and health are read at its start, its items are
taken in order, and the wheel checkpoint ends it. -/
def State.takeBatch (s : State) (b : Batch) : State :=
  let started := s.chr.begin_ s.set
  let s1 := { s with chr := started.1 }.raiseAll started.2
  let dir := s.drv.effDirection
  match b with
  | .rebase count time => (s1.rebaseItem count time).checkpoint
  | .step n count time =>
    let filled := s1.chr.fills s1.wct dir s1.chr.anchor count time n
    let s2 := { s1 with chr := filled.1 }.raiseAll filled.2
    (s2.settledItem dir count time).checkpoint

/-- The ACQUIRE notice (spec/02 R40): the hold-over at the live counts by the rules for SYNC and CHECK, then a pending
datum at once. -/
def State.acquireNotice (s : State) : State :=
  let live := s.wct.live
  let f := s.chr.carry s.wct false live
  let s1 := { s with chr := { s.chr with anchor := { s.chr.anchor with f := f, wheels := live } } }
  match s1.chr.pendingDatum with
  | some value => s1.applyImmediateDatum value
  | none => s1

end Sys2Proof.Machine
end

