-- ==== Sys2Proof/Machine/Reel.lean ====
section
/-! DEFINITION. The Reel Input (spec/01 sections 1.1 to 1.3), the wheels (sections 1.5, 1.6) and the expiries of their
timers. -/

namespace Sys2Proof.Machine

/-- The Reel Input's judgement of a report: its new state without the timer, the batch it hands on, and whether
REEL_REBASED is raised. -/
structure Judgement where
  rin : ReelInput
  batch : Option Batch
  rebased : Bool
deriving DecidableEq, Repr

/-- The aligned time of a report that arrives now (spec/01 R2). -/
def State.alignedTime (s : State) : Nat :=
  max (s.timeBase - s.set.nat .latency * 1000) s.chr.anchor.time

/-- A rebase: e = s + 1, zeroed-pending clear, SYNC (spec/01 R4, R6, R8). -/
def ReelInput.rebase (r : ReelInput) (seq : BitVec 6) (missing : Nat) : ReelInput :=
  { r with
    machine := .sync, expected := seq + 1, zeroedPending := false
    stats := { r.stats with rebases := sat16 r.stats.rebases 1, missing := sat16 r.stats.missing missing } }

/-- A report discarded as suspect (spec/01 R5, R8, R9). -/
def ReelInput.suspectReport (r : ReelInput) (seq : BitVec 6) : ReelInput :=
  { r with machine := .check, suspect := seq, stats := { r.stats with suspects := sat16 r.stats.suspects 1 } }

/-- A report discarded as a duplicate (spec/01 R5). -/
def ReelInput.duplicate (r : ReelInput) : ReelInput :=
  { r with stats := { r.stats with duplicates := sat16 r.stats.duplicates 1 } }

/-- The forced-rebase test (spec/01 R6). -/
def forcedRebase (r : ReelInput) (anchorCount : Count) (rep : ReelReport) : Bool :=
  rep.zeroed || r.zeroedPending || decide (4095 < (diff32 rep.count anchorCount).natAbs)

/-- A counted report accepted at distance n, 0 to 7 (spec/01 R6, R7). -/
def ReelInput.accept (r : ReelInput) (n fillLimit : Nat) (forced : Bool) (rep : ReelReport) (time : Nat) : Judgement :=
  if forced || decide (fillLimit < n) then ⟨r.rebase rep.seq n, some (.rebase rep.count time), true⟩
  else
    ⟨{ r with
        machine := .sync, expected := rep.seq + 1
        stats := { r.stats with missing := sat16 r.stats.missing n, fills := sat16 r.stats.fills n } },
      some (.step n rep.count time), false⟩

/-- A counted report (spec/01 R4 to R8). -/
def ReelInput.judgeCounted (r : ReelInput) (anchorCount : Count) (fillLimit : Nat) (rep : ReelReport) (time : Nat) :
    Judgement :=
  let n := (rep.seq - r.expected).toNat
  match r.machine with
  | .acquire => ⟨r.rebase rep.seq 0, some (.rebase rep.count time), false⟩
  | .sync =>
    if n ≤ 7 then r.accept n fillLimit (forcedRebase r anchorCount rep) rep time
    else if n = 63 then ⟨r.duplicate, none, false⟩
    else ⟨r.suspectReport rep.seq, none, false⟩
  | .check =>
    if rep.seq = r.expected then r.accept 0 fillLimit (forcedRebase r anchorCount rep) rep time
    else if rep.seq = r.suspect + 1 then ⟨r.rebase rep.seq 0, some (.rebase rep.count time), true⟩
    else ⟨r.suspectReport rep.seq, none, false⟩

/-- A NO-COUNT report that advances e (spec/01 R9). -/
def ReelInput.advance (r : ReelInput) (n : Nat) (rep : ReelReport) : ReelInput :=
  { r with
    machine := .sync, expected := rep.seq + 1, zeroedPending := r.zeroedPending || rep.zeroed
    stats := { r.stats with missing := sat16 r.stats.missing n } }

/-- A NO-COUNT report (spec/01 R4, R9). -/
def ReelInput.judgeNoCount (r : ReelInput) (rep : ReelReport) : ReelInput :=
  let r := { r with stats := { r.stats with noCount := sat16 r.stats.noCount 1 } }
  let n := (rep.seq - r.expected).toNat
  match r.machine with
  | .acquire => r
  | .sync =>
    if n ≤ 7 then r.advance n rep
    else if n = 63 then r.duplicate
    else r.suspectReport rep.seq
  | .check => if rep.seq = r.expected then r.advance 0 rep else r.suspectReport rep.seq

/-- A well-formed report: NO-COUNT is tested before the count is read (spec/01 R1). -/
def State.judge (s : State) (rep : ReelReport) : Judgement :=
  if rep.noCount then ⟨s.rin.judgeNoCount rep, none, false⟩
  else s.rin.judgeCounted s.chr.anchor.count (s.set.nat .fillLimit) rep s.alignedTime

/-- The Reel Input takes the payload of a reel report (spec/01 R1 to R10). The batch is taken with the Reel Input still
in the state in which the report arrived (spec/02 R39), and the presence timer restarts when there is one. -/
def State.reelArrival (s : State) (payload : List Byte) : State :=
  match reelReportOf payload with
  | none =>
    { s with rin := { s.rin with stats := { s.rin.stats with malformed := sat16 s.rin.stats.malformed 1 } } }
  | some rep =>
    let j := s.judge rep
    match j.batch with
    | none => { s with rin := j.rin }
    | some b =>
      let s1 := if j.rebased then s.raise .reelRebased else s
      let s2 := s1.takeBatch b
      { s2 with rin := { j.rin with presence := s.startTimer (s.set.nat .reelTimeout) } }

/-- The presence timer expires in SYNC or CHECK (spec/01 R10). -/
def State.presenceExpiry (s : State) : State :=
  if s.due s.rin.presence && !s.inAcquire then
    let s1 := { s with rin := { s.rin with machine := .acquire, presence := none, zeroedPending := false } }
    (s1.raise .reelLost).acquireNotice
  else s

/-- PRESENCE_TIMER_EXPIRY. -/
def execPresenceTimerExpiry (dt : Nat) (s : State) : Host.Outcome State Fault Refusal :=
  .next (s.elapse dt).presenceExpiry

/-- The place of a line pair in the raw forward order (0,0), (1,0), (1,1), (0,1) (spec/01 R14). -/
def quadrature : Bool → Bool → Nat
  | false, false => 0
  | true, false => 1
  | true, true => 2
  | false, true => 3

/-- A wheel's line pair takes new levels (spec/01 R14, R16, R17): its record after, and whether it enters FAULT. -/
def WheelRecord.transition (w : WheelRecord) (a b : Bool) : WheelRecord × Bool :=
  let w' := { w with lineA := a, lineB := b }
  match (quadrature a b + 4 - quadrature w.lineA w.lineB) % 4 with
  | 1 => ({ w' with count := w.count + BitVec.ofInt 32 w.sense }, false)
  | 3 => ({ w' with count := w.count - BitVec.ofInt 32 w.sense }, false)
  | 2 =>
    let errors := sat8 w.errors
    let enters := !w.fault && decide (9 ≤ errors)
    ({ w' with errors := errors, fault := w.fault || enters }, enters)
  | _ => (w', false)

/-- The record of a wheel. -/
def WheelCounter.wheel (w : WheelCounter) : Wheel → WheelRecord
  | .left => w.left
  | .right => w.right

/-- Replace the record of a wheel. -/
def WheelCounter.putWheel (w : WheelCounter) (k : Wheel) (r : WheelRecord) : WheelCounter :=
  match k with
  | .left => { w with left := r }
  | .right => { w with right := r }

/-- A transition on a wheel's pair. -/
def State.wheelMoves (s : State) (k : Wheel) (a b : Bool) : State :=
  let r := (s.wct.wheel k).transition a b
  let s1 := { s with wct := s.wct.putWheel k r.1 }
  if r.2 then s1.raise .wheelFault else s1

/-- WHEEL_TRANSITION (spec/01 R14). -/
def execWheelTransition (dt : Nat) (wheel : Wheel) (a b : Bool) (s : State) : Host.Outcome State Fault Refusal :=
  .next ((s.elapse dt).wheelMoves wheel a b)

/-- A sampling instant of a period has come, after power-on and once (spec/01 R18, spec/05 R115, spec/04 R84). -/
def sampleDue (now period : Nat) (last : Option Nat) : Bool :=
  decide (0 < now) && decide (now % period = 0) && !(last == some now)

/-- An entry of the wheel history ring is written (spec/01 R18). -/
def State.wheelSample (s : State) : State :=
  if sampleDue s.timeBase 4000 (s.wct.history.getLast?.map (·.time)) then
    { s with wct := { s.wct with history := keepNewest 64 (s.wct.history ++ [⟨s.timeBase, s.wct.live⟩]) } }
  else s

/-- WHEEL_HISTORY_SAMPLE (spec/01 R18). -/
def execWheelHistorySample (dt : Nat) (s : State) : Host.Outcome State Fault Refusal :=
  .next (s.elapse dt).wheelSample

end Sys2Proof.Machine
end

