-- ==== Sys2Proof/Machine/Head.lean ====
section
/-! DEFINITION. The Head Positioner (spec/05): travel on whole steps, clearance, homing, moves, stop, park, index check
and completion. -/

namespace Sys2Proof.Machine

/-! ## The profile of one axis (spec/05 R101; log 11)

The profile is followed in continuous time, leg by leg, up to the next STEP pulse. A speed is in millionths of
(0.1 degree)/s and is held as its square. A distance is in the unit in which the square of the speed changes, at the
deceleration rate, by exactly the distance covered: one step is `stepSpan`, and the stopping distance of a speed is its
square. An instant is in microseconds over the deceleration, in which unit the speed changes by exactly the time. -/

/-- One step of 0.1 degree as a distance of the profile: 2 x deceleration x 10^12. -/
def stepSpan (ax : Axis) : Nat := 2 * deceleration ax * 10 ^ 12

/-- The stopping distance in whole steps: trunc(v² / (2 x deceleration)) (spec/05 R101). -/
def stoppingSteps (ax : Axis) (speedSq : Nat) : Nat := speedSq / stepSpan ax

/-- An instant of the internal time base as the profile counts it. -/
def profileClock (ax : Axis) (now : Nat) : Nat := deceleration ax * now

/-- The signed steps of the way from a position to a target (spec/05 R106): PAN goes positive for a distance of up to
1,800 and negative beyond, TILT directly. -/
def wayTo (ax : Axis) (pos target : Int) : Int :=
  match ax with
  | .pan => let d := (target - pos) % 3600; if d ≤ 1800 then d else d - 3600
  | .tilt => target - pos

/-- The position after one step; PAN wraps (spec/05 R100). -/
def stepPos (ax : Axis) (pos : Int) (up : Bool) : Int :=
  let p := pos + (if up then 1 else -1)
  match ax with
  | .pan => p % 3600
  | .tilt => p

/-- A search for the index is under way: HOMING and not yet homed (spec/05 R104, R105). -/
def AxisRecord.seeking (a : AxisRecord) : Bool := a.state == .homing && a.pos.isNone

/-- The axis travels toward a target, or back to 0 from its index (spec/05 R100). -/
def AxisRecord.travelling (a : AxisRecord) : Bool := a.state == .moving || (a.state == .homing && a.pos.isSome)

/-- The target lies ahead in the axis's present direction (spec/05 R101). -/
def AxisRecord.ahead (a : AxisRecord) : Bool := if a.up then decide (0 < a.togo) else decide (a.togo < 0)

/-- The distance still to go to a target ahead. -/
def AxisRecord.wayLeft (ax : Axis) (a : AxisRecord) : Nat := a.togo.natAbs * stepSpan ax - a.part

/-- The square of the speed limit. -/
def AxisRecord.cruiseSq (a : AxisRecord) : Nat := (a.limit * 10 ^ 6) ^ 2

/-- A leg of the profile: at zero speed; at the present speed for a distance; speeding up, or slowing, to a speed given
by its square. -/
inductive Leg where
  | still
  | hold (len : Nat)
  | speedUp (top : Nat)
  | slow (low : Nat)
deriving DecidableEq, Repr

/-- The axis decelerates to zero. -/
def AxisRecord.brakeLeg (a : AxisRecord) : Leg := if a.speedSq = 0 then .still else .slow 0

/-- The axis is sped or slowed to its speed limit, no further than to `top`, and cruises there for `room`. -/
def AxisRecord.cruiseLeg (a : AxisRecord) (room top : Nat) : Leg :=
  if a.speedSq < a.cruiseSq then .speedUp (min a.cruiseSq top)
  else if a.speedSq = a.cruiseSq then .hold room
  else .slow a.cruiseSq

/-- The present leg of a travel toward a target: deceleration to zero with the target behind the axis or within its
stopping distance, and before that the way to the speed limit, up to the speed from which the target is just within the
stopping distance (spec/05 R101). -/
def AxisRecord.travelLeg (ax : Axis) (a : AxisRecord) : Leg :=
  let left := a.wayLeft ax
  if a.ahead = false ∨ left ≤ a.speedSq then a.brakeLeg
  else a.cruiseLeg (left - a.speedSq) ((left + a.speedSq + 1) / 2)

/-- The present leg of an axis (spec/05 R100, R101). A search cruises until it ends. -/
def AxisRecord.leg (ax : Axis) (a : AxisRecord) : Leg :=
  match a.state with
  | .unhomed => .still
  | .idle => .still
  | .stopping => a.brakeLeg
  | .moving => a.travelLeg ax
  | .homing => if a.seeking then a.cruiseLeg (stepSpan ax) a.cruiseSq else a.travelLeg ax

/-- The profile `time` later, `len` farther, at a new speed. -/
def AxisRecord.reach (a : AxisRecord) (len speedSq time : Nat) : AxisRecord :=
  { a with part := a.part + len, speedSq := speedSq, clock := a.clock + time }

/-- The present leg is followed to its end, to the next STEP pulse or to the instant `now`, whichever is first. -/
def AxisRecord.follow (ax : Axis) (now : Nat) (a : AxisRecord) : AxisRecord :=
  let v := isqrt a.speedSq
  let room := stepSpan ax - a.part
  let time := profileClock ax now - a.clock
  match a.leg ax with
  | .still => a.reach 0 a.speedSq time
  | .hold len =>
    let d := min len room
    if d / (2 * v) ≤ time then a.reach d a.speedSq (d / (2 * v)) else a.reach (2 * v * time) a.speedSq time
  | .speedUp top =>
    let sq := min top (a.speedSq + room)
    if isqrt sq - v ≤ time then a.reach (sq - a.speedSq) sq (isqrt sq - v)
    else a.reach (2 * v * time + time ^ 2) (a.speedSq + 2 * v * time + time ^ 2) time
  | .slow low =>
    let sq := max low (a.speedSq - room)
    if v - isqrt sq ≤ time then a.reach (a.speedSq - sq) sq (v - isqrt sq)
    else a.reach (a.speedSq - (v - time) ^ 2) ((v - time) ^ 2) time

/-- At zero speed an axis whose target lies behind it reverses, and the distance it covers counts anew
(spec/05 R101). -/
def AxisRecord.turn (a : AxisRecord) : AxisRecord :=
  if a.travelling ∧ a.speedSq = 0 ∧ a.togo ≠ 0 ∧ a.ahead = false then { a with up := !a.up, part := 0 } else a

/-- The distance covered has reached a further whole step: a STEP pulse is to be issued (spec/05 R101). -/
def AxisRecord.pulseOwed (ax : Axis) (a : AxisRecord) : Bool := !a.atRest && decide (stepSpan ax ≤ a.part)

/-- The profile is followed for so many legs, never past a STEP pulse that has not been issued. -/
def AxisRecord.advanceLegs (ax : Axis) (now : Nat) : Nat → AxisRecord → AxisRecord
  | 0, a => a
  | n + 1, a => if a.pulseOwed ax then a else (a.turn.follow ax now).advanceLegs ax now n

/-- The profile is followed to the instant `now`, or to the STEP pulse that is due before it. No more than five legs lie
between two pulses: to zero speed, and after a reversal to the speed limit, along it and back. -/
def AxisRecord.advance (ax : Axis) (now : Nat) (a : AxisRecord) : AxisRecord :=
  if a.atRest then a else a.advanceLegs ax now 8

/-- Both axes' profiles are followed to the instant `now`. -/
def HeadPositioner.advance (h : HeadPositioner) (now : Nat) : HeadPositioner :=
  { h with pan := h.pan.advance .pan now, tilt := h.tilt.advance .tilt now }

/-- Both axes' profiles are followed to the present instant. -/
def State.advanceHead (s : State) : State := { s with hdp := s.hdp.advance s.timeBase }

/-- The present speed as reported: signed by direction, truncated toward zero to whole (0.1 degree)/s
(spec/05 R101). -/
def AxisRecord.speed (ax : Axis) (now : Nat) (a : AxisRecord) : Int :=
  let b := a.advance ax now
  let v : Int := (isqrt b.speedSq / 10 ^ 6 : Nat)
  if b.up then v else -v

/-- A homed tilt axis is never stepped outside its range (spec/05 R100). -/
def AxisRecord.leavesRange (ax : Axis) (a : AxisRecord) : Bool :=
  match ax, a.pos with
  | .tilt, some p => let q := stepPos .tilt p a.up; decide (q < -1350) || decide (1350 < q)
  | _, _ => false

/-- A search that has reached its limit steps no further (spec/05 R104, R105). -/
def AxisRecord.searchSpent (ax : Axis) (a : AxisRecord) : Bool :=
  a.seeking && decide (homingLimitSteps ax ≤ a.homingTravel)

/-- A STEP pulse in the axis's present direction: the position changes, a search counts it, and a travel has one step
less to go (spec/05 R100, R101, R104). -/
def AxisRecord.pulse (ax : Axis) (a : AxisRecord) : AxisRecord :=
  { a with
    pos := a.pos.map (fun p => stepPos ax p a.up)
    part := 0
    lastStep := some a.up
    homingTravel := if a.seeking then a.homingTravel + 1 else a.homingTravel
    togo := if a.travelling then a.togo - (if a.up then 1 else -1) else a.togo }

/-- The axis's speed is zero with no travel left (spec/05 R101). -/
def AxisRecord.restDue (ax : Axis) (a : AxisRecord) : Bool :=
  !a.atRest && !a.seeking && !a.pulseOwed ax && decide (a.speedSq = 0) && (a.state == .stopping || decide (a.togo = 0))

/-- The axis comes to rest: IDLE if homed, UNHOMED if not (spec/05 R100). -/
def AxisRecord.rest (a : AxisRecord) : AxisRecord :=
  { a with
    state := if a.pos.isSome then .idle else .unhomed
    target := none, togo := 0, speedSq := 0, part := 0, clock := 0, lastStep := none }

/-! ## Clearance (spec/05 section 5.2) -/

/-- The profile begins from zero speed at an instant (spec/05 R101). -/
def AxisRecord.fromZero (ax : Axis) (now : Nat) (a : AxisRecord) : AxisRecord :=
  { a with speedSq := 0, part := 0, clock := profileClock ax now, lastStep := none }

/-- Start pending is cleared and the travel begins, in MOVING or HOMING (spec/05 R102 to R105). A search makes a homed
axis not homed. -/
def AxisRecord.begin_ (ax : Axis) (tiltIndex : Bool) (now : Nat) (a : AxisRecord) : AxisRecord :=
  match a.startPending with
  | .clear => a
  | .move => { a.fromZero ax now with state := .moving, startPending := .clear, up := decide (0 < a.togo) }
  | .home =>
    { a.fromZero ax now with
      state := .homing, startPending := .clear, limit := homingSpeed ax
      pos := none, target := none, togo := 0
      up := match ax with
        | .pan => true
        | .tilt => !tiltIndex }

/-- Every axis with start pending begins its travel (spec/05 R102). -/
def HeadPositioner.beginPending (h : HeadPositioner) (now : Nat) : HeadPositioner :=
  { h with pan := h.pan.begin_ .pan h.tiltIndex now, tilt := h.tilt.begin_ .tilt h.tiltIndex now }

/-- Some axis has start pending. -/
def HeadPositioner.anyPending (h : HeadPositioner) : Bool :=
  !(h.pan.startPending == .clear) || !(h.tilt.startPending == .clear)

/-- After start pending has been set: the demand is raised, the axes wait, or travel begins at once (spec/05 R102). -/
def State.askClearance (s : State) : State :=
  if s.hdp.anyPending then
    match s.fxc.clearance with
    | .unasked => { s with hdp := { s.hdp with demand := true }, fxc := { s.fxc with clearance := .waiting } }
    | .waiting => s
    | .given => { s with hdp := s.hdp.beginPending s.timeBase }
  else s

/-- FXC gives clearance: every axis with start pending begins (spec/03 R65, spec/05 R102). -/
def State.giveClearance (s : State) : State :=
  { s with fxc := { s.fxc with clearance := .given }, hdp := s.hdp.beginPending s.timeBase }

/-! ## Completion (spec/05 section 5.8) -/

/-- A link's last completion. -/
def HeadPositioner.completion (h : HeadPositioner) : Link → Option Completion
  | .tether => h.doneTether
  | .carriage => h.doneCarriage

/-- Replace a link's last completion. -/
def HeadPositioner.putCompletion (h : HeadPositioner) (l : Link) (c : Completion) : HeadPositioner :=
  match l with
  | .tether => { h with doneTether := some c }
  | .carriage => { h with doneCarriage := some c }

/-- The operation in flight ends: its completion record is written for its originator and HEAD_DONE is raised for that
link (spec/05 R113). -/
def State.endOperation (s : State) : State :=
  match s.hdp.op with
  | none => s
  | some o =>
    let c : Completion := ⟨o.kind, s.hdp.outcome, s.hdp.pan.pos, s.hdp.tilt.pos, s.surveyTime s.timeBase⟩
    { s with hdp := { s.hdp.putCompletion o.origin c with op := none } }.raiseFor .headDone o.origin

/-- The head is at rest with no travel to come. -/
def HeadPositioner.finished (h : HeadPositioner) : Bool :=
  h.atRest && !h.anyPending && !h.pan.searchOwed && !h.tilt.searchOwed

/-- What rest brings about: an operation with no travel to come ends with its outcome so far, and with no operation the
demand is withdrawn and the clearance returns to NONE (spec/05 R102, R107 to R109). A park with an axis that an index pass
within tolerance has set beside 0 at rest ends REACHED, since no search failed and no mismatch occurred: the model's
choice (log 56). -/
def State.settleHead (s : State) : State :=
  let s1 := if s.hdp.finished then s.endOperation else s
  if s1.hdp.atRest && s1.hdp.op.isNone then
    { s1 with hdp := { s1.hdp with demand := false }, fxc := { s1.fxc with clearance := .unasked } }
  else s1

/-- The rest time is recorded when the head has come to rest (spec/05 R100). -/
def State.noteRest (s : State) : State :=
  if s.hdp.atRest then { s with hdp := { s.hdp with restTime := s.timeBase } } else s

/-- An axis comes to rest; a search that it owes begins (spec/05 R100, R109). -/
def State.axisRests (s : State) (ax : Axis) : State :=
  let a := (s.hdp.axis ax).rest
  let a' := if a.searchOwed then { a with searchOwed := false, homingTravel := 0, startPending := .home } else a
  (({ s with hdp := s.hdp.putAxis ax a' }.askClearance).noteRest).settleHead

/-! ## The axis commands -/

/-- A tilt step that would leave the range is not issued: the axis has zero speed at the range end at once; with no
target left it comes to rest there, with one behind it, it goes on to it (spec/05 R100, log 12). -/
def State.rangeEnd (s : State) (ax : Axis) (a : AxisRecord) : State :=
  let s1 := { s with hdp := s.hdp.putAxis ax { a with speedSq := 0, part := 0 } }
  if a.togo = 0 then s1.axisRests ax else s1

/-- An axis issues its next STEP pulse once its profile has come to it (spec/05 R100, R101). -/
def State.axisStep (s : State) (ax : Axis) : State :=
  let a := (s.hdp.axis ax).advance ax s.timeBase
  if a.pulseOwed ax && !a.searchSpent ax then
    if a.leavesRange ax then s.rangeEnd ax a else { s with hdp := s.hdp.putAxis ax (a.pulse ax) }
  else s

/-- AXIS_STEP (spec/05 R101). -/
def execAxisStep (dt : Nat) (axis : Axis) (s : State) : Host.Outcome State Fault Refusal :=
  .next ((s.elapse dt).axisStep axis)

/-- The axis comes to rest when its speed reaches zero with no travel left (spec/05 R101). -/
def State.axisRest (s : State) (ax : Axis) : State :=
  let a := (s.hdp.axis ax).advance ax s.timeBase
  if a.restDue ax then State.axisRests { s with hdp := s.hdp.putAxis ax a } ax else s

/-- AXIS_REST (spec/05 R100). -/
def execAxisRest (dt : Nat) (axis : Axis) (s : State) : Host.Outcome State Fault Refusal :=
  .next ((s.elapse dt).axisRest axis)

/-- An axis loses its travel and decelerates to rest without a target; one at rest loses its start pending
(spec/05 R108). A search that it owes at its rest is dropped with the park that owed it: the model's choice (log 48). -/
def AxisRecord.stop (a : AxisRecord) : AxisRecord :=
  let b := { a with startPending := .clear, searchOwed := false, target := none, togo := 0 }
  if a.atRest then b else { b with state := .stopping }

/-- Both axes stop from their motion at the instant `now`. -/
def HeadPositioner.stopAxes (h : HeadPositioner) (now : Nat) : HeadPositioner :=
  { h with pan := (h.pan.advance .pan now).stop, tilt := (h.tilt.advance .tilt now).stop }

/-- The outcome so far takes a new value unless it is LOST (spec/05 R108, R114). -/
def HeadOutcome.unlessLost (o new : HeadOutcome) : HeadOutcome := if o = .lost then .lost else new

/-- The operation in flight enters phase STOPPING with an outcome (spec/05 R108). -/
def State.stopOperation (s : State) (outcome : HeadOutcome) : State :=
  match s.hdp.op with
  | none => s
  | some o =>
    if o.stopping then s
    else
      { s with hdp := { s.hdp.stopAxes s.timeBase with
          op := some { o with stopping := true }
          outcome := s.hdp.outcome.unlessLost outcome } }.settleHead

/-- The homing limit is reached without an index (spec/05 R104, R105): the axis decelerates to rest and stays UNHOMED
(log 14). -/
def State.homingFails (s : State) (ax : Axis) : State :=
  let a := (s.hdp.axis ax).advance ax s.timeBase
  if a.searchSpent ax then
    let h := s.hdp.putAxis ax { a with state := .stopping, lossCause := .indexNotFound }
    { s with hdp := { h with outcome := if h.op.isSome then .lost else h.outcome } }.raise .headLost
  else s

/-- HOMING_LIMIT (spec/05 R104). -/
def execHomingLimit (dt : Nat) (axis : Axis) (s : State) : Host.Outcome State Fault Refusal :=
  .next ((s.elapse dt).homingFails axis)

/-- The index position of a pass: 0 for PAN; for TILT 0 when the change comes on a positive step and -1 when it comes on
a negative one (spec/05 R105, R112). A change that comes on no step of a travel takes the input's level after it,
`risen`, for the direction (log 13). -/
def AxisRecord.indexPosition (ax : Axis) (a : AxisRecord) (risen : Bool) : Int :=
  match ax with
  | .pan => 0
  | .tilt => if a.lastStep.getD risen then 0 else -1

/-- The error of an index pass (spec/05 R112). -/
def indexError (ax : Axis) (pos q : Int) : Int :=
  match ax with
  | .pan => min pos (3600 - pos)
  | .tilt => ((pos - q).natAbs : Int)

/-- The index found during homing: the axis is homed at it, decelerates and travels back to 0 (spec/05 R104, R105). -/
def AxisRecord.found (a : AxisRecord) (q : Int) : AxisRecord :=
  { a with pos := some q, target := some 0, togo := -q }

/-- An index pass within tolerance: the position becomes the index position and travel goes on toward the same target
(spec/05 R112). -/
def AxisRecord.correct (ax : Axis) (a : AxisRecord) (pos q : Int) : AxisRecord :=
  let moved := match ax with
    | .pan => if pos ≤ 1800 then -pos else 3600 - pos
    | .tilt => q - pos
  { a with
    pos := some q
    togo := if a.target.isSome then a.togo - moved else a.togo
    corrections := if indexError ax pos q = 0 then a.corrections else sat16 a.corrections 1 }

/-- An axis that has lost its position (spec/05 R112). -/
def AxisRecord.lose (a : AxisRecord) : AxisRecord :=
  { a with
    state := .unhomed, pos := none, target := none, togo := 0, speedSq := 0, part := 0, clock := 0, lastStep := none
    startPending := .clear, searchOwed := false, lossCause := .indexMismatch }

/-- The other axis. -/
def otherAxis : Axis → Axis
  | .pan => .tilt
  | .tilt => .pan

/-- An index mismatch (spec/05 R112): the axis loses its position at once; an operation's outcome becomes LOST, and an
ACTIVE one enters STOPPING with the other axis decelerating to rest. -/
def State.indexMismatch (s : State) (ax : Axis) : State :=
  let wasRest := s.hdp.atRest
  let h := s.hdp.putAxis ax (s.hdp.axis ax).lose
  let h' := match h.op with
    | none => h
    | some o =>
      if o.stopping then { h with outcome := .lost }
      else
        { h.putAxis (otherAxis ax) ((h.axis (otherAxis ax)).advance (otherAxis ax) s.timeBase).stop with
          op := some { o with stopping := true }, outcome := .lost }
  let s1 := { s with hdp := h' }.raise .headLost
  (if wasRest then s1 else s1.noteRest).settleHead

/-- An index pass: found during a search, checked on a homed axis, nothing on an axis that is not homed
(spec/05 R104, R105, R112). A change of the TILT input is a change of its level. -/
def State.indexPass (s : State) (ax : Axis) : State :=
  let risen := match ax with
    | .pan => true
    | .tilt => !s.hdp.tiltIndex
  let s0 := match ax with
    | .pan => s
    | .tilt => { s with hdp := { s.hdp with tiltIndex := risen } }
  let a := (s0.hdp.axis ax).advance ax s.timeBase
  let q := a.indexPosition ax risen
  if a.seeking then { s0 with hdp := s0.hdp.putAxis ax (a.found q) }
  else match a.pos with
    | none => s0
    | some p =>
      if indexError ax p q ≤ 20 then { s0 with hdp := s0.hdp.putAxis ax (a.correct ax p q) } else s0.indexMismatch ax

/-- INDEX_PASS (spec/05 R112). -/
def execIndexPass (dt : Nat) (axis : Axis) (s : State) : Host.Outcome State Fault Refusal :=
  .next ((s.elapse dt).indexPass axis)

/-- An entry of the head history ring is written (spec/05 R115). -/
def State.headSample (s : State) : State :=
  if sampleDue s.timeBase 1000 (s.hdp.history.getLast?.map (·.time)) then
    { s with hdp := { s.hdp with
        history := keepNewest 64 (s.hdp.history ++ [⟨s.timeBase, s.hdp.pan.pos, s.hdp.tilt.pos⟩]) } }
  else s

/-- HEAD_HISTORY_SAMPLE (spec/05 R115). -/
def execHeadHistorySample (dt : Nat) (s : State) : Host.Outcome State Fault Refusal := .next (s.elapse dt).headSample

/-! ## The head requests (the answers; the port's tests come before them) -/

/-- HEAD HOME from TETHER (spec/05 R103). -/
def State.headHome (s : State) : State × Status :=
  if s.hdp.lock then (s, .locked)
  else if s.hdp.op.isSome || !s.hdp.atRest then (s, .busy)
  else
    let ask (a : AxisRecord) : AxisRecord := { a with homingTravel := 0, startPending := .home }
    ({ s with hdp := { s.hdp with
        pan := ask s.hdp.pan, tilt := ask s.hdp.tilt
        op := some ⟨.home, .tether, false⟩, outcome := .reached } }.askClearance, .done)

/-- The speed limit of a percentage (spec/05 R101). -/
def speedLimit (ax : Axis) (percent : Nat) : Nat := max 1 (maxSpeed ax * percent / 100)

/-- A target as stored: PAN reduced into 0 to 3599, TILT clamped (spec/05 R106). -/
def storedTarget (ax : Axis) (t : Int) : Int :=
  match ax with
  | .pan => t % 3600
  | .tilt => clampInt (-1350) 1350 t

/-- An axis takes a target (spec/05 R106, R107): in travel it is retargeted at once; at rest it takes start pending when
the target is not its position. -/
def AxisRecord.aim (ax : Axis) (a : AxisRecord) (target : Int) : AxisRecord :=
  match a.pos with
  | none => a
  | some p =>
    let way := wayTo ax p target
    if a.atRest then
      if way = 0 then { a with target := none, togo := 0, startPending := .clear }
      else { a with target := some target, togo := way, startPending := .move }
    else { a with state := .moving, target := some target, togo := way }

/-- An axis takes an optional target. -/
def AxisRecord.aimOpt (ax : Axis) (a : AxisRecord) : Option Int → AxisRecord
  | none => a
  | some t => a.aim ax t

/-- A HEAD MOVE is refused BUSY: an axis HOMING, a HOME in flight, or a PARK with a homing start pending
(spec/05 R106 test 2). -/
def HeadPositioner.moveBusy (h : HeadPositioner) : Bool :=
  h.pan.state == .homing || h.tilt.state == .homing ||
    match h.op with
    | none => false
    | some o => o.kind == .home
        || (o.kind == .park && (h.pan.startPending == .home || h.tilt.startPending == .home))

/-- The operation in flight gives way to a new MOVE (spec/05 R107): an ACTIVE MOVE goes on, any other ends now, a park
that is not stopping as SUPERSEDED. -/
def State.yieldToMove (s : State) : State :=
  match s.hdp.op with
  | none => s
  | some o =>
    if o.stopping then s.endOperation
    else if o.kind = .move then s
    else { s with hdp := { s.hdp with outcome := .superseded } }.endOperation

/-- A HEAD MOVE with both targets absent changes the speed limit of an axis in travel, or with start pending for one, and
nothing else: R106 over R107 (spec/05 R106; log 52). -/
def AxisRecord.limitTravel (ax : Axis) (percent : Nat) (a : AxisRecord) : AxisRecord :=
  if a.atRest && a.startPending == .clear then a else { a with limit := speedLimit ax percent }

/-- A HEAD MOVE with a target that is taken (spec/05 R106, R107). -/
def State.moveTo (s : State) (pan tilt : Option Int) (percent : Nat) : State :=
  let s1 := s.advanceHead.yieldToMove
  let outcome := if s1.hdp.op.isSome then s1.hdp.outcome else .reached
  let p := { s1.hdp.pan.aimOpt .pan pan with limit := speedLimit .pan percent }
  let t := { s1.hdp.tilt.aimOpt .tilt tilt with limit := speedLimit .tilt percent }
  (({ s1 with hdp := { s1.hdp with
      pan := p, tilt := t, op := some ⟨.move, .tether, false⟩, outcome := outcome } }).askClearance).settleHead

/-- A HEAD MOVE that is taken (spec/05 R106, R107). -/
def State.takeMove (s : State) (pan tilt : Option Int) (percent : Nat) : State :=
  if pan.isNone && tilt.isNone then
    let h := s.hdp.advance s.timeBase
    { s with hdp := { h with pan := h.pan.limitTravel .pan percent, tilt := h.tilt.limitTravel .tilt percent } }
  else s.moveTo pan tilt percent

/-- HEAD MOVE from TETHER (spec/05 R106): the status, and the targets and percentage kept. -/
def State.headMove (s : State) (pan tilt : Option Int) (percent : Nat) :
    State × Status × Option Int × Option Int × Nat :=
  let pan' := pan.map (storedTarget .pan)
  let tilt' := tilt.map (storedTarget .tilt)
  let percent' := clampNat 1 100 percent
  if s.hdp.lock then (s, .locked, pan', tilt', percent')
  else if s.hdp.moveBusy then (s, .busy, pan', tilt', percent')
  else if s.hdp.pan.pos.isNone || s.hdp.tilt.pos.isNone then (s, .notReady, pan', tilt', percent')
  else
    (s.takeMove pan' tilt' percent',
      if pan' = pan ∧ tilt' = tilt ∧ percent' = percent then .done else .clamped, pan', tilt', percent')

/-- HEAD STOP from TETHER (spec/05 R108): answered DONE whatever is in flight, LOCKED with the lock HELD. -/
def State.headStop (s : State) : State × Status :=
  if s.hdp.lock then (s, .locked) else (s.stopOperation .stopped, .done)

/-- An axis taken over by a park (spec/05 R109). One that is HOMING goes on homing, also when it has found its index and
travels back: the model's choice between the first two bullets of R109 (log 47). -/
def AxisRecord.park (ax : Axis) (a : AxisRecord) : AxisRecord :=
  if a.state = .homing then a
  else if a.pos.isSome then { a.aim ax 0 with limit := maxSpeed ax }
  else if a.state = .unhomed then { a with homingTravel := 0, startPending := .home }
  else { a with searchOwed := true }

/-- A surface operation is superseded by a park (spec/05 R109). -/
def State.supersede (s : State) : State :=
  match s.hdp.op with
  | none => s
  | some _ => { s with hdp := { s.hdp with outcome := .superseded } }.endOperation

/-- A park operation is in flight. -/
def HeadPositioner.parkInFlight (h : HeadPositioner) : Bool :=
  match h.op with
  | some o => o.kind == .park
  | none => false

/-- HEAD PARK from CARRIAGE (spec/05 R109): the lock is HELD; a park in flight goes on; any other operation is
superseded and a park begins from the present motion. -/
def State.headPark (s : State) : State :=
  let s0 := { s with hdp := { s.hdp with lock := true } }
  if s0.hdp.parkInFlight then s0
  else
    let s1 := s0.advanceHead.supersede
    (({ s1 with hdp := { s1.hdp with
        pan := s1.hdp.pan.park .pan, tilt := s1.hdp.tilt.park .tilt
        op := some ⟨.park, .carriage, false⟩, outcome := .reached } }).askClearance).settleHead

/-- HEAD RELEASE from CARRIAGE (spec/05 R110): the lock is FREE, and a park in flight is stopped. -/
def State.headRelease (s : State) : State :=
  let s0 := { s with hdp := { s.hdp with lock := false } }
  if s0.hdp.parkInFlight then s0.stopOperation .stopped else s0

/-- The tether is lost: a HOME or MOVE from TETHER is stopped with LINK_LOST (spec/05 R114). -/
def State.headLinkLost (s : State) : State :=
  match s.hdp.op with
  | none => s
  | some o => if o.origin = .tether then s.stopOperation .linkLost else s

/-- The moving flag of the frame ending at boundary B with exposure E (spec/05 R115). -/
def State.movingFlag (s : State) (boundary exposure : Nat) : Bool :=
  !s.hdp.atRest || decide ((boundary : Int) - exposure ≤ s.hdp.restTime)

end Sys2Proof.Machine
end

