-- ==== Sys2Proof/Machine/Log.lean ====
section
/-! DEFINITION. The Observation Log (spec/08): marks and the guard merge, continuous observations, void, annotate, read
and trim; the still request of spec/03 R71 and R72; the record encoding of spec/12 section 12.7. -/

namespace Sys2Proof.Machine

/-! ## The still request (spec/03 section 3.5) -/

/-- The lowest-numbered frame whose set has not been computed: c + 1, and frame 2 before the first boundary after
power-on (spec/03 R71). A still that a mark asks for so comes after the frame whose stamp carries the mark and on which
its flash begins, though R145 has that flash begin on a frame that draws nothing: the model's choice (log 58). -/
def FrameTimer.stillChoice (f : FrameTimer) : Count := if f.ended.isNone then 2 else f.counter + 1

/-- A still is asked for: the frame, and FXC after it. With a still pending, its frame is given and nothing changes
(spec/03 R71, R72). -/
def FrameTimer.askStill (f : FrameTimer) (requester : Link) (clean : Bool) : FrameTimer × Count :=
  match f.pendingStill with
  | some p => (f, p.frame)
  | none => ({ f with pendingStill := some ⟨f.stillChoice, requester, clean⟩ }, f.stillChoice)

/-! ## The log (spec/08 section 8.1) -/

/-- The record with an id. -/
def ObsLog.find (o : ObsLog) (id : Nat) : Option Observation := o.records.find? fun r => r.id == id

/-- The records that are OPEN, in increasing id order (spec/06 R123). -/
def ObsLog.openOnes (o : ObsLog) : List Observation := o.records.filter fun r => r.state == .opened

/-- A creation would make a 97th record, or the ids are spent (spec/08 R152, R155). -/
def ObsLog.full (o : ObsLog) : Bool := decide (96 ≤ o.records.length) || decide (65536 ≤ o.nextId)

/-- Change the record with an id where it stands. -/
def ObsLog.change (o : ObsLog) (id : Nat) (f : Observation → Observation) : ObsLog :=
  { o with records := o.records.map fun r => if r.id = id then f r else r }

/-- The clock position at creation (spec/08 R150). -/
def clockPosition (pan tilt : Option Int) : Option Nat :=
  match pan, tilt with
  | some p, some t =>
    if 300 ≤ t.natAbs then
      let h := ((p + 150) / 300 % 12).toNat
      some (if h = 0 then 12 else h)
    else none
  | _, _ => none

/-- A link joins an origin (spec/08 R152). -/
def Observation.joinedBy (r : Observation) : Link → Observation
  | .tether => { r with fromTether := true }
  | .carriage => { r with fromCarriage := true }

/-- A link is in a record's origin. -/
def Observation.hasOrigin (r : Observation) : Link → Bool
  | .tether => r.fromTether
  | .carriage => r.fromCarriage

/-- A record that a mark may merge into: in the guard memory, with the same code, its start within GUARD of the present
chainage (spec/08 R152). -/
def ObsLog.qualifies (o : ObsLog) (code : List Byte) (present guardMm : Int) (r : Observation) : Bool :=
  o.guardMemory.contains r.id && r.code == code &&
    match r.start with
    | some x => decide (((x - present).natAbs : Int) ≤ guardMm)
    | none => false

/-- The record a mark merges into: the newest that qualifies; none while the chainage is absent (spec/08 R152). -/
def ObsLog.candidate (o : ObsLog) (code : List Byte) (present : Option Int) (guardMm : Int) : Option Observation :=
  match present with
  | some x => (o.records.filter (o.qualifies code x guardMm)).getLast?
  | none => none

/-- The Stamp Unit takes a record's id and code as its pending mark (spec/08 R162). -/
def State.handMark (s : State) (id : Nat) (code : List Byte) : State :=
  { s with stu := { s.stu with pendingMark := some ⟨id, code⟩ } }

/-- The content of a MARK POINT or OPEN OBS reply (spec/12 section 12.5). -/
def markContent (r : Observation) (merged : Bool) : List Byte :=
  u16 r.id ++ flags [r.stillFrame.isSome, merged, r.clock.isSome] ++ s32opt r.start
    ++ u8 (r.clock.getD 0) ++ u32 ((r.stillFrame.map BitVec.toNat).getD 0)

/-- The record that a creation makes, before a still is asked for (spec/08 R153, R155). -/
def State.newObservation (s : State) (link : Link) (kind : ObsKind) (code : List Byte) : Observation where
  id := s.obl.nextId
  code := code
  kind := kind
  state := match kind with
    | .point => .closed
    | .continuous => .opened
  start := s.chainageNow
  finish := none
  clock := clockPosition s.hdp.pan.pos s.hdp.tilt.pos
  fromTether := link == .tether
  fromCarriage := link == .carriage
  frame := s.fxc.counter
  stillFrame := none
  closedByDatum := false
  remark := []

/-- The still that a creation asks for under AUTO_STILL (spec/08 R163). -/
def State.autoStill (s : State) (link : Link) : FrameTimer × Option Count :=
  match s.set.nat .autoStill with
  | 0 => (s.fxc, none)
  | k =>
    let r := s.fxc.askStill link (k == 2)
    (r.1, some r.2)

/-- A created record joins the log: the next id advances, and a POINT record with a chainage joins the guard memory
(spec/08 R148, R151). -/
def ObsLog.append (o : ObsLog) (r : Observation) : ObsLog where
  records := o.records ++ [r]
  nextId := o.nextId + 1
  guardMemory := if r.kind = .point ∧ r.start.isSome then o.guardMemory ++ [r.id] else o.guardMemory

/-- A record is created (spec/08 R153, R155, R161 to R163). -/
def State.createObservation (s : State) (link : Link) (kind : ObsKind) (code : List Byte) : State × Observation :=
  let a := s.autoStill link
  let r := { s.newObservation link kind code with stillFrame := a.2 }
  let s1 : State := { s with fxc := a.1, obl := s.obl.append r }.handMark r.id code
  (if s1.obl.records.length = 88 then s1.raise .logNearFull else s1, r)

/-- MARK POINT (spec/08 R152). -/
def State.markPoint (s : State) (link : Link) (p : List Byte) : Answer :=
  let code := p.take 4
  match s.obl.candidate code s.chainageNow (s.set.num .guardWidth) with
  | some r =>
    ⟨{ s with obl := s.obl.change r.id fun r => r.joinedBy link }.handMark r.id r.code, .merged, markContent r true⟩
  | none =>
    if s.obl.full then .bare s .full
    else
      let c := s.createObservation link .point code
      ⟨c.1, .done, markContent c.2 false⟩

/-- OPEN OBS (spec/08 R155). -/
def State.openObs (s : State) (link : Link) (p : List Byte) : Answer :=
  if s.obl.full then .bare s .full
  else if 4 ≤ s.obl.openOnes.length then .bare s .full
  else
    let c := s.createObservation link .continuous (p.take 4)
    ⟨c.1, .done, markContent c.2 false⟩

/-- CLOSE OBS (spec/08 R156). -/
def State.closeObs (s : State) (p : List Byte) : Answer :=
  let id := u16At p 0
  match s.obl.find id with
  | none => .bare s .noSuch
  | some r =>
    if r.state ≠ .opened then .bare s .wrongState
    else match s.chainageNow with
      | none => .bare s .notReady
      | some x =>
        ⟨{ s with obl := s.obl.change id fun r => { r with state := .closed, finish := some x, closedByDatum := false } },
          .done, u16 id ++ s32opt r.start ++ s32 x⟩

/-- VOID OBS (spec/08 R157): a closed continuous record loses its end; the id leaves the guard memory. -/
def State.voidObs (s : State) (link : Link) (p : List Byte) : Answer :=
  let id := u16At p 0
  match s.obl.find id with
  | none => .bare s .noSuch
  | some r =>
    if link = .carriage ∧ !r.fromCarriage then .bare s .notPermitted
    else if r.state = .voided then .bare s .wrongState
    else
      let o := s.obl.change id fun r => { r with state := .voided, finish := none }
      ⟨{ s with obl := { o with guardMemory := o.guardMemory.filter fun g => g != id } }, .done, u16 id⟩

/-- ANNOTATE (spec/08 R158). -/
def State.annotate (s : State) (p : List Byte) : Answer :=
  let id := u16At p 0
  let text := textAt p 2
  match s.obl.find id with
  | none => .bare s .noSuch
  | some r =>
    if r.state = .voided then .bare s .wrongState
    else
      ⟨{ s with obl := s.obl.change id fun r => { r with remark := text.take 32 } },
        doneOr (decide (32 < text.length)), u16 id ++ u8 (text.take 32).length⟩

/-- The code of a record's state (spec/12 section 12.7). -/
def ObsState.code : ObsState → Nat
  | .opened => 0
  | .closed => 1
  | .voided => 2

/-- A record as sent (spec/12 section 12.7). -/
def Observation.encode (r : Observation) : List Byte :=
  u16 r.id ++ r.code
    ++ flags [r.start.isSome, r.finish.isSome, r.clock.isSome, r.stillFrame.isSome, r.closedByDatum, r.fromTether,
      r.fromCarriage, r.kind == .continuous]
    ++ u8 r.state.code ++ u32 r.frame.toNat
    ++ (r.start.map s32).getD [] ++ (r.finish.map s32).getD [] ++ (r.clock.map u8).getD []
    ++ (r.stillFrame.map fun f => u32 f.toNat).getD [] ++ textField r.remark

/-- The log's summary (spec/12 section 12.5). -/
def ObsLog.summary (o : ObsLog) : List Byte :=
  u8 o.records.length ++ u8 o.openOnes.length ++ flags [!o.records.isEmpty]
    ++ u16 ((o.records.head?.map (·.id)).getD 0) ++ u16 ((o.records.getLast?.map (·.id)).getD 0) ++ u32 o.nextId

/-- READ LOG (spec/08 R159): up to the count, while each next record fits in 107 bytes. -/
def State.readLog (s : State) (p : List Byte) : Answer :=
  let count := byteAt p 2
  let n := clampNat 1 3 count
  let asked := ((s.obl.records.filter fun r => decide (u16At p 0 ≤ r.id)).take n).map Observation.encode
  let sent := takeFitting 107 asked
  ⟨s, doneOr (n != count), s.obl.summary ++ u8 sent.length ++ sent.flatten⟩

/-- A record that a trim removes (spec/08 R160). -/
def Observation.trimmable (upTo : Nat) (r : Observation) : Bool := decide (r.id ≤ upTo) && !(r.state == .opened)

/-- The log after a trim (spec/08 R160). -/
def ObsLog.trim (o : ObsLog) (upTo : Nat) : ObsLog :=
  let gone := (o.records.takeWhile (Observation.trimmable upTo)).map (·.id)
  { o with
    records := o.records.dropWhile (Observation.trimmable upTo)
    guardMemory := o.guardMemory.filter fun g => !gone.contains g }

/-- TRIM LOG (spec/08 R160). -/
def State.trimLog (s : State) (p : List Byte) : Answer :=
  let o := s.obl.trim (u16At p 0)
  ⟨{ s with obl := o }, .done, u8 (s.obl.records.length - o.records.length) ++ o.summary⟩

end Sys2Proof.Machine
end

