-- ==== Sys2Proof/Machine/Wire.lean ====
section
/-! DEFINITION. Frames on the wire (spec/10 section 10.1): the CRC, the frame's bytes on each link, and the two receive
framers. -/

namespace Sys2Proof.Machine

/-- One bit of the CRC: polynomial 0x1021, most significant bit first (spec/10 R177). -/
def crcBit (r : BitVec 16) : BitVec 16 := if r.msb then (r <<< 1) ^^^ 0x1021 else r <<< 1

/-- One byte into the CRC register. -/
def crcByte (r : BitVec 16) (b : Byte) : BitVec 16 :=
  crcBit (crcBit (crcBit (crcBit (crcBit (crcBit (crcBit (crcBit (r ^^^ (b.setWidth 16 <<< 8)))))))))

/-- The CRC-16 of a run of bytes, from 0xFFFF, with no final XOR (spec/10 R177). -/
def crc16 (bytes : List Byte) : BitVec 16 := bytes.foldl crcByte 0xFFFF

/-- LEN, TAG, KIND and payload. -/
def Frame.body (f : Frame) : List Byte := BitVec.ofNat 8 (2 + f.payload.length) :: f.tag :: f.kind :: f.payload

/-- The two CRC bytes of a body, high byte first. -/
def crcBytes (body : List Byte) : List Byte := u16 (crc16 body).toNat

/-- The frame's body with its CRC. -/
def Frame.checked (f : Frame) : List Byte := f.body ++ crcBytes f.body

/-- A body byte on the tether: 0x7E and 0x7D are sent as 0x7D and the byte XOR 0x20 (spec/10 R177). -/
def escapeByte (b : Byte) : List Byte := if b = 0x7E ∨ b = 0x7D then [0x7D, b ^^^ 0x20] else [b]

/-- The frame on the tether line: the flag, then body and CRC escaped. -/
def Frame.tetherBytes (f : Frame) : List Byte := 0x7E :: f.checked.flatMap escapeByte

/-- The frame on the carriage port: the flag, then body and CRC as they are. -/
def Frame.carriageBytes (f : Frame) : List Byte := 0x7E :: f.checked

/-- A LEN out of 2 to 122 (spec/10 R177). -/
def badLen (n : Nat) : Bool := decide (n < 2) || decide (122 < n)

/-- A collected body with its two CRC bytes: a valid frame, or a CRC error. -/
def checkBody (bytes : List Byte) : RxEvent :=
  let body := bytes.take (bytes.length - 2)
  if bytes.drop (bytes.length - 2) = crcBytes body then .valid ⟨body.getD 1 0, body.getD 2 0, body.drop 3⟩ else .crcError

/-- A body byte joins a frame being collected: LEN is tested first, and LEN + 2 further bytes complete the frame
(spec/10 R178, R184). -/
def collect (body : List Byte) (b : Byte) : Framer × Option RxEvent :=
  let bytes := body ++ [b]
  let len := byteAt bytes 0
  if badLen len then (.hunt, some .lengthError)
  else if bytes.length = len + 3 then (.hunt, some (checkBody bytes))
  else (.collecting false bytes, none)

/-- One byte into the tether receive framer (spec/10 R178). -/
def tetherFeed (f : Framer) (b : Byte) : Framer × Option RxEvent :=
  match f with
  | .hunt => if b = 0x7E then (.collecting false [], none) else (.hunt, none)
  | .collecting escaped body =>
    if b = 0x7E then (.collecting false [], some .broken)
    else if escaped then collect body (b ^^^ 0x20)
    else if b = 0x7D then (.collecting true body, none)
    else collect body b

/-- One byte into the carriage receive framer (spec/10 R184). -/
def carriageFeed (f : Framer) (b : Byte) : Framer × Option RxEvent :=
  match f with
  | .hunt =>
    if b = 0 then (.hunt, none)
    else if b = 0x7E then (.collecting false [], none)
    else (.hunt, some .stray)
  | .collecting _ body => collect body b

/-- A run of bytes into a framer. The answer is the framer after them and the event of the LAST byte, or nothing when a
byte before the last makes an event: the run then is not one step (log 7). -/
def feedRun (feed : Framer → Byte → Framer × Option RxEvent) : Framer → List Byte → Option (Framer × Option RxEvent)
  | f, [] => some (f, none)
  | f, [b] => some (feed f b)
  | f, b :: rest =>
    match feed f b with
    | (f', none) => feedRun feed f' rest
    | (_, some _) => none

end Sys2Proof.Machine
end

