-- ==== Sys2Proof/Machine/Stamps.lean ====
section
/-! DEFINITION. The Stamp Unit (spec/06): the stamp of a frame, the ring with its two cursors, READ STAMPS, the tether
stream, and the stamp encoding of spec/12 section 12.6. -/

namespace Sys2Proof.Machine

/-! ## Building (spec/06 section 6.1) -/

/-- The exposure midpoint of a frame that ends at a boundary (spec/03 R53). -/
def midpoint (boundary exposure : Nat) : Nat := boundary - exposure / 2

/-- The provisional chainage at an exposure midpoint, saturated, in micrometres (spec/06 R119). -/
def State.provisionalAtTime (s : State) (t : Nat) : Int := s.provisionalAt (s.wct.sampleAt t)

/-- The stamp of the frame ending at a boundary, from its record and the blocks as they stand (spec/06 R118 to R124). -/
def State.buildStamp (s : State) (frame : Count) (boundary : Nat) (f : FrameSet) : Stamp :=
  let t := midpoint boundary f.exposure
  { frame := frame
    time := s.surveyTime t
    chainage := if s.chr.datumTaken then some (s.linkMm (s.provisionalAtTime t)) else none
    quality := s.quality
    datumPending := s.chr.pendingDatum.isSome
    speed := s.chr.speed
    slackMm := s.slackMm
    pan := (s.hdp.anglesAt t).1
    tilt := (s.hdp.anglesAt t).2
    moving := s.movingFlag boundary f.exposure
    exposure := f.exposure
    gain := f.gain
    level := f.level
    strobe := f.strobe
    still := f.still
    clean := f.clean
    lightLimited := f.lightLimited
    late := f.late
    inclination := s.drv.effInclination
    openIds := s.obl.openOnes.map (·.id)
    markId := s.stu.pendingMark.map (·.id) }

/-! ## The ring (spec/06 section 6.2) -/

/-- A link's cursor. -/
def StampUnit.cursor (u : StampUnit) : Link → Count
  | .tether => u.cursorTether
  | .carriage => u.cursorCarriage

/-- Move a link's cursor. -/
def StampUnit.putCursor (u : StampUnit) (l : Link) (c : Count) : StampUnit :=
  match l with
  | .tether => { u with cursorTether := c }
  | .carriage => { u with cursorCarriage := c }

/-- A link's lost count. -/
def StampUnit.lost (u : StampUnit) : Link → Nat
  | .tether => u.lostTether
  | .carriage => u.lostCarriage

/-- One stamp lost to a link. -/
def StampUnit.addLost (u : StampUnit) : Link → StampUnit
  | .tether => { u with lostTether := sat16 u.lostTether 1 }
  | .carriage => { u with lostCarriage := sat16 u.lostCarriage 1 }

/-- The write point: one past the newest stamp, or the next frame number with the ring empty (spec/06 R125). -/
def StampUnit.writePoint (u : StampUnit) (c : Count) : Count :=
  match u.stamps.getLast? with
  | some st => st.frame + 1
  | none => c

/-- The held stamps from a link's cursor on (spec/06 R125, R127). -/
def StampUnit.waiting (u : StampUnit) (l : Link) : List Stamp := u.stamps.dropWhile fun st => st.frame != u.cursor l

/-- The tether is charged for no stamp that the stream would have stepped over (spec/06 R126). -/
def State.exempt (s : State) (l : Link) (gone : Count) : Bool :=
  l == .tether && s.set.num .stream == 1 && decide (gone.toNat % s.set.nat .decimation ≠ 0)

/-- A replaced stamp's effect on one link: a cursor that named it advances to the new oldest, and the link is charged
unless it is exempt (spec/06 R126). -/
def State.lapLink (s : State) (gone : Count) (l : Link) : State :=
  if s.stu.cursor l = gone then
    let moved := s.stu.putCursor l (gone + 1)
    if s.exempt l gone then { s with stu := moved }
    else { s with stu := moved.addLost l }.raiseFor .stampsLost l
  else s

/-- The oldest stamp leaves a full ring (spec/06 R126). -/
def State.lapOldest (s : State) : State :=
  match s.stu.stamps with
  | [] => s
  | old :: rest =>
    if rest.length < 127 then s
    else ({ s with stu := { s.stu with stamps := rest } }.lapLink old.frame .tether).lapLink old.frame .carriage

/-- A stamp is written at the write point (spec/06 R125, R126). -/
def State.writeStamp (s : State) (st : Stamp) : State :=
  let s1 := s.lapOldest
  { s1 with stu := { s1.stu with stamps := s1.stu.stamps ++ [st] } }

/-! ## The stamp as sent (spec/12 section 12.6) -/

/-- The code of a quality (spec/12 section 12.3). -/
def Quality.code : Quality → Nat
  | .good => 0
  | .slack => 1
  | .slip => 2
  | .cable => 3
  | .wheel => 4
  | .noDatum => 5

/-- A stamp's encoding (spec/12 R204). -/
def Stamp.encode (st : Stamp) : List Byte :=
  u32 st.frame.toNat ++ u32 st.time
    ++ flags [st.chainage.isSome, st.pan.isSome, st.tilt.isSome, st.inclination.isSome, st.markId.isSome]
    ++ u8 st.quality.code
    ++ flags [st.datumPending, st.moving, st.strobe, st.still, st.clean, st.lightLimited, st.late]
    ++ s16 st.speed ++ u16 st.slackMm.toNat
    ++ u16 st.exposure ++ u16 st.gain ++ u16 st.level
    ++ u8 st.openIds.length ++ st.openIds.flatMap u16
    ++ (st.chainage.map s32).getD [] ++ (st.pan.map s16).getD [] ++ (st.tilt.map s16).getD []
    ++ (st.inclination.map s16).getD [] ++ (st.markId.map u16).getD []

/-! ## READ STAMPS (spec/06 section 6.3) -/

/-- The header of a READ STAMPS reply, read after the cursor has advanced (spec/12 section 12.5). It carries the
requesting link's cursor and lost count, as R127 and R204 have it, and not both links', as R125 says: the model's choice
(log 49). -/
def State.stampsHeader (s : State) (l : Link) (returned : Nat) : List Byte :=
  u8 returned ++ u32 (s.stu.cursor l).toNat ++ u16 (s.stu.waiting l).length
    ++ flags [!s.stu.stamps.isEmpty, s.set.num .stream == 1, s.stu.inFlight.isSome]
    ++ u32 ((s.stu.stamps.head?.map fun st => st.frame.toNat).getD 0)
    ++ u32 ((s.stu.stamps.getLast?.map fun st => st.frame.toNat).getD 0)
    ++ u16 (s.stu.lost l) ++ u8 (s.set.nat .decimation)

/-- READ STAMPS (spec/06 R127): up to the count, while each next stamp fits in 100 bytes; the cursor passes them. -/
def State.readStamps (s : State) (l : Link) (p : List Byte) : Answer :=
  let count := byteAt p 0
  let n := clampNat 1 4 count
  let sent := takeFitting 100 (((s.stu.waiting l).take n).map Stamp.encode)
  let s1 := { s with stu := s.stu.putCursor l (s.stu.cursor l + BitVec.ofNat 32 sent.length) }
  ⟨s1, doneOr (n != count), s1.stampsHeader l sent.length ++ sent.flatten⟩

/-! ## The tether stream (spec/06 section 6.4) -/

/-- The stream's first four conditions and the fifth, that the tether cursor names a held stamp (spec/06 R130). -/
def State.streamReady (s : State) : Bool :=
  s.set.num .stream == 1 && s.tlp.up && s.tlp.line.isNone && s.tlp.transmit.isEmpty
    && !(s.stu.waiting .tether).isEmpty

/-- A frame number that the stream steps over (spec/06 R130). -/
def steppedOver (k : Nat) (st : Stamp) : Bool := decide (st.frame.toNat % k ≠ 0)

/-- A stamp goes onto the tether line as a STAMP message (spec/06 R130, spec/12 section 12.2). -/
def State.sendStamp (s : State) (st : Stamp) : State :=
  { s with
    stu := { s.stu with cursorTether := st.frame + 1, inFlight := some st.frame }
    tlp := { s.tlp with line := some ⟨Frame.tetherBytes ⟨0, 0xC0, st.encode⟩, s.timeBase, true⟩ } }

/-- A stream decision (spec/06 R130): the cursor steps over the stamps that are not multiples of DECIMATION, and the
next one is sent. -/
def State.streamDecision (s : State) : State :=
  if s.streamReady then
    let l := s.stu.waiting .tether
    match l.dropWhile (steppedOver (s.set.nat .decimation)) with
    | st :: _ => s.sendStamp st
    | [] => { s with stu := { s.stu with cursorTether := s.stu.cursorTether + BitVec.ofNat 32 l.length } }
  else s

end Sys2Proof.Machine
end

