-- ==== Sys2Proof/Machine/Overlay.lean ====
section
/-! DEFINITION. The Overlay Generator (spec/07): the texts of the sources, the composition of the rows, the flash record
and the drawn pixels. Character codes are those of spec/07 R139. -/

namespace Sys2Proof.Machine

/-! ## Texts (spec/07 sections 7.4 and 7.5) -/

/-- The character of a decimal digit. -/
def digitChar (d : Nat) : Byte := BitVec.ofNat 8 (0x30 + d)

/-- A number's decimal digits without leading zeros, for numbers of at most `fuel + 1` digits. -/
def decimalDigits : Nat → Nat → List Byte
  | 0, n => [digitChar (n % 10)]
  | fuel + 1, n => if n < 10 then [digitChar n] else decimalDigits fuel (n / 10) ++ [digitChar (n % 10)]

/-- A number of at most eleven digits in decimal. -/
def decimal (n : Nat) : List Byte := decimalDigits 10 n

/-- Two digits. -/
def twoDigits (n : Nat) : List Byte := [digitChar (n / 10 % 10), digitChar (n % 10)]

/-- The letter of a quality (spec/07 R140). -/
def Quality.letter : Quality → Byte
  | .good => 0x47
  | .slack => 0x4B
  | .slip => 0x53
  | .cable => 0x43
  | .wheel => 0x57
  | .noDatum => 0x4E

/-- The metres of the overlay chainage, rounded to the centimetre; two hyphens each side when it is absent
(spec/07 R140). -/
def metresText : Option Int → List Byte
  | none => [0x2D, 0x2D, 0x2E, 0x2D, 0x2D]
  | some u =>
    let cm := roundDiv u 10000
    (if cm < 0 then [0x2D] else []) ++ decimal (cm.natAbs / 100) ++ [0x2E] ++ twoDigits (cm.natAbs % 100)

/-- The CHAINAGE source (spec/07 R140). -/
def chainageText (u : Option Int) (q : Quality) (datumPending : Bool) : List Byte :=
  metresText u ++ [0x6D, 0x20, q.letter] ++ (if datumPending then [0x2A] else [])

/-- An angle in degrees with one decimal and the degree sign (spec/07 R141). -/
def angleText (a : Nat) : List Byte := decimal (a / 10) ++ [0x2E] ++ decimal (a % 10) ++ [0x7F]

/-- The pan part of the HEAD source (spec/07 R141). -/
def panText : Option Int → List Byte
  | none => [0x50, 0x2D, 0x2D]
  | some p => 0x50 :: angleText p.natAbs

/-- The tilt part of the HEAD source (spec/07 R141). -/
def tiltText : Option Int → List Byte
  | none => [0x54, 0x2D, 0x2D]
  | some t => 0x54 :: ((if t < 0 then [0x2D] else if 0 < t then [0x2B] else []) ++ angleText t.natAbs)

/-- The HEAD source (spec/07 R141). -/
def headText (pan tilt : Option Int) : List Byte := panText pan ++ 0x20 :: tiltText tilt

/-- A number right-aligned in four places (spec/07 R142). -/
def rightAligned (n : Nat) : List Byte := List.replicate (4 - (decimal n).length) 0x20 ++ decimal n

/-- The STATUS source (spec/07 R142). -/
def statusText (st : Stamp) : List Byte :=
  0x49 :: rightAligned st.level ++ [0x20, if st.lightLimited then 0x4C else 0x20,
    if st.quality = .slip then 0x53 else 0x20]

/-- The MARK source: the flash while frames remain, blank otherwise (spec/07 R143). -/
def markText : Option Flash → List Byte
  | some f => if 0 < f.remaining then f.mark.code ++ [0x20, 0x23] ++ decimal f.mark.id else []
  | none => []

/-! ## Composition (spec/07 section 7.2) -/

/-- A code that the overlay cannot draw becomes a question mark (spec/07 R139). -/
def drawable (c : Byte) : Byte := if 0x20 ≤ c.toNat ∧ c.toNat ≤ 0x7F then c else 0x3F

/-- A text fitted to a width, then substituted cell by cell (spec/07 R136, R139). -/
def fitText (width : Nat) (t : List Byte) : List Byte :=
  ((t ++ List.replicate width 0x20).take width).map drawable

/-- The flash record after a stamp's mark (spec/07 R143). -/
def State.takeFlash (s : State) (mark : Option Mark) : Option Flash :=
  match mark with
  | some m => some ⟨m, s.set.nat .flashTime * s.fxc.rate⟩
  | none => s.ovg.flash

/-- The text of a row's source (spec/07 R140 to R144). -/
def State.rowText (s : State) (n : Fin 4) (st : Stamp) (u : Option Int) (flash : Option Flash) : List Byte :=
  match s.set.nat (.row n .source) with
  | 1 => chainageText u st.quality st.datumPending
  | 2 => headText st.pan st.tilt
  | 3 => markText flash
  | 4 => statusText st
  | _ => s.set.texts[n]

/-- A row that is on and not wholly below the frame (spec/07 R136, R137). -/
def State.rowDrawn (s : State) (n : Fin 4) : Bool :=
  s.set.num (.row n .enable) == 1 && decide (s.set.nat (.row n .line) < s.fxc.lines / 20)

/-- A row's composition. -/
def State.composeRow (s : State) (st : Stamp) (u : Option Int) (flash : Option Flash) (n : Fin 4) : Option OverlayRow :=
  if s.rowDrawn n then
    some ⟨s.set.nat (.row n .column), s.set.nat (.row n .line),
      fitText (s.set.nat (.row n .width)) (s.rowText n st u flash)⟩
  else none

/-- The composition of a frame from its stamp, its overlay chainage and its mark (spec/07 R136, R143, R145). -/
def State.compose (s : State) (st : Stamp) (u : Option Int) (mark : Option Mark) : State :=
  let flash := s.takeFlash mark
  { s with ovg := { s.ovg with
      rows := if st.clean then [] else (List.finRange 4).filterMap (s.composeRow st u flash)
      flash := flash.map fun f => { f with remaining := f.remaining - 1 } } }

/-! ## Drawing (spec/07 section 7.3) -/

/-- The code of a row's cell at a cell place, when the row has one there. -/
def OverlayRow.cellAt (r : OverlayRow) (column line : Nat) : Option Byte :=
  if r.line = line ∧ r.column ≤ column then r.cells[column - r.column]? else none

/-- A space is a cell of field alone; the shapes of the other glyphs are free (spec/07 R138; log 10). -/
def glyphAt (code : Byte) (x y : Nat) : Bool := code != 0x20 && Config.glyph code x y

/-- The code drawn at a cell place: that of the highest row with a cell there (spec/07 R138). -/
def drawnCode (rows : List OverlayRow) (column line : Nat) : Option Byte :=
  (rows.filterMap fun r => r.cellAt column line).getLast?

/-- The pixel that leaves the Overlay Generator: glyph 940, field 64, the sensor's own outside the cells
(spec/07 R138). -/
def drawnPixel (rows : List OverlayRow) (x y : Nat) (value : BitVec 10) : BitVec 10 :=
  match drawnCode rows (x / 12) (y / 20) with
  | some code => if glyphAt code (x % 12) (y % 20) then 940 else 64
  | none => value

end Sys2Proof.Machine
end

