-- ==== Sys2Proof/Machine/Frames.lean ====
section
/-! DEFINITION. The Frame Timer and Exposure Controller, the sensor port and the Image Statistics Unit (spec/03): the
boundary, the settings pipeline, the commit outcomes and the pixels. -/

namespace Sys2Proof.Machine

/-! ## The sensor port (spec/03 R51, R57; log 23) -/

/-- The start-up write is in flight (spec/03 R51). -/
def SensorPort.startingUp (p : SensorPort) : Bool :=
  match p.write with
  | some w => w.period.isSome
  | none => false

/-- The bytes of a write: 6 for E and G, and 2 more for the frame period in the start-up write (spec/03 R57). -/
def SensorWrite.size (w : SensorWrite) : Nat := if w.period.isSome then 8 else 6

/-- The bytes of a write; their layout is a free value (log 51). -/
def SensorWrite.bytes (w : SensorWrite) : List Byte :=
  (List.range w.size).map (Config.sensorByte w.period w.exposure w.gain)

/-- The last byte of the write in flight has been clocked. -/
def SensorPort.allSent (p : SensorPort) : Bool :=
  match p.write with
  | some w => decide (w.size ≤ p.sent.length)
  | none => false

/-- The select line is released (spec/03 R57, R58). -/
def SensorPort.release (p : SensorPort) : SensorPort := { p with write := none }

/-- A line gap: the next byte of a write for a frame is clocked to the sensor (spec/03 R57). -/
def SensorPort.lineGap (p : SensorPort) : SensorPort :=
  match p.write with
  | some w => if w.period.isSome then p else { p with sent := w.bytes.take (p.sent.length + 1) }
  | none => p

/-! ## Image statistics (spec/03 section 3.3) -/

/-- The whole frame as a window. -/
def FrameTimer.wholeFrame (f : FrameTimer) : MeterWindow := ⟨0, 720, 0, f.lines⟩

/-- The window of the stored metering settings, clipped to the frame (spec/03 R60). -/
def State.meterWindow (s : State) : MeterWindow :=
  let x := s.set.nat .meterX
  let y := s.set.nat .meterY
  let x1 := min 720 (x + s.set.nat .meterW)
  let y1 := min s.fxc.lines (y + s.set.nat .meterH)
  if x < x1 ∧ y < y1 then ⟨x, x1, y, y1⟩ else s.fxc.wholeFrame

/-- A pixel lies in the window. -/
def MeterWindow.holds (w : MeterWindow) (x y : Nat) : Bool :=
  decide (w.x0 ≤ x) && decide (x < w.x1) && decide (w.y0 ≤ y) && decide (y < w.y1)

/-- A pixel is counted when it lies in the window (spec/03 R61). -/
def ImageStats.take (i : ImageStats) (x y : Nat) (value : BitVec 10) : ImageStats :=
  if i.window.holds x y then
    { i with
      count := i.count + 1, sum := i.sum + value.toNat
      bright := if 1020 ≤ value.toNat then i.bright + 1 else i.bright }
  else i

/-- M and clip of what arrived; invalid when no pixel of the window did (spec/03 R61). -/
def ImageStats.formed (i : ImageStats) : Option Measure :=
  if i.count = 0 then none else some ⟨i.sum / i.count, i.bright * 1000 / i.count⟩

/-- At a boundary the statistics are formed and the counts start again, in the window of the next readout
(spec/03 R60, R61). -/
def State.formStats (s : State) : State := { s with ist := ⟨s.meterWindow, 0, 0, 0, s.ist.formed⟩ }

/-- The line gap behind a pixel: the last pixel of a line that is not the frame's last is followed by one
(spec/03 R57; log 23). -/
def State.gapAfter (s : State) (x y : Nat) : SensorPort :=
  if x = 719 ∧ y + 1 < s.fxc.lines then s.ssp.lineGap else s.ssp

/-- A pixel of the readout arrives: it is measured, and the Overlay Generator passes it on; a line that it ends is
followed by a line gap (spec/03 R57, R61, spec/07 R138). -/
def State.pixel (s : State) (x y : Nat) (value : BitVec 10) : State :=
  if s.fxc.ended.isSome ∧ x < 720 ∧ y < s.fxc.lines then
    { s with
      ist := s.ist.take x y value
      ssp := s.gapAfter x y
      ovg := { s.ovg with pixel := some (drawnPixel s.ovg.rows x y value) } }
  else s

/-- PIXEL_ARRIVAL (spec/03 R61). -/
def execPixelArrival (dt : Nat) (x y : Nat) (value : BitVec 10) (s : State) : Host.Outcome State Fault Refusal :=
  .next ((s.elapse dt).pixel x y value)

/-! ## The computation (spec/03 section 3.4) -/

/-- What the computation for the frame numbered c reads (spec/03 section 3.4). -/
def State.exposureInputs (s : State) (measured : FrameSet) : ExposureInputs where
  tf := s.fxc.period
  program := Program.ofCode (s.set.num .exposureProgram)
  target := s.set.nat .target
  deadband := s.set.nat .deadband
  clipLimit := s.set.nat .clipLimit
  blurAllow := s.set.nat .blurAllow
  headCap := s.set.nat .headMotionCap
  gainMax := s.set.nat .gainMax
  eFixed := s.set.nat .eFixed
  gFixed := s.set.nat .gFixed
  speed := s.chr.speed
  motion := s.hdp.inMotion
  ceiling := s.ltm.ceiling
  pavail := s.pavail
  pfull := s.profilePower
  source := s.sourceInForce
  manual := s.manualInForce
  strobe := s.set.num .strobe == 1
  still := match s.fxc.pendingStill with
    | some p => if p.frame = s.fxc.counter then some p.clean else none
    | none => none
  measured := measured
  measure := s.ist.held

/-- The set for the frame numbered c is computed, placed and handed to SSP with its commit deadline
(spec/03 R56, spec/04 R76). -/
def State.computeSet (s : State) (measured : FrameSet) : State :=
  let inputs := s.exposureInputs measured
  let x := inputs.solve
  { s with
    fxc := { s.fxc with
      current := ⟨x, s.storedWeights, false⟩
      commits := s.fxc.commits ++ [⟨0, x, s.storedWeights, s.timeBase + 4000, s.hdp.demand, inputs.headLimit⟩] }
    ldr := { s.ldr with pfull := s.profilePower } }

/-- The first boundary after power-on: frame 1's start-up set is placed, applied, and taken into drive
(spec/03 R55, spec/04 R78). -/
def State.placeStartUp (s : State) : State :=
  { s with
    fxc := { s.fxc with current := .startUp }
    ldr := s.ldr.drive s.fxc.counter PipeSlot.startUp.set PipeSlot.startUp.profile }

/-! ## The boundary (spec/03 section 3.1; the order inside the step: log 15) -/

/-- The applied set of the frame that ends: the one placed for it, or, when its commit outcome has not come, a late copy
of the frame before (log 16). -/
def FrameTimer.endingSlot (f : FrameTimer) : PipeSlot :=
  if f.current.settled then f.current
  else match f.ended with
    | some p => ⟨p.set.lateCopy, p.profile, true⟩
    | none => f.current

/-- LIGHT_LIMITED is raised at the first limited frame after an unlimited one (spec/03 R59). -/
def State.checkLimited (s : State) (f : FrameSet) : State :=
  let s1 := { s with fxc := { s.fxc with prevLimited := f.lightLimited } }
  if f.lightLimited && !s.fxc.prevLimited then s1.raise .lightLimited else s1

/-- The stamp write of a frame is reported to FXC: the pending still of that frame is done (spec/03 R73). -/
def State.stillWritten (s : State) (frame : Count) : State :=
  match s.fxc.pendingStill with
  | some p =>
    if p.frame = frame then { s with fxc := { s.fxc with pendingStill := none } }.raiseFor .stillDone p.requester else s
  | none => s

/-- The overlay chainage of a frame (spec/07 R136). -/
def State.overlayChainage (s : State) (t : Nat) : Option Int :=
  if s.chr.datumTaken then some (s.withLens (s.provisionalAtTime t)) else none

/-- The Stamp Unit's part: the stamp is built, the pending mark cleared, the stamp written and handed to the Overlay
Generator, and the write reported (spec/06 R118, R124). The mark of a frame starts its flash on that frame, drawn unless
its own stamp is clean; the clean still that the mark asked for is a later frame: the model's choice (log 58). -/
def State.stampFrame (s : State) (f : FrameSet) : State :=
  let frame := s.fxc.counter
  let st := s.buildStamp frame s.timeBase f
  let mark := s.stu.pendingMark
  let u := s.overlayChainage (midpoint s.timeBase f.exposure)
  let s1 := { s with stu := { s.stu with pendingMark := none } }
  ((s1.writeStamp st).compose st u mark).stillWritten frame

/-- The counter advances and the pipeline moves on (spec/03 R52, R55). -/
def State.advanceFrame (s : State) (slot : PipeSlot) : State :=
  { s with fxc := { s.fxc with
      counter := s.fxc.counter + 1
      ended := some slot
      commits := s.fxc.commits.map fun c => { c with age := c.age + 1 } } }

/-- The lamp window at a boundary: an open one closes, the next is timed from here (spec/04 R79). -/
def State.timeWindow (s : State) : State := { s with ldr := { s.ldr with window := .timed s.timeBase } }

/-- A boundary (spec/03 R52); while the start-up write is in flight the sensor produces none (R51). -/
def State.boundary (s : State) : State :=
  if s.ssp.startingUp then s
  else
    let slot := s.fxc.endingSlot
    let s1 := (((s.formStats).checkLimited slot.set).stampFrame slot.set).advanceFrame slot
    let s2 := match s.fxc.ended with
      | none => s1.placeStartUp
      | some measured => s1.computeSet measured.set
    s2.timeWindow.streamDecision

/-- FRAME_BOUNDARY (spec/03 R52). -/
def execFrameBoundary (dt : Nat) (s : State) : Host.Outcome State Fault Refusal := .next (s.elapse dt).boundary

/-! ## The writes (spec/03 R51, R57) -/

/-- The sensor has taken the start-up write: all 8 bytes, clocked without waiting for line gaps (spec/03 R51). -/
def State.startupWritten (s : State) : State :=
  match s.ssp.write with
  | some w => if w.period.isSome then { s with ssp := ⟨none, w.bytes⟩ } else s
  | none => s

/-- STARTUP_WRITE_COMPLETE (spec/03 R51). -/
def execStartupWriteComplete (dt : Nat) (s : State) : Host.Outcome State Fault Refusal :=
  .next (s.elapse dt).startupWritten

/-- SSP begins the write of E and G of the oldest waiting set when it carries none (spec/03 R57). -/
def State.writeStarts (s : State) : State :=
  match s.ssp.write, s.fxc.commits with
  | none, c :: _ => { s with ssp := ⟨some ⟨none, c.set.exposure, c.set.gain⟩, []⟩ }
  | _, _ => s

/-- SENSOR_WRITE_START (spec/03 R57). -/
def execSensorWriteStart (dt : Nat) (s : State) : Host.Outcome State Fault Refusal := .next (s.elapse dt).writeStarts

/-! ## Commit (spec/03 section 3.2) -/

/-- Clearance is given at a commit outcome when the demand stood at the set's computation and the applied set is within
the HEAD_MOTION_CAP of that computation (spec/03 R65; log 37). -/
def State.clearanceAt (s : State) (c : Commit) (applied : FrameSet) : State :=
  if s.fxc.clearance = .waiting ∧ c.demandStood ∧ applied.exposure ≤ c.cap then s.giveClearance else s

/-- The slot of the frame a commit belongs to takes its applied set (spec/03 R58; an outcome after the frame's own
boundary: log 16). -/
def FrameTimer.place (f : FrameTimer) (age : Nat) (slot : PipeSlot) : FrameTimer :=
  match age with
  | 0 => { f with current := slot }
  | 1 => { f with ended := some slot }
  | _ => f

/-- A commit outcome: the select is released with the bytes clocked so far, the applied set is placed, the Lamp Driver
takes it into drive, clearance may be given (spec/03 R58, R59, R65, spec/04 R78). The drive record's frame number is the
counter less the commit's age, also for a frame whose boundary and a survey restart came before its outcome, to whose
number R75 gives no value: the model's choice (log 55). -/
def State.commitOutcome (s : State) (c : Commit) (rest : List Commit) (slot : PipeSlot) : State :=
  State.clearanceAt
    { s with
      ssp := s.ssp.release
      fxc := { s.fxc with commits := rest }.place c.age slot
      ldr := s.ldr.drive (s.fxc.counter - BitVec.ofNat 32 c.age) slot.set slot.profile }
    c slot.set

/-- The write of the oldest outstanding set completes once its last byte has been clocked: the computed set is applied,
settings-late clear (spec/03 R57, R58). -/
def State.writeCompletes (s : State) : State :=
  match s.fxc.commits with
  | c :: rest =>
    if s.ssp.allSent && !s.ssp.startingUp then
      s.commitOutcome c rest ⟨{ c.set with late := false }, c.profile, true⟩
    else s
  | [] => s

/-- SENSOR_WRITE_COMPLETE (spec/03 R58). -/
def execSensorWriteComplete (dt : Nat) (s : State) : Host.Outcome State Fault Refusal :=
  .next (s.elapse dt).writeCompletes

/-- The late copy that a frame whose deadline expired takes: of the frame before it; one whose own boundary has passed
keeps what it took there (spec/03 R58; log 16). -/
def FrameTimer.lateSlot (f : FrameTimer) (age : Nat) (c : Commit) : PipeSlot :=
  match f.ended with
  | some p => if age = 0 then ⟨p.set.lateCopy, p.profile, true⟩ else p
  | none => ⟨c.set.lateCopy, c.profile, true⟩

/-- The commit deadline of the oldest outstanding set expires, before its write has begun or before its last byte: the
select is released, the sensor discards the partial write, and the frame repeats the set of the one before
(spec/03 R57, R58). -/
def State.commitExpires (s : State) : State :=
  match s.fxc.commits with
  | c :: rest =>
    if c.deadline ≤ s.timeBase ∧ s.ssp.allSent = false then s.commitOutcome c rest (s.fxc.lateSlot c.age c) else s
  | [] => s

/-- COMMIT_DEADLINE_EXPIRY (spec/03 R58). -/
def execCommitDeadlineExpiry (dt : Nat) (s : State) : Host.Outcome State Fault Refusal :=
  .next (s.elapse dt).commitExpires

end Sys2Proof.Machine
end

