-- ==== Sys2Proof/Machine/Ports.lean ====
section
/-! DEFINITION. The Tether Link Port and the Carriage Port (spec/10): kinds and lengths, the request queues and their
service, refusals, the link state, the tether transmitter, and the carriage transactions. -/

namespace Sys2Proof.Machine

/-! ## Kinds (spec/12 R203, spec/10 R190, R191) -/

/-- A KIND that a master may send (spec/10 R190 test 1). -/
def knownKind (k : Byte) : Bool :=
  [0x01, 0x02, 0x10, 0x11, 0x18, 0x19, 0x20, 0x21, 0x22, 0x23, 0x24, 0x25, 0x28, 0x2C, 0x30, 0x31, 0x32, 0x33, 0x34,
    0x35, 0x36, 0x38, 0x3C, 0x3D, 0x3F].contains k.toNat

/-- The KIND is not restricted to the other link (spec/10 R191). -/
def allowedOn (k : Byte) (l : Link) : Bool :=
  match l with
  | .tether => !([0x02, 0x23, 0x24].contains k.toNat)
  | .carriage => !([0x01, 0x20, 0x21, 0x22, 0x36, 0x3F].contains k.toNat)

/-- The payload length is one that the KIND allows (spec/12 R203). -/
def lengthFits (k : Byte) (p : List Byte) : Bool :=
  match k.toNat with
  | 0x01 => p.length == 6
  | 0x02 => p.length == 5
  | 0x11 => p.length == 4
  | 0x18 => setSettingLength p
  | 0x19 => p.length == 2
  | 0x21 => p.length == 5
  | 0x2C => p.length == 1
  | 0x30 => p.length == 4
  | 0x31 => p.length == 4
  | 0x32 => p.length == 2
  | 0x33 => p.length == 2
  | 0x34 => annotateLength p
  | 0x35 => p.length == 3
  | 0x36 => p.length == 2
  | 0x38 => p.length == 1
  | 0x3D => p.length == 2
  | _ => p.isEmpty

/-- The KIND of a reply or a refusal: the request's plus 0x80; 0xFF for one of 0x80 or above, or unknown
(spec/12 R203). -/
def replyKind (k : Byte) : Byte := if knownKind k then k + 0x80 else 0xFF

/-- The frame that answers a request. -/
def replyFrame (request : Frame) (payload : List Byte) : Frame := ⟨request.tag, replyKind request.kind, payload⟩

/-- The BUSY refusal of a request that found its queue full (spec/10 R189). -/
def busyFrame (request : Frame) : Frame := replyFrame request (u8 Status.busy.code)

/-! ## Queues (spec/10 section 10.5) -/

/-- A message is a served reply. -/
def TxMessage.isReply : TxMessage → Bool
  | .reply _ => true
  | .refusal _ => false
  | .attention => false

/-- A message is a refusal. -/
def TxMessage.isRefusal : TxMessage → Bool
  | .reply _ => false
  | .refusal _ => true
  | .attention => false

/-- The served replies that wait on the tether (spec/10 R188). -/
def TetherPort.replies (t : TetherPort) : Nat := t.transmit.countP TxMessage.isReply

/-- The refusals that wait on the tether (spec/10 R189). -/
def TetherPort.refusals (t : TetherPort) : Nat := t.transmit.countP TxMessage.isRefusal

/-- A link's request queue. -/
def State.requests (s : State) : Link → List Frame
  | .tether => s.tlp.requests
  | .carriage => s.cgp.requests

/-- Replace a link's request queue. -/
def State.putRequests (s : State) (l : Link) (q : List Frame) : State :=
  match l with
  | .tether => { s with tlp := { s.tlp with requests := q } }
  | .carriage => { s with cgp := { s.cgp with requests := q } }

/-- The port allows service (spec/10 R186, R188). -/
def State.canServe (s : State) : Link → Bool
  | .tether => decide (s.tlp.replies < 4)
  | .carriage => s.cgp.slot.isNone && s.cgp.refusals.isEmpty

/-- A reply joins the transmit queue, or fills the pending-reply slot (spec/10 R188). -/
def State.reply (s : State) (l : Link) (f : Frame) : State :=
  match l with
  | .tether => { s with tlp := { s.tlp with transmit := s.tlp.transmit ++ [.reply f] } }
  | .carriage => { s with cgp := { s.cgp with slot := some ⟨f, 0⟩ } }

/-- The port's tests 2 and 3 and the owning block's answer (spec/10 R190); test 1 has passed for a KIND of the table. -/
def State.answer (s : State) (l : Link) (request : Frame) (act : List Byte → State → Answer) : Answer :=
  if !allowedOn request.kind l then .bare s .notPermitted
  else if !lengthFits request.kind request.payload then .bare s .badForm
  else act request.payload s

/-- The oldest request of a link is served, when it has the given KIND and the port allows service: it leaves the
queue, its block answers it, and the reply goes out (spec/10 R188, R190). -/
def State.serve (s : State) (l : Link) (kind : Byte) (act : List Byte → State → Answer) : State :=
  match s.requests l with
  | [] => s
  | f :: rest =>
    if f.kind = kind ∧ s.canServe l then
      let a := (s.putRequests l rest).answer l f act
      a.state.reply l (replyFrame f a.payload)
    else s

/-- A served request with a KIND that no master may send is answered BAD_FORM (spec/10 R190 test 1; log 29). -/
def State.serveBadKind (s : State) (l : Link) : State :=
  match s.requests l with
  | [] => s
  | f :: rest =>
    if knownKind f.kind = false ∧ s.canServe l then
      let a := Answer.bare (s.putRequests l rest) .badForm
      a.state.reply l (replyFrame f a.payload)
    else s

/-- REQUEST_BAD_KIND (spec/10 R190). -/
def execRequestBadKind (dt : Nat) (link : Link) (s : State) : Host.Outcome State Fault Refusal :=
  .next ((s.elapse dt).serveBadKind link)

/-! ## Tether arrivals (spec/10 sections 10.2 and 10.3) -/

/-- The lost-link override is cleared (spec/04 R96). -/
def State.clearOverride (s : State) : State := { s with ldr := { s.ldr with override := none } }

/-- The change to UP: the override cleared, an ATTENTION message placed when the tether's attention is on, a stream
decision taken (spec/10 R183). -/
def State.becomeUp (s : State) : State :=
  let s1 := { s.clearOverride with tlp := { s.tlp with up := true, alive := s.startTimer (s.set.nat .linkTimeout) } }
  (if s1.attention .tether then s1.placeAttention else s1).streamDecision

/-- A valid tether frame's part in the link state and the counters: the timer restarts, and a LOST link becomes UP
(spec/10 R181, R183, R193). -/
def State.tetherValid (s : State) : State :=
  let c := s.tlp.counters
  let s1 := { s with tlp := { s.tlp with counters := { c with valid := sat16 c.valid 1 } } }
  if s1.tlp.up then { s1 with tlp := { s1.tlp with alive := s1.startTimer (s1.set.nat .linkTimeout) } }
  else s1.becomeUp

/-- A refused request on the tether: counted; its refusal joins the transmit queue unless 4 wait (spec/10 R189). -/
def TetherPort.refuse (t : TetherPort) (f : Frame) : TetherPort :=
  let c := { t.counters with busy := sat16 t.counters.busy 1 }
  if t.refusals < 4 then { t with counters := c, transmit := t.transmit ++ [.refusal (busyFrame f)] }
  else { t with counters := { c with dropped := sat16 c.dropped 1 } }

/-- A valid tether frame that is no reel report: a drive report is discarded, anything else is a request
(spec/10 R180). -/
def TetherPort.take (t : TetherPort) (f : Frame) : TetherPort :=
  if f.kind = 0x02 then { t with counters := { t.counters with wrongLink := sat16 t.counters.wrongLink 1 } }
  else if t.requests.length < 4 then { t with requests := t.requests ++ [f] }
  else t.refuse f

/-- The tether framer after a run of line bytes, and the event of its last byte (log 7). -/
def State.tetherRun (s : State) (rx : List Byte) : Option (Framer × Option RxEvent) := feedRun tetherFeed s.tlp.framer rx

/-- The tether framer is put in a state. -/
def State.putTetherFramer (s : State) (f : Framer) : State := { s with tlp := { s.tlp with framer := f } }

/-- A valid reel report is handed to the Reel Input after the link state has taken the frame (spec/10 R180). -/
def State.tetherReel (s : State) (rx : List Byte) : State :=
  match s.tetherRun rx with
  | some (g, some (.valid f)) =>
    if f.kind = 0x01 then (s.putTetherFramer g).tetherValid.reelArrival f.payload else s
  | _ => s

/-- REEL_REPORT (spec/01 R1). -/
def execReelReport (dt : Nat) (rx : List Byte) (s : State) : Host.Outcome State Fault Refusal :=
  .next ((s.elapse dt).tetherReel rx)

/-- Any other valid tether frame (spec/10 R180). -/
def State.tetherArrival (s : State) (rx : List Byte) : State :=
  match s.tetherRun rx with
  | some (g, some (.valid f)) =>
    if f.kind = 0x01 then s
    else
      let s1 := (s.putTetherFramer g).tetherValid
      { s1 with tlp := s1.tlp.take f }
  | _ => s

/-- TETHER_FRAME_ARRIVAL (spec/10 R180). -/
def execTetherFrameArrival (dt : Nat) (rx : List Byte) (s : State) : Host.Outcome State Fault Refusal :=
  .next ((s.elapse dt).tetherArrival rx)

/-- The counters after a frame that ended in an error (spec/10 R193); none when the event is no error. -/
def PortCounters.countError (c : PortCounters) : RxEvent → Option PortCounters
  | .lengthError => some { c with lengthErrors := sat16 c.lengthErrors 1 }
  | .crcError => some { c with crcErrors := sat16 c.crcErrors 1 }
  | .broken => some { c with broken := sat16 c.broken 1 }
  | .valid _ => none
  | .stray => none

/-- A tether frame ends in an error: it is counted and discarded (spec/10 R178). -/
def State.tetherError (s : State) (rx : List Byte) : State :=
  match s.tetherRun rx with
  | some (g, some e) =>
    match s.tlp.counters.countError e with
    | some c => { s with tlp := { s.tlp with framer := g, counters := c } }
    | none => s
  | _ => s

/-- TETHER_FRAME_ERROR (spec/10 R178). -/
def execTetherFrameError (dt : Nat) (rx : List Byte) (s : State) : Host.Outcome State Fault Refusal :=
  .next ((s.elapse dt).tetherError rx)

/-- The link-alive timer expires with the link UP: the loss (spec/10 R182, spec/04 R95, spec/05 R114). -/
def State.linkTimeout (s : State) : State :=
  if s.tlp.up && s.due s.tlp.alive then
    State.headLinkLost
      { s with
        tlp := { s.tlp with
          up := false, alive := none, requests := [], transmit := []
          counters := { s.tlp.counters with losses := sat16 s.tlp.counters.losses 1 } }
        ldr := { s.ldr with override := some (s.set.nat .lostLinkLevel) } }
  else s

/-- LINK_ALIVE_TIMEOUT (spec/10 R182). -/
def execLinkAliveTimeout (dt : Nat) (s : State) : Host.Outcome State Fault Refusal := .next (s.elapse dt).linkTimeout

/-! ## Tether transmitter (spec/10 R179) -/

/-- Sixteen counts, a byte each in latch order (spec/12 section 12.8). -/
def countBytes (v : Vector Nat 16) : List Byte := v.toList.flatMap u8

/-- The body of an ATTENTION message, as it begins on the line (spec/12 section 12.8). -/
def State.attentionFrame (s : State) : Frame :=
  ⟨0, 0xC1, countBytes s.cnd.tether ++ u16 s.set.tetherMask.toNat ++ flags [s.attention .tether]⟩

/-- The frame of a message that begins on the line. -/
def State.messageFrame (s : State) : TxMessage → Frame
  | .reply f => f
  | .refusal f => f
  | .attention => s.attentionFrame

/-- The oldest message begins on a free line (spec/10 R179). -/
def State.messageBegins (s : State) : State :=
  match s.tlp.line, s.tlp.transmit with
  | none, m :: rest =>
    { s with tlp := { s.tlp with
        transmit := rest
        line := some ⟨(s.messageFrame m).tetherBytes, s.timeBase, false⟩ } }
  | _, _ => s

/-- MESSAGE_BEGIN (spec/10 R179). -/
def execMessageBegin (dt : Nat) (s : State) : Host.Outcome State Fault Refusal := .next (s.elapse dt).messageBegins

/-- The line rate of a BAUD strap (spec/10 section 10.2). -/
def baudRate (b : BitVec 2) : Nat :=
  match b.toNat with
  | 1 => 115200
  | 2 => 230400
  | _ => 57600

/-- Ten bit times a byte have passed since the message began (spec/10 section 10.2; log 28). -/
def lineDone (m : LineMessage) (b : BitVec 2) (now : Nat) : Bool :=
  decide (m.wire.length * 10000000 ≤ (now - m.begun) * baudRate b)

/-- The last byte of the message leaves the line; the stream takes its decision (spec/10 R179, spec/06 R130). -/
def State.messageEnds (s : State) : State :=
  match s.tlp.line with
  | none => s
  | some m =>
    if lineDone m s.tlp.baud s.timeBase then
      State.streamDecision
        { s with
          tlp := { s.tlp with line := none }
          stu := if m.isStamp then { s.stu with inFlight := none } else s.stu }
    else s

/-- MESSAGE_END (spec/10 R179). -/
def execMessageEnd (dt : Nat) (s : State) : Host.Outcome State Fault Refusal := .next (s.elapse dt).messageEnds

/-! ## Carriage transactions (spec/10 section 10.4) -/

/-- The bytes of a pending reply on MISO. -/
def PendingReply.total (r : PendingReply) : Nat := r.frame.carriageBytes.length

/-- REPLY-READY (spec/10 R185). -/
def CarriagePort.replyReady (p : CarriagePort) : Bool := p.slot.isSome

/-- The reply being clocked out in the open transaction. -/
def CarriagePort.sending (p : CarriagePort) : Option PendingReply :=
  match p.transaction with
  | .active true => p.slot
  | _ => none

/-- The next `n` bytes that the part drives on MISO: those of the reply being clocked out, from its flag on, and 0x00
after its last; 0x00 throughout with no reply being clocked out, in an ignored transaction and in reset
(spec/10 R185, R187). -/
def CarriagePort.miso (p : CarriagePort) (n : Nat) : List Byte :=
  let reply := match p.sending with
    | some r => r.frame.carriageBytes.drop r.clocked
    | none => []
  (reply ++ List.replicate n 0).take n

/-- `n` bytes clocked leave the reply's last byte still to come, or none is being clocked. -/
def CarriagePort.before (p : CarriagePort) (n : Nat) : Bool :=
  match p.sending with
  | some r => decide (r.clocked + n < r.total)
  | none => true

/-- `n` bytes clocked reach at most the reply's last byte (log 30). -/
def CarriagePort.within (p : CarriagePort) (n : Nat) : Bool :=
  match p.sending with
  | some r => decide (r.clocked + n ≤ r.total)
  | none => true

/-- `n` bytes are clocked out of the reply being sent. -/
def CarriagePort.clock (p : CarriagePort) (n : Nat) : CarriagePort :=
  match p.sending with
  | some r => { p with slot := some { r with clocked := r.clocked + n } }
  | none => p

/-- A transaction is open and its bytes are taken. -/
def CarriagePort.listening (p : CarriagePort) : Bool :=
  match p.transaction with
  | .active _ => true
  | _ => false

/-- A run of MOSI bytes in an open transaction that ends in a framer event (log 7): the port with its framer and its
reply's byte count after it, and the event. -/
def CarriagePort.run (p : CarriagePort) (mosi : List Byte) : Option (CarriagePort × RxEvent) :=
  if p.listening && p.within mosi.length then
    match feedRun carriageFeed p.framer mosi with
    | some (g, some e) => some ({ p.clock mosi.length with framer := g }, e)
    | _ => none
  else none

/-- A run of MOSI bytes in an open transaction without an event: the framer after it. -/
def CarriagePort.quiet (p : CarriagePort) (mosi : List Byte) : Option Framer :=
  match feedRun carriageFeed p.framer mosi with
  | some (g, none) => some g
  | _ => none

/-- The oldest refusal fills an empty slot (spec/10 R186, R189). -/
def CarriagePort.fillSlot (p : CarriagePort) : CarriagePort :=
  match p.slot, p.refusals with
  | none, f :: rest => { p with slot := some ⟨f, 0⟩, refusals := rest }
  | _, _ => p

/-- A refused request on the carriage port: counted; its refusal joins the refusal list unless 4 wait there
(spec/10 R189). A refusal that already fills the slot is not counted among the 4: the model's choice (log 50). -/
def CarriagePort.refuse (p : CarriagePort) (f : Frame) : CarriagePort :=
  let c := { p.counters with busy := sat16 p.counters.busy 1 }
  if p.refusals.length < 4 then { p with counters := c, refusals := p.refusals ++ [busyFrame f] }.fillSlot
  else { p with counters := { c with dropped := sat16 c.dropped 1 } }

/-- A valid carriage frame: counted; a reel report is discarded, anything else is a request (spec/10 R184). -/
def CarriagePort.take (p : CarriagePort) (f : Frame) : CarriagePort :=
  let q := { p with counters := { p.counters with valid := sat16 p.counters.valid 1 } }
  if f.kind = 0x01 then { q with counters := { q.counters with wrongLink := sat16 q.counters.wrongLink 1 } }
  else if q.requests.length < 4 then { q with requests := q.requests ++ [f] }
  else q.refuse f

/-- CS falls: the transaction opens with the framer in HUNT and MISO fixed to the pending reply or to 0x00; while the
port is held in reset the transaction is ignored to its end (spec/10 R184, R185, R187). -/
def CarriagePort.opens (p : CarriagePort) : CarriagePort :=
  match p.transaction with
  | .absent =>
    if p.heldInReset then { p with transaction := .ignored }
    else
      { p with
        transaction := .active p.slot.isSome, framer := .hunt
        slot := p.slot.map fun r => { r with clocked := 0 } }
  | _ => p

/-- CS_FALLING (spec/10 R185). -/
def execCsFalling (dt : Nat) (s : State) : Host.Outcome State Fault Refusal :=
  let s1 := s.elapse dt
  .next { s1 with cgp := s1.cgp.opens }

/-- A valid frame ends at the last of these bytes (spec/10 R184). -/
def CarriagePort.arrival (p : CarriagePort) (mosi : List Byte) : CarriagePort :=
  match p.run mosi with
  | some (q, .valid f) => q.take f
  | _ => p

/-- CARRIAGE_FRAME_ARRIVAL (spec/10 R184). -/
def execCarriageFrameArrival (dt : Nat) (mosi : List Byte) (s : State) : Host.Outcome State Fault Refusal :=
  let s1 := s.elapse dt
  .next { s1 with cgp := s1.cgp.arrival mosi }

/-- A frame ends in an error at the last of these bytes: it is counted and discarded (spec/10 R184). -/
def CarriagePort.error (p : CarriagePort) (mosi : List Byte) : CarriagePort :=
  match p.run mosi with
  | some (q, e) =>
    match q.counters.countError e with
    | some c => { q with counters := c }
    | none => p
  | none => p

/-- CARRIAGE_FRAME_ERROR (spec/10 R184). -/
def execCarriageFrameError (dt : Nat) (mosi : List Byte) (s : State) : Host.Outcome State Fault Refusal :=
  let s1 := s.elapse dt
  .next { s1 with cgp := s1.cgp.error mosi }

/-- A stray byte is the last of these bytes: it is counted and passed by (spec/10 R184). -/
def CarriagePort.strayByte (p : CarriagePort) (mosi : List Byte) : CarriagePort :=
  match p.run mosi with
  | some (q, .stray) => { q with counters := { q.counters with stray := sat16 q.counters.stray 1 } }
  | _ => p

/-- STRAY_BYTE (spec/10 R184). -/
def execStrayByte (dt : Nat) (mosi : List Byte) (s : State) : Host.Outcome State Fault Refusal :=
  let s1 := s.elapse dt
  .next { s1 with cgp := s1.cgp.strayByte mosi }

/-- A framer that holds part of a frame. -/
def Framer.partway : Framer → Bool
  | .hunt => false
  | .collecting _ _ => true

/-- The transaction closes: a partial frame is discarded and counted, a reply not fully clocked stays whole
(spec/10 R184, R185). -/
def CarriagePort.close (p : CarriagePort) (g : Framer) : CarriagePort :=
  let c := if g.partway then { p.counters with partials := sat16 p.counters.partials 1 } else p.counters
  { p with
    transaction := .absent, framer := .hunt
    slot := p.slot.map fun r => { r with clocked := 0 }
    counters := if p.sending.isSome then { c with resends := sat16 c.resends 1 } else c }

/-- CS rises after these bytes, which hold no event (spec/10 R185). -/
def CarriagePort.closes (p : CarriagePort) (mosi : List Byte) : CarriagePort :=
  match p.transaction with
  | .absent => p
  | .ignored => { p with transaction := .absent }
  | .active _ =>
    match p.quiet mosi with
    | some g => if p.before mosi.length then p.close g else p
    | none => p

/-- CS_RISING (spec/10 R185). -/
def execCsRising (dt : Nat) (mosi : List Byte) (s : State) : Host.Outcome State Fault Refusal :=
  let s1 := s.elapse dt
  .next { s1 with cgp := s1.cgp.closes mosi }

/-- The last CRC byte of the pending reply is clocked out with the last of these bytes: the slot empties, and the
oldest refusal fills it (spec/10 R185, R186). What fills it waits for the next transaction. -/
def CarriagePort.delivers (p : CarriagePort) (mosi : List Byte) : CarriagePort :=
  match p.sending with
  | none => p
  | some r =>
    if r.clocked + mosi.length = r.total then
      match p.quiet mosi with
      | some g => { p with transaction := .active false, framer := g, slot := none }.fillSlot
      | none => p
    else p

/-- REPLY_DELIVERED (spec/10 R185). -/
def execReplyDelivered (dt : Nat) (mosi : List Byte) (s : State) : Host.Outcome State Fault Refusal :=
  let s1 := s.elapse dt
  .next { s1 with cgp := s1.cgp.delivers mosi }

/-! ## Carriage port reset (spec/10 R187, spec/11 R200) -/

/-- The port's own part (spec/10 R187, R194). -/
def CarriagePort.reset (p : CarriagePort) : CarriagePort where
  framer := .hunt
  transaction := match p.transaction with
    | .absent => .absent
    | _ => .ignored
  requests := []
  slot := none
  refusals := []
  heldInReset := true
  counters := .zero

/-- The whole carriage port reset: the port, the drive state (spec/01 R24), the over flag (spec/04 R98), the head's lock
and carriage completion (spec/05 R117), the carriage cursor (spec/06 R133), the carriage counts (spec/09 R175) and
CARRIAGE_MASK (spec/11 R197). -/
def State.carriageReset (s : State) : State :=
  { s with
    cgp := s.cgp.reset
    drv := .powerOn
    ldr := { s.ldr with overDemand := false }
    hdp := { s.hdp with lock := false, doneCarriage := none }
    stu := { s.stu with cursorCarriage := s.stu.writePoint s.fxc.counter, lostCarriage := 0 }
    cnd := { s.cnd with carriage := Vector.replicate 16 0 }
    set := { s.set with carriageMask := carriageMaskDefault } }

/-- PORT-RESET rises: an event only while the port is not held in reset (spec/10 R187). -/
def State.portResets (s : State) : State := if s.cgp.heldInReset then s else s.carriageReset

/-- PORT_RESET (spec/10 R187). -/
def execPortReset (dt : Nat) (s : State) : Host.Outcome State Fault Refusal := .next (s.elapse dt).portResets

/-- PORT-RESET is released: the framer waits in HUNT for the next CS falling (spec/10 R187). -/
def State.portReleased (s : State) : State :=
  { s with cgp := { s.cgp with heldInReset := false, framer := if s.cgp.heldInReset then .hunt else s.cgp.framer } }

/-- PORT_RESET_RELEASE (spec/10 R187). -/
def execPortResetRelease (dt : Nat) (s : State) : Host.Outcome State Fault Refusal := .next (s.elapse dt).portReleased

end Sys2Proof.Machine
end

