-- ==== Sys2Proof/Machine/Thermal.lean ====
section
/-! DEFINITION. The Lamp Thermal Monitor (spec/04 section 4.4). -/

namespace Sys2Proof.Machine

/-- I_thermal of a state and the last good temperature (spec/04 R90). -/
def thermalCeiling (st : ThermalState) (tw : Int) : Nat :=
  match st with
  | .normal => 1000
  | .derate => if tw < 85 then (1000 - truncDiv ((tw - 60) * 800) 25).toNat else 200
  | .shutdown => 0
  | .fault => 400

/-- The state a SUCCESS sets outside FAULT, with the condition raised (spec/04 R88). -/
def thermalNext (st : ThermalState) (tw : Int) : ThermalState × List Condition :=
  match st with
  | .shutdown => if 91 ≤ tw then (.shutdown, []) else if 60 ≤ tw then (.derate, [.lampDerated]) else (.normal, [])
  | .derate => if 95 ≤ tw then (.shutdown, [.lampShutdown]) else if 60 ≤ tw then (.derate, []) else (.normal, [])
  | .normal =>
    if 95 ≤ tw then (.shutdown, [.lampShutdown]) else if 60 ≤ tw then (.derate, [.lampDerated]) else (.normal, [])
  | .fault => (.fault, [])

/-- A SUCCESS with temperature Tw (spec/04 R87 to R90). In FAULT the fourth in a row leaves it, as though from
NORMAL (R89). -/
def ThermalMonitor.succeed (m : ThermalMonitor) (tw : Int) : ThermalMonitor × List Condition :=
  let n := sat8 m.successes
  let next :=
    if m.state = .fault then (if 4 ≤ n then thermalNext .normal tw else (.fault, [])) else thermalNext m.state tw
  ({ m with
      state := next.1, lastTemp := some tw, failures := 0, successes := n, poll := none
      lastOutcome := some .success, ceiling := thermalCeiling next.1 tw
      counters := { m.counters with successes := sat16 m.counters.successes 1 } },
    next.2)

/-- The outcome counters after one failure outcome (spec/04 R85). -/
def PollCounters.countFailure (c : PollCounters) (o : PollOutcome) : PollCounters :=
  match o with
  | .success => c
  | .addressNack => { c with addressNacks := sat16 c.addressNacks 1 }
  | .pointerNack => { c with pointerNacks := sat16 c.pointerNacks 1 }
  | .busTimeout => { c with busTimeouts := sat16 c.busTimeouts 1 }

/-- A failure outcome (spec/04 R87): the third in a row enters FAULT. -/
def ThermalMonitor.fail (m : ThermalMonitor) (o : PollOutcome) : ThermalMonitor × List Condition :=
  let n := sat8 m.failures
  let enters := m.state ≠ .fault ∧ 3 ≤ n
  ({ m with
      state := if enters then .fault else m.state
      failures := n, successes := 0, poll := none, lastOutcome := some o
      ceiling := if enters then 400 else m.ceiling
      counters := m.counters.countFailure o },
    if enters then [.thermalSensorFault] else [])

/-- The temperature used from a reading: the two bytes as a signed number, over 256, truncated (spec/04 R85). -/
def readingTemp (high low : Byte) : Int := truncDiv (s16At [high, low] 0) 256

/-- The four phases, from a phase on: the outcome is fixed at the first that fails, or at the end of the last
(spec/04 R85). -/
def pollResult (p : PollPhase) (a : SensorAnswer) : PollOutcome :=
  match p with
  | .pointer =>
    if !a.addressAck then .addressNack
    else if !a.pointerAck then .pointerNack
    else if !a.readAck then .addressNack
    else .success
  | .pointerByte => if !a.pointerAck then .pointerNack else if !a.readAck then .addressNack else .success
  | .read => if !a.readAck then .addressNack else .success
  | .data => .success

/-! ## What the part sends on the bus (spec/04 R85, R86) -/

/-- The part adds to what it has sent for the present poll. -/
def ThermalMonitor.send (m : ThermalMonitor) (l : List BusSignal) : ThermalMonitor := { m with bus := m.bus ++ l }

/-- The end of a transaction in which the sensor has not acknowledged (spec/04 R85). -/
def failureSignals : List BusSignal := [.stop, .release]

/-- What a transaction sends from a phase on, behind what opens that phase, as the sensor answers (spec/04 R85). -/
def pollSignals (addr : Nat) (p : PollPhase) (a : SensorAnswer) : List BusSignal :=
  let data := [.acknowledge, .noAcknowledge, .stop]
  let read := if a.readAck then data else failureSignals
  let byte := if a.pointerAck then .repeatedStart :: .address addr true :: read else failureSignals
  match p with
  | .pointer => if a.addressAck then .pointer 0 :: byte else failureSignals
  | .pointerByte => byte
  | .read => read
  | .data => data

/-- What a transaction that SCL cuts short has sent behind its first address: as much of an acknowledged one, short of
its stop condition, as the free value tells, and then no stop condition (spec/04 R86; log 53). -/
def timeoutSignals (p : Poll) : List BusSignal :=
  (pollSignals p.addr p.phase ⟨true, true, true, 0, 0⟩).dropLast.take (Config.timeoutPlace p.begun) ++ [.release]

/-- What frees a held SDA before a start condition: clocks until it is released, and a stop condition; after a ninth
clock that does not release it the transaction ends instead, and whether a stop condition is sent before the bus is
released is a free value (spec/04 R85, R86; log 54). -/
def recoverySignals (sdaClocks : Nat) : List BusSignal :=
  if sdaClocks = 0 then []
  else if sdaClocks ≤ 9 then List.replicate sdaClocks .clock ++ [.stop]
  else List.replicate 9 .clock ++ if Config.stopAfterNinthClock then failureSignals else [.release]

/-- The end of a transaction is taken, with the conditions it raises (spec/04 R85). -/
def State.pollEnds (s : State) (r : ThermalMonitor × List Condition) : State := { s with ltm := r.1 }.raiseAll r.2

/-- A poll transaction ends (spec/04 R85). -/
def State.pollTransactionEnd (s : State) (a : SensorAnswer) : State :=
  match s.ltm.poll with
  | none => s
  | some p =>
    let m := s.ltm.send (pollSignals p.addr p.phase a)
    match pollResult p.phase a with
    | .success => s.pollEnds (m.succeed (readingTemp a.high a.low))
    | o => s.pollEnds (m.fail o)

/-- POLL_TRANSACTION_END (spec/04 R85). -/
def execPollTransactionEnd (dt : Nat) (answer : SensorAnswer) (s : State) : Host.Outcome State Fault Refusal :=
  .next ((s.elapse dt).pollTransactionEnd answer)

/-- SCL held low for 25 ms ends the transaction in flight with BUS_TIMEOUT, SCL and SDA released without a stop condition
(spec/04 R86); the part watches SCL from the transaction's beginning on. -/
def State.busTimeout (s : State) : State :=
  match s.ltm.poll with
  | none => s
  | some p => if p.begun + 25000 ≤ s.timeBase then s.pollEnds ((s.ltm.send (timeoutSignals p)).fail .busTimeout) else s

/-- BUS_TIMEOUT (spec/04 R86). -/
def execBusTimeout (dt : Nat) (s : State) : Host.Outcome State Fault Refusal := .next (s.elapse dt).busTimeout

/-- A poll falls due (spec/04 R84, R86): skipped with a transaction in flight; a held SDA is clocked, and the transaction
ended at once when it is still low after the ninth clock; begun otherwise, at THERMAL_ADDR as stored. -/
def State.pollDue (s : State) (sdaClocks : Nat) : State :=
  if sampleDue s.timeBase 250000 (some s.ltm.lastDue) then
    let m := { s.ltm with lastDue := s.timeBase }
    match m.poll with
    | some _ =>
      { s with ltm := { m with counters := { m.counters with skipped := sat16 m.counters.skipped 1 } } }
    | none =>
      let addr := s.set.nat .thermalAddr
      if 9 < sdaClocks then s.pollEnds ({ m with bus := recoverySignals sdaClocks }.fail .busTimeout)
      else
        { s with ltm := { m with
            poll := some ⟨addr, .pointer, s.timeBase⟩
            bus := recoverySignals sdaClocks ++ [.start, .address addr false] } }
  else s

/-- THERMAL_POLL_DUE (spec/04 R84). -/
def execThermalPollDue (dt : Nat) (sdaClocks : Nat) (s : State) : Host.Outcome State Fault Refusal :=
  .next ((s.elapse dt).pollDue sdaClocks)

end Sys2Proof.Machine
end

