-- ==== Sys2Proof/Machine/Requests.lean ====
section
/-! DEFINITION. The served requests: the answer of each owning block and the layout of each reply (spec/12
section 12.5), the freshness timer, survey restart and power-on. -/

namespace Sys2Proof.Machine

/-- A served request's step: time passes and the oldest request of the link is served if it has this KIND. -/
def requestStep (dt : Nat) (link : Link) (kind : Byte) (act : List Byte → State → Answer) (s : State) :
    Host.Outcome State Fault Refusal :=
  .next ((s.elapse dt).serve link kind act)

/-! ## Codes (spec/12 section 12.3) -/

/-- The code of a step class. -/
def StepClass.code : StepClass → Nat
  | .track => 0
  | .payout => 1
  | .takeup => 2
  | .slip => 3
  | .retrieve => 4
  | .cableOnly => 5
  | .datum => 6

/-- The code of a last-step kind. -/
def LastKind.code : LastKind → Nat
  | .noStep => 0
  | .fill => 1
  | .settled => 2
  | .rebase => 3
  | .datum => 4

/-- The code of a selection. -/
def Selection.code : Selection → Nat
  | .mean => 0
  | .left => 1
  | .right => 2

/-- The code of a Reel Input state. -/
def ReelMachine.code : ReelMachine → Nat
  | .acquire => 0
  | .sync => 1
  | .check => 2

/-- The code of an effective direction; 3 is UNKNOWN. -/
def directionCode : Option Direction → Nat
  | some .stopped => 0
  | some .forward => 1
  | some .reverse => 2
  | none => 3

/-- The code of a link. -/
def linkCode : Link → Nat
  | .tether => 0
  | .carriage => 1

/-- The code of an axis state. -/
def AxisState.code : AxisState → Nat
  | .unhomed => 0
  | .homing => 1
  | .idle => 2
  | .moving => 3
  | .stopping => 4

/-- The code of a loss cause. -/
def LossCause.code : LossCause → Nat
  | .noCause => 0
  | .indexNotFound => 1
  | .indexMismatch => 2

/-- The code of a head operation's kind; 0 is none. -/
def HeadKind.code : HeadKind → Nat
  | .home => 1
  | .move => 2
  | .park => 3

/-- The code of a head outcome. -/
def HeadOutcome.code : HeadOutcome → Nat
  | .reached => 0
  | .stopped => 1
  | .superseded => 2
  | .lost => 3
  | .linkLost => 4

/-- The code of a clearance. -/
def Clearance.code : Clearance → Nat
  | .unasked => 0
  | .waiting => 1
  | .given => 2

/-- The code of a thermal state. -/
def ThermalState.code : ThermalState → Nat
  | .normal => 0
  | .derate => 1
  | .shutdown => 2
  | .fault => 3

/-- The code of a poll outcome; 0 is none. -/
def pollOutcomeCode : Option PollOutcome → Nat
  | none => 0
  | some .success => 1
  | some .addressNack => 2
  | some .pointerNack => 3
  | some .busTimeout => 4

/-! ## Drive report (spec/01 R21, spec/04 R94, spec/10 R192) -/

/-- A drive report's demand as stored. -/
def storedDemand (n : Nat) : Nat := min 3000 n

/-- A drive report's inclination as stored. -/
def storedInclination (i : Option Int) : Option Int := i.map (clampInt (-900) 900)

/-- The Lamp Driver compares a demand with the motor allowance (spec/04 R94). -/
def State.compareDemand (s : State) (demand : Nat) : State :=
  let excess := decide (s.motorAllowance < demand)
  let s1 := { s with ldr := { s.ldr with overDemand := excess } }
  if excess && !s.ldr.overDemand then s1.raise .budgetOver else s1

/-- The content of a DRIVE REPLY (spec/10 R192). -/
def State.driveReplyContent (s : State) : List Byte :=
  s32opt s.chainageNow ++ u8 s.quality.code
    ++ flags [s.chr.pendingDatum.isSome, s.hdp.lock, s.attention .carriage]
    ++ s16 s.chr.speed ++ u16 s.slackMm.toNat ++ u16 s.motorAllowance
    ++ u16 s.drv.demand ++ s16opt s.drv.inclination

/-- A drive report is taken (spec/01 R21). -/
def State.takeDrive (s : State) (r : DriveReport) : Answer :=
  let demand := storedDemand r.demand
  let incl := storedInclination r.inclination
  let s1 := State.compareDemand
    { s with drv := ⟨true, r.direction, demand, incl, s.startTimer (s.set.nat .driveFresh)⟩ } demand
  ⟨s1, doneOr (decide (demand ≠ r.demand) || decide (incl ≠ r.inclination)), s1.driveReplyContent⟩

/-- The answer to a drive report (spec/01 R21). -/
def answerDriveReport (p : List Byte) (s : State) : Answer :=
  match driveReportOf p with
  | none => .bare s .badForm
  | some r => s.takeDrive r

/-- DRIVE_REPORT (spec/01 R21). -/
def execDriveReport (dt : Nat) (s : State) : Host.Outcome State Fault Refusal :=
  requestStep dt .carriage 0x02 answerDriveReport s

/-- The freshness timer expires: the state becomes STALE and the over flag clears (spec/01 R22, spec/04 R94). -/
def State.driveStale (s : State) : State :=
  if s.drv.fresh && s.due s.drv.timer then
    { s with
      drv := { s.drv with fresh := false, timer := none }
      ldr := { s.ldr with overDemand := false } }
  else s

/-- DRIVE_FRESH_EXPIRY (spec/01 R22). -/
def execDriveFreshExpiry (dt : Nat) (s : State) : Host.Outcome State Fault Refusal := .next (s.elapse dt).driveStale

/-! ## Chainage query and datum (spec/02 R44, R49) -/

/-- The seven counters of spec/01 R12 in its table order. -/
def ReelStats.encode (r : ReelStats) : List Byte :=
  u16 r.duplicates ++ u16 r.suspects ++ u16 r.missing ++ u16 r.fills ++ u16 r.rebases ++ u16 r.noCount
    ++ u16 r.malformed

/-- The drive byte: the effective direction's code, bit 7 FRESH. -/
def DriveState.driveByte (d : DriveState) : Nat := directionCode d.effDirection + if d.fresh then 128 else 0

/-- The content of a CHAINAGE QUERY reply (spec/02 R49). -/
def State.chainageContent (s : State) : List Byte :=
  s32opt s.chainageNow ++ u8 s.quality.code
    ++ flags [s.chr.pendingDatum.isSome, s.chr.v0.isSome, s.chr.last.disagree]
    ++ s32opt s.chr.pendingDatum ++ s16 s.chr.speed ++ u16 s.slackMm.toNat ++ u16 s.chr.slipCount
    ++ u8 s.chr.last.kind.code ++ u8 s.chr.last.cls.code ++ u8 s.chr.last.sel.code
    ++ u8 s.rin.machine.code ++ u8 s.rin.expected.toNat ++ u8 s.rin.suspect.toNat ++ s.rin.stats.encode
    ++ u32 s.wct.left.count.toNat ++ u32 s.wct.right.count.toNat
    ++ u8 s.wct.left.errors ++ u8 s.wct.right.errors ++ flags [s.wct.left.fault, s.wct.right.fault]
    ++ u8 s.drv.driveByte

/-- The answer to a CHAINAGE QUERY. -/
def answerChainageQuery (_ : List Byte) (s : State) : Answer := ⟨s, .done, s.chainageContent⟩

/-- CHAINAGE_QUERY (spec/02 R49). -/
def execChainageQuery (dt : Nat) (link : Link) (s : State) : Host.Outcome State Fault Refusal :=
  requestStep dt link 0x10 answerChainageQuery s

/-- The value of a SET DATUM as stored (spec/02 R44). -/
def storedDatum (v : Int) : Int := clampInt (-999999) 999999 v

/-- The answer to a SET DATUM (spec/02 R44): pending in SYNC or CHECK, applied at once in ACQUIRE. -/
def answerSetDatum (l : Link) (p : List Byte) (s : State) : Answer :=
  if l = .carriage ∧ s.set.num .datumOwner = 0 then .bare s .notPermitted
  else
    let v := storedDatum (s32At p 0)
    let st := doneOr (decide (v ≠ s32At p 0))
    if s.inAcquire then ⟨s.applyImmediateDatum v, st, u8 1 ++ s32 v⟩
    else ⟨{ s with chr := { s.chr with pendingDatum := some v } }, st, u8 0 ++ s32 v⟩

/-- SET_DATUM (spec/02 R44). -/
def execSetDatum (dt : Nat) (link : Link) (s : State) : Host.Outcome State Fault Refusal :=
  requestStep dt link 0x11 (answerSetDatum link) s

/-! ## Settings (spec/11 R195, R196) -/

/-- The value kind byte and the value, as a SET SETTING or GET SETTING reply carries them. -/
def SettingValue.encode : SettingValue → List Byte
  | .num v => u8 0 ++ s32 v
  | .text t => u8 1 ++ textField t
  | .set m => u8 2 ++ u16 m.toNat

/-- The value a write stores, or none when its kind is not the setting's (spec/11 R195 tests 3 and 4). -/
def SettingRef.storable (r : SettingRef) (v : SettingValue) : Option SettingValue :=
  match r, v with
  | .num k, .num x => some (.num (k.line.store x))
  | .text _, .text t => some (.text (t.take 40))
  | .mask _, .set m => some (.set m)
  | _, _ => none

/-- The store with a value written. -/
def Settings.put (s : Settings) (r : SettingRef) (v : SettingValue) : Settings :=
  match r, v with
  | .num k, .num x => s.putNum k x
  | .text n, .text t => s.putText n t
  | .mask l, .set m => s.putMask l m
  | _, _ => s

/-- The value of a setting as stored. -/
def Settings.value (s : Settings) : SettingRef → SettingValue
  | .num k => .num (s.num k)
  | .text n => .text s.texts[n]
  | .mask l => .set (s.mask l)

/-- A value is stored; a mask write evaluates the link's attention again (spec/11 R195, spec/09 R170). -/
def State.writeSetting (s : State) (r : SettingRef) (v : SettingValue) : State :=
  State.afterAttention { s with set := s.set.put r v } (s.attention .tether)

/-- The answer to a SET SETTING (spec/11 R195). -/
def answerSetSetting (l : Link) (p : List Byte) (s : State) : Answer :=
  match SettingRef.ofId (u16At p 0), settingValueAt p with
  | none, _ => .bare s .noSuch
  | some r, v =>
    if r.owner ≠ l then .bare s .notPermitted
    else match v with
      | none => .bare s .badForm
      | some w =>
        match r.storable w with
        | none => .bare s .badForm
        | some kept => ⟨s.writeSetting r kept, doneOr (decide (kept ≠ w)), u16 (u16At p 0) ++ kept.encode⟩

/-- After a tether request that is a decision event, the stream takes its decision, behind the reply just placed
(spec/06 R130). -/
def streamAfter (l : Link) (act : State → State) (s : State) : State :=
  let t := act s
  if l = .tether ∧ t.tlp.requests.length < s.tlp.requests.length then t.streamDecision else t

/-- SET_SETTING (spec/11 R195). -/
def execSetSetting (dt : Nat) (link : Link) (s : State) : Host.Outcome State Fault Refusal :=
  .next (streamAfter link (fun s => s.serve link 0x18 (answerSetSetting link)) (s.elapse dt))

/-- MIN, DEFAULT and MAX of a setting (spec/11 R196), laid out as spec/12 R203 and section 12.5 have it: for a set,
nothing. R196's words "absent for the masks" are read, with that, of all three (DEDUCED, log 57). -/
def SettingRef.range : SettingRef → List Byte
  | .num k => s32 k.line.lo ++ s32 k.line.dflt ++ s32 k.line.hi
  | .text _ => s32 0 ++ textField [] ++ s32 40
  | .mask _ => []

/-- The answer to a GET SETTING (spec/11 R196). -/
def answerGetSetting (p : List Byte) (s : State) : Answer :=
  match SettingRef.ofId (u16At p 0) with
  | none => .bare s .noSuch
  | some r => ⟨s, .done, u16 (u16At p 0) ++ u8 (linkCode r.owner) ++ (s.set.value r).encode ++ r.range⟩

/-- GET_SETTING (spec/11 R196). -/
def execGetSetting (dt : Nat) (link : Link) (s : State) : Host.Outcome State Fault Refusal :=
  requestStep dt link 0x19 answerGetSetting s

/-! ## Head (spec/05) -/

/-- The answer to a HEAD HOME (spec/05 R103). -/
def answerHeadHome (_ : List Byte) (s : State) : Answer := let r := s.headHome; ⟨r.1, r.2, []⟩

/-- HEAD_HOME (spec/05 R103). -/
def execHeadHome (dt : Nat) (link : Link) (s : State) : Host.Outcome State Fault Refusal :=
  requestStep dt link 0x20 answerHeadHome s

/-- The answer to a HEAD MOVE (spec/05 R106). -/
def answerHeadMove (p : List Byte) (s : State) : Answer :=
  let r := s.headMove (s16optAt p 0) (s16optAt p 2) (byteAt p 4)
  ⟨r.1, r.2.1, s16opt r.2.2.1 ++ s16opt r.2.2.2.1 ++ u8 r.2.2.2.2⟩

/-- HEAD_MOVE (spec/05 R106). -/
def execHeadMove (dt : Nat) (link : Link) (s : State) : Host.Outcome State Fault Refusal :=
  requestStep dt link 0x21 answerHeadMove s

/-- The answer to a HEAD STOP (spec/05 R108). -/
def answerHeadStop (_ : List Byte) (s : State) : Answer := let r := s.headStop; ⟨r.1, r.2, []⟩

/-- HEAD_STOP (spec/05 R108). -/
def execHeadStop (dt : Nat) (link : Link) (s : State) : Host.Outcome State Fault Refusal :=
  requestStep dt link 0x22 answerHeadStop s

/-- The answer to a HEAD PARK (spec/05 R109). -/
def answerHeadPark (_ : List Byte) (s : State) : Answer := ⟨s.headPark, .done, []⟩

/-- HEAD_PARK (spec/05 R109). -/
def execHeadPark (dt : Nat) (link : Link) (s : State) : Host.Outcome State Fault Refusal :=
  requestStep dt link 0x23 answerHeadPark s

/-- The answer to a HEAD RELEASE (spec/05 R110). -/
def answerHeadRelease (_ : List Byte) (s : State) : Answer := ⟨s.headRelease, .done, []⟩

/-- HEAD_RELEASE (spec/05 R110). -/
def execHeadRelease (dt : Nat) (link : Link) (s : State) : Host.Outcome State Fault Refusal :=
  requestStep dt link 0x24 answerHeadRelease s

/-- An axis as a HEAD QUERY reply of the instant `now` carries it (spec/12 section 12.5). -/
def AxisRecord.encode (ax : Axis) (now : Nat) (a : AxisRecord) : List Byte :=
  u8 a.state.code ++ flags [a.pos.isSome, !(a.startPending == .clear)] ++ s16opt a.pos ++ s16opt a.target
    ++ s16 (a.speed ax now) ++ u8 a.lossCause.code ++ u16 a.corrections

/-- A completion as a HEAD QUERY reply carries it; one of kind 0 when there is none (spec/12 section 12.5). -/
def completionBytes : Option Completion → List Byte
  | none => u8 0 ++ u8 0 ++ s16opt none ++ s16opt none ++ u32 0
  | some c => u8 c.kind.code ++ u8 c.outcome.code ++ s16opt c.pan ++ s16opt c.tilt ++ u32 c.time

/-- The operation as a HEAD QUERY reply carries it: kind, originator, phase (log 20 for none). -/
def operationBytes : Option HeadOperation → List Byte
  | none => u8 0 ++ u8 0 ++ u8 0
  | some o => u8 o.kind.code ++ u8 (linkCode o.origin) ++ u8 (if o.stopping then 1 else 0)

/-- The content of a HEAD QUERY reply (spec/05 R116). -/
def State.headContent (s : State) (l : Link) : List Byte :=
  s.hdp.pan.encode .pan s.timeBase ++ s.hdp.tilt.encode .tilt s.timeBase ++ u8 (if s.hdp.lock then 1 else 0) ++ operationBytes s.hdp.op
    ++ u8 s.hdp.outcome.code ++ u8 (s.fxc.clearance.code + if s.hdp.demand then 128 else 0)
    ++ completionBytes (s.hdp.completion l)

/-- The answer to a HEAD QUERY. -/
def answerHeadQuery (l : Link) (_ : List Byte) (s : State) : Answer := ⟨s, .done, s.headContent l⟩

/-- HEAD_QUERY (spec/05 R116). -/
def execHeadQuery (dt : Nat) (link : Link) (s : State) : Host.Outcome State Fault Refusal :=
  requestStep dt link 0x25 (answerHeadQuery link) s

/-! ## Lamps and still (spec/04 R97, spec/03 R71) -/

/-- The source part of a LAMP QUERY reply. -/
def State.lampSourceBytes (s : State) : List Byte :=
  u8 s.sourceInForce.code ++ u16 s.manualInForce ++ u8 (s.set.nat .lampSource) ++ u16 (s.set.nat .lampManual)
    ++ flags [s.set.num .strobe == 1, s.ldr.override.isSome, s.ldr.record.strobe, s.ldr.enable, s.ldr.overDemand,
      s.ist.held.isSome]

/-- The drive and profile parts of a LAMP QUERY reply. -/
def State.lampDriveBytes (s : State) : List Byte :=
  let r := s.ldr.record
  u32 r.frame.toNat ++ u16 r.level ++ u16 r.exposure ++ u16 r.banks.ring ++ u16 r.banks.spot ++ u16 r.banks.body
    ++ u16 (s.set.nat .ringFull) ++ u16 (s.set.nat .spotFull) ++ u16 (s.set.nat .bodyFull)
    ++ u8 (s.set.nat .ringWeight) ++ u8 (s.set.nat .spotWeight) ++ u8 (s.set.nat .bodyWeight)
    ++ u16 s.ldr.pfull ++ u16 s.pavail ++ u16 s.effDemand ++ u16 s.motorAllowance

/-- The thermal part of a LAMP QUERY reply. -/
def ThermalMonitor.encode (m : ThermalMonitor) : List Byte :=
  u8 m.state.code ++ s16opt m.lastTemp ++ u16 m.ceiling ++ u8 m.failures ++ u8 m.successes
    ++ u8 (pollOutcomeCode m.lastOutcome) ++ u16 m.counters.successes ++ u16 m.counters.addressNacks
    ++ u16 m.counters.pointerNacks ++ u16 m.counters.busTimeouts ++ u16 m.counters.skipped

/-- The image part of a LAMP QUERY reply. -/
def measureBytes : Option Measure → List Byte
  | none => u16 0 ++ u16 0
  | some m => u16 m.mean ++ u16 m.clip

/-- The content of a LAMP QUERY reply (spec/04 R97). -/
def State.lampContent (s : State) : List Byte :=
  s.lampSourceBytes ++ s.lampDriveBytes ++ s.ltm.encode ++ measureBytes s.ist.held

/-- The answer to a LAMP QUERY. -/
def answerLampQuery (_ : List Byte) (s : State) : Answer := ⟨s, .done, s.lampContent⟩

/-- LAMP_QUERY (spec/04 R97). -/
def execLampQuery (dt : Nat) (link : Link) (s : State) : Host.Outcome State Fault Refusal :=
  requestStep dt link 0x28 answerLampQuery s

/-- The answer to a STILL (spec/03 R71). -/
def answerStill (l : Link) (p : List Byte) (s : State) : Answer :=
  if s.fxc.pendingStill.isSome then .bare s .busy
  else
    let r := s.fxc.askStill l (decide (byteAt p 0 ≠ 0))
    ⟨{ s with fxc := r.1 }, .done, u32 r.2.toNat⟩

/-- STILL (spec/03 R71). -/
def execStill (dt : Nat) (link : Link) (s : State) : Host.Outcome State Fault Refusal :=
  requestStep dt link 0x2C (answerStill link) s

/-! ## The log's requests (spec/08) -/

/-- The answer to a MARK POINT. -/
def answerMarkPoint (l : Link) (p : List Byte) (s : State) : Answer := s.markPoint l p

/-- MARK_POINT (spec/08 R152). -/
def execMarkPoint (dt : Nat) (link : Link) (s : State) : Host.Outcome State Fault Refusal :=
  requestStep dt link 0x30 (answerMarkPoint link) s

/-- The answer to an OPEN OBS. -/
def answerOpenObs (l : Link) (p : List Byte) (s : State) : Answer := s.openObs l p

/-- OPEN_OBS (spec/08 R155). -/
def execOpenObs (dt : Nat) (link : Link) (s : State) : Host.Outcome State Fault Refusal :=
  requestStep dt link 0x31 (answerOpenObs link) s

/-- The answer to a CLOSE OBS. -/
def answerCloseObs (p : List Byte) (s : State) : Answer := s.closeObs p

/-- CLOSE_OBS (spec/08 R156). -/
def execCloseObs (dt : Nat) (link : Link) (s : State) : Host.Outcome State Fault Refusal :=
  requestStep dt link 0x32 answerCloseObs s

/-- The answer to a VOID OBS. -/
def answerVoidObs (l : Link) (p : List Byte) (s : State) : Answer := s.voidObs l p

/-- VOID_OBS (spec/08 R157). -/
def execVoidObs (dt : Nat) (link : Link) (s : State) : Host.Outcome State Fault Refusal :=
  requestStep dt link 0x33 (answerVoidObs link) s

/-- The answer to an ANNOTATE. -/
def answerAnnotate (p : List Byte) (s : State) : Answer := s.annotate p

/-- ANNOTATE (spec/08 R158). -/
def execAnnotate (dt : Nat) (link : Link) (s : State) : Host.Outcome State Fault Refusal :=
  requestStep dt link 0x34 answerAnnotate s

/-- The answer to a READ LOG. -/
def answerReadLog (p : List Byte) (s : State) : Answer := s.readLog p

/-- READ_LOG (spec/08 R159). -/
def execReadLog (dt : Nat) (link : Link) (s : State) : Host.Outcome State Fault Refusal :=
  requestStep dt link 0x35 answerReadLog s

/-- The answer to a TRIM LOG. -/
def answerTrimLog (p : List Byte) (s : State) : Answer := s.trimLog p

/-- TRIM_LOG (spec/08 R160). -/
def execTrimLog (dt : Nat) (link : Link) (s : State) : Host.Outcome State Fault Refusal :=
  requestStep dt link 0x36 answerTrimLog s

/-! ## Stamps (spec/06 R127) -/

/-- The answer to a READ STAMPS. -/
def answerReadStamps (l : Link) (p : List Byte) (s : State) : Answer := s.readStamps l p

/-- READ_STAMPS (spec/06 R127). -/
def execReadStamps (dt : Nat) (link : Link) (s : State) : Host.Outcome State Fault Refusal :=
  .next (streamAfter link (fun s => s.serve link 0x38 (answerReadStamps link)) (s.elapse dt))

/-! ## Conditions (spec/09 R173, R174) -/

/-- A link's port counters. -/
def State.portCounters (s : State) : Link → PortCounters
  | .tether => s.tlp.counters
  | .carriage => s.cgp.counters

/-- The eleven port counters in the order of spec/10 R193. -/
def PortCounters.encode (c : PortCounters) : List Byte :=
  u16 c.valid ++ u16 c.lengthErrors ++ u16 c.crcErrors ++ u16 c.broken ++ u16 c.partials ++ u16 c.stray
    ++ u16 c.wrongLink ++ u16 c.busy ++ u16 c.dropped ++ u16 c.losses ++ u16 c.resends

/-- The shared content of the two replies: given counts, and the mask, attention, link state and port counters as they
stand (spec/12 section 12.8). -/
def State.conditionsContent (s : State) (l : Link) (counts : Vector Nat 16) : List Byte :=
  countBytes counts ++ u16 (s.set.mask l).toNat ++ flags [s.attention l, s.tlp.up] ++ (s.portCounters l).encode

/-- The answer to a CONDITIONS QUERY. -/
def answerConditionsQuery (l : Link) (_ : List Byte) (s : State) : Answer :=
  ⟨s, .done, s.conditionsContent l (s.cnd.counts l)⟩

/-- CONDITIONS_QUERY (spec/09 R173). -/
def execConditionsQuery (dt : Nat) (link : Link) (s : State) : Host.Outcome State Fault Refusal :=
  requestStep dt link 0x3C (answerConditionsQuery link) s

/-- Counts with the named latches at 0 (spec/09 R174). -/
def acknowledged (v : Vector Nat 16) (named : BitVec 16) : Vector Nat 16 :=
  Vector.ofFn fun n => if named.getLsbD n.val then 0 else v[n]

/-- The answer to an ACK CONDITIONS. -/
def answerAckConditions (l : Link) (p : List Byte) (s : State) : Answer :=
  let before := s.cnd.counts l
  let s1 := { s with cnd := s.cnd.putCounts l (acknowledged before (setAt p 0)) }
  ⟨s1, .done, s1.conditionsContent l before⟩

/-- ACK_CONDITIONS (spec/09 R174). -/
def execAckConditions (dt : Nat) (link : Link) (s : State) : Host.Outcome State Fault Refusal :=
  requestStep dt link 0x3D (answerAckConditions link) s

/-! ## Survey restart (spec/11 R199) -/

/-- The Reckoner's part (spec/02 R50): S is 0, and V0 becomes F - C if it is set. -/
def Reckoner.restart (c : Reckoner) : Reckoner :=
  { c with
    slack := 0, v0 := c.v0.map fun _ => c.anchor.f - c.cable
    datumTaken := false, pendingDatum := none, slipCount := 0 }

/-- The Stamp Unit's part (spec/06 R132). -/
def StampUnit.restart (u : StampUnit) : StampUnit :=
  { u with stamps := [], cursorTether := 0, cursorCarriage := 0, lostTether := 0, lostCarriage := 0
           pendingMark := none }

/-- The restart of the survey (spec/11 R199). -/
def State.restart (s : State) : State :=
  { s with
    chr := s.chr.restart
    rin := { s.rin with stats := ⟨0, 0, 0, 0, 0, 0, 0⟩ }
    fxc := { s.fxc with counter := 0, origin := s.timeBase, pendingStill := none }
    ltm := { s.ltm with counters := ⟨0, 0, 0, 0, 0⟩ }
    stu := s.stu.restart
    ovg := { s.ovg with flash := none }
    obl := .powerOn
    cnd := .powerOn }

/-- What a restart discards (spec/11 R199, spec/12 section 12.5). -/
def State.restartContent (s : State) : List Byte :=
  u8 s.obl.records.length ++ u8 s.stu.stamps.length
    ++ flags [s.chr.pendingDatum.isSome, s.fxc.pendingStill.isSome]
    ++ u32 ((s.fxc.pendingStill.map fun p => p.frame.toNat).getD 0)

/-- The answer to a RESTART SURVEY. -/
def answerRestartSurvey (_ : List Byte) (s : State) : Answer := ⟨s.restart, .done, s.restartContent⟩

/-- RESTART_SURVEY (spec/11 R199). -/
def execRestartSurvey (dt : Nat) (link : Link) (s : State) : Host.Outcome State Fault Refusal :=
  requestStep dt link 0x3F answerRestartSurvey s

/-! ## Power-on (spec/11 R198) -/

/-- POWER_ON: every block takes its power-on value with the pins as they stand; the commands that wait go on waiting
(log 6). -/
def execPowerOn (pins : Pins) (s : State) : Host.Outcome State Fault Refusal :=
  .next { State.powerOn pins with pending := s.pending }

end Sys2Proof.Machine
end

