-- ==== Sys2Proof/Machine/Dispatch.lean ====
section
/-! DEFINITION. The meaning of each command: one arm a row of spec/opcode_table.json. -/

namespace Sys2Proof.Machine

/-- A command's effect on everything but the queue. -/
def exec (i : Instr) (s : State) : Host.Outcome State Fault Refusal :=
  match i with
  | .powerOn pins => Sys2Proof.Machine.execPowerOn pins s
  | .reelReport dt rx => Sys2Proof.Machine.execReelReport dt rx s
  | .presenceTimerExpiry dt => Sys2Proof.Machine.execPresenceTimerExpiry dt s
  | .wheelTransition dt wheel a b => Sys2Proof.Machine.execWheelTransition dt wheel a b s
  | .wheelHistorySample dt => Sys2Proof.Machine.execWheelHistorySample dt s
  | .driveReport dt => Sys2Proof.Machine.execDriveReport dt s
  | .driveFreshExpiry dt => Sys2Proof.Machine.execDriveFreshExpiry dt s
  | .frameBoundary dt => Sys2Proof.Machine.execFrameBoundary dt s
  | .sensorWriteStart dt => Sys2Proof.Machine.execSensorWriteStart dt s
  | .sensorWriteComplete dt => Sys2Proof.Machine.execSensorWriteComplete dt s
  | .commitDeadlineExpiry dt => Sys2Proof.Machine.execCommitDeadlineExpiry dt s
  | .strobeWindowOpen dt => Sys2Proof.Machine.execStrobeWindowOpen dt s
  | .strobeWindowClose dt => Sys2Proof.Machine.execStrobeWindowClose dt s
  | .thermalPollDue dt sdaClocks => Sys2Proof.Machine.execThermalPollDue dt sdaClocks s
  | .pollTransactionEnd dt answer => Sys2Proof.Machine.execPollTransactionEnd dt answer s
  | .busTimeout dt => Sys2Proof.Machine.execBusTimeout dt s
  | .headHistorySample dt => Sys2Proof.Machine.execHeadHistorySample dt s
  | .axisStep dt axis => Sys2Proof.Machine.execAxisStep dt axis s
  | .axisRest dt axis => Sys2Proof.Machine.execAxisRest dt axis s
  | .indexPass dt axis => Sys2Proof.Machine.execIndexPass dt axis s
  | .homingLimit dt axis => Sys2Proof.Machine.execHomingLimit dt axis s
  | .tetherFrameArrival dt rx => Sys2Proof.Machine.execTetherFrameArrival dt rx s
  | .tetherFrameError dt rx => Sys2Proof.Machine.execTetherFrameError dt rx s
  | .linkAliveTimeout dt => Sys2Proof.Machine.execLinkAliveTimeout dt s
  | .messageBegin dt => Sys2Proof.Machine.execMessageBegin dt s
  | .messageEnd dt => Sys2Proof.Machine.execMessageEnd dt s
  | .csFalling dt => Sys2Proof.Machine.execCsFalling dt s
  | .carriageFrameArrival dt mosi => Sys2Proof.Machine.execCarriageFrameArrival dt mosi s
  | .carriageFrameError dt mosi => Sys2Proof.Machine.execCarriageFrameError dt mosi s
  | .csRising dt mosi => Sys2Proof.Machine.execCsRising dt mosi s
  | .replyDelivered dt mosi => Sys2Proof.Machine.execReplyDelivered dt mosi s
  | .portReset dt => Sys2Proof.Machine.execPortReset dt s
  | .portResetRelease dt => Sys2Proof.Machine.execPortResetRelease dt s
  | .requestBadKind dt link => Sys2Proof.Machine.execRequestBadKind dt link s
  | .chainageQuery dt link => Sys2Proof.Machine.execChainageQuery dt link s
  | .setDatum dt link => Sys2Proof.Machine.execSetDatum dt link s
  | .setSetting dt link => Sys2Proof.Machine.execSetSetting dt link s
  | .getSetting dt link => Sys2Proof.Machine.execGetSetting dt link s
  | .headHome dt link => Sys2Proof.Machine.execHeadHome dt link s
  | .headMove dt link => Sys2Proof.Machine.execHeadMove dt link s
  | .headStop dt link => Sys2Proof.Machine.execHeadStop dt link s
  | .headPark dt link => Sys2Proof.Machine.execHeadPark dt link s
  | .headRelease dt link => Sys2Proof.Machine.execHeadRelease dt link s
  | .headQuery dt link => Sys2Proof.Machine.execHeadQuery dt link s
  | .lampQuery dt link => Sys2Proof.Machine.execLampQuery dt link s
  | .still dt link => Sys2Proof.Machine.execStill dt link s
  | .markPoint dt link => Sys2Proof.Machine.execMarkPoint dt link s
  | .openObs dt link => Sys2Proof.Machine.execOpenObs dt link s
  | .closeObs dt link => Sys2Proof.Machine.execCloseObs dt link s
  | .voidObs dt link => Sys2Proof.Machine.execVoidObs dt link s
  | .annotate dt link => Sys2Proof.Machine.execAnnotate dt link s
  | .readLog dt link => Sys2Proof.Machine.execReadLog dt link s
  | .trimLog dt link => Sys2Proof.Machine.execTrimLog dt link s
  | .readStamps dt link => Sys2Proof.Machine.execReadStamps dt link s
  | .conditionsQuery dt link => Sys2Proof.Machine.execConditionsQuery dt link s
  | .ackConditions dt link => Sys2Proof.Machine.execAckConditions dt link s
  | .restartSurvey dt link => Sys2Proof.Machine.execRestartSurvey dt link s
  | .startupWriteComplete dt => Sys2Proof.Machine.execStartupWriteComplete dt s
  | .pixelArrival dt x y value => Sys2Proof.Machine.execPixelArrival dt x y value s
  | .strayByte dt mosi => Sys2Proof.Machine.execStrayByte dt mosi s

end Sys2Proof.Machine
end

