-- ==== Sys2Proof/Safety.lean ====
section
/-! DEFINITION. What statements about the part are made of: the time a command takes, a request that its port may serve
and the state that answers it, and the invariants that every step keeps. -/

namespace Sys2Proof.Machine

/-! ## Commands -/

/-- The microseconds that pass before a command is taken; POWER_ON starts the time base again (log 1). -/
def elapsedBefore : Instr → Nat
  | .powerOn _ => 0
  | .reelReport dt _ => dt
  | .presenceTimerExpiry dt => dt
  | .wheelTransition dt _ _ _ => dt
  | .wheelHistorySample dt => dt
  | .driveReport dt => dt
  | .driveFreshExpiry dt => dt
  | .frameBoundary dt => dt
  | .sensorWriteStart dt => dt
  | .sensorWriteComplete dt => dt
  | .commitDeadlineExpiry dt => dt
  | .strobeWindowOpen dt => dt
  | .strobeWindowClose dt => dt
  | .thermalPollDue dt _ => dt
  | .pollTransactionEnd dt _ => dt
  | .busTimeout dt => dt
  | .headHistorySample dt => dt
  | .axisStep dt _ => dt
  | .axisRest dt _ => dt
  | .indexPass dt _ => dt
  | .homingLimit dt _ => dt
  | .tetherFrameArrival dt _ => dt
  | .tetherFrameError dt _ => dt
  | .linkAliveTimeout dt => dt
  | .messageBegin dt => dt
  | .messageEnd dt => dt
  | .csFalling dt => dt
  | .carriageFrameArrival dt _ => dt
  | .carriageFrameError dt _ => dt
  | .csRising dt _ => dt
  | .replyDelivered dt _ => dt
  | .portReset dt => dt
  | .portResetRelease dt => dt
  | .requestBadKind dt _ => dt
  | .chainageQuery dt _ => dt
  | .setDatum dt _ => dt
  | .setSetting dt _ => dt
  | .getSetting dt _ => dt
  | .headHome dt _ => dt
  | .headMove dt _ => dt
  | .headStop dt _ => dt
  | .headPark dt _ => dt
  | .headRelease dt _ => dt
  | .headQuery dt _ => dt
  | .lampQuery dt _ => dt
  | .still dt _ => dt
  | .markPoint dt _ => dt
  | .openObs dt _ => dt
  | .closeObs dt _ => dt
  | .voidObs dt _ => dt
  | .annotate dt _ => dt
  | .readLog dt _ => dt
  | .trimLog dt _ => dt
  | .readStamps dt _ => dt
  | .conditionsQuery dt _ => dt
  | .ackConditions dt _ => dt
  | .restartSurvey dt _ => dt
  | .startupWriteComplete dt => dt
  | .pixelArrival dt _ _ _ => dt
  | .strayByte dt _ => dt

/-- The command that serves a request of a KIND on a link (spec/12 R203); DRIVE REPORT is served on CARRIAGE alone and
has no link. -/
def servedBy (dt : Nat) (l : Link) (kind : Byte) : Option Instr :=
  match kind.toNat with
  | 0x10 => some (.chainageQuery dt l)
  | 0x11 => some (.setDatum dt l)
  | 0x18 => some (.setSetting dt l)
  | 0x19 => some (.getSetting dt l)
  | 0x20 => some (.headHome dt l)
  | 0x21 => some (.headMove dt l)
  | 0x22 => some (.headStop dt l)
  | 0x23 => some (.headPark dt l)
  | 0x24 => some (.headRelease dt l)
  | 0x25 => some (.headQuery dt l)
  | 0x28 => some (.lampQuery dt l)
  | 0x2C => some (.still dt l)
  | 0x30 => some (.markPoint dt l)
  | 0x31 => some (.openObs dt l)
  | 0x32 => some (.closeObs dt l)
  | 0x33 => some (.voidObs dt l)
  | 0x34 => some (.annotate dt l)
  | 0x35 => some (.readLog dt l)
  | 0x36 => some (.trimLog dt l)
  | 0x38 => some (.readStamps dt l)
  | 0x3C => some (.conditionsQuery dt l)
  | 0x3D => some (.ackConditions dt l)
  | 0x3F => some (.restartSurvey dt l)
  | _ => none

/-- A request is the oldest of its link's queue and the port allows service (spec/10 R188). -/
def State.readyFor (s : State) (l : Link) (f : Frame) (rest : List Frame) : Prop :=
  s.requests l = f :: rest ∧ s.canServe l = true

/-- The state in which an owning block takes a request: time has passed and the request has left its queue. -/
def State.taken (s : State) (dt : Nat) (l : Link) (rest : List Frame) : State := (s.elapse dt).putRequests l rest

/-- The state with the reply to a request sent: its TAG, its KIND plus 0x80, a status and content (spec/12 R203). -/
def State.answered (s : State) (l : Link) (f : Frame) (st : Status) (content : List Byte) : State :=
  s.reply l ⟨f.tag, f.kind + 0x80, u8 st.code ++ content⟩

/-! ## Invariants -/

/-- Every numeric setting lies in the range of the settings table, every overlay text is at most 40 codes long
(spec/11 R195). -/
def SettingsOk (s : Settings) : Prop :=
  (∀ k : NumId, k.line.lo ≤ s.num k ∧ s.num k ≤ k.line.hi) ∧ ∀ n : Fin 4, s.texts[n].length ≤ 40

/-- The Reckoner's bounds: S within 0 to the S_max in effect (spec/02 R34), F within 1,000 m (R36), v_s within
2,000 mm/s (R37), the slip count 16-bit (R30), and a pending datum within its range (R44). -/
def ReckonerOk (c : Reckoner) : Prop :=
  0 ≤ c.slack ∧ c.slack ≤ c.eff.slackMax ∧ c.eff.slackMax ≤ 10000000 ∧
    -1000000000 ≤ c.anchor.f ∧ c.anchor.f ≤ 1000000000 ∧
    -2000 ≤ c.speed ∧ c.speed ≤ 2000 ∧ c.slipCount ≤ 65535 ∧
    ∀ v, c.pendingDatum = some v → -999999 ≤ v ∧ v ≤ 999999

/-- The stamp ring: at most 128 stamps with consecutive frame numbers up to the one before c, each cursor within the
held stamps or one past the newest (spec/06 R125). -/
def RingOk (s : State) : Prop :=
  s.stu.stamps.length ≤ 128 ∧
    s.stu.stamps.map (·.frame)
      = (List.range s.stu.stamps.length).map (fun i => s.fxc.counter - BitVec.ofNat 32 (s.stu.stamps.length - i)) ∧
    ∀ l : Link, (s.fxc.counter - s.stu.cursor l).toNat ≤ s.stu.stamps.length

/-- The observation log: at most 96 records in strictly increasing id order below the next id, at most 4 of them OPEN,
only CONTINUOUS ones OPEN, an end exactly on the CLOSED CONTINUOUS ones; the guard memory lists POINT records that are
not VOID and have a start (spec/08 section 8.1, R147, R151). -/
def LogOk (o : ObsLog) : Prop :=
  o.records.length ≤ 96 ∧ 1 ≤ o.nextId ∧ o.nextId ≤ 65536 ∧
    (o.records.map (·.id)).Pairwise (· < ·) ∧
    (∀ r ∈ o.records, 1 ≤ r.id ∧ r.id < o.nextId) ∧
    o.openOnes.length ≤ 4 ∧
    (∀ r ∈ o.records, r.state = .opened → r.kind = .continuous) ∧
    (∀ r ∈ o.records, r.finish.isSome = (r.kind == .continuous && r.state == .closed)) ∧
    o.guardMemory.Pairwise (· < ·) ∧
    ∀ g ∈ o.guardMemory, ∃ r ∈ o.records, r.id = g ∧ r.kind = .point ∧ r.state ≠ .voided ∧ r.start.isSome

/-- The head: with the lock HELD no surface operation is in flight (spec/05 R109), parks and only parks are CARRIAGE's,
the demand is raised exactly while the clearance is not NONE (R102), no axis moves before clearance is GIVEN
(spec/03 R65), start pending waits for clearance, with no operation in flight nothing moves or is to move and no clearance is asked
for, homed positions lie in their ranges (R100), and each speed limit lies in 1 to its axis's maximum (R99). -/
def HeadOk (s : State) : Prop :=
  (s.hdp.lock = true → ∀ o, s.hdp.op = some o → o.kind = .park) ∧
    (∀ o, s.hdp.op = some o → (o.kind = .park ↔ o.origin = .carriage)) ∧
    (s.hdp.demand = true ↔ s.fxc.clearance ≠ .unasked) ∧
    (s.hdp.atRest = false → s.fxc.clearance = .given) ∧
    (s.hdp.anyPending = true → s.fxc.clearance = .waiting) ∧
    (s.hdp.op = none → s.hdp.finished = true ∧ s.fxc.clearance = .unasked) ∧
    (∀ p, s.hdp.pan.pos = some p → 0 ≤ p ∧ p ≤ 3599) ∧
    (∀ p, s.hdp.tilt.pos = some p → -1350 ≤ p ∧ p ≤ 1350) ∧
    ∀ ax : Axis, 1 ≤ (s.hdp.axis ax).limit ∧ (s.hdp.axis ax).limit ≤ maxSpeed ax

/-- The ports: queue depths (spec/10 R179, R186, R188, R189), nothing queued on a LOST tether (R182), the link-alive
timer running exactly while UP (R181), and no refusal waiting beside an empty slot (R186). -/
def PortsOk (s : State) : Prop :=
  s.tlp.requests.length ≤ 4 ∧ s.tlp.replies ≤ 4 ∧ s.tlp.refusals ≤ 4 ∧ s.tlp.transmit.count .attention ≤ 1 ∧
    s.cgp.requests.length ≤ 4 ∧ s.cgp.refusals.length ≤ 4 ∧
    (s.cgp.slot = none → s.cgp.refusals = []) ∧
    (s.tlp.up = s.tlp.alive.isSome) ∧
    (s.tlp.up = false → s.tlp.requests = [] ∧ s.tlp.transmit = [])

/-- The ceiling that goes with a thermal state (spec/04 R90). -/
def ThermalOk (m : ThermalMonitor) : Prop :=
  match m.state with
  | .normal => m.ceiling = 1000
  | .derate => 200 ≤ m.ceiling ∧ m.ceiling ≤ 1000
  | .shutdown => m.ceiling = 0
  | .fault => m.ceiling = 400

/-- A set that a frame may be taken with: exposure in 20 to Tf - 6,000, gain in 16 to 256, level in 0 to 1000
(spec/03 R64). -/
def SetOk (period : Nat) (f : FrameSet) : Prop :=
  20 ≤ f.exposure ∧ f.exposure ≤ period - 6000 ∧ 16 ≤ f.gain ∧ f.gain ≤ 256 ∧ f.level ≤ 1000

/-- Every set of the pipeline is one that a frame may be taken with (spec/03 R64), and I_thermal goes with the thermal
state (spec/04 R90). -/
def PipelineOk (s : State) : Prop :=
  ThermalOk s.ltm ∧ SetOk s.fxc.period s.fxc.current.set ∧
    (∀ p, s.fxc.ended = some p → SetOk s.fxc.period p.set) ∧
    ∀ c ∈ s.fxc.commits, SetOk s.fxc.period c.set

end Sys2Proof.Machine
end

