-- ==== Sys2Proof/Certificates/Slice0/Obligations.lean ====
section
/-! DEFINITION. The statements for the provers, in the order of the spec's chapters. A record update on the right of an
equation is the statement's frame: every field that it does not name is unchanged. -/

open Sys2Proof Sys2Proof.Machine

/-! ## The step, the queue and power-on -/

/-- A step takes the command at the front of the queue and runs it on the state with the queue's rest; with nothing
waiting the block idles. Both are the model's form of a block (log 4), not a rule of the spec. -/
def Obligations.StepTakesTheFrontCommand : Prop :=
  ∀ s : State,
    (∀ (c : Instr) (rest : List Instr), s.pending = c :: rest → step s = exec c { s with pending := rest }) ∧
    (s.pending = [] → step s = .next s)

/-- Every command answers a next state, leaves the queue as it is, and moves the time base by its own elapsed time;
POWER_ON sets the time base to 0 (spec/01 R1 and spec/11 R198 for the time base; the elapsed time as an operand is the
model's choice, log 1, and so are that the time base wraps at 2^64, log 8, and that a command whose cause does not hold
still answers, log 2). -/
def Obligations.EveryCommandKeepsTheQueueAndTime : Prop :=
  ∀ (c : Instr) (s : State), ∃ t : State, exec c s = .next t ∧ t.pending = s.pending ∧
    ((∃ p, c = .powerOn p) → t.timeBase = 0) ∧
    ((∀ p, c ≠ .powerOn p) → t.timeBase = (s.timeBase + elapsedBefore c) % 2 ^ 64)

/-- POWER_ON: the time base is 0, the straps and pin levels are taken, every setting has its default, and every field of
every block has the value of the lifecycle tables (spec/11 section 11.2 and the lifecycle tables); the outputs that
follow are low. That the waiting commands go on waiting is the model's choice (log 6), and so are the class, the
selection and the flag of a last-step record of kind NONE (log 18), the default weights of the start-up set (log 17),
the metering window before the first boundary (log 24), the fields of an axis and others that the spec implies without a
value, the empty record of what was sent on I2C among them (log 38), and that no transaction is open (log 39). -/
def Obligations.PowerOnTakesTheTableValues : Prop :=
  ∀ (p : Pins) (s : State),
    let t : State := { State.powerOn p with pending := s.pending }
    let set : FrameSet :=
      { exposure := 8000, gain := 16, level := 0, strobe := true, still := false, clean := false, target := 4000000
        lightLimited := false, late := false, startUp := true }
    let slot : PipeSlot := ⟨set, ⟨100, 50, 0⟩, true⟩
    let wheel (a b : Bool) : WheelRecord := { count := 0, lineA := a, lineB := b, sense := 1, errors := 0, fault := false }
    let axis (limit : Nat) : AxisRecord :=
      { state := .unhomed, pos := none, target := none, togo := 0, limit := limit, speedSq := 0, part := 0, clock := 0
        up := true, lastStep := none, homingTravel := 0, startPending := .clear, searchOwed := false
        lossCause := .noCause, corrections := 0 }
    let counters : PortCounters := ⟨0, 0, 0, 0, 0, 0, 0, 0, 0, 0, 0⟩
    exec (.powerOn p) s = .next t ∧ t.timeBase = 0 ∧
    (∀ k : NumId, t.set.num k = k.line.dflt) ∧ (∀ n : Fin 4, t.set.texts[n] = []) ∧
    t.set.tetherMask = 0xFFFF ∧ t.set.carriageMask = 0x7A35 ∧
    t.rin = { machine := .acquire, expected := 0, suspect := 0, zeroedPending := false, presence := none
              stats := ⟨0, 0, 0, 0, 0, 0, 0⟩ } ∧
    t.wct = ⟨wheel p.leftA p.leftB, wheel p.rightA p.rightB, []⟩ ∧
    t.drv = { fresh := false, direction := .stopped, demand := 0, inclination := none, timer := none } ∧
    t.chr = { anchor := ⟨0, 0, ⟨0, 0⟩, 0, .track, .mean⟩, slack := 0, cable := 0, v0 := none, datumTaken := false
              pendingDatum := none, speed := 0, slipCount := 0, eff := ReckonSettings.ofStore t.set
              last := ⟨.noStep, .track, .mean, false⟩ } ∧
    t.fxc = { rate30 := p.frameRate, counter := 0, origin := 0, ended := none, current := slot, commits := []
              prevLimited := false, pendingStill := none, clearance := .unasked } ∧
    t.ssp = ⟨some ⟨some (if p.frameRate = true then 33333 else 40000), 8000, 16⟩, []⟩ ∧
    t.ist = ⟨⟨180, 540, 144, 432⟩, 0, 0, 0, none⟩ ∧
    t.ldr = { record := ⟨0, 0, ⟨100, 50, 0⟩, true, 8000, ⟨0, 0, 0⟩⟩, window := .closed, override := none
              overDemand := false, pfull := 0 } ∧
    t.ldr.enable = false ∧ t.ldr.outputs = ⟨0, 0, 0⟩ ∧
    t.ltm = { state := .normal, lastTemp := none, failures := 0, successes := 0, poll := none, lastDue := 0
              lastOutcome := none, counters := ⟨0, 0, 0, 0, 0⟩, ceiling := 1000, bus := [] } ∧
    t.hdp = { pan := axis 600, tilt := axis 450, tiltIndex := p.tiltIndex, lock := false, op := none
              outcome := .reached, demand := false, restTime := 0, doneTether := none, doneCarriage := none
              history := [] } ∧
    t.stu = { stamps := [], cursorTether := 0, cursorCarriage := 0, lostTether := 0, lostCarriage := 0
              pendingMark := none, inFlight := none } ∧
    t.ovg = ⟨[], none, none⟩ ∧ t.obl = ⟨[], 1, []⟩ ∧
    (∀ (l : Link) (n : Fin 16), (t.cnd.counts l)[n] = 0) ∧ (∀ l : Link, t.attention l = false) ∧
    t.tlp = { framer := .hunt, up := false, alive := none, requests := [], transmit := [], line := none
              baud := p.baud, counters := counters } ∧
    t.cgp = { framer := .hunt, transaction := .absent, requests := [], slot := none, refusals := []
              heldInReset := p.portReset, counters := counters } ∧
    t.cgp.replyReady = false ∧ ∀ n : Nat, t.cgp.miso n = List.replicate n 0

/-- The state after reset meets every invariant that the step keeps (spec/11 section 11.2). -/
def Obligations.ResetMeetsEveryInvariant : Prop :=
  SettingsOk State.reset.set ∧ ReckonerOk State.reset.chr ∧ RingOk State.reset ∧ LogOk State.reset.obl ∧
    HeadOk State.reset ∧ PortsOk State.reset ∧ PipelineOk State.reset

/-! ## Conditions (spec/09) -/

/-- A raising adds one, up to 255, to the count of its latch for each link of its audience and to no other count, by the
sixteen rows of the table of latches; it changes nothing else but the transmit queue, which gains one ATTENTION message
exactly when the tether's attention turns on while the tether is UP and none waits. A link's attention is on exactly when
some latch of its mask has a nonzero count for it, and the ATTENTION line is the carriage's (spec/09 sections 9.1
and 9.3). -/
def Obligations.RaisingCountsForItsAudience : Prop :=
  (∀ (s : State) (c : Condition) (named : Link),
    let t := s.raiseFor c named
    let both : List Link := [.tether, .carriage]
    let row : Fin 16 × List Link := match c with
      | .reelLost => (0, both)
      | .reelRebased => (1, both)
      | .wheelSlip => (2, both)
      | .slackLimit => (3, both)
      | .wheelFault => (4, both)
      | .datumTaken => (5, both)
      | .lampDerated => (6, [.tether])
      | .lampShutdown => (7, both)
      | .thermalSensorFault => (8, [.tether])
      | .budgetOver => (9, both)
      | .lightLimited => (10, [.tether])
      | .headDone => (11, [named])
      | .headLost => (12, both)
      | .stillDone => (13, [named])
      | .stampsLost => (14, [named])
      | .logNearFull => (15, both)
    (∀ (l : Link) (n : Fin 16), (t.cnd.counts l)[n]
      = if l ∈ row.2 ∧ n = row.1 then min 255 ((s.cnd.counts l)[n] + 1) else (s.cnd.counts l)[n]) ∧
    t = { s with cnd := t.cnd, tlp := { s.tlp with transmit := t.tlp.transmit } } ∧
    t.tlp.transmit
      = if s.attention .tether = false ∧ t.attention .tether = true ∧ s.tlp.up = true ∧ .attention ∉ s.tlp.transmit
        then s.tlp.transmit ++ [.attention] else s.tlp.transmit) ∧
  ∀ s : State,
    (s.attention .tether = true ↔ ∃ n : Fin 16, 0 < s.cnd.tether[n] ∧ s.set.tetherMask.getLsbD n.val = true) ∧
    (s.attention .carriage = true ↔ ∃ n : Fin 16, 0 < s.cnd.carriage[n] ∧ s.set.carriageMask.getLsbD n.val = true) ∧
    s.attentionLine = s.attention .carriage

/-- ACK CONDITIONS: the named latches of the requesting link go to 0, every other count and the other link's counts
stay, no ATTENTION message is placed, the link's attention, for the carriage its line, follows in the same event, and
the DONE reply carries the counts from before with the attention after. CONDITIONS QUERY changes nothing and carries the
counts and the attention as they stand. Behind the sixteen counts both carry the mask, the attention and link state
bits, and the eleven port counters in their order (spec/09 section 9.4, spec/12 section 12.8). -/
def Obligations.ConditionRepliesAndAcknowledgement : Prop :=
  ∀ (dt : Nat) (s : State) (l : Link) (tag : Byte) (p : List Byte) (rest : List Frame),
    let mask := match l with
      | .tether => s.set.tetherMask
      | .carriage => s.set.carriageMask
    let counters : List Byte :=
      let c := match l with
        | .tether => s.tlp.counters
        | .carriage => s.cgp.counters
      u16 c.valid ++ u16 c.lengthErrors ++ u16 c.crcErrors ++ u16 c.broken ++ u16 c.partials ++ u16 c.stray
        ++ u16 c.wrongLink ++ u16 c.busy ++ u16 c.dropped ++ u16 c.losses ++ u16 c.resends
    (p.length = 2 → s.readyFor l ⟨tag, 0x3D, p⟩ rest →
      ∃ (v : Vector Nat 16) (content : List Byte),
        let t := { s.taken dt l rest with cnd := s.cnd.putCounts l v }.answered l ⟨tag, 0x3D, p⟩ .done content
        (∀ n : Fin 16, v[n] = if (setAt p 0).getLsbD n.val then 0 else (s.cnd.counts l)[n]) ∧
        exec (.ackConditions dt l) s = .next t ∧
        t.attention l = attentionOf v mask ∧ (l = .carriage → t.attentionLine = attentionOf v mask) ∧
        content.length = 41 ∧
        (∀ n : Fin 16, (s.cnd.counts l)[n] ≤ 255 → byteAt content n.val = (s.cnd.counts l)[n]) ∧
        content.drop 16 = u16 mask.toNat ++ flags [attentionOf v mask, s.tlp.up] ++ counters) ∧
    (s.readyFor l ⟨tag, 0x3C, []⟩ rest →
      ∃ content : List Byte,
        exec (.conditionsQuery dt l) s = .next ((s.taken dt l rest).answered l ⟨tag, 0x3C, []⟩ .done content) ∧
        content.length = 41 ∧
        (∀ n : Fin 16, (s.cnd.counts l)[n] ≤ 255 → byteAt content n.val = (s.cnd.counts l)[n]) ∧
        content.drop 16 = u16 mask.toNat ++ flags [s.attention l, s.tlp.up] ++ counters)

/-! ## Reel and wheels (spec/01) -/

/-- A transition of a wheel's pair: one place along (0,0), (1,0), (1,1), (0,1) adds the sense in use, one place against
it takes the sense away, no change of the pair does nothing, and a change of both lines adds nothing, takes the new
levels and counts an error, the ninth of which puts a healthy wheel in FAULT and raises WHEEL_FAULT (spec/01
section 1.5). Counting goes on in both health states. That a command with the levels the lines already have is no
transition and does nothing is the model's choice (log 40). -/
def Obligations.WheelTransitionCounts : Prop :=
  ∀ (dt : Nat) (k : Wheel) (a b : Bool) (s : State),
    let w := s.wct.wheel k
    let moved (r : WheelRecord) : State :=
      { s.elapse dt with wct := s.wct.putWheel k { r with lineA := a, lineB := b } }
    (a = !w.lineB ∧ b = w.lineA →
      exec (.wheelTransition dt k a b) s = .next (moved { w with count := w.count + BitVec.ofInt 32 w.sense })) ∧
    (a = w.lineB ∧ b = !w.lineA →
      exec (.wheelTransition dt k a b) s = .next (moved { w with count := w.count + BitVec.ofInt 32 (-w.sense) })) ∧
    (a = w.lineA ∧ b = w.lineB → exec (.wheelTransition dt k a b) s = .next (s.elapse dt)) ∧
    (a = !w.lineA ∧ b = !w.lineB →
      let errors := min 255 (w.errors + 1)
      let struck := moved { w with errors := errors, fault := w.fault || decide (9 ≤ errors) }
      exec (.wheelTransition dt k a b) s
        = .next (if w.fault = false ∧ 9 ≤ errors then struck.raise .wheelFault else struck))

/-- At each multiple of 4,000 microseconds the wheel history ring takes the instant and both counts, at each multiple of
1,000 the head history ring takes the instant and both positions; each keeps its newest 64 entries. An instant that is no
such multiple writes nothing (log 3). A look-up in either ring gives the newest entry at or before the instant, the
oldest entry when the instant is earlier than every entry, and the live values with the ring empty (spec/01 section 1.6,
spec/05 section 5.10). -/
def Obligations.HistoryRingsSampleAndLookUp : Prop :=
  (∀ (dt : Nat) (s : State),
    let now := (s.timeBase + dt) % 2 ^ 64
    let wheels := s.wct.history ++ [⟨now, ⟨s.wct.left.count, s.wct.right.count⟩⟩]
    let angles := s.hdp.history ++ [⟨now, s.hdp.pan.pos, s.hdp.tilt.pos⟩]
    (0 < now → now % 4000 = 0 → (∀ e ∈ s.wct.history, e.time < now) →
      exec (.wheelHistorySample dt) s
        = .next { s.elapse dt with wct := { s.wct with history := wheels.drop (wheels.length - 64) } }) ∧
    (0 < now → now % 1000 = 0 → (∀ e ∈ s.hdp.history, e.time < now) →
      exec (.headHistorySample dt) s
        = .next { s.elapse dt with hdp := { s.hdp with history := angles.drop (angles.length - 64) } }) ∧
    (now % 4000 ≠ 0 → exec (.wheelHistorySample dt) s = .next (s.elapse dt)) ∧
    (now % 1000 ≠ 0 → exec (.headHistorySample dt) s = .next (s.elapse dt))) ∧
  (∀ (w : WheelCounter) (t : Nat),
    (w.history = [] → w.sampleAt t = ⟨w.left.count, w.right.count⟩) ∧
    (∀ e rest, w.history = e :: rest → (∀ x ∈ w.history, t < x.time) → w.sampleAt t = e.counts) ∧
    ∀ pre e post, w.history = pre ++ e :: post → e.time ≤ t → (∀ x ∈ post, t < x.time) → w.sampleAt t = e.counts) ∧
  ∀ (h : HeadPositioner) (t : Nat),
    (h.history = [] → h.anglesAt t = (h.pan.pos, h.tilt.pos)) ∧
    (∀ e rest, h.history = e :: rest → (∀ x ∈ h.history, t < x.time) → h.anglesAt t = (e.pan, e.tilt)) ∧
    ∀ pre e post, h.history = pre ++ e :: post → e.time ≤ t → (∀ x ∈ post, t < x.time) →
      h.anglesAt t = (e.pan, e.tilt)

/-- A reel report's frame, whole on a tether whose framer hunts, reaches the Reel Input within the step: the link state
takes the frame first, then the Reel Input its payload (spec/10 section 10.2, spec/01 section 1.1). -/
def Obligations.ReelReportsReachTheReelInput : Prop :=
  ∀ (dt : Nat) (s : State) (tag : Byte) (payload : List Byte),
    payload.length ≤ 120 → s.tlp.framer = .hunt →
    exec (.reelReport dt (Frame.tetherBytes ⟨tag, 0x01, payload⟩)) s
      = .next ((s.elapse dt).tetherValid.reelArrival payload)

/-- The Reel Input's judgement of a reel report (spec/01 section 1.2): malformed, NO-COUNT, duplicate and suspect
reports change only its own state and hand nothing on; a next report or a gap within FILL_LIMIT hands on a step batch; a
longer gap, a forced rebase or a confirmed new sequence a rebase batch with REEL_REBASED; ACQUIRE a rebase batch without
it. Each batch is timed at the aligned time, the arrival less LATENCY, never below 0 nor before the anchor's, and
restarts the presence timer. A payload that is not six bytes long, or whose number is above 63, is malformed; another's
fields stand at their places (spec/01 section 1.1, spec/12 section 12.4). -/
def Obligations.ReelInputJudgesReports : Prop :=
  ∀ (s : State) (payload : List Byte),
    let one (n : Nat) := min 65535 (n + 1)
    let r := s.rin
    let st := s.rin.stats
    let restarted (rin : ReelInput) : ReelInput :=
      { rin with presence := some (s.timeBase + s.set.nat .reelTimeout * 1000) }
    (s.alignedTime : Int)
      = max (max 0 ((s.timeBase : Int) - (s.set.nat .latency * 1000 : Nat))) (s.chr.anchor.time : Int) ∧
    reelReportOf payload
      = (if payload.length = 6 ∧ byteAt payload 0 ≤ 63 then
          some ⟨BitVec.ofNat 6 (byteAt payload 0), decide (byteAt payload 1 % 2 = 1),
            decide (byteAt payload 1 / 2 % 2 = 1), BitVec.ofNat 32 (u32At payload 2)⟩
        else none) ∧
    (reelReportOf payload = none →
      s.reelArrival payload = { s with rin := { r with stats := { st with malformed := one st.malformed } } }) ∧
    ∀ rep : ReelReport, reelReportOf payload = some rep →
      let n := (rep.seq - r.expected).toNat
      let forced := rep.zeroed = true ∨ r.zeroedPending = true
        ∨ 4095 < (diff32 rep.count s.chr.anchor.count).natAbs
      let rebased (missing : Nat) : State → State := fun u =>
        { u.takeBatch (.rebase rep.count s.alignedTime) with
          rin := restarted { r with
            machine := .sync, expected := rep.seq + 1, zeroedPending := false
            stats := { st with rebases := one st.rebases, missing := min 65535 (st.missing + missing) } } }
      let suspected (st : ReelStats) : State :=
        { s with rin := { r with
            machine := .check, suspect := rep.seq, stats := { st with suspects := one st.suspects } } }
      let noted := { st with noCount := one st.noCount }
      let advanced (missing : Nat) : State :=
        { s with rin := { r with
            machine := .sync, expected := rep.seq + 1, zeroedPending := r.zeroedPending || rep.zeroed
            stats := { noted with missing := min 65535 (st.missing + missing) } } }
      (rep.noCount = false → r.machine = .acquire → s.reelArrival payload = rebased 0 s) ∧
      (rep.noCount = false → r.machine = .sync → n ≤ 7 → n ≤ s.set.nat .fillLimit → ¬forced →
        s.reelArrival payload
          = { s.takeBatch (.step n rep.count s.alignedTime) with
              rin := restarted { r with
                machine := .sync, expected := rep.seq + 1
                stats := { st with
                  missing := min 65535 (st.missing + n), fills := min 65535 (st.fills + n) } } }) ∧
      (rep.noCount = false → r.machine = .sync → n ≤ 7 → s.set.nat .fillLimit < n ∨ forced →
        s.reelArrival payload = rebased n (s.raise .reelRebased)) ∧
      (rep.noCount = false → r.machine = .sync → n = 63 →
        s.reelArrival payload = { s with rin := { r with stats := { st with duplicates := one st.duplicates } } }) ∧
      (rep.noCount = false → r.machine = .sync → 8 ≤ n → n ≤ 62 → s.reelArrival payload = suspected st) ∧
      (rep.noCount = false → r.machine = .check → rep.seq ≠ r.expected → rep.seq ≠ r.suspect + 1 →
        s.reelArrival payload = suspected st) ∧
      (rep.noCount = false → r.machine = .check → rep.seq ≠ r.expected → rep.seq = r.suspect + 1 →
        s.reelArrival payload = rebased 0 (s.raise .reelRebased)) ∧
      (rep.noCount = false → r.machine = .check → rep.seq = r.expected → forced →
        s.reelArrival payload = rebased 0 (s.raise .reelRebased)) ∧
      (rep.noCount = false → r.machine = .check → rep.seq = r.expected → ¬forced →
        s.reelArrival payload
          = { s.takeBatch (.step 0 rep.count s.alignedTime) with
              rin := restarted { r with
                machine := .sync, expected := rep.seq + 1
                stats := { st with missing := min 65535 st.missing, fills := min 65535 st.fills } } }) ∧
      (rep.noCount = true → r.machine = .acquire → s.reelArrival payload = { s with rin := { r with stats := noted } }) ∧
      (rep.noCount = true → r.machine = .sync → n ≤ 7 → s.reelArrival payload = advanced n) ∧
      (rep.noCount = true → r.machine = .sync → n = 63 →
        s.reelArrival payload
          = { s with rin := { r with stats := { noted with duplicates := one st.duplicates } } }) ∧
      (rep.noCount = true → r.machine = .sync → 8 ≤ n → n ≤ 62 → s.reelArrival payload = suspected noted) ∧
      (rep.noCount = true → r.machine = .check → rep.seq = r.expected → s.reelArrival payload = advanced 0) ∧
      (rep.noCount = true → r.machine = .check → rep.seq ≠ r.expected → s.reelArrival payload = suspected noted)

/-- The presence timer's expiry in SYNC or CHECK: ACQUIRE is entered, REEL_LOST raised, and the Reckoner takes the
hold-over, so that the provisional chainage does not jump; a pending datum is then applied at once, which raises
DATUM_TAKEN after REEL_LOST, closes the log's OPEN records at the chainage just before it, or just after a first datum,
and empties its guard memory. Nothing else changes (spec/01 section 1.3, spec/02 sections 2.5 and 2.7, spec/08 section
8.8, spec/09 section 9.1). That the last-step record, of kind DATUM, takes class DATUM and keeps its selection and flag
is the model's choice (log 18). -/
def Obligations.PresenceLapseHoldsTheChainage : Prop :=
  ∀ (dt : Nat) (s : State) (d : Nat),
    s.rin.machine ≠ .acquire → s.rin.presence = some d → d ≤ (s.timeBase + dt) % 2 ^ 64 →
    let lapsed : State := State.raise
      { s.elapse dt with rin := { s.rin with machine := .acquire, presence := none, zeroedPending := false } } .reelLost
    let held : State := { lapsed with chr := { s.chr with
      anchor := { s.chr.anchor with f := s.provisionalNow, wheels := s.wct.live } } }
    (s.chr.pendingDatum = none →
      exec (.presenceTimerExpiry dt) s = .next held ∧ held.provisionalNow = s.provisionalNow) ∧
    (∀ v, s.chr.pendingDatum = some v →
      let told : State := lapsed.raise .datumTaken
      let fixed : State := { s.elapse dt with
        rin := { s.rin with machine := .acquire, presence := none, zeroedPending := false }
        cnd := told.cnd, tlp := told.tlp
        chr := { s.chr with
          anchor := { s.chr.anchor with f := v * 1000, wheels := s.wct.live, cls := .datum }
          slack := 0, v0 := none, datumTaken := true, pendingDatum := none
          last := { s.chr.last with kind := .datum, cls := .datum } } }
      let closing := if s.chr.datumTaken = true then s.linkMm s.provisionalNow else s.linkMm fixed.provisionalNow
      exec (.presenceTimerExpiry dt) s
        = .next { fixed with
            obl := { s.obl with
              records := s.obl.records.map fun r =>
                if r.state = .opened then { r with state := .closed, finish := some closing, closedByDatum := true } else r
              guardMemory := [] } } ∧
      (∀ (l : Link) (n : Fin 16), (told.cnd.counts l)[n]
        = if n = 0 ∨ n = 5 then min 255 ((s.cnd.counts l)[n] + 1) else (s.cnd.counts l)[n]) ∧
      told.tlp = { s.tlp with transmit := told.tlp.transmit })

/-! ## Reckoning (spec/02) -/

/-- Stages 3 and 4, rule by rule: FORWARD is TRACK within the tolerance, PAYOUT below it, and above it TAKEUP or SLIP as
the slack explains it; REVERSE on a cable that is drawn in is RETRIEVE; STOPPED, and REVERSE on a cable paid out, go by
the trial slack; with no wheel delta or direction UNKNOWN the class is CABLE-ONLY and the increment the cable delta.
They keep the slack reserve between 0 and S_max, and the increment and the change of the slack together carry the cable
delta: exactly in every class but TRACK and TAKEUP, to within the tolerance in those two, and short of it only where S
is cut at S_max with SLACK_LIMIT raised. WHEEL_SLIP is raised for class SLIP alone (spec/02 section 2.3). -/
def Obligations.StepConservesCable : Prop :=
  ∀ (dir : Option Direction) (dw : Option Int) (dC tol slack smax : Int),
    0 ≤ tol → 0 ≤ slack → slack ≤ smax →
    let v := verdict dir dw dC tol slack smax
    let carried := v.inc + (v.slack - slack)
    0 ≤ v.slack ∧ v.slack ≤ smax ∧
    (.wheelSlip ∈ v.raised ↔ v.cls = .slip) ∧
    (.slackLimit ∈ v.raised → v.cls = .payout ∧ v.slack = smax ∧ carried < dC) ∧
    (.slackLimit ∉ v.raised → -tol ≤ carried - dC ∧ carried - dC ≤ tol) ∧
    (.slackLimit ∉ v.raised → v.cls ≠ .track → v.cls ≠ .takeup → carried = dC) ∧
    (dw = none ∨ dir = none → v = ⟨dC, slack, .cableOnly, []⟩) ∧
    ∀ w : Int, dw = some w →
      let x := w - dC
      let u := min slack x
      let drawn := min slack (-dC)
      let trial := slack + dC - w
      (dir = some .forward →
        (-tol ≤ x → x ≤ tol → v = ⟨w, slack, .track, []⟩) ∧
        (x < -tol → slack - x ≤ smax → v = ⟨w, slack - x, .payout, []⟩) ∧
        (x < -tol → smax < slack - x → v = ⟨w, smax, .payout, [.slackLimit]⟩) ∧
        (tol < x → x - u ≤ tol → v = ⟨w, slack - u, .takeup, []⟩) ∧
        (tol < x → tol < x - u → v = ⟨dC + u, slack - u, .slip, [.wheelSlip]⟩)) ∧
      (dir = some .reverse → dC ≤ 0 → v = ⟨dC + drawn, slack - drawn, .retrieve, []⟩) ∧
      (dir = some .stopped ∨ (dir = some .reverse ∧ 0 < dC) →
        (smax < trial → v = ⟨w, smax, .payout, [.slackLimit]⟩) ∧
        (trial < 0 → v = ⟨w + trial, 0, .retrieve, []⟩) ∧
        (0 ≤ trial → trial ≤ smax → -tol ≤ dC - w → dC - w ≤ tol → v = ⟨w, trial, .track, []⟩) ∧
        (0 ≤ trial → trial ≤ smax → dC - w < -tol ∨ tol < dC - w → v = ⟨w, trial, .payout, []⟩))

/-- The correction is 0 in every class but TRACK. In TRACK it is the residual over two to CORR_SHIFT, rounded half away
from zero and clamped to CORR_MAX either way: it is never larger than the residual and never against it (spec/02 section
2.3). That there is no correction with V0 unset, which no run reaches at a step, is the model's choice (log 21). -/
def Obligations.CorrectionMovesTowardTheCable : Prop :=
  ∀ (eff : ReckonSettings) (v0 cable slack f inc : Int) (cls : StepClass),
    0 ≤ eff.corrMax →
    let c := correction eff (some v0) cable slack f inc cls
    let r := v0 + cable - slack - (f + inc)
    (cls ≠ .track → c = 0) ∧ correction eff none cable slack f inc cls = 0 ∧
    (-eff.corrMax ≤ c ∧ c ≤ eff.corrMax) ∧
    (0 ≤ r → 0 ≤ c ∧ c ≤ r) ∧ (r ≤ 0 → r ≤ c ∧ c ≤ 0) ∧
    (cls = .track → (2 * r.natAbs + 2 ^ eff.corrShift) / (2 * 2 ^ eff.corrShift) ≤ eff.corrMax.toNat →
      c.natAbs = (2 * r.natAbs + 2 ^ eff.corrShift) / (2 * 2 ^ eff.corrShift)) ∧
    (cls = .track → eff.corrMax.toNat < (2 * r.natAbs + 2 ^ eff.corrShift) / (2 * 2 ^ eff.corrShift) →
      c = if 0 ≤ r then eff.corrMax else -eff.corrMax)

/-- The wheel delta, the selection and the disagreement flag by the health of the wheels, and their places in the
settled item's record; with both wheels in FAULT the step is CABLE-ONLY (spec/02 section 2.3). -/
def Obligations.WheelDeltaFollowsTheHealth : Prop :=
  ∀ (c : Reckoner) (w : WheelCounter) (n : WheelCounts) (dir : Option Direction) (count : Count) (time : Nat),
    let dL := diff32 n.left c.anchor.wheels.left * c.eff.wheelScale
    let dR := diff32 n.right c.anchor.wheels.right * c.eff.wheelScale
    let limit := c.eff.disFixed + (max (dL.natAbs : Int) dR.natAbs * c.eff.disRatio).tdiv 256
    let d := c.wheelStage w n
    let last := (c.item w dir .settled count time).1.last
    (w.left.fault = false → w.right.fault = false → ((dL - dR).natAbs : Int) ≤ limit →
      d = ⟨some ((diff32 n.left c.anchor.wheels.left + diff32 n.right c.anchor.wheels.right) * c.eff.wheelScale / 2),
        .mean, false⟩) ∧
    (w.left.fault = false → w.right.fault = false → limit < ((dL - dR).natAbs : Int) → dL.natAbs ≤ dR.natAbs →
      d = ⟨some dL, .left, true⟩) ∧
    (w.left.fault = false → w.right.fault = false → limit < ((dL - dR).natAbs : Int) → dR.natAbs < dL.natAbs →
      d = ⟨some dR, .right, true⟩) ∧
    (w.left.fault = true → w.right.fault = false → d = ⟨some dR, .right, false⟩) ∧
    (w.left.fault = false → w.right.fault = true → d = ⟨some dL, .left, false⟩) ∧
    (w.left.fault = true → w.right.fault = true → d = ⟨none, c.anchor.sel, false⟩ ∧ last.cls = .cableOnly) ∧
    (n = w.sampleAt time → last.kind = .settled ∧ last.sel = d.sel ∧ last.disagree = d.disagree)

/-- A step batch without a pending datum. The settings are taken in, and a lower SLACK_MAX cuts S with SLACK_LIMIT. Fill
item i of n takes the count and the time i parts in n + 1 of the way from the batch's first anchor to the report. Each
item measures from the anchor before it: its tolerance is T0 + trunc(|dC| x Tr / 256), F gains the increment and the
correction within 1,000,000,000 micrometres either way, the class and the slack are the verdict's, SLIP is counted, the
speed is trunc(1000 x the change of F over the time), 0 over no time, and the smoothed speed moves a quarter of the way
to it within 2,000. The conditions are raised in the items' order, so that the whole batch carries the cable by the
whole count difference, and the wheel checkpoint ends it. Nothing outside the Reckoner, the wheels and the conditions
changes (spec/02 sections 2.2 to 2.4). -/
def Obligations.BatchAddsTheReelTravel : Prop :=
  ∀ (s : State) (fills : Nat) (count : Count) (time : Nat), s.chr.pendingDatum = none →
    let t := s.takeBatch (.step fills count time)
    let num := s.set.num
    let eff : ReckonSettings :=
      { reelScale := num .reelScale, reelSense := num .reelSense, wheelScale := num .wheelScale
        tolFixed := num .tolFixed, tolRatio := num .tolRatio, disFixed := num .disFixed, disRatio := num .disRatio
        corrShift := s.set.nat .corrShift, corrMax := num .corrMax, slackMax := num .slackMax * 1000 }
    let dir := if s.drv.fresh = true then some s.drv.direction else none
    let item (c : Reckoner) (kind : LastKind) (r : Count) (at_ : Nat) : Reckoner × List Condition :=
      let a := c.anchor
      let dC := diff32 r a.count * eff.reelScale * eff.reelSense
      let tol := eff.tolFixed + ((dC.natAbs : Int) * eff.tolRatio).tdiv 256
      let n := s.wct.sampleAt at_
      let d := c.wheelStage s.wct n
      let v := verdict dir d.dw dC tol c.slack eff.slackMax
      let cable := c.cable + dC
      let f := max (-1000000000)
        (min 1000000000 (a.f + v.inc + correction eff c.v0 cable v.slack a.f v.inc v.cls))
      let speed : Int := if at_ = a.time then 0 else ((f - a.f) * 1000).tdiv ((at_ : Int) - a.time)
      ({ c with
          anchor := ⟨r, at_, n, f, v.cls, d.sel⟩, slack := v.slack, cable := cable
          speed := max (-2000) (min 2000 (c.speed + (speed - c.speed).tdiv 4))
          slipCount := if v.cls = .slip then min 65535 (c.slipCount + 1) else c.slipCount
          last := ⟨kind, v.cls, d.sel, d.disagree⟩ },
        v.raised)
    let a := s.chr.anchor
    let filled := (List.range fills).foldl (fun acc (k : Nat) =>
      let part : Nat := k + 1
      let r := item acc.1 .fill (a.count + BitVec.ofInt 32 ((diff32 count a.count * part).tdiv (fills + 1)))
        (a.time + (time - a.time) * part / (fills + 1))
      (r.1, acc.2 ++ r.2)) ({ s.chr with eff := eff, slack := min s.chr.slack eff.slackMax }, [])
    let settled := item filled.1 .settled count time
    let cut : List Condition := if eff.slackMax < s.chr.slack then [.slackLimit] else []
    let told := s.raiseAll (cut ++ filled.2 ++ settled.2)
    t.chr = settled.1 ∧ t.cnd = told.cnd ∧ t.tlp = told.tlp ∧
    t.chr.anchor.count = count ∧ t.chr.anchor.time = time ∧ t.chr.anchor.wheels = s.wct.sampleAt time ∧
    t.chr.cable
      = s.chr.cable + diff32 count s.chr.anchor.count * s.set.num .reelScale * s.set.num .reelSense ∧
    t.chr.eff = ReckonSettings.ofStore s.set ∧ t.chr.v0 = s.chr.v0 ∧ t.chr.datumTaken = s.chr.datumTaken ∧
    t.chr.pendingDatum = none ∧ t.chr.last.kind = .settled ∧ t.chr.last.cls = t.chr.anchor.cls ∧
    t.wct = { s.wct with
      left := { s.wct.left with
        fault := s.wct.left.fault && decide (s.wct.left.errors ≠ 0), errors := 0, sense := s.set.num .leftSense }
      right := { s.wct.right with
        fault := s.wct.right.fault && decide (s.wct.right.errors ≠ 0), errors := 0, sense := s.set.num .rightSense } } ∧
    t = { s with chr := t.chr, wct := t.wct, cnd := t.cnd, tlp := { s.tlp with transmit := t.tlp.transmit } }

/-- A rebase item: the count is taken over, F becomes the provisional chainage at the aligned time under the settings
just taken in, class and selection stay, and V0 is set so that the residual is 0. The cable position and the smoothed
speed do not change (spec/02 section 2.5). The provisional chainage is F and the wheel distance from the anchor under its
selection, or that of the healthy wheel when one is in FAULT; it is held at F with both in FAULT and after SLIP or
CABLE-ONLY outside ACQUIRE; and it stays within 1,000,000,000 micrometres either way (spec/02 section 2.6). -/
def Obligations.RebaseZeroesTheResidual : Prop :=
  (∀ (s : State) (n : WheelCounts),
    let a := s.chr.anchor
    let dl := diff32 n.left a.wheels.left
    let dr := diff32 n.right a.wheels.right
    let kw := s.chr.eff.wheelScale
    let leftFault := s.wct.left.fault = true
    let rightFault := s.wct.right.fault = true
    let distance : Int :=
      if (leftFault ∧ rightFault) ∨ (s.rin.machine ≠ .acquire ∧ (a.cls = .slip ∨ a.cls = .cableOnly)) then 0
      else if leftFault then dr * kw
      else if rightFault then dl * kw
      else match a.sel with
        | .mean => (dl + dr) * kw / 2
        | .left => dl * kw
        | .right => dr * kw
    s.provisionalAt n = max (-1000000000) (min 1000000000 (a.f + distance)) ∧
    s.provisionalNow = s.provisionalAt ⟨s.wct.left.count, s.wct.right.count⟩) ∧
  ∀ (s : State) (count : Count) (time : Nat),
    let eff := ReckonSettings.ofStore s.set
    let n := s.wct.sampleAt time
    let f := State.provisionalAt { s with chr := { s.chr with eff := eff } } n
    let slack := min s.chr.slack eff.slackMax
    let t := s.takeBatch (.rebase count time)
    t.chr = { s.chr with
      anchor := { s.chr.anchor with count := count, time := time, wheels := n, f := f }
      slack := slack, eff := eff, v0 := some (f + slack - s.chr.cable)
      last := { s.chr.last with kind := .rebase } } ∧
    (∀ v, t.chr.v0 = some v → v + t.chr.cable - t.chr.slack - t.chr.anchor.f = 0) ∧
    t = { s with
      chr := t.chr, wct := s.checkpoint.wct, cnd := t.cnd, tlp := { s.tlp with transmit := t.tlp.transmit } }

/-- A pending datum is applied at the settled item of the next step batch: F is the datum, S is 0, V0 is the datum less
the cable position after the item, the class is DATUM, DATUM_TAKEN is counted on both links, and the log closes every
OPEN record and empties its guard memory: at the chainage at the live counts after the fill items and before the datum,
or, for a first datum, at the one just after it (spec/02 section 2.7, spec/08 section 8.8). -/
def Obligations.PendingDatumAppliesAtTheSettledItem : Prop :=
  ∀ (s : State) (fills : Nat) (count : Count) (time : Nat) (v : Int), s.chr.pendingDatum = some v →
    let t := s.takeBatch (.step fills count time)
    let started := (s.chr.begin_ s.set).1
    let filled : State :=
      { s with chr := (started.fills s.wct s.drv.effDirection started.anchor count time fills).1 }
    let dated : State := { s with chr := t.chr }
    let closing := if s.chr.datumTaken = true then s.linkMm filled.provisionalNow else s.linkMm dated.provisionalNow
    t.chr.anchor.f = v * 1000 ∧ t.chr.anchor.cls = .datum ∧ t.chr.anchor.count = count ∧
    t.chr.anchor.time = time ∧ t.chr.anchor.wheels = s.wct.sampleAt time ∧ t.chr.slack = 0 ∧
    t.chr.v0 = some (v * 1000 - t.chr.cable) ∧
    t.chr.cable
      = s.chr.cable + diff32 count s.chr.anchor.count * s.set.num .reelScale * s.set.num .reelSense ∧
    t.chr.datumTaken = true ∧ t.chr.pendingDatum = none ∧ t.chr.last.kind = .datum ∧
    (∀ l : Link, (t.cnd.counts l)[(5 : Fin 16)] = min 255 ((s.cnd.counts l)[(5 : Fin 16)] + 1)) ∧
    t.obl = { s.obl with
      records := s.obl.records.map fun r =>
        if r.state = .opened then { r with state := .closed, finish := some closing, closedByDatum := true } else r
      guardMemory := [] }

/-- The quality of a reported chainage, by the table of spec/02 R43. -/
def Obligations.QualityFollowsTheTable : Prop :=
  ∀ s : State,
    (s.chr.datumTaken = false → s.quality = .noDatum) ∧
    (s.chr.datumTaken = true → s.rin.machine = .acquire → s.quality = .wheel) ∧
    (s.chr.datumTaken = true → s.rin.machine ≠ .acquire →
      (s.chr.anchor.cls ∈ [StepClass.track, .takeup, .retrieve, .datum] → s.quality = .good) ∧
      (s.chr.anchor.cls = .payout → s.quality = .slack) ∧
      (s.chr.anchor.cls = .slip → s.quality = .slip) ∧
      (s.chr.anchor.cls = .cableOnly → s.quality = .cable))

/-- SET DATUM: from CARRIAGE while DATUM_OWNER is TETHER it is refused NOT_PERMITTED; in SYNC or CHECK the clamped value
waits as the pending datum; in ACQUIRE it is applied at once at the live wheel counts, with S at 0 and V0 unset, and the
log's OPEN records close at the chainage just before it, or just after a first datum. The chainage at the links is then
the datum plus LENS_OFFSET: a chainage there is the internal one plus LENS_OFFSET to the nearest millimetre, halves away
from zero. The reply carries whether it was applied and the value (spec/02 sections 2.6 and 2.7, spec/08 section 8.8).
The last-step record that an immediate datum leaves is the model's choice (log 18), and so is that the reply joins the
transmit queue behind the ATTENTION message (log 19). -/
def Obligations.SetDatumAppliesOrPends : Prop :=
  (∀ (s : State) (u : Int),
    let exact := u + s.set.num .lensOffset * 1000
    let off := (1000 * s.linkMm u - exact).natAbs
    2 * off ≤ 1000 ∧ (2 * off = 1000 → exact.natAbs < (1000 * s.linkMm u).natAbs)) ∧
  ∀ (dt : Nat) (s : State) (l : Link) (tag : Byte) (p : List Byte) (rest : List Frame),
    p.length = 4 → s.readyFor l ⟨tag, 0x11, p⟩ rest →
    let f : Frame := ⟨tag, 0x11, p⟩
    let v := max (-999999) (min 999999 (s32At p 0))
    let st : Status := if v = s32At p 0 then .done else .clamped
    (l = .carriage → s.set.num .datumOwner = 0 →
      exec (.setDatum dt l) s = .next ((s.taken dt l rest).reply l ⟨tag, 0x91, [4]⟩)) ∧
    (l = .tether ∨ s.set.num .datumOwner ≠ 0 → s.rin.machine ≠ .acquire →
      exec (.setDatum dt l) s
        = .next ({ s.taken dt l rest with chr := { s.chr with pendingDatum := some v } }.answered l f st
            (u8 0 ++ s32 v))) ∧
    (l = .tether ∨ s.set.num .datumOwner ≠ 0 → s.rin.machine = .acquire →
      ∃ t : State, exec (.setDatum dt l) s = .next (t.answered l f st (u8 1 ++ s32 v)) ∧
        t.chr = { s.chr with
          anchor := { s.chr.anchor with f := v * 1000, wheels := s.wct.live, cls := .datum }
          slack := 0, v0 := none, datumTaken := true, pendingDatum := none
          last := { s.chr.last with kind := .datum, cls := .datum } } ∧
        t.chainageNow = some (v + s.set.num .lensOffset) ∧
        (let closing := if s.chr.datumTaken = true then s.linkMm s.provisionalNow else v + s.set.num .lensOffset
        t.obl = { s.obl with
          records := s.obl.records.map fun r =>
            if r.state = .opened then { r with state := .closed, finish := some closing, closedByDatum := true } else r
          guardMemory := [] }) ∧
        (∀ k : Link, (t.cnd.counts k)[(5 : Fin 16)] = min 255 ((s.cnd.counts k)[(5 : Fin 16)] + 1)) ∧
        t = { s.taken dt l rest with
          chr := t.chr, obl := t.obl, cnd := t.cnd
          tlp := { (s.taken dt l rest).tlp with transmit := t.tlp.transmit } })

/-- A DRIVE REPORT with a direction of the table makes the drive state FRESH with the direction, the demand cut at 3,000
and the inclination clamped to 900, starts the freshness timer, and compares the demand with the motor allowance: the
over flag is set while it exceeds it, and BUDGET_OVER is raised when it begins to. The DRIVE REPLY carries the chainage,
its quality, the datum pending, lock and attention bits, the speed, the slack in mm, the allowance and the demand and
inclination as stored. Any other direction is answered BAD_FORM with no effect. At the timer's expiry the state is STALE
and the over flag clears (spec/01 section 1.7, spec/04 section 4.5, spec/10 section 10.6, spec/12 section 12.5). -/
def Obligations.DriveReportsTakenAndGoStale : Prop :=
  (∀ (dt : Nat) (s : State) (tag : Byte) (p : List Byte) (rest : List Frame) (d : Direction),
    p.length = 5 → s.readyFor .carriage ⟨tag, 0x02, p⟩ rest →
    let now := (s.timeBase + dt) % 2 ^ 64
    let incl := (s16optAt p 3).map fun i => max (-900) (min 900 i)
    let demand := min 3000 (u16At p 1)
    let allowance := max 0 (s.set.num .budget - s.set.num .base - s.set.num .lampReserve)
    let excess := decide (allowance < (demand : Int))
    let read : State := { s.taken dt .carriage rest with
      drv := ⟨true, d, demand, incl, some (now + s.set.nat .driveFresh * 1000)⟩
      ldr := { s.ldr with overDemand := excess } }
    let after := if excess = true ∧ s.ldr.overDemand = false then read.raise .budgetOver else read
    let content : List Byte :=
      s32opt s.chainageNow ++ u8 s.quality.code
        ++ flags [s.chr.pendingDatum.isSome, s.hdp.lock, after.attention .carriage]
        ++ s16 s.chr.speed ++ u16 (s.chr.slack.tdiv 1000).toNat ++ u16 allowance.toNat ++ u16 demand ++ s16opt incl
    (byteAt p 0, d) ∈ [(0, Direction.stopped), (1, .forward), (2, .reverse)] →
      exec (.driveReport dt) s
        = .next (after.answered .carriage ⟨tag, 0x02, p⟩
            (if demand = u16At p 1 ∧ incl = s16optAt p 3 then .done else .clamped) content)) ∧
  (∀ (dt : Nat) (s : State) (tag : Byte) (p : List Byte) (rest : List Frame),
    p.length = 5 → 3 ≤ byteAt p 0 → s.readyFor .carriage ⟨tag, 0x02, p⟩ rest →
      exec (.driveReport dt) s = .next ((s.taken dt .carriage rest).answered .carriage ⟨tag, 0x02, p⟩ .badForm [])) ∧
  ∀ (dt : Nat) (s : State) (d : Nat),
    s.drv.fresh = true → s.drv.timer = some d → d ≤ (s.timeBase + dt) % 2 ^ 64 →
    let t : State := { s.elapse dt with
      drv := { s.drv with fresh := false, timer := none }, ldr := { s.ldr with overDemand := false } }
    exec (.driveFreshExpiry dt) s = .next t ∧
      t.drv.effDirection = none ∧ t.effDemand = s.set.nat .motorReserve ∧ t.drv.effInclination = none

/-! ## Frames and exposure (spec/03) -/

/-- Nothing ends a frame while the start-up write is in flight; its completion, with all 8 bytes clocked to the sensor,
ends that state. The first boundary after
power-on ends frame c with the start-up set, gives the next frame the start-up set again, applied without a write, takes
that set into drive and stamps the frame that ended (spec/03 sections 3.1 and 3.2). What the bytes are is a free value
(log 51). -/
def Obligations.FirstBoundaryKeepsTheStartUpSet : Prop :=
  ∀ (dt : Nat) (s : State),
    (∀ w tf, s.ssp.write = some w → w.period = some tf →
      exec (.frameBoundary dt) s = .next (s.elapse dt) ∧
      exec (.startupWriteComplete dt) s
        = .next { s.elapse dt with
            ssp := ⟨none, (List.range 8).map (Config.sensorByte (some tf) w.exposure w.gain)⟩ }) ∧
    ((∀ w, s.ssp.write = some w → w.period = none) → s.fxc.ended = none → s.stu.stamps.length ≤ 128 →
      ∃ t : State, exec (.frameBoundary dt) s = .next t ∧
        t.fxc.counter = s.fxc.counter + 1 ∧ t.fxc.ended.map (·.set) = some s.fxc.current.set ∧
        t.fxc.current.settled = true ∧
        (t.fxc.current.set.exposure, t.fxc.current.set.gain, t.fxc.current.set.level, t.fxc.current.set.target)
          = (8000, 16, 0, 4000000) ∧
        t.ldr.record.frame = s.fxc.counter + 1 ∧ t.ldr.record.level = 0 ∧ t.ldr.enable = false ∧
        t.fxc.commits = s.fxc.commits.map (fun c => { c with age := c.age + 1 }) ∧ t.ssp = s.ssp ∧
        t.stu.stamps.getLast?.map (·.frame) = some s.fxc.counter)

/-- A boundary after the first: the frame numbered c ends with its applied set, or with a late copy of the set before
when its commit outcome has not come; its stamp, with the chainage, the head angles and the moving flag of the exposure
and the other fields as they stand, joins the ring, from which the oldest leaves when 128 are held; the statistics of
the readout are formed and the counts start again; LIGHT_LIMITED is counted at the first limited frame after an
unlimited one; the still of that frame is no longer pending and STILL_DONE is counted for its requester; the set of the
frame numbered c + 1 is computed from the measured frame by the stored settings and the blocks as they stand, and handed
on with a deadline 4,000 microseconds later and the head motion cap it was computed with; the metering window is the
stored one clipped to the frame, or the whole frame; the lamp window is timed from here; the overlay is composed on this
stamp, its overlay chainage and its mark; and the cursors, lost counts and messages are those of the conditions, the
write and then the stream's decision (spec/03 sections 3.1 to 3.5, spec/04 sections 4.1, 4.2 and 4.5, spec/06 sections
6.1, 6.2 and 6.4, spec/07 section 7.2). The order inside the step is the model's (log 15), and so are the late copy of a
frame whose outcome has not come (log 16), a midpoint before power-on (log 45) and that the flash of a mark begins on the
frame whose stamp carries it, before the clean still that the mark asked for (log 58). -/
def Obligations.BoundaryEndsTheFrame : Prop :=
  ∀ (dt : Nat) (s : State) (before : PipeSlot),
    (∀ w, s.ssp.write = some w → w.period = none) → s.fxc.ended = some before → s.stu.stamps.length ≤ 128 →
    let now := (s.timeBase + dt) % 2 ^ 64
    let slot : PipeSlot := if s.fxc.current.settled = true then s.fxc.current
      else ⟨{ before.set with late := true, still := false, clean := false }, before.profile, true⟩
    let f := slot.set
    let middle := now - f.exposure / 2
    let reached := s.provisionalAt (s.wct.sampleAt middle)
    let rests := (s.hdp.pan.state = .unhomed ∨ s.hdp.pan.state = .idle)
      ∧ (s.hdp.tilt.state = .unhomed ∨ s.hdp.tilt.state = .idle)
    let stamp : Stamp :=
      { frame := s.fxc.counter
        time := if middle < s.fxc.origin then 0 else (middle - s.fxc.origin) / 1000 % 2 ^ 32
        chainage := if s.chr.datumTaken = true then some (s.linkMm reached) else none
        quality := s.quality, datumPending := s.chr.pendingDatum.isSome
        speed := s.chr.speed, slackMm := s.chr.slack.tdiv 1000
        pan := (s.hdp.anglesAt middle).1, tilt := (s.hdp.anglesAt middle).2
        moving := decide (¬rests ∨ (now : Int) - f.exposure ≤ s.hdp.restTime)
        exposure := f.exposure, gain := f.gain, level := f.level, strobe := f.strobe, still := f.still, clean := f.clean
        lightLimited := f.lightLimited, late := f.late
        inclination := if s.drv.fresh = true then s.drv.inclination else none
        openIds := (s.obl.records.filter fun r => r.state == .opened).map (·.id)
        markId := s.stu.pendingMark.map (·.id) }
    let ring := s.stu.stamps ++ [stamp]
    let formed := if s.ist.count = 0 then none
      else some (Measure.mk (s.ist.sum / s.ist.count) (s.ist.bright * 1000 / s.ist.count))
    let still := match s.fxc.pendingStill with
      | some p => if p.frame = s.fxc.counter then none else some p
      | none => none
    let num := s.set.num
    let nat := s.set.nat
    let tf := if s.fxc.rate30 = true then 33333 else 40000
    let lines := if s.fxc.rate30 = true then 480 else 576
    let demand : Nat := if s.drv.fresh = true then s.drv.demand else nat .motorReserve
    let power :=
      (nat .ringFull * nat .ringWeight + nat .spotFull * nat .spotWeight + nat .bodyFull * nat .bodyWeight) / 100
    let inputs : ExposureInputs :=
      { tf := tf
        program := if num .exposureProgram = 1 then .shutter else if num .exposureProgram = 2 then .manual else .auto
        target := nat .target, deadband := nat .deadband, clipLimit := nat .clipLimit, blurAllow := nat .blurAllow
        headCap := nat .headMotionCap, gainMax := nat .gainMax, eFixed := nat .eFixed, gFixed := nat .gFixed
        speed := s.chr.speed, motion := decide (¬rests ∨ s.hdp.demand = true), ceiling := s.ltm.ceiling
        pavail := (max (num .lampReserve) (num .budget - num .base - demand)).toNat, pfull := power
        source := if s.ldr.override.isSome = true ∨ num .lampSource = 1 then .manual
          else if num .lampSource = 0 then .auto else .off
        manual := s.ldr.override.getD (nat .lampManual), strobe := decide (num .strobe = 1)
        still := match s.fxc.pendingStill with
          | some p => if p.frame = s.fxc.counter + 1 then some p.clean else none
          | none => none
        measured := before.set, measure := formed }
    let computed := inputs.solve
    let weights : Banks := ⟨nat .ringWeight, nat .spotWeight, nat .bodyWeight⟩
    let right := min 720 (nat .meterX + nat .meterW)
    let bottom := min lines (nat .meterY + nat .meterH)
    let window : MeterWindow :=
      if nat .meterX < right ∧ nat .meterY < bottom then ⟨nat .meterX, right, nat .meterY, bottom⟩
      else ⟨0, 720, 0, lines⟩
    let overlay := if s.chr.datumTaken = true then some (reached + num .lensOffset * 1000) else none
    let limited : State :=
      if slot.set.lightLimited = true ∧ s.fxc.prevLimited = false then (s.elapse dt).raise .lightLimited else s.elapse dt
    let written := { limited with stu := { s.stu with pendingMark := none } }.writeStamp stamp
    let told : State := match s.fxc.pendingStill with
      | some p => if p.frame = s.fxc.counter then written.raiseFor .stillDone p.requester else written
      | none => written
    let decided := told.streamDecision
    ∃ t : State, exec (.frameBoundary dt) s = .next t ∧
      t.fxc = { s.fxc with
        counter := s.fxc.counter + 1, ended := some slot, current := ⟨computed, weights, false⟩
        commits := s.fxc.commits.map (fun c => { c with age := c.age + 1 })
          ++ [⟨0, computed, weights, now + 4000, s.hdp.demand, min (nat .headMotionCap) (tf - 6000)⟩]
        prevLimited := slot.set.lightLimited, pendingStill := still } ∧
      t.stu.stamps = ring.drop (ring.length - 128) ∧ t.stu.pendingMark = none ∧
      t.stu = decided.stu ∧ t.cnd = decided.cnd ∧ t.tlp = decided.tlp ∧
      t.ovg = (s.compose stamp overlay s.stu.pendingMark).ovg ∧
      t.ist = ⟨window, 0, 0, 0, formed⟩ ∧
      (t.cnd.counts .tether)[(10 : Fin 16)]
        = (if slot.set.lightLimited = true ∧ s.fxc.prevLimited = false
            then min 255 ((s.cnd.counts .tether)[(10 : Fin 16)] + 1) else (s.cnd.counts .tether)[(10 : Fin 16)]) ∧
      (∀ l : Link, (t.cnd.counts l)[(13 : Fin 16)]
        = match s.fxc.pendingStill with
          | some p =>
            if p.frame = s.fxc.counter ∧ p.requester = l then min 255 ((s.cnd.counts l)[(13 : Fin 16)] + 1)
            else (s.cnd.counts l)[(13 : Fin 16)]
          | none => (s.cnd.counts l)[(13 : Fin 16)]) ∧
      t.ldr = { s.ldr with window := .timed now, pfull := power } ∧
      t = { s.elapse dt with
        fxc := t.fxc, stu := t.stu, ist := t.ist, ldr := t.ldr, ovg := t.ovg, cnd := t.cnd
        tlp := { s.tlp with transmit := t.tlp.transmit, line := t.tlp.line } }

/-- The outcomes of a commit: a write of E and G begins on the oldest set that waits; it completes only with its 6 bytes
clocked, and then applies the computed set; the deadline's expiry before that discards the write and applies a late copy
of the set of the frame before. Either releases the sensor port, places the applied set for the frame it belongs to,
takes the set and its profile into drive with the bank levels of spec/04, and gives the head clearance when the demand
stood at the computation and the exposure is within the head motion cap (spec/03 sections 3.2 and 3.4, spec/04 sections
4.1 and 4.2). An outcome after the frame's own boundary (age 1) is the model's (log 16), and so are the frame number
that the drive record then takes, the counter less 1 also after a survey restart in between (log 55), that a deadline
that has not come changes nothing (log 3), that the line gaps are told by the pixels (log 23), and that the cap a late
frame is held to is that of the missed computation (log 37). -/
def Obligations.CommitOutcomesFixTheAppliedSet : Prop :=
  ∀ (dt : Nat) (s : State) (c : Commit) (rest : List Commit), s.fxc.commits = c :: rest →
    let now := (s.timeBase + dt) % 2 ^ 64
    let level (w : Nat) (f : FrameSet) := f.level * w / 100
    let driven (frame : Count) (f : FrameSet) (w : Banks) : DriveRecord :=
      ⟨frame, f.level, w, f.strobe, f.exposure, ⟨level w.ring f, level w.spot f, level w.body f⟩⟩
    let cleared (f : FrameSet) (t : State) : State :=
      if s.fxc.clearance = .waiting ∧ c.demandStood = true ∧ f.exposure ≤ c.cap
      then { t with fxc := { t.fxc with clearance := .given }, hdp := s.hdp.beginPending now } else t
    let outcome (f : FrameSet) (w : Banks) : State :=
      cleared f { s.elapse dt with
        ssp := { s.ssp with write := none }
        fxc := { s.fxc with commits := rest, current := ⟨f, w, true⟩ }
        ldr := { s.ldr with record := driven s.fxc.counter f w } }
    let lateOutcome (f : FrameSet) (w : Banks) : State :=
      cleared f { s.elapse dt with
        ssp := { s.ssp with write := none }
        fxc := { s.fxc with commits := rest, ended := some ⟨f, w, true⟩ }
        ldr := { s.ldr with record := driven (s.fxc.counter - 1) f w } }
    (s.ssp.write = none →
      exec (.sensorWriteStart dt) s
        = .next { s.elapse dt with ssp := ⟨some ⟨none, c.set.exposure, c.set.gain⟩, []⟩ } ∧
      exec (.sensorWriteComplete dt) s = .next (s.elapse dt)) ∧
    (∀ w : SensorWrite, s.ssp.write = some w → w.period = none →
      exec (.sensorWriteStart dt) s = .next (s.elapse dt) ∧
      (6 ≤ s.ssp.sent.length → c.age = 0 →
        exec (.sensorWriteComplete dt) s = .next (outcome { c.set with late := false } c.profile)) ∧
      (6 ≤ s.ssp.sent.length → c.age = 1 →
        exec (.sensorWriteComplete dt) s = .next (lateOutcome { c.set with late := false } c.profile)) ∧
      (6 ≤ s.ssp.sent.length → exec (.commitDeadlineExpiry dt) s = .next (s.elapse dt)) ∧
      (s.ssp.sent.length < 6 → exec (.sensorWriteComplete dt) s = .next (s.elapse dt))) ∧
    (∀ p : PipeSlot, s.fxc.ended = some p → c.age = 0 → c.deadline ≤ now →
      (∀ w, s.ssp.write = some w → s.ssp.sent.length < 6) →
      exec (.commitDeadlineExpiry dt) s
        = .next (outcome { p.set with late := true, still := false, clean := false } p.profile)) ∧
    (now < c.deadline → exec (.commitDeadlineExpiry dt) s = .next (s.elapse dt))

/-- The set of a computation. E in AUTO is P' over I_top, rounded up and at least 20, lowered to E_cap, which it is with
no light at all; in SHUTTER and MANUAL it is E_FIXED within the frame and the head's cap. I is I_top within the power
limit, and within P' over E when the loop chooses it. G is 16 when E x I reaches P', else what is missing, rounded up,
within GAIN_MAX; in MANUAL it is G_FIXED. Every set is within the sensor's bounds: exposure in 20 to Tf - 6,000, gain in
16 to 256, level in 0 to 1000; while the head is in motion the exposure is within HEAD_MOTION_CAP as limited, and in AUTO
within the blur cap or at its floor of 20 (spec/03 section 3.4). -/
def Obligations.ExposureSetsWithinBounds : Prop :=
  (∀ x : ExposureInputs,
    let f := x.solve
    let p := x.targetProduct
    let e := f.exposure
    let i := f.level
    let ceil (a b : Nat) := (a + b - 1) / b
    let longest := x.tf - 6000
    let head := min x.headCap longest
    let slow := if x.speed ≠ 0 ∧ 0 < x.blurAllow then min longest (x.blurAllow * 1000 / x.speed.natAbs) else longest
    let cap := max 20 (if x.motion = true then min slow head else slow)
    let fixed := max 20 (min longest x.eFixed)
    let source := if x.source = .off then 0 else if x.source = .auto ∨ x.still.isSome = true then 1000 else x.manual
    let top := min x.ceiling source
    let limit :=
      if x.pfull = 0 then 0
      else if x.strobe = true then x.pavail * x.tf * 1000 / x.pfull / e
      else x.pavail * 1000 / x.pfull
    (x.program = .auto → e = if top = 0 then cap else min cap (max 20 (ceil p top))) ∧
    (x.program ≠ .auto → e = if x.motion = true then min fixed head else fixed) ∧
    (x.source = .auto ∧ x.still = none → i = min (min top limit) (p / e)) ∧
    (x.source ≠ .auto ∨ x.still ≠ none → i = min top limit) ∧
    (x.program = .manual → f.gain = x.gFixed) ∧
    (x.program ≠ .manual → p ≤ e * i → f.gain = 16) ∧
    (x.program ≠ .manual → e * i < p → f.gain = if i = 0 then x.gainMax else min x.gainMax (ceil (16 * p) (e * i))) ∧
    f.strobe = x.strobe ∧ f.still = x.still.isSome ∧ f.clean = decide (x.still = some true) ∧
    f.late = false ∧ f.startUp = false) ∧
  ∀ x : ExposureInputs,
    6020 ≤ x.tf → 20 ≤ x.headCap → 16 ≤ x.gainMax → x.gainMax ≤ 256 → 16 ≤ x.gFixed → x.gFixed ≤ 256 →
    x.ceiling ≤ 1000 →
    SetOk x.tf x.solve ∧
    (x.motion = true → x.solve.exposure ≤ min x.headCap (x.tf - 6000)) ∧
    (x.program = .auto → x.speed ≠ 0 → 0 < x.blurAllow →
      x.solve.exposure ≤ max 20 (x.blurAllow * 1000 / x.speed.natAbs))

/-- The lamp level of every computed set is within I_top and within the power limit, so that the commanded average lamp
power, Pfull_eff x I / 1000, times E / Tf with the strobe on, is at most Pavail; with source OFF the level is 0, and in
AUTO, but for a still, the exposure and the level alone ask for no more than the target product (spec/03 section 3.4). -/
def Obligations.LampPowerWithinBudget : Prop :=
  ∀ x : ExposureInputs,
    let f := x.solve
    (x.strobe = true → x.pfull * f.level * f.exposure ≤ x.pavail * 1000 * x.tf) ∧
    (x.strobe = false → x.pfull * f.level ≤ x.pavail * 1000) ∧
    f.level ≤ x.ceiling ∧
    (x.source = .off → f.level = 0) ∧ (x.pfull = 0 → f.level = 0) ∧
    (x.source = .manual → x.still = none → f.level ≤ x.manual) ∧
    (x.source = .auto → x.still = none → f.level * f.exposure ≤ x.targetProduct)

/-- Stages 1 and 2 of the computation: the target product is kept when the measurement is not used; within the deadband
it is the measured product; otherwise the product is moved toward the target brightness by at most a halving or a
doubling; and it is never below 20. The light-limited flag is set exactly when the made set's product falls short of the
target product (spec/03 section 3.4). That a late copy of the start-up set counts as the start-up set, whose measurement
is not used, is the model's choice (log 17). -/
def Obligations.TargetProductFollowsTheMeasurement : Prop :=
  ∀ x : ExposureInputs,
    let p := x.measured.exposure * x.measured.level * x.measured.gain / 16
    (x.measure = none ∨ x.measured.still = true ∨ x.measured.startUp = true →
      x.targetProduct = x.measured.target) ∧
    (∀ m : Measure, x.measure = some m → x.measured.still = false → x.measured.startUp = false →
      let goal := if x.clipLimit < m.clip then x.target * 3 / 4 else x.target
      (max m.mean goal ≤ min m.mean goal + x.deadband → x.targetProduct = max 20 p) ∧
      (min m.mean goal + x.deadband < max m.mean goal →
        x.targetProduct = max 20 (max (p / 2) (min (2 * p) (p * goal / max m.mean 8)))) ∧
      20 ≤ x.targetProduct ∧ x.targetProduct ≤ max 20 (2 * p) ∧ p / 2 ≤ x.targetProduct) ∧
    x.solve.target = x.targetProduct ∧
    (x.solve.lightLimited = true
      ↔ x.solve.exposure * x.solve.level * x.solve.gain < 16 * x.targetProduct)

/-- A pixel of the frame in readout is counted when it lies in the metering window, and passes the overlay: unchanged
outside every drawn cell, as field (64) or glyph (940) inside one, as field alone in a space; the gap behind a line
clocks one byte of a write for a frame to the sensor (spec/03 sections 3.2 and 3.3, spec/07 section 7.3). Before the
first boundary there is no readout (log 24); that a line gap is the one behind a line's last pixel is the model's (log
23), and the bytes are free values (log 51). -/
def Obligations.PixelsAreMeasuredAndDrawn : Prop :=
  ∀ (dt x y : Nat) (value : BitVec 10) (s : State),
    s.fxc.ended.isSome = true → x < 720 → y < s.fxc.lines →
    let w := s.ist.window
    let inside : Bool := decide (w.x0 ≤ x ∧ x < w.x1 ∧ w.y0 ≤ y ∧ y < w.y1)
    let out := drawnPixel s.ovg.rows x y value
    let column := x / 12
    let line := y / 20
    let port : SensorPort := match s.ssp.write with
      | some w =>
        if w.period = none ∧ x = 719 ∧ y + 1 < s.fxc.lines then
          ⟨some w, ((List.range 6).map (Config.sensorByte none w.exposure w.gain)).take (s.ssp.sent.length + 1)⟩
        else s.ssp
      | none => s.ssp
    exec (.pixelArrival dt x y value) s
      = .next { s.elapse dt with
          ssp := port
          ist := { s.ist with
            count := s.ist.count + (if inside = true then 1 else 0)
            sum := s.ist.sum + (if inside = true then value.toNat else 0)
            bright := s.ist.bright + (if inside = true ∧ 1020 ≤ value.toNat then 1 else 0) }
          ovg := { s.ovg with pixel := some out } } ∧
    ((∀ r ∈ s.ovg.rows, r.cellAt column line = none) → out = value) ∧
    (∀ (pre post : List OverlayRow) (r : OverlayRow) (code : Byte),
      s.ovg.rows = pre ++ r :: post → r.cellAt column line = some code →
      (∀ q ∈ post, q.cellAt column line = none) → (out = 64 ∨ out = 940) ∧ (code = 0x20 → out = 64))

/-! ## Lamps and the thermal monitor (spec/04) -/

/-- With the strobe on, the window opens Tf - E after its boundary and lights the banks at the levels of the record for
E; it closes at the end of E. With the strobe off the banks are lit at the record's levels throughout. LAMP-EN is
asserted exactly while some bank level is above 0, and the outputs are low while it is released (spec/04 section 4.2).
A window whose time has not come does not open (log 3). -/
def Obligations.StrobeWindowLightsTheExposure : Prop :=
  ∀ (dt : Nat) (s : State),
    let now := (s.timeBase + dt) % 2 ^ 64
    let r := s.ldr.record
    (∀ b : Nat, s.ldr.window = .timed b → r.strobe = true → b + (s.fxc.period - r.exposure) ≤ now →
      let t : State := { s.elapse dt with ldr := { s.ldr with window := .lit (now + r.exposure) r.banks } }
      exec (.strobeWindowOpen dt) s = .next t ∧ t.ldr.outputs = (if s.ldr.enable = true then r.banks else ⟨0, 0, 0⟩)) ∧
    (∀ b : Nat, s.ldr.window = .timed b → now < b + (s.fxc.period - r.exposure) →
      exec (.strobeWindowOpen dt) s = .next (s.elapse dt)) ∧
    (∀ (e : Nat) (w : Banks), s.ldr.window = .lit e w → e ≤ now →
      let t : State := { s.elapse dt with ldr := { s.ldr with window := .closed } }
      exec (.strobeWindowClose dt) s = .next t ∧ (r.strobe = true → t.ldr.outputs = ⟨0, 0, 0⟩)) ∧
    (r.strobe = false → s.ldr.outputs = r.banks) ∧
    (s.ldr.enable = true ↔ r.banks ≠ ⟨0, 0, 0⟩)

/-- At each multiple of 250,000 microseconds a poll falls due. With a transaction in flight it is skipped and counted,
and nothing is sent. With none, the part frees a held SDA by its clocks and a stop condition, and sends the start
condition and THERMAL_ADDR as stored with the write direction; with SDA still low after nine clocks the transaction ends
at once as a BUS_TIMEOUT failure and the bus is released (spec/04 section 4.4). At any other instant no poll falls due
(log 3). That the state keeps what was sent for one poll is the model's (log 22), and whether the ninth clock is
followed by a stop condition is a free value (log 54). -/
def Obligations.ThermalPollsFallDue : Prop :=
  ∀ (dt clocks : Nat) (s : State),
    let now := (s.timeBase + dt) % 2 ^ 64
    let m : ThermalMonitor := { s.ltm with lastDue := now }
    let k := s.ltm.counters
    let bad := min 255 (m.failures + 1)
    let stuck : ThermalMonitor := { m with
      failures := bad, successes := 0, poll := none, lastOutcome := some .busTimeout
      counters := { k with busTimeouts := min 65535 (k.busTimeouts + 1) }
      bus := [.clock, .clock, .clock, .clock, .clock, .clock, .clock, .clock, .clock]
        ++ if Config.stopAfterNinthClock = true then [.stop, .release] else [.release] }
    (0 < now → now % 250000 = 0 → s.ltm.lastDue ≠ now →
      (∀ p : Poll, s.ltm.poll = some p →
        exec (.thermalPollDue dt clocks) s
          = .next { s.elapse dt with
              ltm := { m with counters := { k with skipped := min 65535 (k.skipped + 1) } } }) ∧
      (s.ltm.poll = none → clocks ≤ 9 →
        exec (.thermalPollDue dt clocks) s
          = .next { s.elapse dt with
              ltm := { m with
                poll := some ⟨s.set.nat .thermalAddr, .pointer, now⟩
                bus := (if clocks = 0 then [] else List.replicate clocks .clock ++ [.stop])
                  ++ [.start, .address (s.set.nat .thermalAddr) false] } }) ∧
      (s.ltm.poll = none → 9 < clocks →
        exec (.thermalPollDue dt clocks) s
          = .next (if m.state ≠ .fault ∧ 3 ≤ bad
            then State.raise { s.elapse dt with ltm := { stuck with state := .fault, ceiling := 400 } } .thermalSensorFault
            else { s.elapse dt with ltm := stuck }))) ∧
    (now % 250000 ≠ 0 → exec (.thermalPollDue dt clocks) s = .next (s.elapse dt))

/-- The end of a poll: acknowledged throughout it is a SUCCESS, which ends the run of failures, holds the temperature
(the reading over 256, truncated), and outside FAULT sets the state by 95 degrees (91 to stay in SHUTDOWN) and 60, with
the condition of a SHUTDOWN or DERATE that is entered; the ceiling follows state and temperature. In FAULT the fourth
success in a row leaves it as though from NORMAL. A refused address or pointer, or SCL low for 25 ms, is a failure, the
third of which in a row enters FAULT at ceiling 400 with THERMAL_SENSOR_FAULT. Behind its first address the part sends
the pointer 0, a repeated start, the address to read, an acknowledgement of the first byte and none of the second, and a
stop condition; what the sensor refuses is followed by a stop condition and the release of the bus at once, and the
timeout by the release alone (spec/04 section 4.4). That a poll stays in its pointer phase until its end is the model's
choice (log 22), and so is that the timeout is told by 25 ms since the beginning of the transaction (log 41); how far it
had come by then is a free value (log 53). -/
def Obligations.PollOutcomesMoveTheThermalState : Prop :=
  ∀ (dt : Nat) (s : State) (a : SensorAnswer) (p : Poll), s.ltm.poll = some p →
    let m := s.ltm
    let k := m.counters
    let word := a.high.toNat * 256 + a.low.toNat
    let tw : Int := (if word < 32768 then (word : Int) else (word : Int) - 65536).tdiv 256
    let good := min 255 (m.successes + 1)
    let bad := min 255 (m.failures + 1)
    let after (st : ThermalState) : ThermalState :=
      if 95 ≤ tw ∨ (st = .shutdown ∧ 91 ≤ tw) then .shutdown else if 60 ≤ tw then .derate else .normal
    let told (st : ThermalState) : List Condition :=
      if after st = st then [] else if after st = .shutdown then [.lampShutdown]
      else if after st = .derate then [.lampDerated] else []
    let next : ThermalState × List Condition :=
      if m.state ≠ .fault then (after m.state, told m.state)
      else if 4 ≤ good then (after .normal, told .normal) else (.fault, [])
    let ceiling : Nat := match next.1 with
      | .normal => 1000
      | .derate => if tw < 85 then (1000 - ((tw - 60) * 800).tdiv 25).toNat else 200
      | .shutdown => 0
      | .fault => 400
    let reading : List BusSignal := [.pointer 0, .repeatedStart, .address p.addr true]
    let data : List BusSignal := [.acknowledge, .noAcknowledge]
    let succeeded : State := State.raiseAll
      { s.elapse dt with ltm := { m with
          bus := m.bus ++ reading ++ data ++ [.stop]
          state := next.1, lastTemp := some tw, failures := 0, successes := good, poll := none
          lastOutcome := some .success, ceiling := ceiling
          counters := { k with successes := min 65535 (k.successes + 1) } } } next.2
    let failed (o : PollOutcome) (k : PollCounters) (sent : List BusSignal) : State :=
      let r : ThermalMonitor := { m with
        bus := m.bus ++ sent ++ [.release]
        failures := bad, successes := 0, poll := none, lastOutcome := some o, counters := k }
      if m.state ≠ .fault ∧ 3 ≤ bad
      then State.raise { s.elapse dt with ltm := { r with state := .fault, ceiling := 400 } } .thermalSensorFault
      else { s.elapse dt with ltm := r }
    let one (n : Nat) := min 65535 (n + 1)
    (p.phase = .pointer → a.addressAck = true → a.pointerAck = true → a.readAck = true →
      exec (.pollTransactionEnd dt a) s = .next succeeded) ∧
    (p.phase = .pointer → a.addressAck = false →
      exec (.pollTransactionEnd dt a) s
        = .next (failed .addressNack { k with addressNacks := one k.addressNacks } [.stop])) ∧
    (p.phase = .pointer → a.addressAck = true → a.pointerAck = false →
      exec (.pollTransactionEnd dt a) s
        = .next (failed .pointerNack { k with pointerNacks := one k.pointerNacks } [.pointer 0, .stop])) ∧
    (p.phase = .pointer → a.addressAck = true → a.pointerAck = true → a.readAck = false →
      exec (.pollTransactionEnd dt a) s
        = .next (failed .addressNack { k with addressNacks := one k.addressNacks } (reading ++ [.stop]))) ∧
    (p.phase = .pointer → p.begun + 25000 ≤ (s.timeBase + dt) % 2 ^ 64 →
      exec (.busTimeout dt) s
        = .next (failed .busTimeout { k with busTimeouts := one k.busTimeouts }
            ((reading ++ data).take (Config.timeoutPlace p.begun)))) ∧
    ((s.timeBase + dt) % 2 ^ 64 < p.begun + 25000 → exec (.busTimeout dt) s = .next (s.elapse dt))

/-! ## The camera head (spec/05) -/

/-- Each STEP pulse follows the profile: it comes when the distance covered reaches a whole step and not before. An axis
below its speed limit whose target is far enough speeds up, at the limit it cruises, and it slows when its target lies
behind it or within its stopping distance, when its limit has been lowered, and when it stops; on one step the square of
the speed changes by twice the deceleration, and between pulses the speed changes by the deceleration times the time,
which is what HEAD QUERY reports, truncated. So travels an axis MOVING to its target and one HOMING that has found its
index, back to 0; a STOPPING axis may be homed or not. A stopping axis that comes to zero speed before a further whole
step issues no more pulses, and one at rest none. A TILT step that would leave -1350..+1350 is not issued: the axis has
zero speed at the range end at once, and with nothing to go it is there at rest, as AXIS_REST has it; one with a target
behind it goes on to it, which is the model's choice (log 12). The way to a target is the shorter one on PAN, positive
when both are equal, and the direct one on TILT (spec/05 sections 5.1, 5.2, 5.3 and 5.4). Speeds in millionths are the
model's rounding (log 11). -/
def Obligations.AxisStepsFollowTheProfile : Prop :=
  (∀ (dt : Nat) (ax : Axis) (s : State),
    let a := s.hdp.axis ax
    let now := (s.timeBase + dt) % 2 ^ 64
    let span := 2 * deceleration ax * 10 ^ 12
    let room := span - a.part
    let cruise := (a.limit * 10 ^ 6) ^ 2
    let left := a.togo.natAbs * span - a.part
    let v := isqrt a.speedSq
    let time := deceleration ax * now - a.clock
    let ahead := (a.up = true ∧ 0 < a.togo) ∨ (a.up = false ∧ a.togo < 0)
    let way : Int := if a.up = true then 1 else -1
    let travels : Bool := (a.state == .moving || a.state == .homing) && a.pos.isSome
    let moved (p : Int) : Int := match ax with
      | .pan => (p + way) % 3600
      | .tilt => p + way
    let leaves : Bool := match ax, a.pos with
      | .tilt, some p => decide (p + way < -1350 ∨ 1350 < p + way)
      | _, _ => false
    let atEnd (took : Nat) : State :=
      { s.elapse dt with hdp := s.hdp.putAxis ax { a with speedSq := 0, part := 0, clock := a.clock + took } }
    let stepped (speedSq took : Nat) : Host.Outcome State Fault Refusal :=
      if leaves = true then if a.togo = 0 then exec (.axisRest 0 ax) (atEnd took) else .next (atEnd took)
      else .next { s.elapse dt with
        hdp := s.hdp.putAxis ax { a with
          pos := a.pos.map moved, togo := if travels = true then a.togo - way else a.togo
          part := 0, speedSq := speedSq, clock := a.clock + took, lastStep := some a.up } }
    let between (speed : Nat) : Prop :=
      exec (.axisStep dt ax) s = .next (s.elapse dt) ∧ a.speed ax now = way * (speed / 10 ^ 6 : Nat)
    a.part < span → 1 ≤ a.limit → a.limit ≤ maxSpeed ax →
    (travels = true → ahead → a.speedSq + room ≤ cruise → 2 * (a.speedSq + room) ≤ left + a.speedSq →
      let took := isqrt (a.speedSq + room) - v
      (took ≤ time → exec (.axisStep dt ax) s = stepped (a.speedSq + room) took) ∧
      (time < took → between (v + time))) ∧
    (travels = true → ahead → a.speedSq = cruise → cruise + room ≤ left →
      let took := room / (2 * v)
      (took ≤ time → exec (.axisStep dt ax) s = stepped cruise took) ∧
      (time < took → between (a.limit * 10 ^ 6))) ∧
    (a.state = .stopping ∨ (travels = true ∧ (¬ahead ∨ left ≤ a.speedSq ∨ cruise + room ≤ a.speedSq)) →
      room ≤ a.speedSq →
      let took := v - isqrt (a.speedSq - room)
      (took ≤ time → exec (.axisStep dt ax) s = stepped (a.speedSq - room) took) ∧
      (time < took → between (v - time))) ∧
    (a.state = .stopping → a.speedSq < room → exec (.axisStep dt ax) s = .next (s.elapse dt)) ∧
    (a.state = .idle ∨ a.state = .unhomed → exec (.axisStep dt ax) s = .next (s.elapse dt))) ∧
  (∀ p q : Int, 0 ≤ p → p ≤ 3599 → 0 ≤ q → q ≤ 3599 →
    let w := wayTo .pan p q
    (p + w) % 3600 = q ∧ -1800 < w ∧ w ≤ 1800 ∧ (w = 0 ↔ p = q)) ∧
  ∀ p q : Int, p + wayTo .tilt p q = q

/-- An axis whose speed has come to zero with no travel left comes to rest without a target, IDLE if homed and UNHOMED
if not, and not before: one MOVING that is at its target, one HOMING that is back at 0 from its index, and one STOPPING.
When both axes are then at rest, homed or not, with no travel to come, the operation ends: its completion record is
written for its originator with the outcome so far, which is REACHED unless a stop, a failed search or an index mismatch
has changed it (the model's choice for a park that rests beside 0: log 56), the positions and the survey time, HEAD_DONE
is counted for that link alone, the clearance demand is withdrawn and the clearance returns to NONE; while the other
axis moves, the operation goes on. An unhomed axis that owes a park its search begins it at its rest, with clearance
GIVEN at once, else with start pending: waiting, or with the demand raised (spec/05 sections 5.1, 5.2, 5.3, 5.5, 5.6 and
5.8). -/
def Obligations.AxisRestEndsTheOperation : Prop :=
  ∀ (dt : Nat) (ax : Axis) (s : State) (o : HeadOperation),
    let a := s.hdp.axis ax
    let b := s.hdp.axis (otherAxis ax)
    let now := (s.timeBase + dt) % 2 ^ 64
    let time := deceleration ax * now - a.clock
    let resting : AxisRecord :=
      { a with
        state := if a.pos.isSome = true then .idle else .unhomed
        target := none, togo := 0, speedSq := 0, part := 0, clock := 0, lastStep := none }
    let h := s.hdp.putAxis ax resting
    a.state = .stopping ∨ ((a.state = .moving ∨ a.state = .homing) ∧ a.pos.isSome = true ∧ a.togo = 0) →
    a.part + a.speedSq < 2 * deceleration ax * 10 ^ 12 → a.startPending = .clear → b.startPending = .clear →
    s.hdp.op = some o →
    (time < isqrt a.speedSq → exec (.axisRest dt ax) s = .next (s.elapse dt)) ∧
    (isqrt a.speedSq ≤ time → a.searchOwed = false → b.state = .moving ∨ b.state = .homing ∨ b.state = .stopping →
      exec (.axisRest dt ax) s = .next { s.elapse dt with hdp := h }) ∧
    (isqrt a.speedSq ≤ time → a.searchOwed = true → a.pos = none →
      let waits : AxisRecord := { resting with searchOwed := false, homingTravel := 0, startPending := .home }
      let searches : AxisRecord :=
        { waits with
          state := .homing, startPending := .clear, limit := homingSpeed ax, clock := deceleration ax * now
          up := match ax with
            | .pan => true
            | .tilt => !s.hdp.tiltIndex }
      let asks : HeadPositioner := { s.hdp.putAxis ax waits with
        restTime := if b.state = .idle ∨ b.state = .unhomed then now else s.hdp.restTime }
      (s.fxc.clearance = .given →
        exec (.axisRest dt ax) s = .next { s.elapse dt with hdp := s.hdp.putAxis ax searches }) ∧
      (s.fxc.clearance = .waiting → exec (.axisRest dt ax) s = .next { s.elapse dt with hdp := asks }) ∧
      (s.fxc.clearance = .unasked →
        exec (.axisRest dt ax) s
          = .next { s.elapse dt with
              hdp := { asks with demand := true }, fxc := { s.fxc with clearance := .waiting } })) ∧
    (isqrt a.speedSq ≤ time → a.searchOwed = false → b.searchOwed = false → b.state = .idle ∨ b.state = .unhomed →
      ∃ t : State, exec (.axisRest dt ax) s = .next t ∧
        t.hdp = { h.putCompletion o.origin ⟨o.kind, s.hdp.outcome, s.hdp.pan.pos, s.hdp.tilt.pos,
            (s.elapse dt).surveyTime (s.elapse dt).timeBase⟩ with
          op := none, demand := false, restTime := now } ∧
        t.fxc = { s.fxc with clearance := .unasked } ∧
        (∀ (l : Link) (n : Fin 16), (t.cnd.counts l)[n]
          = if l = o.origin ∧ n = 11 then min 255 ((s.cnd.counts l)[n] + 1) else (s.cnd.counts l)[n]) ∧
        t = { s.elapse dt with
          hdp := t.hdp, fxc := t.fxc, cnd := t.cnd, tlp := { s.tlp with transmit := t.tlp.transmit } })

/-- A search ends at its index or at its limit. The index homes the axis: PAN at 0, TILT at 0 on a positive step and at
-1 on a negative one. At the limit without an index the axis decelerates, its loss cause is INDEX NOT FOUND, HEAD_LOST
is raised and an operation's outcome becomes LOST. Each STEP pulse of a search adds one to the homing travel; it comes
by the profile, speeding up to the homing speed and cruising there (spec/05 sections 5.1 and 5.3). That the target is 0
while the axis travels back is the model's choice (log 26), and so are that a TILT change on no step of the travel takes
the input's level for the direction (log 13), that the axis is STOPPING while it decelerates (log 14), and that a limit
not reached and a step not to be issued change nothing (log 2). -/
def Obligations.SearchesEndAtTheIndexOrTheLimit : Prop :=
  ∀ (dt : Nat) (ax : Axis) (s : State),
    let a := s.hdp.axis ax
    let now := (s.timeBase + dt) % 2 ^ 64
    let limit := match ax with
      | .pan => 4000
      | .tilt => 2800
    let room := 2 * deceleration ax * 10 ^ 12 - a.part
    let cruise := (a.limit * 10 ^ 6) ^ 2
    let v := isqrt a.speedSq
    let time := deceleration ax * now - a.clock
    let stepped (speedSq took : Nat) : Host.Outcome State Fault Refusal :=
      .next { s.elapse dt with
        hdp := s.hdp.putAxis ax { a with
          homingTravel := a.homingTravel + 1, part := 0, speedSq := speedSq, clock := a.clock + took
          lastStep := some a.up } }
    a.state = .homing → a.pos = none →
    (ax = .pan →
      exec (.indexPass dt ax) s
        = .next { s.elapse dt with
            hdp := s.hdp.putAxis ax { a.advance ax now with pos := some 0, target := some 0, togo := 0 } }) ∧
    (∀ up : Bool, ax = .tilt → (a.lastStep = some up ∨ (a.lastStep = none ∧ up = !s.hdp.tiltIndex)) →
      let q : Int := if up = true then 0 else -1
      exec (.indexPass dt ax) s
        = .next { s.elapse dt with
            hdp := { s.hdp with
              tiltIndex := !s.hdp.tiltIndex
              tilt := { a.advance ax now with pos := some q, target := some 0, togo := -q } } }) ∧
    (a.homingTravel < limit →
      exec (.homingLimit dt ax) s = .next (s.elapse dt) ∧
      (0 < room → a.speedSq + room ≤ cruise → isqrt (a.speedSq + room) - v ≤ time →
        exec (.axisStep dt ax) s = stepped (a.speedSq + room) (isqrt (a.speedSq + room) - v)) ∧
      (0 < room → a.speedSq = cruise → room / (2 * v) ≤ time →
        exec (.axisStep dt ax) s = stepped cruise (room / (2 * v)))) ∧
    (limit ≤ a.homingTravel →
      exec (.homingLimit dt ax) s
        = .next (State.raise
            { s.elapse dt with
              hdp := { s.hdp.putAxis ax { a.advance ax now with
                  state := .stopping, lossCause := .indexNotFound } with
                outcome := if s.hdp.op.isSome = true then .lost else s.hdp.outcome } } .headLost) ∧
      exec (.axisStep dt ax) s = .next (s.elapse dt))

/-- An index pass of a homed axis: within 20 of the index position (on PAN the shorter way round) the position becomes
the index position, a nonzero error counts a correction, and the way to the target is measured anew; beyond 20 the axis
is UNHOMED at once with loss cause INDEX MISMATCH and HEAD_LOST is raised. With no operation in flight nothing else
moves; an operation's outcome becomes LOST, and an ACTIVE one enters STOPPING with the other axis decelerating without a
target. A pass of an axis that is neither homed nor searching changes no axis (spec/05 sections 5.3 and 5.7). The index
position of TILT is 0 on a positive step and -1 on a negative one; that a change on no step of a travel takes the
input's level for the direction is the model's choice (log 13), and so is that a search owed by the other axis is
dropped (log 48). -/
def Obligations.IndexPassesCorrectOrLose : Prop :=
  ∀ (dt : Nat) (ax : Axis) (s : State),
    let a := s.hdp.axis ax
    let b := s.hdp.axis (otherAxis ax)
    let now := (s.timeBase + dt) % 2 ^ 64
    let h : HeadPositioner := match ax with
      | .pan => s.hdp
      | .tilt => { s.hdp with tiltIndex := !s.hdp.tiltIndex }
    let q : Int := match ax with
      | .pan => 0
      | .tilt => match a.lastStep with
        | some up => if up = true then 0 else -1
        | none => if s.hdp.tiltIndex = true then -1 else 0
    let lost : AxisRecord :=
      { a with
        state := .unhomed, pos := none, target := none, togo := 0, speedSq := 0, part := 0, clock := 0, lastStep := none
        startPending := .clear, searchOwed := false, lossCause := .indexMismatch }
    (a.pos = none → a.state ≠ .homing → exec (.indexPass dt ax) s = .next { s.elapse dt with hdp := h }) ∧
    ∀ p : Int, a.pos = some p → (ax = .pan → 0 ≤ p ∧ p ≤ 3599) →
      let off : Int := match ax with
        | .pan => if p ≤ 1800 then p else p - 3600
        | .tilt => p - q
      (off.natAbs ≤ 20 →
        exec (.indexPass dt ax) s
          = .next { s.elapse dt with hdp := h.putAxis ax { a.advance ax now with
              pos := some q, togo := if a.target.isSome = true then a.togo + off else a.togo
              corrections := if off = 0 then a.corrections else min 65535 (a.corrections + 1) } }) ∧
      (20 < off.natAbs → a.state = .idle → b.state = .idle → s.hdp.op = none →
        s.hdp.anyPending = false → a.searchOwed = false → b.searchOwed = false →
        s.hdp.demand = false → s.fxc.clearance = .unasked →
        exec (.indexPass dt ax) s = .next (State.raise { s.elapse dt with hdp := h.putAxis ax lost } .headLost)) ∧
      (∀ o : HeadOperation, 20 < off.natAbs → s.hdp.op = some o →
        b.state = .moving ∨ b.state = .homing ∨ b.state = .stopping →
        exec (.indexPass dt ax) s
          = .next (State.raise
              { s.elapse dt with hdp :=
                  if o.stopping = true then { h.putAxis ax lost with outcome := .lost }
                  else
                    { (h.putAxis ax lost).putAxis (otherAxis ax) { b.advance (otherAxis ax) now with
                        state := .stopping, startPending := .clear, searchOwed := false, target := none, togo := 0 } with
                      op := some { o with stopping := true }, outcome := .lost } } .headLost))

/-- HEAD HOME from the surface: LOCKED while the lock is HELD, BUSY with an operation in flight or an axis in motion,
and otherwise DONE: a HOME operation of TETHER is in flight with outcome REACHED, both axes have start pending with the
homing travel at 0, and clearance is asked for (spec/05 sections 5.2 and 5.3). -/
def Obligations.HeadHomeAsksForBothSearches : Prop :=
  ∀ (dt : Nat) (s : State) (tag : Byte) (rest : List Frame), s.readyFor .tether ⟨tag, 0x20, []⟩ rest →
    let f : Frame := ⟨tag, 0x20, []⟩
    let u := s.taken dt .tether rest
    (s.hdp.lock = true → exec (.headHome dt .tether) s = .next (u.answered .tether f .locked [])) ∧
    (s.hdp.lock = false → s.hdp.op.isSome = true ∨ s.hdp.atRest = false →
      exec (.headHome dt .tether) s = .next (u.answered .tether f .busy [])) ∧
    (s.hdp.lock = false → s.hdp.op = none → s.hdp.atRest = true → s.fxc.clearance = .unasked →
      exec (.headHome dt .tether) s
        = .next ({ u with
            hdp := { s.hdp with
              pan := { s.hdp.pan with homingTravel := 0, startPending := .home }
              tilt := { s.hdp.tilt with homingTravel := 0, startPending := .home }
              op := some ⟨.home, .tether, false⟩, outcome := .reached, demand := true }
            fxc := { s.fxc with clearance := .waiting } }.answered .tether f .done []))

/-- HEAD MOVE from the surface. The tests come in order: LOCKED, BUSY while the head homes, NOT_READY with an axis not
homed. A taken move reduces PAN into the circle, clamps TILT to its range and the percentage to 1 to 100, and answers
what it kept. From rest, an axis whose target differs from its position takes start pending and clearance is asked for,
and one without a target stays; with nothing to travel the operation ends at once with outcome REACHED; an axis in
travel in an ACTIVE move is retargeted at once and no HEAD_DONE is raised. A stopping operation, or a park with the lock
FREE, ends at this moment with its outcome, or SUPERSEDED, and the move begins from the present motion. With both
targets absent only the speed limits of travel change (spec/05 section 5.4). That such a move leaves the operation, and
counts start pending as travel, is the model's choice (log 52), and so are that any other move sets the limit of an axis
at rest (log 31) and that the reply joins the transmit queue behind the ATTENTION message of HEAD_DONE (log 19). -/
def Obligations.HeadMoveTakesTargets : Prop :=
  ∀ (dt : Nat) (s : State) (tag : Byte) (p : List Byte) (rest : List Frame),
    p.length = 5 → s.readyFor .tether ⟨tag, 0x21, p⟩ rest →
    let f : Frame := ⟨tag, 0x21, p⟩
    let u := s.taken dt .tether rest
    let now := (s.timeBase + dt) % 2 ^ 64
    let x := (s16optAt p 0).map (· % 3600)
    let y := (s16optAt p 2).map fun t => max (-1350) (min 1350 t)
    let k := max 1 (min 100 (byteAt p 4))
    let st : Status := if x = s16optAt p 0 ∧ y = s16optAt p 2 ∧ k = byteAt p 4 then .done else .clamped
    let content := s16opt x ++ s16opt y ++ u8 k
    let limits (h : HeadPositioner) : HeadPositioner :=
      { h with pan := { h.pan with limit := max 1 (600 * k / 100) }, tilt := { h.tilt with limit := max 1 (450 * k / 100) } }
    let counted (t : State) (l : Link) : Prop :=
      ∀ (m : Link) (n : Fin 16), (t.cnd.counts m)[n]
        = if m = l ∧ n = 11 then min 255 ((s.cnd.counts m)[n] + 1) else (s.cnd.counts m)[n]
    (s.hdp.lock = true → exec (.headMove dt .tether) s = .next (u.answered .tether f .locked [])) ∧
    (s.hdp.lock = false → s.hdp.pan.state = .homing ∨ s.hdp.tilt.state = .homing →
      exec (.headMove dt .tether) s = .next (u.answered .tether f .busy [])) ∧
    (s.hdp.lock = false → s.hdp.op = none → s.hdp.pan.state = .unhomed → s.hdp.pan.pos = none →
      s.hdp.tilt.state ≠ .homing → exec (.headMove dt .tether) s = .next (u.answered .tether f .notReady [])) ∧
    (∀ (px ty xx yy : Int), HeadOk s → s.hdp.lock = false → s.hdp.op = none → s.hdp.pan.pos = some px →
      s.hdp.tilt.pos = some ty → x = some xx → y = some yy → xx ≠ px → yy ≠ ty →
      exec (.headMove dt .tether) s
        = .next ({ u with
            hdp := limits { s.hdp with
              pan := { s.hdp.pan with target := some xx, togo := wayTo .pan px xx, startPending := .move }
              tilt := { s.hdp.tilt with target := some yy, togo := yy - ty, startPending := .move }
              op := some ⟨.move, .tether, false⟩, outcome := .reached, demand := true }
            fxc := { s.fxc with clearance := .waiting } }.answered .tether f st content)) ∧
    (∀ (px xx : Int), HeadOk s → s.hdp.lock = false → s.hdp.op = none → s.hdp.pan.pos = some px →
      s.hdp.tilt.pos.isSome = true → x = some xx → y = none → xx ≠ px →
      exec (.headMove dt .tether) s
        = .next ({ u with
            hdp := limits { s.hdp with
              pan := { s.hdp.pan with target := some xx, togo := wayTo .pan px xx, startPending := .move }
              op := some ⟨.move, .tether, false⟩, outcome := .reached, demand := true }
            fxc := { s.fxc with clearance := .waiting } }.answered .tether f st content)) ∧
    (∀ (px ty : Int), HeadOk s → s.hdp.lock = false → s.hdp.op = none → s.hdp.pan.pos = some px →
      s.hdp.tilt.pos = some ty → x = some px → y = none ∨ y = some ty →
      let done : Completion := ⟨.move, .reached, some px, some ty, u.surveyTime u.timeBase⟩
      ∃ t : State, exec (.headMove dt .tether) s = .next (t.answered .tether f st content) ∧
        t.hdp = { limits { s.hdp with
            pan := { s.hdp.pan with target := none, togo := 0 }
            tilt := if y = none then s.hdp.tilt else { s.hdp.tilt with target := none, togo := 0 } } with
          outcome := .reached, doneTether := some done } ∧
        t.fxc = s.fxc ∧ counted t .tether) ∧
    (∀ (px ty xx yy : Int), s.hdp.lock = false → s.hdp.op = some ⟨.move, .tether, false⟩ →
      s.hdp.pan.state = .moving → s.hdp.tilt.state = .moving → s.hdp.pan.pos = some px → s.hdp.tilt.pos = some ty →
      s.hdp.anyPending = false → x = some xx → y = some yy →
      exec (.headMove dt .tether) s
        = .next ({ u with hdp := limits { s.hdp with
            pan := { s.hdp.pan.advance .pan now with target := some xx, togo := wayTo .pan px xx }
            tilt := { s.hdp.tilt.advance .tilt now with target := some yy, togo := yy - ty } } }.answered
          .tether f st content)) ∧
    (∀ (px ty xx yy : Int) (o : HeadOperation), s.hdp.lock = false → s.hdp.op = some o → o.kind ≠ .home →
      o.stopping = true ∨ o.kind = .park →
      s.hdp.pan.state = .moving ∨ s.hdp.pan.state = .stopping → s.hdp.tilt.state = .moving ∨ s.hdp.tilt.state = .stopping →
      s.hdp.pan.pos = some px → s.hdp.tilt.pos = some ty → s.hdp.anyPending = false → x = some xx → y = some yy →
      let outcome := if o.stopping = true then s.hdp.outcome else .superseded
      ∃ t : State, exec (.headMove dt .tether) s = .next (t.answered .tether f st content) ∧
        t.hdp = limits { s.hdp.putCompletion o.origin ⟨o.kind, outcome, some px, some ty, u.surveyTime u.timeBase⟩ with
          pan := { s.hdp.pan.advance .pan now with state := .moving, target := some xx, togo := wayTo .pan px xx }
          tilt := { s.hdp.tilt.advance .tilt now with state := .moving, target := some yy, togo := yy - ty }
          op := some ⟨.move, .tether, false⟩, outcome := .reached } ∧
        t.fxc = s.fxc ∧ counted t o.origin) ∧
    (s.hdp.lock = false → s.hdp.pan.pos.isSome = true → s.hdp.tilt.pos.isSome = true →
      s.hdp.pan.state ≠ .homing → s.hdp.tilt.state ≠ .homing →
      (∀ o, s.hdp.op = some o → o.kind ≠ .home) → s.hdp.pan.startPending ≠ .home → s.hdp.tilt.startPending ≠ .home →
      x = none → y = none →
      let paced (ax : Axis) (a : AxisRecord) : AxisRecord :=
        if a.atRest = true ∧ a.startPending = .clear then a
        else { a.advance ax now with limit := max 1 (maxSpeed ax * k / 100) }
      exec (.headMove dt .tether) s
        = .next ({ u with
            hdp := { s.hdp with pan := paced .pan s.hdp.pan, tilt := paced .tilt s.hdp.tilt } }.answered
          .tether f st content))

/-- HEAD STOP from the surface is answered DONE, or LOCKED with the lock HELD; an ACTIVE operation in motion enters
STOPPING with outcome STOPPED, unless it is LOST, and both axes lose their targets; one that waits for clearance with
the head at rest ends at once. HEAD RELEASE from the carriage frees the lock and stops a park in the same way. With no
operation neither moves anything (spec/05 sections 5.5, 5.6 and 5.8). That a search owed at the rest of a stopping axis
is dropped is the model's choice (log 48), and so is that the reply joins the transmit queue behind the ATTENTION
message of HEAD_DONE (log 19). -/
def Obligations.HeadStopAndRelease : Prop :=
  ∀ (dt : Nat) (s : State) (tag : Byte) (rest : List Frame),
    let now := (s.timeBase + dt) % 2 ^ 64
    let halted (ax : Axis) (a : AxisRecord) : AxisRecord :=
      { a.advance ax now with
        startPending := .clear, searchOwed := false, target := none, togo := 0
        state := if a.state = .unhomed ∨ a.state = .idle then a.state else .stopping }
    let stopped (o : HeadOperation) (h : HeadPositioner) : HeadPositioner :=
      { h with
        pan := halted .pan h.pan, tilt := halted .tilt h.tilt, op := some { o with stopping := true }
        outcome := if h.outcome = .lost then .lost else .stopped }
    (s.readyFor .tether ⟨tag, 0x22, []⟩ rest →
      let u := s.taken dt .tether rest
      (s.hdp.lock = true → exec (.headStop dt .tether) s = .next (u.answered .tether ⟨tag, 0x22, []⟩ .locked [])) ∧
      (s.hdp.lock = false → (s.hdp.op = none ∨ ∃ o, s.hdp.op = some o ∧ o.stopping = true) →
        exec (.headStop dt .tether) s = .next (u.answered .tether ⟨tag, 0x22, []⟩ .done [])) ∧
      (∀ o, s.hdp.lock = false → s.hdp.op = some o → o.stopping = false → s.hdp.atRest = false →
        exec (.headStop dt .tether) s
          = .next ({ u with hdp := stopped o s.hdp }.answered .tether ⟨tag, 0x22, []⟩ .done [])) ∧
      (∀ o, s.hdp.lock = false → s.hdp.op = some o → o.stopping = false → s.hdp.atRest = true →
        let h := stopped o s.hdp
        let done : Completion := ⟨o.kind, h.outcome, s.hdp.pan.pos, s.hdp.tilt.pos, u.surveyTime u.timeBase⟩
        ∃ t : State, exec (.headStop dt .tether) s = .next (t.answered .tether ⟨tag, 0x22, []⟩ .done []) ∧
          t.hdp = { h.putCompletion o.origin done with op := none, demand := false } ∧
          t.fxc = { s.fxc with clearance := .unasked } ∧
          (∀ (l : Link) (n : Fin 16), (t.cnd.counts l)[n]
            = if l = o.origin ∧ n = 11 then min 255 ((s.cnd.counts l)[n] + 1) else (s.cnd.counts l)[n]) ∧
          t = { u with
            hdp := t.hdp, fxc := t.fxc, cnd := t.cnd, tlp := { u.tlp with transmit := t.tlp.transmit } })) ∧
    (s.readyFor .carriage ⟨tag, 0x24, []⟩ rest →
      let u := s.taken dt .carriage rest
      let free : HeadPositioner := { s.hdp with lock := false }
      (s.hdp.op = none ∨ (∃ o, s.hdp.op = some o ∧ (o.kind ≠ .park ∨ o.stopping = true)) →
        exec (.headRelease dt .carriage) s
          = .next ({ u with hdp := free }.answered .carriage ⟨tag, 0x24, []⟩ .done [])) ∧
      (∀ o, s.hdp.op = some o → o.kind = .park → o.stopping = false → s.hdp.atRest = false →
        exec (.headRelease dt .carriage) s
          = .next ({ u with hdp := stopped o free }.answered .carriage ⟨tag, 0x24, []⟩ .done [])) ∧
      (∀ o, s.hdp.op = some o → o.kind = .park → o.stopping = false → s.hdp.atRest = true →
        let h := stopped o free
        let done : Completion := ⟨o.kind, h.outcome, s.hdp.pan.pos, s.hdp.tilt.pos, u.surveyTime u.timeBase⟩
        ∃ t : State, exec (.headRelease dt .carriage) s = .next (t.answered .carriage ⟨tag, 0x24, []⟩ .done []) ∧
          t.hdp = { h.putCompletion o.origin done with op := none, demand := false } ∧
          t.fxc = { s.fxc with clearance := .unasked } ∧
          (∀ (l : Link) (n : Fin 16), (t.cnd.counts l)[n]
            = if l = o.origin ∧ n = 11 then min 255 ((s.cnd.counts l)[n] + 1) else (s.cnd.counts l)[n]) ∧
          t = { u with
            hdp := t.hdp, fxc := t.fxc, cnd := t.cnd, tlp := { u.tlp with transmit := t.tlp.transmit } }))

/-- HEAD PARK from the carriage holds the lock and is answered DONE. A park in flight goes on. Any other operation ends
now with outcome SUPERSEDED, its completion written and HEAD_DONE counted for its originator, and a park of CARRIAGE
begins from the present motion: a homed axis takes target 0 at full speed, at once if it is in travel; one that is
HOMING goes on; one that is UNHOMED takes start pending for a search; one that stops unhomed owes a search at its rest.
With clearance GIVEN the axes with start pending begin at once; from rest away from 0, clearance is asked for, or waited
for with an operation that waits for it; at rest at 0, 0 the park ends as it is taken (spec/05 sections 5.6 and 5.8).
That a park in phase STOPPING goes on to its stop is the model's choice (log 27), and so is that an axis HOMING goes on
also when it has found its index (log 47). -/
def Obligations.HeadParkTakesOver : Prop :=
  ∀ (dt : Nat) (s : State) (tag : Byte) (rest : List Frame), s.readyFor .carriage ⟨tag, 0x23, []⟩ rest →
    let u := s.taken dt .carriage rest
    let f : Frame := ⟨tag, 0x23, []⟩
    let now := (s.timeBase + dt) % 2 ^ 64
    let parked (ax : Axis) (a : AxisRecord) : AxisRecord :=
      if a.state = .homing then a.advance ax now
      else match a.pos with
        | some p =>
          if a.atRest = false then
            { a.advance ax now with state := .moving, target := some 0, togo := wayTo ax p 0, limit := maxSpeed ax }
          else if p = 0 then { a with target := none, togo := 0, startPending := .clear, limit := maxSpeed ax }
          else { a with target := some 0, togo := wayTo ax p 0, startPending := .move, limit := maxSpeed ax }
        | none =>
          if a.state = .unhomed then { a with homingTravel := 0, startPending := .home }
          else { a.advance ax now with searchOwed := true }
    let park : HeadPositioner :=
      { s.hdp with
        lock := true, op := some ⟨.park, .carriage, false⟩, outcome := .reached
        pan := parked .pan s.hdp.pan, tilt := parked .tilt s.hdp.tilt }
    let counted (t : State) (l : Link) : Prop :=
      ∀ (m : Link) (n : Fin 16), (t.cnd.counts m)[n]
        = if m = l ∧ n = 11 then min 255 ((s.cnd.counts m)[n] + 1) else (s.cnd.counts m)[n]
    let framed (t : State) : Prop :=
      t = { u with hdp := t.hdp, fxc := t.fxc, cnd := t.cnd, tlp := { u.tlp with transmit := t.tlp.transmit } }
    (∀ o, s.hdp.op = some o → o.kind = .park →
      exec (.headPark dt .carriage) s
        = .next ({ u with hdp := { s.hdp with lock := true } }.answered .carriage f .done [])) ∧
    (∀ o : HeadOperation, HeadOk s → s.hdp.op = some o → o.kind ≠ .park →
      let told : HeadPositioner := { park with
        doneTether := some ⟨o.kind, .superseded, s.hdp.pan.pos, s.hdp.tilt.pos, u.surveyTime u.timeBase⟩ }
      (s.hdp.atRest = false →
        ∃ t : State, exec (.headPark dt .carriage) s = .next (t.answered .carriage f .done []) ∧
          t.hdp = told.beginPending now ∧ t.fxc = s.fxc ∧ counted t .tether ∧ framed t) ∧
      (s.hdp.atRest = true → s.fxc.clearance = .waiting →
        (∀ ax : Axis, (s.hdp.axis ax).pos = none → (s.hdp.axis ax).state = .unhomed) →
        (s.hdp.pan.pos ≠ some 0 ∨ s.hdp.tilt.pos ≠ some 0 →
          ∃ t : State, exec (.headPark dt .carriage) s = .next (t.answered .carriage f .done []) ∧
            t.hdp = told ∧ t.fxc = s.fxc ∧ counted t .tether ∧ framed t) ∧
        (s.hdp.pan.pos = some 0 → s.hdp.tilt.pos = some 0 → s.hdp.pan.searchOwed = false → s.hdp.tilt.searchOwed = false →
          ∃ t : State, exec (.headPark dt .carriage) s = .next (t.answered .carriage f .done []) ∧
            t.hdp = { told with
              op := none, demand := false
              doneCarriage := some ⟨.park, .reached, some 0, some 0, u.surveyTime u.timeBase⟩ } ∧
            t.fxc = { s.fxc with clearance := .unasked } ∧
            (∀ (m : Link) (n : Fin 16), (t.cnd.counts m)[n]
              = if n = 11 then min 255 ((s.cnd.counts m)[n] + 1) else (s.cnd.counts m)[n]) ∧ framed t))) ∧
    (HeadOk s → s.hdp.op = none →
      (∀ ax : Axis, (s.hdp.axis ax).pos = none → (s.hdp.axis ax).state = .unhomed) →
      (s.hdp.pan.pos ≠ some 0 ∨ s.hdp.tilt.pos ≠ some 0 →
        exec (.headPark dt .carriage) s
          = .next ({ u with
              hdp := { park with demand := true }
              fxc := { s.fxc with clearance := .waiting } }.answered .carriage f .done [])) ∧
      (s.hdp.pan.pos = some 0 → s.hdp.tilt.pos = some 0 →
        ∃ t : State, exec (.headPark dt .carriage) s = .next (t.answered .carriage f .done []) ∧
          t.hdp = { park with
            op := none, doneCarriage := some ⟨.park, .reached, some 0, some 0, u.surveyTime u.timeBase⟩ } ∧
          t.fxc = s.fxc ∧ counted t .carriage ∧ framed t))

/-! ## Stamps (spec/06) and the overlay (spec/07) -/

/-- The encoded length of a stamp is 22 bytes, 2 for each open observation, 4 for a chainage, 2 for each angle, for an
inclination and for a mark id: 22 to 42 with at most 4 open; the LEN of a STAMP message is 2 more. READ STAMPS returns
the waiting stamps, those held from the cursor on, as many as the count (1 to 4) and the 100 bytes behind the status and
the 19-byte header hold, the first always among them, and the cursor passes exactly those; nothing else changes. A stamp
and the header are laid out field by field (spec/06 sections 6.2 and 6.3, spec/12 sections 12.3, 12.5 and 12.6). That
the stream's decision comes after the reply, which it finds waiting, is the model's choice (log 36), and so is that the
header carries the requesting link's cursor and lost count alone (log 49). -/
def Obligations.ReadStampsReturnsWhatFits : Prop :=
  (∀ st : Stamp,
    let quality : Nat := match st.quality with
      | .good => 0
      | .slack => 1
      | .slip => 2
      | .cable => 3
      | .wheel => 4
      | .noDatum => 5
    let angle : Option Int → List Byte := fun a => match a with
      | some v => s16 v
      | none => []
    st.encode
      = u32 st.frame.toNat ++ u32 st.time
        ++ flags [st.chainage.isSome, st.pan.isSome, st.tilt.isSome, st.inclination.isSome, st.markId.isSome]
        ++ u8 quality ++ flags [st.datumPending, st.moving, st.strobe, st.still, st.clean, st.lightLimited, st.late]
        ++ s16 st.speed ++ u16 st.slackMm.toNat ++ u16 st.exposure ++ u16 st.gain ++ u16 st.level
        ++ u8 st.openIds.length ++ st.openIds.flatMap u16
        ++ (match st.chainage with
          | some v => s32 v
          | none => [])
        ++ angle st.pan ++ angle st.tilt ++ angle st.inclination
        ++ (match st.markId with
          | some m => u16 m
          | none => [])) ∧
  (∀ (s : State) (l : Link),
    let cursor := match l with
      | .tether => s.stu.cursorTether
      | .carriage => s.stu.cursorCarriage
    ∃ passed : List Stamp, s.stu.stamps = passed ++ s.stu.waiting l ∧ (∀ x ∈ passed, x.frame ≠ cursor) ∧
      ∀ x more, s.stu.waiting l = x :: more → x.frame = cursor) ∧
  (∀ st : Stamp, st.encode.length
    = 22 + 2 * st.openIds.length + (if st.chainage.isSome = true then 4 else 0) + (if st.pan.isSome = true then 2 else 0)
      + (if st.tilt.isSome = true then 2 else 0) + (if st.inclination.isSome = true then 2 else 0)
      + (if st.markId.isSome = true then 2 else 0)) ∧
  (∀ st : Stamp, st.openIds.length ≤ 4 → 22 ≤ st.encode.length ∧ st.encode.length ≤ 42 ∧
    (Frame.body ⟨0, 0xC0, st.encode⟩).head? = some (BitVec.ofNat 8 (2 + st.encode.length))) ∧
  ∀ (dt : Nat) (s : State) (l : Link) (tag count : Byte) (rest : List Frame),
    s.readyFor l ⟨tag, 0x38, [count]⟩ rest →
    let n := max 1 (min 4 count.toNat)
    let st : Status := if n = count.toNat then .done else .clamped
    ∃ (sent after : List Stamp) (u : State),
      s.stu.waiting l = sent ++ after ∧ sent.length ≤ n ∧ (sent.map fun x => x.encode.length).sum ≤ 100 ∧
      (∀ x more, after = x :: more →
        sent.length = n ∨ 100 < (sent.map fun x => x.encode.length).sum + x.encode.length) ∧
      u = { s.taken dt l rest with
        stu := s.stu.putCursor l (s.stu.cursor l + BitVec.ofNat 32 sent.length) } ∧
      (∀ x more, s.stu.waiting l = x :: more → x.openIds.length ≤ 4 → sent ≠ []) ∧
      let oldest := match s.stu.stamps with
        | x :: _ => x.frame.toNat
        | [] => 0
      let newest := match s.stu.stamps.getLast? with
        | some x => x.frame.toNat
        | none => 0
      let header : List Byte :=
        u8 sent.length ++ u32 (u.stu.cursor l).toNat ++ u16 (u.stu.waiting l).length
          ++ flags [decide (s.stu.stamps ≠ []), decide (s.set.num .stream = 1), s.stu.inFlight.isSome]
          ++ u32 oldest ++ u32 newest
          ++ u16 (match l with
            | .tether => s.stu.lostTether
            | .carriage => s.stu.lostCarriage)
          ++ u8 (s.set.nat .decimation)
      header.length = 19 ∧
      let content := header ++ sent.flatMap Stamp.encode
      exec (.readStamps dt l) s = .next (u.answered l ⟨tag, 0x38, [count]⟩ st content)

/-- Lapping: a stamp written to a ring of 128 takes the place of the oldest. A cursor that named the oldest moves to the
next and its link alone is charged, with its lost count and STAMPS_LOST, except that the tether is not charged for a
stamp its stream would have stepped over; any other cursor stays and its link is charged nothing (spec/06
section 6.2). -/
def Obligations.LappedCursorsAreCharged : Prop :=
  ∀ (s : State) (st old : Stamp) (kept : List Stamp), s.stu.stamps = old :: kept → kept.length = 127 →
    let t := s.writeStamp st
    let named (l : Link) : Prop := s.stu.cursor l = old.frame
    let free (l : Link) : Prop :=
      l = .tether ∧ s.set.num .stream = 1 ∧ old.frame.toNat % s.set.nat .decimation ≠ 0
    t.stu.stamps = kept ++ [st] ∧ t.stu.pendingMark = s.stu.pendingMark ∧
    (∀ l : Link, named l → t.stu.cursor l = old.frame + 1) ∧ (∀ l : Link, ¬named l → t.stu.cursor l = s.stu.cursor l) ∧
    (∀ l : Link, named l ∧ ¬free l → t.stu.lost l = min 65535 (s.stu.lost l + 1) ∧
      (t.cnd.counts l)[(14 : Fin 16)] = min 255 ((s.cnd.counts l)[(14 : Fin 16)] + 1)) ∧
    (∀ l : Link, ¬named l ∨ free l → t.stu.lost l = s.stu.lost l ∧
      (t.cnd.counts l)[(14 : Fin 16)] = (s.cnd.counts l)[(14 : Fin 16)]) ∧
    (∀ (l : Link) (n : Fin 16), n ≠ 14 → (t.cnd.counts l)[n] = (s.cnd.counts l)[n])

/-- The tether stream: a decision does nothing while STREAM is OFF, the tether is LOST, the line is busy, a message
waits, or the cursor names no held stamp. Otherwise the cursor steps over the stamps whose number is not a multiple of
DECIMATION; the first multiple goes onto the line as a STAMP message and the cursor passes it, and with none the cursor
comes to the write point (spec/06 section 6.4). -/
def Obligations.StreamSendsMultiplesOfDecimation : Prop :=
  ∀ s : State,
    let k := s.set.nat .decimation
    (s.set.num .stream ≠ 1 ∨ s.tlp.up = false ∨ s.tlp.line.isSome = true ∨ s.tlp.transmit ≠ []
        ∨ s.stu.waiting .tether = [] → s.streamDecision = s) ∧
    (s.set.num .stream = 1 → s.tlp.up = true → s.tlp.line = none → s.tlp.transmit = [] →
      (∀ (skipped : List Stamp) (st : Stamp) (after : List Stamp),
        s.stu.waiting .tether = skipped ++ st :: after → (∀ x ∈ skipped, x.frame.toNat % k ≠ 0) →
        st.frame.toNat % k = 0 →
        s.streamDecision = { s with
          stu := { s.stu with cursorTether := st.frame + 1, inFlight := some st.frame }
          tlp := { s.tlp with line := some ⟨Frame.tetherBytes ⟨0, 0xC0, st.encode⟩, s.timeBase, true⟩ } }) ∧
      ((∀ x ∈ s.stu.waiting .tether, x.frame.toNat % k ≠ 0) →
        s.streamDecision = { s with stu := { s.stu with
          cursorTether := s.stu.cursorTether + BitVec.ofNat 32 (s.stu.waiting .tether).length } }))

/-- Every row that is on and lies inside the frame is composed, in increasing row number, and no other: exactly its
width in cells, the text of its source cut or filled with spaces, and every code that is not a drawable one replaced by
a question mark. The text is the chainage in metres to the centimetre with the quality letter and an asterisk for a
pending datum, the angles in degrees, the mark flash, the lamp level right-aligned with its two letters, or the stored
text. A clean frame has no row. The flash takes the frame's mark for FLASH_TIME seconds and counts down one a frame to 0
(spec/07 sections 7.1 to 7.6). -/
def Obligations.ComposedRowsFillTheirWidth : Prop :=
  (∀ n : Nat, n < 10 → decimal n = [BitVec.ofNat 8 (0x30 + n)]) ∧
  (∀ n : Nat, 10 ≤ n → n < 10000000000 → decimal n = decimal (n / 10) ++ [BitVec.ofNat 8 (0x30 + n % 10)]) ∧
  ∀ (s : State) (st : Stamp) (u : Option Int) (mark : Option Mark),
    let t := s.compose st u mark
    let flash : Option Flash := match mark with
      | some m => some ⟨m, s.set.nat .flashTime * (if s.fxc.rate30 = true then 30 else 25)⟩
      | none => s.ovg.flash
    let metres : List Byte := match u with
      | some x =>
        let cm := (2 * x.natAbs + 10000) / 20000
        (if x < 0 ∧ 0 < cm then [0x2D] else []) ++ decimal (cm / 100)
          ++ [0x2E, BitVec.ofNat 8 (0x30 + cm / 10 % 10), BitVec.ofNat 8 (0x30 + cm % 10)]
      | none => [0x2D, 0x2D, 0x2E, 0x2D, 0x2D]
    let letter : Byte := match st.quality with
      | .good => 0x47
      | .slack => 0x4B
      | .slip => 0x53
      | .cable => 0x43
      | .wheel => 0x57
      | .noDatum => 0x4E
    let degrees (a : Nat) : List Byte := decimal (a / 10) ++ [0x2E] ++ decimal (a % 10) ++ [0x7F]
    let pan : List Byte := match st.pan with
      | some p => 0x50 :: degrees p.natAbs
      | none => [0x50, 0x2D, 0x2D]
    let tilt : List Byte := match st.tilt with
      | some p => 0x54 :: (if p < 0 then [0x2D] else if 0 < p then [0x2B] else []) ++ degrees p.natAbs
      | none => [0x54, 0x2D, 0x2D]
    let shown : List Byte := match flash with
      | some f => if 0 < f.remaining then f.mark.code ++ [0x20, 0x23] ++ decimal f.mark.id else []
      | none => []
    let status : List Byte :=
      [0x49] ++ List.replicate (4 - (decimal st.level).length) 0x20 ++ decimal st.level ++ [0x20]
        ++ [if st.lightLimited = true then 0x4C else 0x20] ++ [if st.quality = .slip then 0x53 else 0x20]
    let text (n : Fin 4) : List Byte := match s.set.num (.row n .source) with
      | 1 => metres ++ [0x6D, 0x20, letter] ++ (if st.datumPending = true then [0x2A] else [])
      | 2 => pan ++ [0x20] ++ tilt
      | 3 => shown
      | 4 => status
      | _ => s.set.texts[n]
    let fitted (n : Fin 4) : List Byte :=
      ((text n ++ List.replicate (s.set.nat (.row n .width)) 0x20).take (s.set.nat (.row n .width))).map fun (c : Byte) =>
        if 0x20 ≤ c.toNat ∧ c.toNat ≤ 0x7F then c else 0x3F
    let drawn : List (Fin 4) := [0, 1, 2, 3].filter fun n =>
      decide (s.set.num (.row n .enable) = 1 ∧
        s.set.nat (.row n .line) < if s.fxc.rate30 = true then 24 else 28)
    (st.clean = true → t.ovg.rows = []) ∧
    (st.clean = false →
      t.ovg.rows = drawn.map fun n => ⟨s.set.nat (.row n .column), s.set.nat (.row n .line), fitted n⟩) ∧
    (∀ n : Fin 4, (fitted n).length = s.set.nat (.row n .width)) ∧
    t.ovg.flash = flash.map (fun f => { f with remaining := f.remaining - 1 }) ∧
    t = { s with ovg := { s.ovg with rows := t.ovg.rows, flash := t.ovg.flash } }

/-! ## Observations (spec/08) -/

/-- The clock position: present exactly when both axes are homed and the tilt is 30 degrees or more either way, and then
the hour whose 30 degree sector holds the pan angle, 12 for hour 0 (spec/08 section 8.2). -/
def Obligations.ClockPositionIsTheHour : Prop :=
  ∀ (pan tilt : Option Int), (∀ p, pan = some p → 0 ≤ p ∧ p ≤ 3599) →
    (pan = none ∨ tilt = none → clockPosition pan tilt = none) ∧
    (∀ p t : Int, pan = some p → tilt = some t →
      (t.natAbs < 300 → clockPosition pan tilt = none) ∧
      (300 ≤ t.natAbs → ∃ h : Nat, clockPosition pan tilt = some h ∧ 1 ≤ h ∧ h ≤ 12 ∧
        (h : Int) % 12 = (p + 150).tdiv 300 % 12))

/-- MARK POINT. With the chainage present, and a guard-memory record of the same code within GUARD of it, the mark
merges into the newest such record: the link joins its origin, the Stamp Unit takes the record's id and code, the reply
is MERGED with that record's id, presence bits, start, clock position and still frame, and no record is made. Otherwise,
with 96 records or the ids spent, it is answered FULL and nothing changes (spec/08 section 8.3, spec/12 section 12.5).
-/
def Obligations.MarksMergeWithinTheGuard : Prop :=
  ∀ (dt : Nat) (s : State) (l : Link) (tag : Byte) (p : List Byte) (rest : List Frame),
    p.length = 4 → s.readyFor l ⟨tag, 0x30, p⟩ rest →
    let f : Frame := ⟨tag, 0x30, p⟩
    let near (r : Observation) : Prop :=
      r.id ∈ s.obl.guardMemory ∧ r.code = p ∧
        ∃ x here : Int, r.start = some x ∧ s.chainageNow = some here ∧
          ((x - here).natAbs : Int) ≤ s.set.num .guardWidth
    let joined (r : Observation) : Observation := match l with
      | .tether => { r with fromTether := true }
      | .carriage => { r with fromCarriage := true }
    let content (r : Observation) : List Byte :=
      u16 r.id ++ flags [r.stillFrame.isSome, true, r.clock.isSome] ++ s32opt r.start
        ++ u8 (match r.clock with
          | some h => h
          | none => 0)
        ++ u32 (match r.stillFrame with
          | some n => n.toNat
          | none => 0)
    (∀ (older newer : List Observation) (r : Observation),
      s.obl.records = older ++ r :: newer → near r → (∀ q ∈ newer, ¬near q) →
      (∀ q ∈ older, q.id ≠ r.id) → (∀ q ∈ newer, q.id ≠ r.id) →
      exec (.markPoint dt l) s
        = .next ({ s.taken dt l rest with
            obl := { s.obl with records := older ++ joined r :: newer }
            stu := { s.stu with pendingMark := some ⟨r.id, p⟩ } }.answered l f .merged (content r))) ∧
    ((∀ r ∈ s.obl.records, ¬near r) → s.obl.records.length = 96 ∨ s.obl.nextId = 65536 →
      exec (.markPoint dt l) s = .next ((s.taken dt l rest).answered l f .full []))

/-- A creation, by MARK POINT that merges into no record or by OPEN OBS with fewer than 4 open: the record has the next
id, the code, the present chainage and clock position, the requesting link as origin and the frame counter, and it is
CLOSED for a point and OPEN for a continuous one; a point with a chainage joins the guard memory; the Stamp Unit takes
its id and code; unless AUTO_STILL is OFF a still is asked for, or the pending one joined, and the record names its
frame; the 88th record raises LOG_NEAR_FULL. The DONE reply carries the id, the presence bits, the start, the clock
position and the still frame. MARK POINT is answered FULL with the log full, OPEN OBS also with 4 records OPEN (spec/08
sections 8.3, 8.4 and 8.8, spec/03 section 3.5, spec/12 section 12.5). That the reply joins the transmit queue behind
the ATTENTION message of LOG_NEAR_FULL is the model's choice (log 19). -/
def Obligations.CreationsAppendARecord : Prop :=
  ∀ (dt : Nat) (s : State) (l : Link) (tag : Byte) (p : List Byte) (rest : List Frame),
    p.length = 4 →
    let choice : Count := if s.fxc.ended = none then 2 else s.fxc.counter + 1
    let asked : FrameTimer × Option Count :=
      if s.set.nat .autoStill = 0 then (s.fxc, none)
      else match s.fxc.pendingStill with
        | some q => (s.fxc, some q.frame)
        | none =>
          ({ s.fxc with pendingStill := some ⟨choice, l, decide (s.set.nat .autoStill = 2)⟩ }, some choice)
    let made (kind : ObsKind) (state : ObsState) : Observation :=
      ⟨s.obl.nextId, p, kind, state, s.chainageNow, none, clockPosition s.hdp.pan.pos s.hdp.tilt.pos, l == .tether,
        l == .carriage, s.fxc.counter, asked.2, false, []⟩
    let created (r : Observation) (memory : List Nat) : State :=
      let t : State := { s.taken dt l rest with
        fxc := asked.1
        obl := ⟨s.obl.records ++ [r], s.obl.nextId + 1, memory⟩
        stu := { s.stu with pendingMark := some ⟨s.obl.nextId, p⟩ } }
      if s.obl.records.length = 87 then t.raise .logNearFull else t
    let content (r : Observation) : List Byte :=
      u16 r.id ++ flags [r.stillFrame.isSome, false, r.clock.isSome] ++ s32opt r.start
        ++ u8 (match r.clock with
          | some h => h
          | none => 0)
        ++ u32 (match r.stillFrame with
          | some n => n.toNat
          | none => 0)
    let room := s.obl.records.length ≤ 95 ∧ s.obl.nextId ≤ 65535
    let opened := (s.obl.records.filter fun r => r.state == .opened).length
    let beyond (x : Int) : Prop := ∀ r ∈ s.obl.records, r.id ∈ s.obl.guardMemory → r.code = p →
      ∀ y, r.start = some y → s.set.num .guardWidth < ((y - x).natAbs : Int)
    (s.readyFor l ⟨tag, 0x30, p⟩ rest →
      (room → s.chainageNow = none →
        exec (.markPoint dt l) s
          = .next ((created (made .point .closed) s.obl.guardMemory).answered l ⟨tag, 0x30, p⟩ .done
              (content (made .point .closed)))) ∧
      (∀ x, room → s.chainageNow = some x → beyond x →
        exec (.markPoint dt l) s
          = .next ((created (made .point .closed) (s.obl.guardMemory ++ [s.obl.nextId])).answered l
              ⟨tag, 0x30, p⟩ .done (content (made .point .closed)))) ∧
      ((s.chainageNow = none ∨ ∃ x, s.chainageNow = some x ∧ beyond x) →
        96 ≤ s.obl.records.length ∨ 65536 ≤ s.obl.nextId →
        exec (.markPoint dt l) s = .next ((s.taken dt l rest).answered l ⟨tag, 0x30, p⟩ .full []))) ∧
    (s.readyFor l ⟨tag, 0x31, p⟩ rest →
      (room → opened ≤ 3 →
        exec (.openObs dt l) s
          = .next ((created (made .continuous .opened) s.obl.guardMemory).answered l ⟨tag, 0x31, p⟩ .done
              (content (made .continuous .opened)))) ∧
      (4 ≤ opened ∨ 96 ≤ s.obl.records.length ∨ 65536 ≤ s.obl.nextId →
        exec (.openObs dt l) s = .next ((s.taken dt l rest).answered l ⟨tag, 0x31, p⟩ .full [])))

/-- CLOSE OBS, VOID OBS and ANNOTATE of a held record, and of an id that is not held. A close needs an OPEN record and a
chainage; a void needs the carriage in the origin when the carriage asks, removes an end and leaves the guard memory; an
annotation replaces the remark with the first 32 codes (spec/08 sections 8.4 and 8.5). -/
def Obligations.RecordsCloseVoidAndAnnotate : Prop :=
  ∀ (dt : Nat) (s : State) (l : Link) (tag : Byte) (p : List Byte) (rest : List Frame),
    let id := u16At p 0
    let u := s.taken dt l rest
    let absent := ∀ r ∈ s.obl.records, r.id ≠ id
    let put (older newer : List Observation) (r : Observation) (memory : List Nat) : State :=
      { u with obl := { s.obl with records := older ++ r :: newer, guardMemory := memory } }
    let sole (older newer : List Observation) (r : Observation) : Prop :=
      s.obl.records = older ++ r :: newer ∧ r.id = id ∧ (∀ q ∈ older, q.id ≠ id) ∧ (∀ q ∈ newer, q.id ≠ id)
    (p.length = 2 → s.readyFor l ⟨tag, 0x32, p⟩ rest →
      (absent → exec (.closeObs dt l) s = .next (u.answered l ⟨tag, 0x32, p⟩ .noSuch [])) ∧
      ∀ older newer r, sole older newer r →
        (r.state ≠ .opened → exec (.closeObs dt l) s = .next (u.answered l ⟨tag, 0x32, p⟩ .wrongState [])) ∧
        (r.state = .opened → s.chainageNow = none →
          exec (.closeObs dt l) s = .next (u.answered l ⟨tag, 0x32, p⟩ .notReady [])) ∧
        (∀ x, r.state = .opened → s.chainageNow = some x →
          exec (.closeObs dt l) s
            = .next ((put older newer { r with state := .closed, finish := some x, closedByDatum := false }
                s.obl.guardMemory).answered l ⟨tag, 0x32, p⟩ .done (u16 id ++ s32opt r.start ++ s32 x)))) ∧
    (p.length = 2 → s.readyFor l ⟨tag, 0x33, p⟩ rest →
      (absent → exec (.voidObs dt l) s = .next (u.answered l ⟨tag, 0x33, p⟩ .noSuch [])) ∧
      ∀ older newer r, sole older newer r →
        (l = .carriage → r.fromCarriage = false →
          exec (.voidObs dt l) s = .next (u.answered l ⟨tag, 0x33, p⟩ .notPermitted [])) ∧
        (l = .tether ∨ r.fromCarriage = true → r.state = .voided →
          exec (.voidObs dt l) s = .next (u.answered l ⟨tag, 0x33, p⟩ .wrongState [])) ∧
        (l = .tether ∨ r.fromCarriage = true → r.state ≠ .voided →
          exec (.voidObs dt l) s
            = .next ((put older newer { r with state := .voided, finish := none }
                (s.obl.guardMemory.filter fun g => g != id)).answered l ⟨tag, 0x33, p⟩ .done (u16 id)))) ∧
    (∀ text : List Byte, text.length ≤ 117 → p.drop 2 = BitVec.ofNat 8 text.length :: text →
      s.readyFor l ⟨tag, 0x34, p⟩ rest →
      (absent → exec (.annotate dt l) s = .next (u.answered l ⟨tag, 0x34, p⟩ .noSuch [])) ∧
      ∀ older newer r, sole older newer r →
        (r.state = .voided → exec (.annotate dt l) s = .next (u.answered l ⟨tag, 0x34, p⟩ .wrongState [])) ∧
        (r.state ≠ .voided →
          exec (.annotate dt l) s
            = .next ((put older newer { r with remark := text.take 32 } s.obl.guardMemory).answered l ⟨tag, 0x34, p⟩
                (if text.length ≤ 32 then .done else .clamped) (u16 id ++ u8 (min 32 text.length)))))

/-- READ LOG returns records in id order from the given id on, as many as the count (1 to 3) and 107 bytes hold, behind
the log's summary, and changes nothing. TRIM LOG removes from the front the records that are not OPEN and whose id is at
or below the given one, with their ids from the guard memory, and answers how many. The summary and a record are laid out
field by field (spec/08 sections 8.5 and 8.6, spec/12 sections 12.5 and 12.7). -/
def Obligations.LogIsReadAndTrimmed : Prop :=
  ∀ (dt : Nat) (s : State) (l : Link) (tag : Byte) (p : List Byte) (rest : List Frame),
    let u := s.taken dt l rest
    let id := u16At p 0
    let summary (o : ObsLog) : List Byte :=
      u8 o.records.length ++ u8 (o.records.filter fun r => r.state == .opened).length
        ++ flags [decide (o.records ≠ [])]
        ++ u16 (match o.records with
          | r :: _ => r.id
          | [] => 0)
        ++ u16 (match o.records.getLast? with
          | some r => r.id
          | none => 0)
        ++ u32 o.nextId
    let chainage : Option Int → List Byte := fun x => match x with
      | some v => s32 v
      | none => []
    let encoded (r : Observation) : List Byte :=
      u16 r.id ++ r.code
        ++ flags [r.start.isSome, r.finish.isSome, r.clock.isSome, r.stillFrame.isSome, r.closedByDatum, r.fromTether,
          r.fromCarriage, decide (r.kind = .continuous)]
        ++ u8 (match r.state with
          | .opened => 0
          | .closed => 1
          | .voided => 2)
        ++ u32 r.frame.toNat ++ chainage r.start ++ chainage r.finish
        ++ (match r.clock with
          | some h => u8 h
          | none => [])
        ++ (match r.stillFrame with
          | some n => u32 n.toNat
          | none => [])
        ++ u8 r.remark.length ++ r.remark
    (p.length = 3 → s.readyFor l ⟨tag, 0x35, p⟩ rest →
      let n := max 1 (min 3 (byteAt p 2))
      ∃ sent after : List Observation,
        (s.obl.records.filter fun r => decide (id ≤ r.id)) = sent ++ after ∧ sent.length ≤ n ∧
        (sent.map fun r => (encoded r).length).sum ≤ 107 ∧
        (∀ x more, after = x :: more →
          sent.length = n ∨ 107 < (sent.map fun r => (encoded r).length).sum + (encoded x).length) ∧
        exec (.readLog dt l) s
          = .next (u.answered l ⟨tag, 0x35, p⟩ (if n = byteAt p 2 then .done else .clamped)
              (summary s.obl ++ u8 sent.length ++ sent.flatMap encoded))) ∧
    (p.length = 2 → l = .tether → s.readyFor l ⟨tag, 0x36, p⟩ rest →
      ∀ gone kept : List Observation, s.obl.records = gone ++ kept →
        (∀ r ∈ gone, r.id ≤ id ∧ r.state ≠ .opened) → (∀ r more, kept = r :: more → id < r.id ∨ r.state = .opened) →
        let o : ObsLog := { s.obl with
          records := kept
          guardMemory := s.obl.guardMemory.filter fun g => !(gone.map (·.id)).contains g }
        exec (.trimLog dt l) s
          = .next ({ u with obl := o }.answered l ⟨tag, 0x36, p⟩ .done (u8 gone.length ++ summary o)))

/-! ## Settings (spec/11) and the requests that read -/

/-- The table of settings, line by line: id, MIN, DEFAULT, MAX, owner and how a written value is brought into range; and
SET SETTING by its tests in order: an id of no setting is NO_SUCH, another link's setting NOT_PERMITTED, a value of the
wrong kind BAD_FORM, and none of these stores anything. A number is brought into its range by the rule of its setting, a
text kept to its first 40 codes, a mask stored as sent, and a mask write that turns the tether's attention on places an
ATTENTION message. Each setting has an id of its own and a value of its own (spec/11 section 11.1, spec/09 section 9.2,
spec/07 section 7.1, spec/12 section 12.5). That the reply joins the transmit queue behind that ATTENTION message is the
model's choice (log 19), and so is that the stream's decision at a write of STREAM comes after the reply, which it finds
waiting (log 36). -/
def Obligations.SetSettingStoresInRange : Prop :=
  ((∀ r ∈ ([(.latency, ⟨1, 0, 40, 250, .tether, .clamp⟩), (.fillLimit, ⟨2, 0, 2, 7, .tether, .clamp⟩),
         (.reelTimeout, ⟨3, 50, 250, 2000, .tether, .clamp⟩), (.leftSense, ⟨4, -1, 1, 1, .carriage, .sense⟩),
         (.rightSense, ⟨5, -1, 1, 1, .carriage, .sense⟩), (.driveFresh, ⟨6, 100, 500, 2000, .carriage, .clamp⟩),
         (.reelScale, ⟨10, 100, 5000, 100000, .tether, .clamp⟩), (.reelSense, ⟨11, -1, 1, 1, .tether, .sense⟩),
         (.wheelScale, ⟨12, 2, 250, 20000, .carriage, .even⟩), (.tolFixed, ⟨13, 0, 3000, 50000, .tether, .clamp⟩),
         (.tolRatio, ⟨14, 0, 13, 255, .tether, .clamp⟩), (.disFixed, ⟨15, 0, 1000, 50000, .carriage, .clamp⟩),
         (.disRatio, ⟨16, 0, 32, 255, .carriage, .clamp⟩), (.corrShift, ⟨17, 0, 3, 7, .tether, .clamp⟩),
         (.corrMax, ⟨18, 0, 5000, 50000, .tether, .clamp⟩), (.slackMax, ⟨19, 0, 2000, 10000, .tether, .clamp⟩),
         (.lensOffset, ⟨20, -1000, 0, 1000, .tether, .clamp⟩), (.datumOwner, ⟨21, 0, 0, 1, .tether, .coded 0⟩)] ++
        [(.exposureProgram, ⟨30, 0, 0, 2, .tether, .coded 0⟩), (.target, ⟨31, 64, 400, 960, .tether, .clamp⟩),
         (.deadband, ⟨32, 0, 24, 200, .tether, .clamp⟩), (.clipLimit, ⟨33, 0, 50, 1000, .tether, .clamp⟩),
         (.blurAllow, ⟨34, 0, 1500, 20000, .tether, .clamp⟩),
         (.headMotionCap, ⟨35, 20, 4000, 34000, .tether, .clamp⟩), (.gainMax, ⟨36, 16, 256, 256, .tether, .clamp⟩),
         (.eFixed, ⟨37, 20, 10000, 34000, .tether, .clamp⟩), (.gFixed, ⟨38, 16, 16, 256, .tether, .clamp⟩),
         (.meterX, ⟨39, 0, 180, 719, .tether, .clamp⟩), (.meterY, ⟨40, 0, 144, 575, .tether, .clamp⟩),
         (.meterW, ⟨41, 0, 360, 720, .tether, .clamp⟩), (.meterH, ⟨42, 0, 288, 576, .tether, .clamp⟩),
         (.ringFull, ⟨45, 0, 240, 500, .tether, .clamp⟩), (.spotFull, ⟨46, 0, 180, 500, .tether, .clamp⟩),
         (.bodyFull, ⟨47, 0, 120, 500, .tether, .clamp⟩), (.ringWeight, ⟨48, 0, 100, 100, .tether, .clamp⟩),
         (.spotWeight, ⟨49, 0, 50, 100, .tether, .clamp⟩)] ++
        [(.bodyWeight, ⟨50, 0, 0, 100, .tether, .clamp⟩), (.lampSource, ⟨51, 0, 0, 2, .tether, .coded 2⟩),
         (.lampManual, ⟨52, 0, 500, 1000, .tether, .clamp⟩), (.strobe, ⟨53, 0, 1, 1, .tether, .coded 1⟩),
         (.lostLinkLevel, ⟨54, 0, 300, 1000, .tether, .clamp⟩), (.thermalAddr, ⟨55, 8, 76, 119, .tether, .clamp⟩),
         (.budget, ⟨56, 0, 600, 3000, .tether, .clamp⟩), (.base, ⟨57, 0, 80, 1000, .tether, .clamp⟩),
         (.lampReserve, ⟨58, 0, 100, 1000, .tether, .clamp⟩), (.motorReserve, ⟨59, 0, 300, 3000, .tether, .clamp⟩),
         (.stream, ⟨64, 0, 0, 1, .tether, .coded 0⟩), (.decimation, ⟨65, 1, 1, 25, .tether, .clamp⟩),
         (.flashTime, ⟨66, 0, 5, 30, .tether, .clamp⟩), (.guardWidth, ⟨100, 0, 150, 2000, .tether, .clamp⟩),
         (.autoStill, ⟨101, 0, 0, 2, .tether, .coded 0⟩), (.linkTimeout, ⟨108, 500, 2000, 10000, .tether, .clamp⟩)]
        : List (NumId × NumRow)),
      NumId.line r.1 = r.2) ∧
    (∀ n : Fin 4, ∀ id : Nat, id = 70 + 8 * n.val →
      NumId.line (.row n .enable) = ⟨id, 0, if n = 3 then 0 else 1, 1, .tether, .coded 0⟩ ∧
      NumId.line (.row n .source) = ⟨id + 1, 0, n.val + 1, 4, .tether, .coded 0⟩ ∧
      NumId.line (.row n .column)
        = ⟨id + 2, 0, if n = 1 then 43 else if n = 3 then 50 else 1, 59, .tether, .clamp⟩ ∧
      NumId.line (.row n .line) = ⟨id + 3, 0, if n = 0 ∨ n = 1 then 1 else 22, 27, .tether, .clamp⟩ ∧
      NumId.line (.row n .width)
        = ⟨id + 4, 1, if n = 1 then 16 else if n = 3 then 8 else 12, 40, .tether, .clamp⟩ ∧
      (SettingRef.text n).id = id + 5 ∧ (SettingRef.text n).owner = .tether) ∧
    (∀ l : Link, (SettingRef.mask l).id = (if l = .tether then 104 else 105) ∧ (SettingRef.mask l).owner = l)) ∧
  (∀ r : SettingRef, SettingRef.ofId r.id = some r) ∧ (∀ id r, SettingRef.ofId id = some r → r.id = id) ∧
  (∀ (t : Settings) (j k : NumId) (v : Int), (t.putNum k v).num j = if j = k then v else t.num j) ∧
  ∀ (dt : Nat) (s : State) (l : Link) (tag : Byte) (p : List Byte) (rest : List Frame),
    (byteAt p 2 = 0 ∧ p.length = 7) ∨ (byteAt p 2 = 2 ∧ p.length = 5) ∨
      (byteAt p 2 = 1 ∧ 4 ≤ p.length ∧ p.length = 4 + byteAt p 3) →
    s.readyFor l ⟨tag, 0x18, p⟩ rest →
    let u := s.taken dt l rest
    let f : Frame := ⟨tag, 0x18, p⟩
    let id := u16At p 0
    (SettingRef.ofId id = none → exec (.setSetting dt l) s = .next (u.answered l f .noSuch [])) ∧
    (∀ r, SettingRef.ofId id = some r → r.owner ≠ l →
      exec (.setSetting dt l) s = .next (u.answered l f .notPermitted [])) ∧
    (∀ k : NumId, SettingRef.ofId id = some (.num k) → k.line.owner = l →
      (byteAt p 2 ≠ 0 → exec (.setSetting dt l) s = .next (u.answered l f .badForm [])) ∧
      (byteAt p 2 = 0 →
        let v := s32At p 3
        ∃ kept : Int, k.line.lo ≤ kept ∧ kept ≤ k.line.hi ∧
          (k.line.norm = .clamp → kept = max k.line.lo (min k.line.hi v)) ∧
          (k.line.norm = .sense → kept = if v < 0 then -1 else 1) ∧
          (k.line.norm = .even → kept = max k.line.lo (min k.line.hi v) - max k.line.lo (min k.line.hi v) % 2) ∧
          (∀ other, k.line.norm = .coded other → kept = if k.line.lo ≤ v ∧ v ≤ k.line.hi then v else other) ∧
          exec (.setSetting dt l) s
            = .next ({ u with set := s.set.putNum k kept }.answered l f (if kept = v then .done else .clamped)
                (u16 id ++ u8 0 ++ s32 kept)))) ∧
    (∀ n : Fin 4, SettingRef.ofId id = some (.text n) →
      (l = .tether → byteAt p 2 ≠ 1 → exec (.setSetting dt l) s = .next (u.answered l f .badForm [])) ∧
      (l = .tether → byteAt p 2 = 1 →
        let kept := (textAt p 3).take 40
        exec (.setSetting dt l) s
          = .next ({ u with set := s.set.putText n kept }.answered l f
              (if (textAt p 3).length ≤ 40 then .done else .clamped)
              (u16 id ++ u8 1 ++ u8 kept.length ++ kept)))) ∧
    (SettingRef.ofId id = some (.mask l) →
      (byteAt p 2 ≠ 2 → exec (.setSetting dt l) s = .next (u.answered l f .badForm [])) ∧
      (byteAt p 2 = 2 →
        let w : State := { u with set := s.set.putMask l (setAt p 3) }
        let told : State := if s.attention .tether = false ∧ w.attention .tether = true ∧ s.tlp.up = true
            ∧ .attention ∉ s.tlp.transmit
          then { w with tlp := { w.tlp with transmit := s.tlp.transmit ++ [.attention] } } else w
        exec (.setSetting dt l) s = .next (told.answered l f .done (u16 id ++ u8 2 ++ u16 (setAt p 3).toNat))))

/-- The requests that read change nothing but their own queue and the reply: GET SETTING with owner, value and range of
a number, of a text (0 and 40 characters) and, with nothing behind its value, of a mask (log 57, deduced); CHAINAGE
QUERY (48 bytes), HEAD QUERY (38), with the speeds of the instant, and LAMP QUERY (60), each laid out field by field in
the codes of the table of codes; that the originator and the phase of no operation are 0 is the model's choice (log 20).
STILL names the next frame whose set is to be computed, frame 2 before the first boundary, or is answered BUSY while a
still is pending (spec/11 section 11.1, spec/02 section 2.8, spec/05 section 5.10, spec/04 section 4.7, spec/03 section
3.5, spec/12 sections 12.3 and 12.5). -/
def Obligations.QueriesReadAndStillIsPending : Prop :=
  ([Status.done, .clamped, .merged, .busy, .notPermitted, .notReady, .locked, .full, .noSuch, .badForm,
      .wrongState].map Status.code = List.range 11 ∧
    [Quality.good, .slack, .slip, .cable, .wheel, .noDatum].map Quality.code = List.range 6 ∧
    [StepClass.track, .payout, .takeup, .slip, .retrieve, .cableOnly, .datum].map StepClass.code = List.range 7 ∧
    [LastKind.noStep, .fill, .settled, .rebase, .datum].map LastKind.code = List.range 5 ∧
    [Selection.mean, .left, .right].map Selection.code = List.range 3 ∧
    [ReelMachine.acquire, .sync, .check].map ReelMachine.code = List.range 3 ∧
    [some Direction.stopped, some .forward, some .reverse, none].map directionCode = List.range 4 ∧
    [Link.tether, .carriage].map linkCode = List.range 2 ∧
    [AxisState.unhomed, .homing, .idle, .moving, .stopping].map AxisState.code = List.range 5 ∧
    [LossCause.noCause, .indexNotFound, .indexMismatch].map LossCause.code = List.range 3 ∧
    0 :: [HeadKind.home, .move, .park].map HeadKind.code = List.range 4 ∧
    [HeadOutcome.reached, .stopped, .superseded, .lost, .linkLost].map HeadOutcome.code = List.range 5 ∧
    [Clearance.unasked, .waiting, .given].map Clearance.code = List.range 3 ∧
    [ThermalState.normal, .derate, .shutdown, .fault].map ThermalState.code = List.range 4 ∧
    [none, some PollOutcome.success, some .addressNack, some .pointerNack, some .busTimeout].map pollOutcomeCode
      = List.range 5) ∧
  ∀ (dt : Nat) (s : State) (l : Link) (tag : Byte) (p : List Byte) (rest : List Frame),
    let u := s.taken dt l rest
    (s.readyFor l ⟨tag, 0x10, []⟩ rest →
      let c := s.chr
      let r := s.rin
      let w := s.wct
      let content : List Byte :=
        s32opt s.chainageNow ++ u8 s.quality.code ++ flags [c.pendingDatum.isSome, c.v0.isSome, c.last.disagree]
          ++ s32opt c.pendingDatum ++ s16 c.speed ++ u16 (c.slack.tdiv 1000).toNat ++ u16 c.slipCount
          ++ u8 c.last.kind.code ++ u8 c.last.cls.code ++ u8 c.last.sel.code
          ++ u8 r.machine.code ++ u8 r.expected.toNat ++ u8 r.suspect.toNat
          ++ u16 r.stats.duplicates ++ u16 r.stats.suspects ++ u16 r.stats.missing ++ u16 r.stats.fills
          ++ u16 r.stats.rebases ++ u16 r.stats.noCount ++ u16 r.stats.malformed
          ++ s32 w.left.count.toInt ++ s32 w.right.count.toInt ++ u8 w.left.errors ++ u8 w.right.errors
          ++ flags [w.left.fault, w.right.fault]
          ++ u8 (if s.drv.fresh = true then directionCode (some s.drv.direction) + 128 else directionCode none)
      exec (.chainageQuery dt l) s = .next (u.answered l ⟨tag, 0x10, []⟩ .done content) ∧ content.length = 48) ∧
    (s.readyFor l ⟨tag, 0x25, []⟩ rest →
      let axis (ax : Axis) (a : AxisRecord) : List Byte :=
        u8 a.state.code ++ flags [a.pos.isSome, decide (a.startPending ≠ .clear)] ++ s16opt a.pos ++ s16opt a.target
          ++ s16 (a.speed ax u.timeBase) ++ u8 a.lossCause.code ++ u16 a.corrections
      let operation : List Byte := match s.hdp.op with
        | some o => u8 o.kind.code ++ u8 (linkCode o.origin) ++ u8 (if o.stopping = true then 1 else 0)
        | none => [0, 0, 0]
      let held := match l with
        | .tether => s.hdp.doneTether
        | .carriage => s.hdp.doneCarriage
      let completion : List Byte := match held with
        | some d => u8 d.kind.code ++ u8 d.outcome.code ++ s16opt d.pan ++ s16opt d.tilt ++ u32 d.time
        | none => [0, 0, 0x80, 0, 0x80, 0, 0, 0, 0, 0]
      let content : List Byte :=
        axis .pan s.hdp.pan ++ axis .tilt s.hdp.tilt ++ u8 (if s.hdp.lock = true then 1 else 0) ++ operation
          ++ u8 s.hdp.outcome.code ++ u8 (s.fxc.clearance.code + if s.hdp.demand = true then 128 else 0) ++ completion
      exec (.headQuery dt l) s = .next (u.answered l ⟨tag, 0x25, []⟩ .done content) ∧ content.length = 38) ∧
    (s.readyFor l ⟨tag, 0x28, []⟩ rest →
      let nat := s.set.nat
      let num := s.set.num
      let d := s.ldr.record
      let m := s.ltm
      let k := m.counters
      let source : Nat := if s.ldr.override.isSome = true ∨ num .lampSource = 1 then 1
        else if num .lampSource = 0 then 0 else 2
      let demand : Nat := if s.drv.fresh = true then s.drv.demand else nat .motorReserve
      let image : List Byte := match s.ist.held with
        | some i => u16 i.mean ++ u16 i.clip
        | none => [0, 0, 0, 0]
      let content : List Byte :=
        u8 source ++ u16 (s.ldr.override.getD (nat .lampManual)) ++ u8 (nat .lampSource) ++ u16 (nat .lampManual)
          ++ flags [decide (num .strobe = 1), s.ldr.override.isSome, d.strobe, s.ldr.enable, s.ldr.overDemand,
            s.ist.held.isSome]
          ++ u32 d.frame.toNat ++ u16 d.level ++ u16 d.exposure ++ u16 d.banks.ring ++ u16 d.banks.spot
          ++ u16 d.banks.body
          ++ u16 (nat .ringFull) ++ u16 (nat .spotFull) ++ u16 (nat .bodyFull)
          ++ u8 (nat .ringWeight) ++ u8 (nat .spotWeight) ++ u8 (nat .bodyWeight)
          ++ u16 s.ldr.pfull ++ u16 (max (num .lampReserve) (num .budget - num .base - demand)).toNat ++ u16 demand
          ++ u16 (max 0 (num .budget - num .base - num .lampReserve)).toNat
          ++ u8 m.state.code ++ s16opt m.lastTemp ++ u16 m.ceiling ++ u8 m.failures ++ u8 m.successes
          ++ u8 (pollOutcomeCode m.lastOutcome) ++ u16 k.successes ++ u16 k.addressNacks ++ u16 k.pointerNacks
          ++ u16 k.busTimeouts ++ u16 k.skipped ++ image
      exec (.lampQuery dt l) s = .next (u.answered l ⟨tag, 0x28, []⟩ .done content) ∧ content.length = 60) ∧
    (p.length = 2 → s.readyFor l ⟨tag, 0x19, p⟩ rest →
      (SettingRef.ofId (u16At p 0) = none →
        exec (.getSetting dt l) s = .next (u.answered l ⟨tag, 0x19, p⟩ .noSuch [])) ∧
      (∀ n : Fin 4, SettingRef.ofId (u16At p 0) = some (.text n) →
        exec (.getSetting dt l) s
          = .next (u.answered l ⟨tag, 0x19, p⟩ .done
              (u16 (75 + 8 * n.val) ++ u8 0 ++ u8 1 ++ u8 s.set.texts[n].length ++ s.set.texts[n]
                ++ s32 0 ++ u8 0 ++ s32 40))) ∧
      (∀ m : Link, SettingRef.ofId (u16At p 0) = some (.mask m) →
        exec (.getSetting dt l) s
          = .next (u.answered l ⟨tag, 0x19, p⟩ .done
              (u16 (u16At p 0) ++ u8 (linkCode m) ++ u8 2 ++ u16 (s.set.mask m).toNat))) ∧
      ∀ k : NumId, SettingRef.ofId (u16At p 0) = some (.num k) →
        exec (.getSetting dt l) s
          = .next (u.answered l ⟨tag, 0x19, p⟩ .done
              (u16 k.line.id ++ u8 (linkCode k.line.owner) ++ u8 0 ++ s32 (s.set.num k) ++ s32 k.line.lo
                ++ s32 k.line.dflt ++ s32 k.line.hi))) ∧
    (p.length = 1 → s.readyFor l ⟨tag, 0x2C, p⟩ rest →
      (s.fxc.pendingStill.isSome = true → exec (.still dt l) s = .next (u.answered l ⟨tag, 0x2C, p⟩ .busy [])) ∧
      (s.fxc.pendingStill = none →
        let frame := if s.fxc.ended = none then 2 else s.fxc.counter + 1
        exec (.still dt l) s
          = .next ({ u with fxc := { s.fxc with pendingStill := some ⟨frame, l, decide (byteAt p 0 ≠ 0)⟩ } }.answered l
              ⟨tag, 0x2C, p⟩ .done (u32 frame.toNat))))

/-! ## The ports (spec/10) -/

/-- Service at the ports: a request of a KIND restricted to the other link is answered NOT_PERMITTED, one of a length
other than the table's for its KIND, or than its own bytes imply for SET SETTING and ANNOTATE, BAD_FORM, each with no
other effect; a KIND that is 0x80 or above or missing from the table is answered BAD_FORM with KIND 0xFF; and a link
that may not be served keeps its queue (spec/10 section 10.5, spec/12 section 12.2). Service as a command of its own is
the model's (log 32), and so is REQUEST_BAD_KIND for unknown KINDs alone (log 29). -/
def Obligations.PortsRefuseByTheirTests : Prop :=
  ∀ (dt : Nat) (s : State) (l : Link) (tag kind : Byte) (p : List Byte) (rest : List Frame) (c : Instr),
    servedBy dt l kind = some c ∨ (c = .driveReport dt ∧ kind = 0x02 ∧ l = .carriage) →
    let u := s.taken dt l rest
    let restricted :=
      (l = .carriage ∧ kind ∈ ([0x20, 0x21, 0x22, 0x36, 0x3F] : List Byte)) ∨
        (l = .tether ∧ kind ∈ ([0x23, 0x24] : List Byte))
    let fits : Prop :=
      (p.length = 0 ∧ kind ∈ ([0x10, 0x20, 0x22, 0x23, 0x24, 0x25, 0x28, 0x3C, 0x3F] : List Byte)) ∨
      (p.length = 1 ∧ kind ∈ ([0x2C, 0x38] : List Byte)) ∨
      (p.length = 2 ∧ kind ∈ ([0x19, 0x32, 0x33, 0x36, 0x3D] : List Byte)) ∨
      (p.length = 3 ∧ kind = 0x35) ∨
      (p.length = 4 ∧ kind ∈ ([0x11, 0x30, 0x31] : List Byte)) ∨
      (p.length = 5 ∧ kind ∈ ([0x02, 0x21] : List Byte)) ∨
      (kind = 0x18 ∧ ((byteAt p 2 = 0 ∧ p.length = 7) ∨ (byteAt p 2 = 2 ∧ p.length = 5) ∨
        (byteAt p 2 = 1 ∧ 4 ≤ p.length ∧ p.length = 4 + byteAt p 3))) ∨
      (kind = 0x34 ∧ 3 ≤ p.length ∧ p.length = 3 + byteAt p 2)
    (s.readyFor l ⟨tag, kind, p⟩ rest →
      (restricted → exec c s = .next (u.answered l ⟨tag, kind, p⟩ .notPermitted [])) ∧
      (¬restricted → ¬fits →
        exec c s = .next (u.answered l ⟨tag, kind, p⟩ .badForm []))) ∧
    (s.canServe l = false ∨ s.requests l = [] → exec c s = .next (s.elapse dt)) ∧
    ∀ bad : Byte,
      bad ∉ ([0x01, 0x02, 0x10, 0x11, 0x18, 0x19, 0x20, 0x21, 0x22, 0x23, 0x24, 0x25, 0x28, 0x2C, 0x30, 0x31, 0x32, 0x33,
        0x34, 0x35, 0x36, 0x38, 0x3C, 0x3D, 0x3F] : List Byte) →
      s.readyFor l ⟨tag, bad, p⟩ rest →
      exec (.requestBadKind dt l) s = .next (u.reply l ⟨tag, 0xFF, [9]⟩)

/-- A valid frame on a tether that is UP restarts the link-alive timer and is counted; a drive report is counted as
wrong-link; any other joins the request queue, or, with 4 waiting, is refused BUSY in the transmit queue, or, with 4
refusals there, dropped. A frame whose LEN is out of range or whose CRC is wrong, and a flag inside a frame, are counted
and discarded. On a LOST tether a valid frame makes it UP: the override is cleared, the attention is announced when it is
on, and a stream decision is taken before the request joins the queue (spec/10 sections 10.1 to 10.3). The bytes as
operands are the model's choice (log 7). -/
def Obligations.TetherFramesArrive : Prop :=
  ∀ (dt : Nat) (s : State) (f : Frame),
    f.payload.length ≤ 120 → s.tlp.framer = .hunt →
    let one (n : Nat) := min 65535 (n + 1)
    let k := s.tlp.counters
    let alive : Option Nat := some ((s.timeBase + dt) % 2 ^ 64 + s.set.nat .linkTimeout * 1000)
    let port (t : TetherPort) : Host.Outcome State Fault Refusal := .next { s.elapse dt with tlp := t }
    let good : TetherPort := { s.tlp with alive := alive, counters := { k with valid := one k.valid } }
    let arrives := exec (.tetherFrameArrival dt f.tetherBytes) s
    (s.tlp.up = true → f.kind = 0x02 →
      arrives = port { good with counters := { good.counters with wrongLink := one k.wrongLink } }) ∧
    (s.tlp.up = true → f.kind ≠ 0x01 → f.kind ≠ 0x02 → s.tlp.requests.length ≤ 3 →
      arrives = port { good with requests := s.tlp.requests ++ [f] }) ∧
    (s.tlp.up = true → f.kind ≠ 0x01 → f.kind ≠ 0x02 → 4 ≤ s.tlp.requests.length → s.tlp.refusals ≤ 3 →
      arrives = port { good with
        transmit := s.tlp.transmit ++ [.refusal ⟨f.tag, replyKind f.kind, [3]⟩]
        counters := { good.counters with busy := one k.busy } }) ∧
    (s.tlp.up = true → f.kind ≠ 0x01 → f.kind ≠ 0x02 → 4 ≤ s.tlp.requests.length → 4 ≤ s.tlp.refusals →
      arrives = port { good with counters := { good.counters with busy := one k.busy, dropped := one k.dropped } }) ∧
    (s.tlp.up = false → f.kind ≠ 0x01 → f.kind ≠ 0x02 → s.tlp.requests = [] → s.tlp.transmit = [] →
      let woken : State := { s.elapse dt with
        tlp := { good with up := true, transmit := if s.attention .tether = true then [.attention] else [] }
        ldr := { s.ldr with override := none } }
      let decided := woken.streamDecision
      arrives = .next { decided with tlp := { decided.tlp with requests := [f] } }) ∧
    (∀ n : Byte, (n.toNat < 2 ∨ 122 < n.toNat) → n ≠ 0x7E → n ≠ 0x7D →
      exec (.tetherFrameError dt [0x7E, n]) s
        = port { s.tlp with counters := { k with lengthErrors := one k.lengthErrors } }) ∧
    (exec (.tetherFrameError dt [0x7E, 0x7E]) s
      = port { s.tlp with framer := .collecting false [], counters := { k with broken := one k.broken } }) ∧
    (∀ x y : Byte, [x, y] ≠ crcBytes f.body →
      exec (.tetherFrameError dt (0x7E :: (f.body ++ [x, y]).flatMap escapeByte)) s
        = port { s.tlp with counters := { k with crcErrors := one k.crcErrors } })

/-- The tether is lost when the link-alive timer expires: its queues are dropped, the loss is counted, LOST_LINK_LEVEL
is forced as a MANUAL source; a surface operation that is ACTIVE, a HOME or a MOVE, is stopped with LINK_LOST, or with
LOST if it is LOST: an axis in travel decelerates to rest, one at rest loses its start pending, and with both at rest
the operation ends at once, its HEAD_DONE counted for the lost link. A park, an operation in phase STOPPING and the
message on the line go on. A message begins on a free line, an ATTENTION one with the counts as they then stand; at the
end of its last byte, ten bit times a byte, the line is free and the stream decides (spec/10 sections 10.2 and 10.3,
spec/04 section 4.6, spec/05 sections 5.5, 5.8 and 5.9, spec/09 section 9.3). An end before its ten bit times a byte
changes nothing: the model's choice (log 28). -/
def Obligations.LinkLossAndMessages : Prop :=
  ∀ (dt : Nat) (s : State),
    let now := (s.timeBase + dt) % 2 ^ 64
    let lost : State := { s.elapse dt with
      tlp := { s.tlp with
        up := false, alive := none, requests := [], transmit := []
        counters := { s.tlp.counters with losses := min 65535 (s.tlp.counters.losses + 1) } }
      ldr := { s.ldr with override := some (s.set.nat .lostLinkLevel) } }
    (∀ d : Nat, s.tlp.up = true → s.tlp.alive = some d → d ≤ now →
      lost.sourceInForce = .manual ∧ lost.manualInForce = s.set.nat .lostLinkLevel ∧
      (s.hdp.op = none ∨ (∃ o, s.hdp.op = some o ∧ (o.origin = .carriage ∨ o.stopping = true)) →
        exec (.linkAliveTimeout dt) s = .next lost) ∧
      (∀ o, s.hdp.op = some o → o.origin = .tether → o.stopping = false →
        let halted (ax : Axis) (a : AxisRecord) : AxisRecord :=
          { a.advance ax now with
            startPending := .clear, searchOwed := false, target := none, togo := 0
            state := if a.state = .unhomed ∨ a.state = .idle then a.state else .stopping }
        let outcome : HeadOutcome := if s.hdp.outcome = .lost then .lost else .linkLost
        let stopped : HeadPositioner :=
          { s.hdp with
            pan := halted .pan s.hdp.pan, tilt := halted .tilt s.hdp.tilt, op := some { o with stopping := true }
            outcome := outcome }
        (s.hdp.atRest = false → exec (.linkAliveTimeout dt) s = .next { lost with hdp := stopped }) ∧
        (s.hdp.atRest = true →
          ∃ t : State, exec (.linkAliveTimeout dt) s = .next t ∧
            t.hdp = { stopped with
              op := none, demand := false
              doneTether := some ⟨o.kind, outcome, s.hdp.pan.pos, s.hdp.tilt.pos, lost.surveyTime now⟩ } ∧
            t.fxc = { s.fxc with clearance := .unasked } ∧
            (∀ (l : Link) (n : Fin 16), (t.cnd.counts l)[n]
              = if l = .tether ∧ n = 11 then min 255 ((s.cnd.counts l)[n] + 1) else (s.cnd.counts l)[n]) ∧
            t = { lost with hdp := t.hdp, fxc := t.fxc, cnd := t.cnd }))) ∧
    (∀ m rest, s.tlp.line = none → s.tlp.transmit = m :: rest →
      let attention : Frame := ⟨0, 0xC1, s.cnd.tether.toList.flatMap u8 ++ u16 s.set.tetherMask.toNat
        ++ u8 (if s.attention .tether = true then 1 else 0)⟩
      let sent : Frame := match m with
        | .reply f => f
        | .refusal f => f
        | .attention => attention
      exec (.messageBegin dt) s
        = .next { s.elapse dt with
            tlp := { s.tlp with transmit := rest, line := some ⟨sent.tetherBytes, now, false⟩ } }) ∧
    (∀ m : LineMessage, s.tlp.line = some m →
      let rate := match s.tlp.baud.toNat with
        | 1 => 115200
        | 2 => 230400
        | _ => 57600
      (m.wire.length * 10 * 1000000 ≤ (now - m.begun) * rate →
        exec (.messageEnd dt) s
          = .next (State.streamDecision { s.elapse dt with
              tlp := { s.tlp with line := none }
              stu := { s.stu with inFlight := if m.isStamp = true then none else s.stu.inFlight } })) ∧
      ((now - m.begun) * rate < m.wire.length * 10 * 1000000 → exec (.messageEnd dt) s = .next (s.elapse dt)))

/-- A carriage transaction: CS falling opens it with the framer hunting and MISO fixed to the pending reply, clocked
from its flag on and followed by 0x00, or to 0x00 throughout; one that opens in reset is ignored to its end. While the
reply is clocked out or not, frames on MOSI are counted and queued, refused into the refusal list with 4 waiting, and
dropped with 4 refusals there; a stray byte, a LEN out of range and a wrong CRC are counted; the reply's last byte
empties the slot, which the oldest refusal fills; CS rising ends it, and a reply not clocked whole stays whole for a
resend (spec/10 sections 10.4 and 10.5). The bytes as operands are the model's choice (logs 7 and 30), and so are that a
refusal fills an empty slot at once (log 44), that one in the slot is not among the 4 (log 50), and that a transaction
begun in reset is ignored after the release too (log 35). -/
def Obligations.CarriageTransactions : Prop :=
  ∀ (dt : Nat) (s : State),
    let p := s.cgp
    let k := p.counters
    let one (n : Nat) := min 65535 (n + 1)
    let port (q : CarriagePort) : Host.Outcome State Fault Refusal := .next { s.elapse dt with cgp := q }
    let opened : CarriagePort := { p with
      transaction := .active p.slot.isSome, framer := .hunt, slot := p.slot.map fun r => { r with clocked := 0 } }
    let fits (n : Nat) : Prop :=
      ∀ r, p.transaction = .active true → p.slot = some r → r.clocked + n ≤ r.frame.payload.length + 6
    let clocked (n : Nat) : Option PendingReply :=
      if p.transaction = .active true then p.slot.map fun r => { r with clocked := r.clocked + n } else p.slot
    (p.transaction = .absent → p.heldInReset = false →
      exec (.csFalling dt) s = port opened ∧
      (∀ (r : PendingReply) (n : Nat), p.slot = some r →
        opened.miso (r.frame.payload.length + 6 + n)
          = 0x7E :: (r.frame.body ++ crcBytes r.frame.body) ++ List.replicate n 0) ∧
      (p.slot = none → ∀ n : Nat, opened.miso n = List.replicate n 0)) ∧
    (∀ (r : PendingReply) (n : Nat), p.transaction = .active true → p.slot = some r →
      r.clocked + n ≤ r.frame.payload.length + 6 → p.miso n = (r.frame.carriageBytes.drop r.clocked).take n) ∧
    (p.transaction ≠ .active true → ∀ n : Nat, p.miso n = List.replicate n 0) ∧
    (p.transaction = .absent → p.heldInReset = true →
      exec (.csFalling dt) s = port { p with transaction := .ignored }) ∧
    (∀ (f : Frame) (sending : Bool),
      f.payload.length ≤ 120 → p.transaction = .active sending → p.framer = .hunt → fits (f.payload.length + 6) →
      let q : CarriagePort := { p with slot := clocked (f.payload.length + 6) }
      let good : PortCounters := { k with valid := one k.valid }
      let arrives := exec (.carriageFrameArrival dt f.carriageBytes) s
      let refusal : Frame := ⟨f.tag, replyKind f.kind, [3]⟩
      (f.kind = 0x01 → arrives = port { q with counters := { good with wrongLink := one k.wrongLink } }) ∧
      (f.kind ≠ 0x01 → p.requests.length ≤ 3 → arrives = port { q with counters := good, requests := p.requests ++ [f] }) ∧
      (f.kind ≠ 0x01 → 4 ≤ p.requests.length → p.refusals.length ≤ 3 → p.slot.isSome = true →
        arrives = port { q with counters := { good with busy := one k.busy }, refusals := p.refusals ++ [refusal] }) ∧
      (f.kind ≠ 0x01 → 4 ≤ p.requests.length → p.refusals = [] → p.slot = none →
        arrives = port { q with counters := { good with busy := one k.busy }, slot := some ⟨refusal, 0⟩ }) ∧
      (f.kind ≠ 0x01 → 4 ≤ p.requests.length → 4 ≤ p.refusals.length →
        arrives = port { q with counters := { good with busy := one k.busy, dropped := one k.dropped } }) ∧
      (∀ x y : Byte, [x, y] ≠ crcBytes f.body →
        exec (.carriageFrameError dt (0x7E :: (f.body ++ [x, y]))) s
          = port { q with counters := { k with crcErrors := one k.crcErrors } })) ∧
    (∀ (n : Byte) (sending : Bool), (n.toNat < 2 ∨ 122 < n.toNat) → p.transaction = .active sending →
      p.framer = .hunt → fits 2 →
      exec (.carriageFrameError dt [0x7E, n]) s
        = port { p with slot := clocked 2, counters := { k with lengthErrors := one k.lengthErrors } }) ∧
    (∀ (b : Byte) (sending : Bool), b ≠ 0 → b ≠ 0x7E → p.transaction = .active sending → p.framer = .hunt → fits 1 →
      exec (.strayByte dt [b]) s
        = port { p with slot := clocked 1, counters := { k with stray := one k.stray } }) ∧
    (∀ (r : PendingReply) (n : Nat), p.transaction = .active true → p.slot = some r → p.framer = .hunt →
      r.clocked + n = r.frame.payload.length + 6 →
      (∀ next more, p.refusals = next :: more →
        exec (.replyDelivered dt (List.replicate n 0)) s
          = port { p with transaction := .active false, slot := some ⟨next, 0⟩, refusals := more }) ∧
      (p.refusals = [] →
        exec (.replyDelivered dt (List.replicate n 0)) s = port { p with transaction := .active false, slot := none })) ∧
    (p.transaction = .ignored → exec (.csRising dt []) s = port { p with transaction := .absent }) ∧
    (∀ sending : Bool, p.transaction = .active sending →
      (sending = true → ∃ r, p.slot = some r ∧ r.clocked < r.frame.payload.length + 6) →
      exec (.csRising dt []) s
        = port { p with
            transaction := .absent, framer := .hunt, slot := p.slot.map fun r => { r with clocked := 0 }
            counters := { k with
              partials := if p.framer = .hunt then k.partials else one k.partials
              resends := if sending = true then one k.resends else k.resends } })

/-- PORT-RESET rising empties the carriage port, the drive state, the carriage's counts, mask, lost count and
completion, frees the head's lock and leaves the carriage's cursor at the write point; REPLY-READY is then low and MISO
drives 0x00. PORT-RESET held already is no event, and the release lets the next transaction open. RESTART SURVEY starts
the survey again: datum, log, stamps, conditions and counters are cleared, S is 0 and V0 set for a zero residual if it
was set; the settings, the head, the links, the reel and the wheels stay (spec/10 section 10.4, spec/11 sections 11.3
and 11.4, the lifecycle tables). That a transaction open at the port reset is ignored to its end, before and after the
release, is the model's choice (log 35). -/
def Obligations.PortResetAndSurveyRestart : Prop :=
  (∀ (dt : Nat) (s : State),
    let writePoint := match s.stu.stamps.getLast? with
      | some st => st.frame + 1
      | none => s.fxc.counter
    let port : CarriagePort :=
      ⟨.hunt, if s.cgp.transaction = .absent then .absent else .ignored, [], none, [], true,
        ⟨0, 0, 0, 0, 0, 0, 0, 0, 0, 0, 0⟩⟩
    (port.replyReady = false ∧ ∀ n : Nat, port.miso n = List.replicate n 0) ∧
    (s.cgp.heldInReset = false →
      exec (.portReset dt) s
        = .next { s.elapse dt with
            cgp := port
            drv := ⟨false, .stopped, 0, none, none⟩
            ldr := { s.ldr with overDemand := false }
            hdp := { s.hdp with lock := false, doneCarriage := none }
            stu := { s.stu with cursorCarriage := writePoint, lostCarriage := 0 }
            cnd := { s.cnd with carriage := Vector.replicate 16 0 }
            set := { s.set with carriageMask := 0x7A35 } }) ∧
    (s.cgp.heldInReset = true →
      exec (.portReset dt) s = .next (s.elapse dt) ∧
      exec (.portResetRelease dt) s
        = .next { s.elapse dt with cgp := { s.cgp with heldInReset := false, framer := .hunt } })) ∧
  ∀ (dt : Nat) (s : State) (tag : Byte) (rest : List Frame), s.readyFor .tether ⟨tag, 0x3F, []⟩ rest →
    let u := s.taken dt .tether rest
    let discarded := u8 s.obl.records.length ++ u8 s.stu.stamps.length
      ++ flags [s.chr.pendingDatum.isSome, s.fxc.pendingStill.isSome]
      ++ u32 ((s.fxc.pendingStill.map fun p => p.frame.toNat).getD 0)
    exec (.restartSurvey dt .tether) s
      = .next ({ u with
          chr := { s.chr with
            slack := 0, v0 := s.chr.v0.map fun _ => s.chr.anchor.f - s.chr.cable
            datumTaken := false, pendingDatum := none, slipCount := 0 }
          rin := { s.rin with stats := ⟨0, 0, 0, 0, 0, 0, 0⟩ }
          fxc := { s.fxc with counter := 0, origin := u.timeBase, pendingStill := none }
          ltm := { s.ltm with counters := ⟨0, 0, 0, 0, 0⟩ }
          stu := { s.stu with
            stamps := [], cursorTether := 0, cursorCarriage := 0, lostTether := 0, lostCarriage := 0
            pendingMark := none }
          ovg := { s.ovg with flash := none }
          obl := ⟨[], 1, []⟩
          cnd := ⟨Vector.replicate 16 0, Vector.replicate 16 0⟩ }.answered .tether ⟨tag, 0x3F, []⟩ .done discarded)

/-! ## Headline results -/

/-- Frames survive the wire: for every frame whose payload fits, its bytes, escaped on the tether and plain on the
carriage port, bring a hunting receive framer back to hunting with exactly that frame as the event of the last byte; and
with any two other bytes in place of its CRC the event is a CRC error. The CRC is the CRC-16 of polynomial 0x1021 from
0xFFFF, most significant bit first, with no final XOR, over LEN, TAG, KIND and payload, and is sent high byte first. In
every field of a payload the high byte comes first, a signed one in two's complement with its absence as the most
negative value; a flag byte's bits count from the least significant one (spec/10 section 10.1, spec/12 section 12.1). -/
def Obligations.FramesSurviveTheWire : Prop :=
  (crc16 [] = 0xFFFF ∧
    ∀ (l : List Byte) (b : Byte), crc16 (l ++ [b])
      = (List.range 8).foldl (fun (r : BitVec 16) _ => if r.msb = true then (r <<< 1) ^^^ 0x1021 else r <<< 1)
          (crc16 l ^^^ (b.setWidth 16 <<< 8))) ∧
  ((∀ a : Byte, u8 a.toNat = [a]) ∧
    (∀ a b : Byte, u16 (a.toNat * 256 + b.toNat) = [a, b] ∧
      u16At [a, b] 0 = a.toNat * 256 + b.toNat) ∧
    (∀ a b c d : Byte, u32 (((a.toNat * 256 + b.toNat) * 256 + c.toNat) * 256 + d.toNat) = [a, b, c, d] ∧
      u32At [a, b, c, d] 0 = ((a.toNat * 256 + b.toNat) * 256 + c.toNat) * 256 + d.toNat) ∧
    (∀ v : Int, -32768 ≤ v → v ≤ 32767 →
      s16 v = u16 (if v < 0 then v + 65536 else v).toNat ∧ s16At (s16 v) 0 = v) ∧
    (∀ v : Int, -2147483648 ≤ v → v ≤ 2147483647 →
      s32 v = u32 (if v < 0 then v + 4294967296 else v).toNat ∧ s32At (s32 v) 0 = v) ∧
    (∀ v : Int, -32768 < v → v ≤ 32767 →
      s16opt (some v) = s16 v ∧ s16optAt (s16 v) 0 = some v ∧ s32opt (some v) = s32 v) ∧
    s16opt none = s16 (-32768) ∧ s16optAt (s16 (-32768)) 0 = none ∧ s32opt none = s32 (-2147483648) ∧
    ∀ bits : List Bool, bits.length ≤ 8 →
      ∃ b : Byte, flags bits = [b] ∧ ∀ n : Nat, n < 8 → b.getLsbD n = bits.getD n false) ∧
  ∀ f : Frame, f.payload.length ≤ 120 →
    let body : List Byte := BitVec.ofNat 8 (2 + f.payload.length) :: f.tag :: f.kind :: f.payload
    let sent := body ++ u16 (crc16 body).toNat
    f.body = body ∧ crcBytes body = u16 (crc16 body).toNat ∧ f.carriageBytes = 0x7E :: sent ∧
    f.tetherBytes
      = 0x7E :: sent.flatMap (fun b => if b = 0x7E ∨ b = 0x7D then [0x7D, b ^^^ 0x20] else [b]) ∧
    feedRun tetherFeed .hunt f.tetherBytes = some (.hunt, some (.valid f)) ∧
    feedRun carriageFeed .hunt f.carriageBytes = some (.hunt, some (.valid f)) ∧
    ∀ x y : Byte, [x, y] ≠ crcBytes f.body →
      feedRun tetherFeed .hunt (0x7E :: (f.body ++ [x, y]).flatMap escapeByte) = some (.hunt, some .crcError) ∧
      feedRun carriageFeed .hunt (0x7E :: (f.body ++ [x, y])) = some (.hunt, some .crcError)

/-- Every step keeps the stamp ring as spec/06 section 6.2 describes it: at most 128 stamps numbered without a gap up to
the frame before c, and each cursor within them or one past the newest. -/
def Obligations.EveryStepKeepsTheStampRing : Prop :=
  ∀ s t : State, RingOk s → step s = .next t → RingOk t

/-- Every step keeps the observation log as spec/08 section 8.1 describes it: the depth, ids that rise and are never
given twice, at most 4 OPEN records, an end exactly on the closed continuous ones, and a guard memory of live point
records with a chainage. -/
def Obligations.EveryStepKeepsTheLog : Prop :=
  ∀ s t : State, LogOk s.obl → step s = .next t → LogOk t.obl

/-- Every step keeps the head's rules (spec/05 sections 5.1, 5.2 and 5.6, spec/03 section 3.4): nothing moves without
clearance, the demand stands exactly while clearance is asked for or given, a HELD lock admits no surface operation,
homed positions stay in their ranges, and the speed limits stay within 1 and the maxima. -/
def Obligations.EveryStepKeepsTheHeadRules : Prop :=
  ∀ s t : State, HeadOk s → step s = .next t → HeadOk t

/-- Every step keeps the depths of the ports' queues, and a LOST tether holds nothing (spec/10 sections 10.2 to
10.5). -/
def Obligations.EveryStepKeepsThePorts : Prop :=
  ∀ s t : State, PortsOk s → step s = .next t → PortsOk t

/-- Every step keeps the settings in the ranges of their table, and with them the Reckoner within its bounds and every
set of the pipeline within the sensor's (spec/11 section 11.1, spec/02 section 2.3, spec/03 section 3.4, spec/04
section 4.4). -/
def Obligations.EveryStepKeepsTheBounds : Prop :=
  ∀ s t : State, SettingsOk s.set → ReckonerOk s.chr → PipelineOk s → step s = .next t →
    SettingsOk t.set ∧ ReckonerOk t.chr ∧ PipelineOk t
end

