-- ==== Sys2Proof/Laws/State.lean ====
section
/-! SUPPORT. One lemma a field for each shared update of the state, true by unfolding it once: the passing of time, the
queues and replies, the raising of conditions, the pieces of a boundary. -/

namespace Sys2Proof.Machine

/-! ## Time passes -/

@[simp] theorem State.elapse_pending (s : State) (dt : Nat) : (s.elapse dt).pending = s.pending := rfl
@[simp] theorem State.elapse_timeBase (s : State) (dt : Nat) :
    (s.elapse dt).timeBase = (s.timeBase + dt) % 2 ^ 64 := rfl
@[simp] theorem State.elapse_rin (s : State) (dt : Nat) : (s.elapse dt).rin = s.rin := rfl
@[simp] theorem State.elapse_wct (s : State) (dt : Nat) : (s.elapse dt).wct = s.wct := rfl
@[simp] theorem State.elapse_drv (s : State) (dt : Nat) : (s.elapse dt).drv = s.drv := rfl
@[simp] theorem State.elapse_chr (s : State) (dt : Nat) : (s.elapse dt).chr = s.chr := rfl
@[simp] theorem State.elapse_fxc (s : State) (dt : Nat) : (s.elapse dt).fxc = s.fxc := rfl
@[simp] theorem State.elapse_ssp (s : State) (dt : Nat) : (s.elapse dt).ssp = s.ssp := rfl
@[simp] theorem State.elapse_ist (s : State) (dt : Nat) : (s.elapse dt).ist = s.ist := rfl
@[simp] theorem State.elapse_ldr (s : State) (dt : Nat) : (s.elapse dt).ldr = s.ldr := rfl
@[simp] theorem State.elapse_ltm (s : State) (dt : Nat) : (s.elapse dt).ltm = s.ltm := rfl
@[simp] theorem State.elapse_hdp (s : State) (dt : Nat) : (s.elapse dt).hdp = s.hdp := rfl
@[simp] theorem State.elapse_stu (s : State) (dt : Nat) : (s.elapse dt).stu = s.stu := rfl
@[simp] theorem State.elapse_ovg (s : State) (dt : Nat) : (s.elapse dt).ovg = s.ovg := rfl
@[simp] theorem State.elapse_obl (s : State) (dt : Nat) : (s.elapse dt).obl = s.obl := rfl
@[simp] theorem State.elapse_cnd (s : State) (dt : Nat) : (s.elapse dt).cnd = s.cnd := rfl
@[simp] theorem State.elapse_tlp (s : State) (dt : Nat) : (s.elapse dt).tlp = s.tlp := rfl
@[simp] theorem State.elapse_cgp (s : State) (dt : Nat) : (s.elapse dt).cgp = s.cgp := rfl
@[simp] theorem State.elapse_set (s : State) (dt : Nat) : (s.elapse dt).set = s.set := rfl

/-! ## Request queues and replies -/

@[simp] theorem State.putRequests_pending (s : State) (l : Link) (q : List Frame) :
    (s.putRequests l q).pending = s.pending := by cases l <;> rfl
@[simp] theorem State.reply_pending (s : State) (l : Link) (g : Frame) : (s.reply l g).pending = s.pending := by cases l <;> rfl
@[simp] theorem State.putRequests_timeBase (s : State) (l : Link) (q : List Frame) :
    (s.putRequests l q).timeBase = s.timeBase := by cases l <;> rfl
@[simp] theorem State.reply_timeBase (s : State) (l : Link) (g : Frame) : (s.reply l g).timeBase = s.timeBase := by cases l <;> rfl
@[simp] theorem State.putRequests_rin (s : State) (l : Link) (q : List Frame) :
    (s.putRequests l q).rin = s.rin := by cases l <;> rfl
@[simp] theorem State.reply_rin (s : State) (l : Link) (g : Frame) : (s.reply l g).rin = s.rin := by cases l <;> rfl
@[simp] theorem State.putRequests_wct (s : State) (l : Link) (q : List Frame) :
    (s.putRequests l q).wct = s.wct := by cases l <;> rfl
@[simp] theorem State.reply_wct (s : State) (l : Link) (g : Frame) : (s.reply l g).wct = s.wct := by cases l <;> rfl
@[simp] theorem State.putRequests_drv (s : State) (l : Link) (q : List Frame) :
    (s.putRequests l q).drv = s.drv := by cases l <;> rfl
@[simp] theorem State.reply_drv (s : State) (l : Link) (g : Frame) : (s.reply l g).drv = s.drv := by cases l <;> rfl
@[simp] theorem State.putRequests_chr (s : State) (l : Link) (q : List Frame) :
    (s.putRequests l q).chr = s.chr := by cases l <;> rfl
@[simp] theorem State.reply_chr (s : State) (l : Link) (g : Frame) : (s.reply l g).chr = s.chr := by cases l <;> rfl
@[simp] theorem State.putRequests_fxc (s : State) (l : Link) (q : List Frame) :
    (s.putRequests l q).fxc = s.fxc := by cases l <;> rfl
@[simp] theorem State.reply_fxc (s : State) (l : Link) (g : Frame) : (s.reply l g).fxc = s.fxc := by cases l <;> rfl
@[simp] theorem State.putRequests_ssp (s : State) (l : Link) (q : List Frame) :
    (s.putRequests l q).ssp = s.ssp := by cases l <;> rfl
@[simp] theorem State.reply_ssp (s : State) (l : Link) (g : Frame) : (s.reply l g).ssp = s.ssp := by cases l <;> rfl
@[simp] theorem State.putRequests_ist (s : State) (l : Link) (q : List Frame) :
    (s.putRequests l q).ist = s.ist := by cases l <;> rfl
@[simp] theorem State.reply_ist (s : State) (l : Link) (g : Frame) : (s.reply l g).ist = s.ist := by cases l <;> rfl
@[simp] theorem State.putRequests_ldr (s : State) (l : Link) (q : List Frame) :
    (s.putRequests l q).ldr = s.ldr := by cases l <;> rfl
@[simp] theorem State.reply_ldr (s : State) (l : Link) (g : Frame) : (s.reply l g).ldr = s.ldr := by cases l <;> rfl
@[simp] theorem State.putRequests_ltm (s : State) (l : Link) (q : List Frame) :
    (s.putRequests l q).ltm = s.ltm := by cases l <;> rfl
@[simp] theorem State.reply_ltm (s : State) (l : Link) (g : Frame) : (s.reply l g).ltm = s.ltm := by cases l <;> rfl
@[simp] theorem State.putRequests_hdp (s : State) (l : Link) (q : List Frame) :
    (s.putRequests l q).hdp = s.hdp := by cases l <;> rfl
@[simp] theorem State.reply_hdp (s : State) (l : Link) (g : Frame) : (s.reply l g).hdp = s.hdp := by cases l <;> rfl
@[simp] theorem State.putRequests_stu (s : State) (l : Link) (q : List Frame) :
    (s.putRequests l q).stu = s.stu := by cases l <;> rfl
@[simp] theorem State.reply_stu (s : State) (l : Link) (g : Frame) : (s.reply l g).stu = s.stu := by cases l <;> rfl
@[simp] theorem State.putRequests_ovg (s : State) (l : Link) (q : List Frame) :
    (s.putRequests l q).ovg = s.ovg := by cases l <;> rfl
@[simp] theorem State.reply_ovg (s : State) (l : Link) (g : Frame) : (s.reply l g).ovg = s.ovg := by cases l <;> rfl
@[simp] theorem State.putRequests_obl (s : State) (l : Link) (q : List Frame) :
    (s.putRequests l q).obl = s.obl := by cases l <;> rfl
@[simp] theorem State.reply_obl (s : State) (l : Link) (g : Frame) : (s.reply l g).obl = s.obl := by cases l <;> rfl
@[simp] theorem State.putRequests_cnd (s : State) (l : Link) (q : List Frame) :
    (s.putRequests l q).cnd = s.cnd := by cases l <;> rfl
@[simp] theorem State.reply_cnd (s : State) (l : Link) (g : Frame) : (s.reply l g).cnd = s.cnd := by cases l <;> rfl
@[simp] theorem State.putRequests_set (s : State) (l : Link) (q : List Frame) :
    (s.putRequests l q).set = s.set := by cases l <;> rfl
@[simp] theorem State.reply_set (s : State) (l : Link) (g : Frame) : (s.reply l g).set = s.set := by cases l <;> rfl
@[simp] theorem State.putRequests_requests (s : State) (l : Link) (q : List Frame) :
    (s.putRequests l q).requests l = q := by cases l <;> rfl
@[simp] theorem State.reply_requests (s : State) (l k : Link) (g : Frame) :
    (s.reply l g).requests k = s.requests k := by cases l <;> cases k <;> rfl

/-! ## Raising conditions -/

/-- What counting for a link can change: that link's counts, and the transmit queue by an ATTENTION message. -/
theorem State.countFor_changes (c : Condition) (s : State) (l : Link) :
    ∃ cnd tx, s.countFor c l = { s with cnd := cnd, tlp := { s.tlp with transmit := tx } } := by
  unfold State.countFor State.afterAttention State.placeAttention
  dsimp only
  split
  · split
    · exact ⟨_, _, rfl⟩
    · exact ⟨_, _, rfl⟩
  · exact ⟨_, _, rfl⟩

/-- What a raising can change: the counts, and the transmit queue by ATTENTION messages. -/
theorem State.raiseFor_changes (s : State) (c : Condition) (named : Link) :
    ∃ cnd tx, s.raiseFor c named = { s with cnd := cnd, tlp := { s.tlp with transmit := tx } } := by
  unfold State.raiseFor
  generalize c.audience named = ls
  induction ls generalizing s with
  | nil => exact ⟨s.cnd, s.tlp.transmit, rfl⟩
  | cons l ls ih =>
    obtain ⟨cnd, tx, h⟩ := State.countFor_changes c s l
    obtain ⟨cnd', tx', h'⟩ := ih (s.countFor c l)
    refine ⟨cnd', tx', ?_⟩
    rw [List.foldl_cons, h', h]

/-- What raising conditions in order can change. -/
theorem State.raiseAll_changes (s : State) (cs : List Condition) :
    ∃ cnd tx, s.raiseAll cs = { s with cnd := cnd, tlp := { s.tlp with transmit := tx } } := by
  unfold State.raiseAll
  induction cs generalizing s with
  | nil => exact ⟨s.cnd, s.tlp.transmit, rfl⟩
  | cons c cs ih =>
    obtain ⟨cnd, tx, h⟩ := State.raiseFor_changes s c .tether
    obtain ⟨cnd', tx', h'⟩ := ih (s.raise c)
    refine ⟨cnd', tx', ?_⟩
    rw [List.foldl_cons, h', State.raise, h]

@[simp] theorem State.raiseFor_pending (s : State) (c : Condition) (n : Link) : (s.raiseFor c n).pending = s.pending := by
  obtain ⟨_, _, h⟩ := s.raiseFor_changes c n; rw [h]
@[simp] theorem State.raise_pending (s : State) (c : Condition) : (s.raise c).pending = s.pending := s.raiseFor_pending c _
@[simp] theorem State.raiseAll_pending (s : State) (cs : List Condition) : (s.raiseAll cs).pending = s.pending := by
  obtain ⟨_, _, h⟩ := s.raiseAll_changes cs; rw [h]
@[simp] theorem State.raiseFor_timeBase (s : State) (c : Condition) (n : Link) : (s.raiseFor c n).timeBase = s.timeBase := by
  obtain ⟨_, _, h⟩ := s.raiseFor_changes c n; rw [h]
@[simp] theorem State.raise_timeBase (s : State) (c : Condition) : (s.raise c).timeBase = s.timeBase := s.raiseFor_timeBase c _
@[simp] theorem State.raiseAll_timeBase (s : State) (cs : List Condition) : (s.raiseAll cs).timeBase = s.timeBase := by
  obtain ⟨_, _, h⟩ := s.raiseAll_changes cs; rw [h]
@[simp] theorem State.raiseFor_rin (s : State) (c : Condition) (n : Link) : (s.raiseFor c n).rin = s.rin := by
  obtain ⟨_, _, h⟩ := s.raiseFor_changes c n; rw [h]
@[simp] theorem State.raise_rin (s : State) (c : Condition) : (s.raise c).rin = s.rin := s.raiseFor_rin c _
@[simp] theorem State.raiseAll_rin (s : State) (cs : List Condition) : (s.raiseAll cs).rin = s.rin := by
  obtain ⟨_, _, h⟩ := s.raiseAll_changes cs; rw [h]
@[simp] theorem State.raiseFor_wct (s : State) (c : Condition) (n : Link) : (s.raiseFor c n).wct = s.wct := by
  obtain ⟨_, _, h⟩ := s.raiseFor_changes c n; rw [h]
@[simp] theorem State.raise_wct (s : State) (c : Condition) : (s.raise c).wct = s.wct := s.raiseFor_wct c _
@[simp] theorem State.raiseAll_wct (s : State) (cs : List Condition) : (s.raiseAll cs).wct = s.wct := by
  obtain ⟨_, _, h⟩ := s.raiseAll_changes cs; rw [h]
@[simp] theorem State.raiseFor_drv (s : State) (c : Condition) (n : Link) : (s.raiseFor c n).drv = s.drv := by
  obtain ⟨_, _, h⟩ := s.raiseFor_changes c n; rw [h]
@[simp] theorem State.raise_drv (s : State) (c : Condition) : (s.raise c).drv = s.drv := s.raiseFor_drv c _
@[simp] theorem State.raiseAll_drv (s : State) (cs : List Condition) : (s.raiseAll cs).drv = s.drv := by
  obtain ⟨_, _, h⟩ := s.raiseAll_changes cs; rw [h]
@[simp] theorem State.raiseFor_chr (s : State) (c : Condition) (n : Link) : (s.raiseFor c n).chr = s.chr := by
  obtain ⟨_, _, h⟩ := s.raiseFor_changes c n; rw [h]
@[simp] theorem State.raise_chr (s : State) (c : Condition) : (s.raise c).chr = s.chr := s.raiseFor_chr c _
@[simp] theorem State.raiseAll_chr (s : State) (cs : List Condition) : (s.raiseAll cs).chr = s.chr := by
  obtain ⟨_, _, h⟩ := s.raiseAll_changes cs; rw [h]
@[simp] theorem State.raiseFor_fxc (s : State) (c : Condition) (n : Link) : (s.raiseFor c n).fxc = s.fxc := by
  obtain ⟨_, _, h⟩ := s.raiseFor_changes c n; rw [h]
@[simp] theorem State.raise_fxc (s : State) (c : Condition) : (s.raise c).fxc = s.fxc := s.raiseFor_fxc c _
@[simp] theorem State.raiseAll_fxc (s : State) (cs : List Condition) : (s.raiseAll cs).fxc = s.fxc := by
  obtain ⟨_, _, h⟩ := s.raiseAll_changes cs; rw [h]
@[simp] theorem State.raiseFor_ssp (s : State) (c : Condition) (n : Link) : (s.raiseFor c n).ssp = s.ssp := by
  obtain ⟨_, _, h⟩ := s.raiseFor_changes c n; rw [h]
@[simp] theorem State.raise_ssp (s : State) (c : Condition) : (s.raise c).ssp = s.ssp := s.raiseFor_ssp c _
@[simp] theorem State.raiseAll_ssp (s : State) (cs : List Condition) : (s.raiseAll cs).ssp = s.ssp := by
  obtain ⟨_, _, h⟩ := s.raiseAll_changes cs; rw [h]
@[simp] theorem State.raiseFor_ist (s : State) (c : Condition) (n : Link) : (s.raiseFor c n).ist = s.ist := by
  obtain ⟨_, _, h⟩ := s.raiseFor_changes c n; rw [h]
@[simp] theorem State.raise_ist (s : State) (c : Condition) : (s.raise c).ist = s.ist := s.raiseFor_ist c _
@[simp] theorem State.raiseAll_ist (s : State) (cs : List Condition) : (s.raiseAll cs).ist = s.ist := by
  obtain ⟨_, _, h⟩ := s.raiseAll_changes cs; rw [h]
@[simp] theorem State.raiseFor_ldr (s : State) (c : Condition) (n : Link) : (s.raiseFor c n).ldr = s.ldr := by
  obtain ⟨_, _, h⟩ := s.raiseFor_changes c n; rw [h]
@[simp] theorem State.raise_ldr (s : State) (c : Condition) : (s.raise c).ldr = s.ldr := s.raiseFor_ldr c _
@[simp] theorem State.raiseAll_ldr (s : State) (cs : List Condition) : (s.raiseAll cs).ldr = s.ldr := by
  obtain ⟨_, _, h⟩ := s.raiseAll_changes cs; rw [h]
@[simp] theorem State.raiseFor_ltm (s : State) (c : Condition) (n : Link) : (s.raiseFor c n).ltm = s.ltm := by
  obtain ⟨_, _, h⟩ := s.raiseFor_changes c n; rw [h]
@[simp] theorem State.raise_ltm (s : State) (c : Condition) : (s.raise c).ltm = s.ltm := s.raiseFor_ltm c _
@[simp] theorem State.raiseAll_ltm (s : State) (cs : List Condition) : (s.raiseAll cs).ltm = s.ltm := by
  obtain ⟨_, _, h⟩ := s.raiseAll_changes cs; rw [h]
@[simp] theorem State.raiseFor_hdp (s : State) (c : Condition) (n : Link) : (s.raiseFor c n).hdp = s.hdp := by
  obtain ⟨_, _, h⟩ := s.raiseFor_changes c n; rw [h]
@[simp] theorem State.raise_hdp (s : State) (c : Condition) : (s.raise c).hdp = s.hdp := s.raiseFor_hdp c _
@[simp] theorem State.raiseAll_hdp (s : State) (cs : List Condition) : (s.raiseAll cs).hdp = s.hdp := by
  obtain ⟨_, _, h⟩ := s.raiseAll_changes cs; rw [h]
@[simp] theorem State.raiseFor_stu (s : State) (c : Condition) (n : Link) : (s.raiseFor c n).stu = s.stu := by
  obtain ⟨_, _, h⟩ := s.raiseFor_changes c n; rw [h]
@[simp] theorem State.raise_stu (s : State) (c : Condition) : (s.raise c).stu = s.stu := s.raiseFor_stu c _
@[simp] theorem State.raiseAll_stu (s : State) (cs : List Condition) : (s.raiseAll cs).stu = s.stu := by
  obtain ⟨_, _, h⟩ := s.raiseAll_changes cs; rw [h]
@[simp] theorem State.raiseFor_ovg (s : State) (c : Condition) (n : Link) : (s.raiseFor c n).ovg = s.ovg := by
  obtain ⟨_, _, h⟩ := s.raiseFor_changes c n; rw [h]
@[simp] theorem State.raise_ovg (s : State) (c : Condition) : (s.raise c).ovg = s.ovg := s.raiseFor_ovg c _
@[simp] theorem State.raiseAll_ovg (s : State) (cs : List Condition) : (s.raiseAll cs).ovg = s.ovg := by
  obtain ⟨_, _, h⟩ := s.raiseAll_changes cs; rw [h]
@[simp] theorem State.raiseFor_obl (s : State) (c : Condition) (n : Link) : (s.raiseFor c n).obl = s.obl := by
  obtain ⟨_, _, h⟩ := s.raiseFor_changes c n; rw [h]
@[simp] theorem State.raise_obl (s : State) (c : Condition) : (s.raise c).obl = s.obl := s.raiseFor_obl c _
@[simp] theorem State.raiseAll_obl (s : State) (cs : List Condition) : (s.raiseAll cs).obl = s.obl := by
  obtain ⟨_, _, h⟩ := s.raiseAll_changes cs; rw [h]
@[simp] theorem State.raiseFor_cgp (s : State) (c : Condition) (n : Link) : (s.raiseFor c n).cgp = s.cgp := by
  obtain ⟨_, _, h⟩ := s.raiseFor_changes c n; rw [h]
@[simp] theorem State.raise_cgp (s : State) (c : Condition) : (s.raise c).cgp = s.cgp := s.raiseFor_cgp c _
@[simp] theorem State.raiseAll_cgp (s : State) (cs : List Condition) : (s.raiseAll cs).cgp = s.cgp := by
  obtain ⟨_, _, h⟩ := s.raiseAll_changes cs; rw [h]
@[simp] theorem State.raiseFor_set (s : State) (c : Condition) (n : Link) : (s.raiseFor c n).set = s.set := by
  obtain ⟨_, _, h⟩ := s.raiseFor_changes c n; rw [h]
@[simp] theorem State.raise_set (s : State) (c : Condition) : (s.raise c).set = s.set := s.raiseFor_set c _
@[simp] theorem State.raiseAll_set (s : State) (cs : List Condition) : (s.raiseAll cs).set = s.set := by
  obtain ⟨_, _, h⟩ := s.raiseAll_changes cs; rw [h]
@[simp] theorem State.raiseFor_tlp_framer (s : State) (c : Condition) (n : Link) :
    (s.raiseFor c n).tlp.framer = s.tlp.framer := by
  obtain ⟨_, _, h⟩ := s.raiseFor_changes c n; rw [h]
@[simp] theorem State.raise_tlp_framer (s : State) (c : Condition) : (s.raise c).tlp.framer = s.tlp.framer :=
  s.raiseFor_tlp_framer c _
@[simp] theorem State.raiseAll_tlp_framer (s : State) (cs : List Condition) :
    (s.raiseAll cs).tlp.framer = s.tlp.framer := by
  obtain ⟨_, _, h⟩ := s.raiseAll_changes cs; rw [h]
@[simp] theorem State.raiseFor_tlp_up (s : State) (c : Condition) (n : Link) :
    (s.raiseFor c n).tlp.up = s.tlp.up := by
  obtain ⟨_, _, h⟩ := s.raiseFor_changes c n; rw [h]
@[simp] theorem State.raise_tlp_up (s : State) (c : Condition) : (s.raise c).tlp.up = s.tlp.up :=
  s.raiseFor_tlp_up c _
@[simp] theorem State.raiseAll_tlp_up (s : State) (cs : List Condition) :
    (s.raiseAll cs).tlp.up = s.tlp.up := by
  obtain ⟨_, _, h⟩ := s.raiseAll_changes cs; rw [h]
@[simp] theorem State.raiseFor_tlp_alive (s : State) (c : Condition) (n : Link) :
    (s.raiseFor c n).tlp.alive = s.tlp.alive := by
  obtain ⟨_, _, h⟩ := s.raiseFor_changes c n; rw [h]
@[simp] theorem State.raise_tlp_alive (s : State) (c : Condition) : (s.raise c).tlp.alive = s.tlp.alive :=
  s.raiseFor_tlp_alive c _
@[simp] theorem State.raiseAll_tlp_alive (s : State) (cs : List Condition) :
    (s.raiseAll cs).tlp.alive = s.tlp.alive := by
  obtain ⟨_, _, h⟩ := s.raiseAll_changes cs; rw [h]
@[simp] theorem State.raiseFor_tlp_requests (s : State) (c : Condition) (n : Link) :
    (s.raiseFor c n).tlp.requests = s.tlp.requests := by
  obtain ⟨_, _, h⟩ := s.raiseFor_changes c n; rw [h]
@[simp] theorem State.raise_tlp_requests (s : State) (c : Condition) : (s.raise c).tlp.requests = s.tlp.requests :=
  s.raiseFor_tlp_requests c _
@[simp] theorem State.raiseAll_tlp_requests (s : State) (cs : List Condition) :
    (s.raiseAll cs).tlp.requests = s.tlp.requests := by
  obtain ⟨_, _, h⟩ := s.raiseAll_changes cs; rw [h]
@[simp] theorem State.raiseFor_tlp_line (s : State) (c : Condition) (n : Link) :
    (s.raiseFor c n).tlp.line = s.tlp.line := by
  obtain ⟨_, _, h⟩ := s.raiseFor_changes c n; rw [h]
@[simp] theorem State.raise_tlp_line (s : State) (c : Condition) : (s.raise c).tlp.line = s.tlp.line :=
  s.raiseFor_tlp_line c _
@[simp] theorem State.raiseAll_tlp_line (s : State) (cs : List Condition) :
    (s.raiseAll cs).tlp.line = s.tlp.line := by
  obtain ⟨_, _, h⟩ := s.raiseAll_changes cs; rw [h]
@[simp] theorem State.raiseFor_tlp_baud (s : State) (c : Condition) (n : Link) :
    (s.raiseFor c n).tlp.baud = s.tlp.baud := by
  obtain ⟨_, _, h⟩ := s.raiseFor_changes c n; rw [h]
@[simp] theorem State.raise_tlp_baud (s : State) (c : Condition) : (s.raise c).tlp.baud = s.tlp.baud :=
  s.raiseFor_tlp_baud c _
@[simp] theorem State.raiseAll_tlp_baud (s : State) (cs : List Condition) :
    (s.raiseAll cs).tlp.baud = s.tlp.baud := by
  obtain ⟨_, _, h⟩ := s.raiseAll_changes cs; rw [h]
@[simp] theorem State.raiseFor_tlp_counters (s : State) (c : Condition) (n : Link) :
    (s.raiseFor c n).tlp.counters = s.tlp.counters := by
  obtain ⟨_, _, h⟩ := s.raiseFor_changes c n; rw [h]
@[simp] theorem State.raise_tlp_counters (s : State) (c : Condition) : (s.raise c).tlp.counters = s.tlp.counters :=
  s.raiseFor_tlp_counters c _
@[simp] theorem State.raiseAll_tlp_counters (s : State) (cs : List Condition) :
    (s.raiseAll cs).tlp.counters = s.tlp.counters := by
  obtain ⟨_, _, h⟩ := s.raiseAll_changes cs; rw [h]

/-! ## The profile of an axis (spec/05 R101) -/

/-- Following a leg moves the profile alone: its distance, speed and clock. -/
theorem AxisRecord.follow_changes (ax : Axis) (now : Nat) (a : AxisRecord) :
    ∃ len v time, a.follow ax now = a.reach len v time := by
  unfold AxisRecord.follow
  dsimp only
  split
  · exact ⟨_, _, _, rfl⟩
  all_goals split <;> exact ⟨_, _, _, rfl⟩

/-- Following the profile changes its distance, speed, clock and direction, and nothing else of the axis. -/
theorem AxisRecord.advance_changes (ax : Axis) (now : Nat) (a : AxisRecord) :
    ∃ part v clock up,
      a.advance ax now = { a with part := part, speedSq := v, clock := clock, up := up } := by
  have turned (b : AxisRecord) : ∃ part up, b.turn = { b with part := part, up := up } := by
    unfold AxisRecord.turn
    split <;> exact ⟨_, _, rfl⟩
  have legs (n : Nat) : ∀ b : AxisRecord, ∃ part v clock up,
      b.advanceLegs ax now n = { b with part := part, speedSq := v, clock := clock, up := up } := by
    induction n with
    | zero => exact fun b => ⟨_, _, _, _, rfl⟩
    | succ n ih =>
      intro b
      unfold AxisRecord.advanceLegs
      split
      · exact ⟨_, _, _, _, rfl⟩
      · obtain ⟨part, up, ht⟩ := turned b
        obtain ⟨len, v, time, hf⟩ := b.turn.follow_changes ax now
        obtain ⟨p, w, c, u, h⟩ := ih (b.turn.follow ax now)
        exact ⟨p, w, c, u, by rw [h, hf, ht]; rfl⟩
  unfold AxisRecord.advance
  split
  · exact ⟨_, _, _, _, rfl⟩
  · exact legs 8 a

/-- An axis at rest stays as it is. -/
@[simp] theorem AxisRecord.advance_atRest {ax : Axis} {now : Nat} {a : AxisRecord} (h : a.atRest = true) :
    a.advance ax now = a := by
  simp [AxisRecord.advance, h]

@[simp] theorem AxisRecord.advance_state (ax : Axis) (now : Nat) (a : AxisRecord) :
    (a.advance ax now).state = a.state := by
  obtain ⟨_, _, _, _, h⟩ := a.advance_changes ax now; rw [h]
@[simp] theorem AxisRecord.advance_pos (ax : Axis) (now : Nat) (a : AxisRecord) :
    (a.advance ax now).pos = a.pos := by
  obtain ⟨_, _, _, _, h⟩ := a.advance_changes ax now; rw [h]
@[simp] theorem AxisRecord.advance_target (ax : Axis) (now : Nat) (a : AxisRecord) :
    (a.advance ax now).target = a.target := by
  obtain ⟨_, _, _, _, h⟩ := a.advance_changes ax now; rw [h]
@[simp] theorem AxisRecord.advance_togo (ax : Axis) (now : Nat) (a : AxisRecord) :
    (a.advance ax now).togo = a.togo := by
  obtain ⟨_, _, _, _, h⟩ := a.advance_changes ax now; rw [h]
@[simp] theorem AxisRecord.advance_limit (ax : Axis) (now : Nat) (a : AxisRecord) :
    (a.advance ax now).limit = a.limit := by
  obtain ⟨_, _, _, _, h⟩ := a.advance_changes ax now; rw [h]
@[simp] theorem AxisRecord.advance_homingTravel (ax : Axis) (now : Nat) (a : AxisRecord) :
    (a.advance ax now).homingTravel = a.homingTravel := by
  obtain ⟨_, _, _, _, h⟩ := a.advance_changes ax now; rw [h]
@[simp] theorem AxisRecord.advance_startPending (ax : Axis) (now : Nat) (a : AxisRecord) :
    (a.advance ax now).startPending = a.startPending := by
  obtain ⟨_, _, _, _, h⟩ := a.advance_changes ax now; rw [h]
@[simp] theorem AxisRecord.advance_searchOwed (ax : Axis) (now : Nat) (a : AxisRecord) :
    (a.advance ax now).searchOwed = a.searchOwed := by
  obtain ⟨_, _, _, _, h⟩ := a.advance_changes ax now; rw [h]
@[simp] theorem AxisRecord.advance_lossCause (ax : Axis) (now : Nat) (a : AxisRecord) :
    (a.advance ax now).lossCause = a.lossCause := by
  obtain ⟨_, _, _, _, h⟩ := a.advance_changes ax now; rw [h]
@[simp] theorem AxisRecord.advance_corrections (ax : Axis) (now : Nat) (a : AxisRecord) :
    (a.advance ax now).corrections = a.corrections := by
  obtain ⟨_, _, _, _, h⟩ := a.advance_changes ax now; rw [h]
@[simp] theorem AxisRecord.advance_lastStep (ax : Axis) (now : Nat) (a : AxisRecord) :
    (a.advance ax now).lastStep = a.lastStep := by
  obtain ⟨_, _, _, _, h⟩ := a.advance_changes ax now; rw [h]
@[simp] theorem AxisRecord.advance_isAtRest (ax : Axis) (now : Nat) (a : AxisRecord) :
    (a.advance ax now).atRest = a.atRest := by
  simp [AxisRecord.atRest]

@[simp] theorem HeadPositioner.advance_pan (h : HeadPositioner) (now : Nat) :
    (h.advance now).pan = h.pan.advance .pan now := rfl
@[simp] theorem HeadPositioner.advance_tilt (h : HeadPositioner) (now : Nat) :
    (h.advance now).tilt = h.tilt.advance .tilt now := rfl
@[simp] theorem HeadPositioner.advance_tiltIndex (h : HeadPositioner) (now : Nat) :
    (h.advance now).tiltIndex = h.tiltIndex := rfl
@[simp] theorem HeadPositioner.advance_lock (h : HeadPositioner) (now : Nat) :
    (h.advance now).lock = h.lock := rfl
@[simp] theorem HeadPositioner.advance_op (h : HeadPositioner) (now : Nat) :
    (h.advance now).op = h.op := rfl
@[simp] theorem HeadPositioner.advance_outcome (h : HeadPositioner) (now : Nat) :
    (h.advance now).outcome = h.outcome := rfl
@[simp] theorem HeadPositioner.advance_demand (h : HeadPositioner) (now : Nat) :
    (h.advance now).demand = h.demand := rfl
@[simp] theorem HeadPositioner.advance_restTime (h : HeadPositioner) (now : Nat) :
    (h.advance now).restTime = h.restTime := rfl
@[simp] theorem HeadPositioner.advance_doneTether (h : HeadPositioner) (now : Nat) :
    (h.advance now).doneTether = h.doneTether := rfl
@[simp] theorem HeadPositioner.advance_doneCarriage (h : HeadPositioner) (now : Nat) :
    (h.advance now).doneCarriage = h.doneCarriage := rfl
@[simp] theorem HeadPositioner.advance_history (h : HeadPositioner) (now : Nat) :
    (h.advance now).history = h.history := rfl
@[simp] theorem HeadPositioner.advance_atRest (h : HeadPositioner) (now : Nat) :
    (h.advance now).atRest = h.atRest := by
  simp [HeadPositioner.atRest]
@[simp] theorem HeadPositioner.advance_anyPending (h : HeadPositioner) (now : Nat) :
    (h.advance now).anyPending = h.anyPending := by
  simp [HeadPositioner.anyPending]

@[simp] theorem State.advanceHead_pending (s : State) : s.advanceHead.pending = s.pending := rfl
@[simp] theorem State.advanceHead_timeBase (s : State) : s.advanceHead.timeBase = s.timeBase := rfl
@[simp] theorem State.advanceHead_rin (s : State) : s.advanceHead.rin = s.rin := rfl
@[simp] theorem State.advanceHead_wct (s : State) : s.advanceHead.wct = s.wct := rfl
@[simp] theorem State.advanceHead_drv (s : State) : s.advanceHead.drv = s.drv := rfl
@[simp] theorem State.advanceHead_chr (s : State) : s.advanceHead.chr = s.chr := rfl
@[simp] theorem State.advanceHead_fxc (s : State) : s.advanceHead.fxc = s.fxc := rfl
@[simp] theorem State.advanceHead_ssp (s : State) : s.advanceHead.ssp = s.ssp := rfl
@[simp] theorem State.advanceHead_ist (s : State) : s.advanceHead.ist = s.ist := rfl
@[simp] theorem State.advanceHead_ldr (s : State) : s.advanceHead.ldr = s.ldr := rfl
@[simp] theorem State.advanceHead_ltm (s : State) : s.advanceHead.ltm = s.ltm := rfl
@[simp] theorem State.advanceHead_stu (s : State) : s.advanceHead.stu = s.stu := rfl
@[simp] theorem State.advanceHead_ovg (s : State) : s.advanceHead.ovg = s.ovg := rfl
@[simp] theorem State.advanceHead_obl (s : State) : s.advanceHead.obl = s.obl := rfl
@[simp] theorem State.advanceHead_cnd (s : State) : s.advanceHead.cnd = s.cnd := rfl
@[simp] theorem State.advanceHead_tlp (s : State) : s.advanceHead.tlp = s.tlp := rfl
@[simp] theorem State.advanceHead_cgp (s : State) : s.advanceHead.cgp = s.cgp := rfl
@[simp] theorem State.advanceHead_set (s : State) : s.advanceHead.set = s.set := rfl
@[simp] theorem State.advanceHead_hdp (s : State) : s.advanceHead.hdp = s.hdp.advance s.timeBase := rfl

/-! ## The I2C bus (spec/04 R85, R86) -/

@[simp] theorem ThermalMonitor.send_bus (m : ThermalMonitor) (l : List BusSignal) : (m.send l).bus = m.bus ++ l := rfl
@[simp] theorem ThermalMonitor.send_state (m : ThermalMonitor) (l : List BusSignal) : (m.send l).state = m.state := rfl
@[simp] theorem ThermalMonitor.send_lastTemp (m : ThermalMonitor) (l : List BusSignal) : (m.send l).lastTemp = m.lastTemp := rfl
@[simp] theorem ThermalMonitor.send_failures (m : ThermalMonitor) (l : List BusSignal) : (m.send l).failures = m.failures := rfl
@[simp] theorem ThermalMonitor.send_successes (m : ThermalMonitor) (l : List BusSignal) : (m.send l).successes = m.successes := rfl
@[simp] theorem ThermalMonitor.send_poll (m : ThermalMonitor) (l : List BusSignal) : (m.send l).poll = m.poll := rfl
@[simp] theorem ThermalMonitor.send_lastDue (m : ThermalMonitor) (l : List BusSignal) : (m.send l).lastDue = m.lastDue := rfl
@[simp] theorem ThermalMonitor.send_lastOutcome (m : ThermalMonitor) (l : List BusSignal) : (m.send l).lastOutcome = m.lastOutcome := rfl
@[simp] theorem ThermalMonitor.send_counters (m : ThermalMonitor) (l : List BusSignal) : (m.send l).counters = m.counters := rfl
@[simp] theorem ThermalMonitor.send_ceiling (m : ThermalMonitor) (l : List BusSignal) : (m.send l).ceiling = m.ceiling := rfl
@[simp] theorem ThermalMonitor.fail_bus (m : ThermalMonitor) (o : PollOutcome) : (m.fail o).1.bus = m.bus := rfl
@[simp] theorem ThermalMonitor.succeed_bus (m : ThermalMonitor) (tw : Int) : (m.succeed tw).1.bus = m.bus := rfl

end Sys2Proof.Machine
end

