-- ==== Sys2Proof/Laws/Ops.lean ====
section
/-! SUPPORT. What each shared operation can do, said once: a request that is served, a command whose cause does not
hold, the tests of a port. -/

namespace Sys2Proof.Machine

/-! ## Serving a request (spec/10 R188, R190) -/

/-- The queue that service looks at is the one before the command's time passes. -/
theorem State.readyFor_elapse {s : State} {l : Link} {f : Frame} {rest : List Frame} (dt : Nat)
    (h : s.readyFor l f rest) : (s.elapse dt).readyFor l f rest := by
  obtain ⟨hq, hc⟩ := h
  cases l <;> exact ⟨hq, hc⟩

/-- A request that is the oldest of its link's queue, with a KIND that its service command names, is handed to the
port's tests and its block, and answered under its TAG. -/
theorem State.serve_ready {s : State} {l : Link} {f : Frame} {rest : List Frame} (dt : Nat)
    (act : List Byte → State → Answer) (h : s.readyFor l f rest) :
    (s.elapse dt).serve l f.kind act
      = ((s.taken dt l rest).answer l f act).state.reply l
          (replyFrame f ((s.taken dt l rest).answer l f act).payload) := by
  obtain ⟨hq, hc⟩ := State.readyFor_elapse dt h
  simp [State.serve, hq, hc, State.taken]

/-- With no request in the queue nothing is served. -/
theorem State.serve_empty {s : State} {l : Link} {kind : Byte} {act : List Byte → State → Answer}
    (h : s.requests l = []) : s.serve l kind act = s := by
  simp [State.serve, h]

/-- A port that does not allow service serves nothing. -/
theorem State.serve_blocked {s : State} {l : Link} {kind : Byte} {act : List Byte → State → Answer}
    (h : s.canServe l = false) : s.serve l kind act = s := by
  unfold State.serve
  split
  · rfl
  · simp [h]

/-- A request that passes the port's tests is answered by its block. -/
theorem State.answer_allowed {s : State} {l : Link} {f : Frame} {act : List Byte → State → Answer}
    (ha : allowedOn f.kind l = true) (hl : lengthFits f.kind f.payload = true) :
    s.answer l f act = act f.payload s := by
  simp [State.answer, ha, hl]

/-- A request of a KIND restricted to the other link is answered NOT_PERMITTED, whatever its length. -/
theorem State.answer_wrongLink {s : State} {l : Link} {f : Frame} {act : List Byte → State → Answer}
    (ha : allowedOn f.kind l = false) : s.answer l f act = .bare s .notPermitted := by
  simp [State.answer, ha]

/-- A request of a length its KIND does not allow is answered BAD_FORM. -/
theorem State.answer_badLength {s : State} {l : Link} {f : Frame} {act : List Byte → State → Answer}
    (ha : allowedOn f.kind l = true) (hl : lengthFits f.kind f.payload = false) :
    s.answer l f act = .bare s .badForm := by
  simp [State.answer, ha, hl]

/-- A request that passes the port's tests is served: its block takes it in the state without it, and the reply carries
its TAG, its KIND plus 0x80 and what the block answered. -/
theorem State.serve_passing {s : State} {l : Link} {tag kind : Byte} {p : List Byte} {rest : List Frame} (dt : Nat)
    (act : List Byte → State → Answer) (h : s.readyFor l ⟨tag, kind, p⟩ rest) (hk : knownKind kind = true)
    (ha : allowedOn kind l = true) (hl : lengthFits kind p = true) :
    (s.elapse dt).serve l kind act
      = (act p (s.taken dt l rest)).state.reply l ⟨tag, kind + 0x80, (act p (s.taken dt l rest)).payload⟩ := by
  have e := State.serve_ready dt act h
  rw [State.answer_allowed ha hl] at e
  simpa [replyFrame, replyKind, hk] using e

/-- The payload of an answer whose status carries content. -/
theorem Answer.payload_carrying (s : State) {st : Status} (content : List Byte) (h : st.carries = true) :
    (Answer.mk s st content).payload = u8 st.code ++ content := by
  simp [Answer.payload, h]

/-- The payload of an answer with the status alone. -/
theorem Answer.payload_bare (s : State) (st : Status) : (Answer.bare s st).payload = u8 st.code := by
  cases st <;> rfl

/-! ## Encodings that fit (spec/12 R204) -/

/-- What is taken fits in the room, and is a run from the front. -/
theorem takeFitting_spec : ∀ (room : Nat) (l : List (List Byte)),
    ((takeFitting room l).map List.length).sum ≤ room ∧ ∃ rest, l = takeFitting room l ++ rest
  | room, [] => by simp [takeFitting]
  | room, e :: l => by
    by_cases h : e.length ≤ room
    · obtain ⟨h1, rest, h2⟩ := takeFitting_spec (room - e.length) l
      refine ⟨?_, rest, ?_⟩
      · simp [takeFitting, h]
        omega
      · simpa [takeFitting, h] using h2
    · simp [takeFitting, h]

/-! ## Square roots (spec/05 R101) -/

/-- The bits below `bits` are settled from the highest down. -/
theorem isqrtFrom_spec (n : Nat) : ∀ (bits r : Nat), r * r ≤ n → n < (r + 2 ^ bits) * (r + 2 ^ bits) →
    let q := isqrtFrom n bits r
    q * q ≤ n ∧ n < (q + 1) * (q + 1)
  | 0, _, h, h' => ⟨h, by simpa [isqrtFrom] using h'⟩
  | bits + 1, r, h, h' => by
    unfold isqrtFrom
    split
    · next hb =>
      refine isqrtFrom_spec n bits _ hb ?_
      rwa [show r + 2 ^ bits + 2 ^ bits = r + 2 ^ (bits + 1) by rw [pow_succ]; omega]
    · next hb => exact isqrtFrom_spec n bits r h (by omega)

/-- The whole part of the square root of a number below 2^64. -/
theorem isqrt_spec {n : Nat} (h : n < 2 ^ 64) :
    isqrt n * isqrt n ≤ n ∧ n < (isqrt n + 1) * (isqrt n + 1) :=
  isqrtFrom_spec n 32 0 (by omega) (by norm_num; omega)

/-! ## The I2C bus (spec/04 R85, R86) -/

/-- The end of a transaction changes the monitor, the counts and what waits on the tether. -/
theorem State.pollEnds_changes (s : State) (r : ThermalMonitor × List Condition) :
    ∃ cnd tx, s.pollEnds r = { s with ltm := r.1, cnd := cnd, tlp := { s.tlp with transmit := tx } } :=
  State.raiseAll_changes { s with ltm := r.1 } r.2

/-- A transaction that the sensor acknowledges throughout ends with the stop condition; any other with a stop condition
and the release of the bus. -/
theorem pollSignals_ends (addr : Nat) (p : PollPhase) (a : SensorAnswer) :
    ∃ sent, pollSignals addr p a = sent ++ if pollResult p a = .success then [.stop] else failureSignals := by
  rcases a with ⟨_ | _, _ | _, _ | _, high, low⟩ <;> cases p <;>
    first
    | exact ⟨[], rfl⟩
    | exact ⟨[_], rfl⟩
    | exact ⟨[_, _], rfl⟩
    | exact ⟨[_, _, _], rfl⟩
    | exact ⟨[_, _, _, _], rfl⟩
    | exact ⟨[_, _, _, _, _], rfl⟩

/-- A timeout sends no stop condition. -/
theorem stop_not_mem_timeoutSignals (p : Poll) : .stop ∉ timeoutSignals p := by
  rcases p with ⟨addr, _ | _ | _ | _, begun⟩ <;> intro h <;>
    rcases List.mem_append.mp h with h | h <;>
    first
    | simpa [pollSignals] using List.mem_of_mem_take h
    | simp at h

end Sys2Proof.Machine
end

