-- ==== Sys2Proof/WellFormed.lean ====
section
/-! DEFINITION. Which commands have operands that the part's interfaces can carry. -/

namespace Sys2Proof

/-- The microseconds that pass fit the 64-bit time base (spec/01 R1). -/
def elapsedFits (dt : Nat) : Bool := decide (dt < 2 ^ 64)

/-- A frame event is made by its last byte, so there is at least one (spec/10 R178, R184). -/
def bytesFit (bytes : List Byte) : Bool := decide (0 < bytes.length)

/-- The pixel lies in the larger of the two frame sizes (spec/03 section 3.1). -/
def pixelFits (x y : Nat) : Bool := decide (x < 720) && decide (y < 576)

/-- The operands of a command are ones its interface can carry. -/
def Instr.wellFormed : Instr → Bool
  | .powerOn _ => true
  | .reelReport dt rx => elapsedFits dt && bytesFit rx
  | .presenceTimerExpiry dt => elapsedFits dt
  | .wheelTransition dt _ _ _ => elapsedFits dt
  | .wheelHistorySample dt => elapsedFits dt
  | .driveReport dt => elapsedFits dt
  | .driveFreshExpiry dt => elapsedFits dt
  | .frameBoundary dt => elapsedFits dt
  | .sensorWriteStart dt => elapsedFits dt
  | .sensorWriteComplete dt => elapsedFits dt
  | .commitDeadlineExpiry dt => elapsedFits dt
  | .strobeWindowOpen dt => elapsedFits dt
  | .strobeWindowClose dt => elapsedFits dt
  | .thermalPollDue dt _ => elapsedFits dt
  | .pollTransactionEnd dt _ => elapsedFits dt
  | .busTimeout dt => elapsedFits dt
  | .headHistorySample dt => elapsedFits dt
  | .axisStep dt _ => elapsedFits dt
  | .axisRest dt _ => elapsedFits dt
  | .indexPass dt _ => elapsedFits dt
  | .homingLimit dt _ => elapsedFits dt
  | .tetherFrameArrival dt rx => elapsedFits dt && bytesFit rx
  | .tetherFrameError dt rx => elapsedFits dt && bytesFit rx
  | .linkAliveTimeout dt => elapsedFits dt
  | .messageBegin dt => elapsedFits dt
  | .messageEnd dt => elapsedFits dt
  | .csFalling dt => elapsedFits dt
  | .carriageFrameArrival dt mosi => elapsedFits dt && bytesFit mosi
  | .carriageFrameError dt mosi => elapsedFits dt && bytesFit mosi
  | .csRising dt _ => elapsedFits dt
  | .replyDelivered dt _ => elapsedFits dt
  | .portReset dt => elapsedFits dt
  | .portResetRelease dt => elapsedFits dt
  | .requestBadKind dt _ => elapsedFits dt
  | .chainageQuery dt _ => elapsedFits dt
  | .setDatum dt _ => elapsedFits dt
  | .setSetting dt _ => elapsedFits dt
  | .getSetting dt _ => elapsedFits dt
  | .headHome dt _ => elapsedFits dt
  | .headMove dt _ => elapsedFits dt
  | .headStop dt _ => elapsedFits dt
  | .headPark dt _ => elapsedFits dt
  | .headRelease dt _ => elapsedFits dt
  | .headQuery dt _ => elapsedFits dt
  | .lampQuery dt _ => elapsedFits dt
  | .still dt _ => elapsedFits dt
  | .markPoint dt _ => elapsedFits dt
  | .openObs dt _ => elapsedFits dt
  | .closeObs dt _ => elapsedFits dt
  | .voidObs dt _ => elapsedFits dt
  | .annotate dt _ => elapsedFits dt
  | .readLog dt _ => elapsedFits dt
  | .trimLog dt _ => elapsedFits dt
  | .readStamps dt _ => elapsedFits dt
  | .conditionsQuery dt _ => elapsedFits dt
  | .ackConditions dt _ => elapsedFits dt
  | .restartSurvey dt _ => elapsedFits dt
  | .startupWriteComplete dt => elapsedFits dt
  | .pixelArrival dt x y _ => elapsedFits dt && pixelFits x y
  | .strayByte dt mosi => elapsedFits dt && bytesFit mosi

end Sys2Proof
end

