-- ==== Sys2Proof/Laws/PerInstr.lean ====
section
/-! SUPPORT. Statements about every command as syntax, one lemma a command. -/

namespace Sys2Proof.Laws

/-- A well-formed command's elapsed time fits the 64-bit time base (spec/01 R1). -/
def Timed.Statement (i : Instr) : Prop := i.wellFormed = true → Machine.elapsedBefore i < 2 ^ 64

theorem Timed.powerOn (pins : Pins) : Timed.Statement (.powerOn pins) := fun _ => Nat.two_pow_pos 64

theorem Timed.reelReport (dt : Nat) (rx : List Byte) : Timed.Statement (.reelReport dt rx) :=
  fun h => of_decide_eq_true (Bool.and_eq_true_iff.mp h).1

theorem Timed.presenceTimerExpiry (dt : Nat) : Timed.Statement (.presenceTimerExpiry dt) :=
  fun h => of_decide_eq_true h

theorem Timed.wheelTransition (dt : Nat) (wheel : Wheel) (a b : Bool) : Timed.Statement (.wheelTransition dt wheel a b) :=
  fun h => of_decide_eq_true h

theorem Timed.wheelHistorySample (dt : Nat) : Timed.Statement (.wheelHistorySample dt) :=
  fun h => of_decide_eq_true h

theorem Timed.driveReport (dt : Nat) : Timed.Statement (.driveReport dt) :=
  fun h => of_decide_eq_true h

theorem Timed.driveFreshExpiry (dt : Nat) : Timed.Statement (.driveFreshExpiry dt) :=
  fun h => of_decide_eq_true h

theorem Timed.frameBoundary (dt : Nat) : Timed.Statement (.frameBoundary dt) :=
  fun h => of_decide_eq_true h

theorem Timed.sensorWriteStart (dt : Nat) : Timed.Statement (.sensorWriteStart dt) :=
  fun h => of_decide_eq_true h

theorem Timed.sensorWriteComplete (dt : Nat) : Timed.Statement (.sensorWriteComplete dt) :=
  fun h => of_decide_eq_true h

theorem Timed.commitDeadlineExpiry (dt : Nat) : Timed.Statement (.commitDeadlineExpiry dt) :=
  fun h => of_decide_eq_true h

theorem Timed.strobeWindowOpen (dt : Nat) : Timed.Statement (.strobeWindowOpen dt) :=
  fun h => of_decide_eq_true h

theorem Timed.strobeWindowClose (dt : Nat) : Timed.Statement (.strobeWindowClose dt) :=
  fun h => of_decide_eq_true h

theorem Timed.thermalPollDue (dt : Nat) (sdaClocks : Nat) : Timed.Statement (.thermalPollDue dt sdaClocks) :=
  fun h => of_decide_eq_true h

theorem Timed.pollTransactionEnd (dt : Nat) (answer : SensorAnswer) : Timed.Statement (.pollTransactionEnd dt answer) :=
  fun h => of_decide_eq_true h

theorem Timed.busTimeout (dt : Nat) : Timed.Statement (.busTimeout dt) :=
  fun h => of_decide_eq_true h

theorem Timed.headHistorySample (dt : Nat) : Timed.Statement (.headHistorySample dt) :=
  fun h => of_decide_eq_true h

theorem Timed.axisStep (dt : Nat) (axis : Axis) : Timed.Statement (.axisStep dt axis) :=
  fun h => of_decide_eq_true h

theorem Timed.axisRest (dt : Nat) (axis : Axis) : Timed.Statement (.axisRest dt axis) :=
  fun h => of_decide_eq_true h

theorem Timed.indexPass (dt : Nat) (axis : Axis) : Timed.Statement (.indexPass dt axis) :=
  fun h => of_decide_eq_true h

theorem Timed.homingLimit (dt : Nat) (axis : Axis) : Timed.Statement (.homingLimit dt axis) :=
  fun h => of_decide_eq_true h

theorem Timed.tetherFrameArrival (dt : Nat) (rx : List Byte) : Timed.Statement (.tetherFrameArrival dt rx) :=
  fun h => of_decide_eq_true (Bool.and_eq_true_iff.mp h).1

theorem Timed.tetherFrameError (dt : Nat) (rx : List Byte) : Timed.Statement (.tetherFrameError dt rx) :=
  fun h => of_decide_eq_true (Bool.and_eq_true_iff.mp h).1

theorem Timed.linkAliveTimeout (dt : Nat) : Timed.Statement (.linkAliveTimeout dt) :=
  fun h => of_decide_eq_true h

theorem Timed.messageBegin (dt : Nat) : Timed.Statement (.messageBegin dt) :=
  fun h => of_decide_eq_true h

theorem Timed.messageEnd (dt : Nat) : Timed.Statement (.messageEnd dt) :=
  fun h => of_decide_eq_true h

theorem Timed.csFalling (dt : Nat) : Timed.Statement (.csFalling dt) :=
  fun h => of_decide_eq_true h

theorem Timed.carriageFrameArrival (dt : Nat) (mosi : List Byte) : Timed.Statement (.carriageFrameArrival dt mosi) :=
  fun h => of_decide_eq_true (Bool.and_eq_true_iff.mp h).1

theorem Timed.carriageFrameError (dt : Nat) (mosi : List Byte) : Timed.Statement (.carriageFrameError dt mosi) :=
  fun h => of_decide_eq_true (Bool.and_eq_true_iff.mp h).1

theorem Timed.csRising (dt : Nat) (mosi : List Byte) : Timed.Statement (.csRising dt mosi) :=
  fun h => of_decide_eq_true h

theorem Timed.replyDelivered (dt : Nat) (mosi : List Byte) : Timed.Statement (.replyDelivered dt mosi) :=
  fun h => of_decide_eq_true h

theorem Timed.portReset (dt : Nat) : Timed.Statement (.portReset dt) :=
  fun h => of_decide_eq_true h

theorem Timed.portResetRelease (dt : Nat) : Timed.Statement (.portResetRelease dt) :=
  fun h => of_decide_eq_true h

theorem Timed.requestBadKind (dt : Nat) (link : Link) : Timed.Statement (.requestBadKind dt link) :=
  fun h => of_decide_eq_true h

theorem Timed.chainageQuery (dt : Nat) (link : Link) : Timed.Statement (.chainageQuery dt link) :=
  fun h => of_decide_eq_true h

theorem Timed.setDatum (dt : Nat) (link : Link) : Timed.Statement (.setDatum dt link) :=
  fun h => of_decide_eq_true h

theorem Timed.setSetting (dt : Nat) (link : Link) : Timed.Statement (.setSetting dt link) :=
  fun h => of_decide_eq_true h

theorem Timed.getSetting (dt : Nat) (link : Link) : Timed.Statement (.getSetting dt link) :=
  fun h => of_decide_eq_true h

theorem Timed.headHome (dt : Nat) (link : Link) : Timed.Statement (.headHome dt link) :=
  fun h => of_decide_eq_true h

theorem Timed.headMove (dt : Nat) (link : Link) : Timed.Statement (.headMove dt link) :=
  fun h => of_decide_eq_true h

theorem Timed.headStop (dt : Nat) (link : Link) : Timed.Statement (.headStop dt link) :=
  fun h => of_decide_eq_true h

theorem Timed.headPark (dt : Nat) (link : Link) : Timed.Statement (.headPark dt link) :=
  fun h => of_decide_eq_true h

theorem Timed.headRelease (dt : Nat) (link : Link) : Timed.Statement (.headRelease dt link) :=
  fun h => of_decide_eq_true h

theorem Timed.headQuery (dt : Nat) (link : Link) : Timed.Statement (.headQuery dt link) :=
  fun h => of_decide_eq_true h

theorem Timed.lampQuery (dt : Nat) (link : Link) : Timed.Statement (.lampQuery dt link) :=
  fun h => of_decide_eq_true h

theorem Timed.still (dt : Nat) (link : Link) : Timed.Statement (.still dt link) :=
  fun h => of_decide_eq_true h

theorem Timed.markPoint (dt : Nat) (link : Link) : Timed.Statement (.markPoint dt link) :=
  fun h => of_decide_eq_true h

theorem Timed.openObs (dt : Nat) (link : Link) : Timed.Statement (.openObs dt link) :=
  fun h => of_decide_eq_true h

theorem Timed.closeObs (dt : Nat) (link : Link) : Timed.Statement (.closeObs dt link) :=
  fun h => of_decide_eq_true h

theorem Timed.voidObs (dt : Nat) (link : Link) : Timed.Statement (.voidObs dt link) :=
  fun h => of_decide_eq_true h

theorem Timed.annotate (dt : Nat) (link : Link) : Timed.Statement (.annotate dt link) :=
  fun h => of_decide_eq_true h

theorem Timed.readLog (dt : Nat) (link : Link) : Timed.Statement (.readLog dt link) :=
  fun h => of_decide_eq_true h

theorem Timed.trimLog (dt : Nat) (link : Link) : Timed.Statement (.trimLog dt link) :=
  fun h => of_decide_eq_true h

theorem Timed.readStamps (dt : Nat) (link : Link) : Timed.Statement (.readStamps dt link) :=
  fun h => of_decide_eq_true h

theorem Timed.conditionsQuery (dt : Nat) (link : Link) : Timed.Statement (.conditionsQuery dt link) :=
  fun h => of_decide_eq_true h

theorem Timed.ackConditions (dt : Nat) (link : Link) : Timed.Statement (.ackConditions dt link) :=
  fun h => of_decide_eq_true h

theorem Timed.restartSurvey (dt : Nat) (link : Link) : Timed.Statement (.restartSurvey dt link) :=
  fun h => of_decide_eq_true h

theorem Timed.startupWriteComplete (dt : Nat) : Timed.Statement (.startupWriteComplete dt) :=
  fun h => of_decide_eq_true h

theorem Timed.pixelArrival (dt : Nat) (x y : Nat) (value : BitVec 10) : Timed.Statement (.pixelArrival dt x y value) :=
  fun h => of_decide_eq_true (Bool.and_eq_true_iff.mp h).1

theorem Timed.strayByte (dt : Nat) (mosi : List Byte) : Timed.Statement (.strayByte dt mosi) :=
  fun h => of_decide_eq_true (Bool.and_eq_true_iff.mp h).1

end Sys2Proof.Laws
end

