-- ==== Sys2Proof/Tests/Slice0.lean ====
section
/-! SUPPORT. The model's own tests: refused ill-formed commands, one step of each command on a small state with values
taken from the spec's rules, some of its worked numbers, and for each statement with hypotheses a state that meets
them. -/

set_option Elab.async false

namespace Sys2Proof.Tests

open Sys2Proof.Machine

/-! ## States to test on -/

/-- The state after a command; the state itself if the command stopped. -/
def after (c : Instr) (s : State) : State :=
  match exec c s with
  | .next t => t
  | .fault _ => s
  | .refused _ => s

/-- A request waits on a link, with TAG 7. -/
def asks (s : State) (l : Link) (kind : Byte) (p : List Byte) : State :=
  match l with
  | .tether => { s with tlp := { s.tlp with up := true, alive := some 2000000, requests := [⟨7, kind, p⟩] } }
  | .carriage => { s with cgp := { s.cgp with requests := [⟨7, kind, p⟩] } }

/-- The payload of the oldest reply of a link. -/
def said (s : State) : Link → List Byte
  | .tether =>
    match s.tlp.transmit.filter TxMessage.isReply with
    | .reply f :: _ => f.payload
    | _ => []
  | .carriage => (s.cgp.slot.map fun r => r.frame.payload).getD []

/-- The tether is UP. -/
def up : State := { State.reset with tlp := { State.reset.tlp with up := true, alive := some 2000000 } }

/-- Frames run: the start-up write is done and the first boundary has passed. -/
def running : State :=
  { State.reset with ssp := ⟨none, []⟩, fxc := { State.reset.fxc with counter := 1, ended := some .startUp } }

/-- Frame 2 has its computed set, and `n` bytes of its write have been clocked to the sensor. -/
def writing (n : Nat) : State :=
  { after (.sensorWriteStart 10) (after (.frameBoundary 40000) running) with
    ssp := ⟨some ⟨none, 8000, 16⟩, List.replicate n 0⟩ }

/-- Both axes homed and at rest, at PAN 10.0 and TILT -20.0 degrees. -/
def homed : State :=
  { State.reset with hdp := { State.reset.hdp with
      pan := { State.reset.hdp.pan with state := .idle, pos := some 100 }
      tilt := { State.reset.hdp.tilt with state := .idle, pos := some (-200) } } }

/-- A surface move under way on both axes, with clearance. -/
def moving : State :=
  { homed with
    hdp := { homed.hdp with
      pan := { homed.hdp.pan with state := .moving, target := some 700, togo := 600 }
      tilt := { homed.hdp.tilt with state := .moving, target := some 0, togo := 200 }
      op := some ⟨.move, .tether, false⟩, demand := true }
    fxc := { homed.fxc with clearance := .given } }

/-- PAN searches for its index. -/
def seeking : State :=
  { moving with hdp := { moving.hdp with
      pan := { moving.hdp.pan with state := .homing, pos := none, target := none, togo := 0, homingTravel := 4000 } } }

/-- The reel runs: number 5 is expected next. -/
def reeling : State :=
  { State.reset with rin := { State.reset.rin with machine := .sync, expected := 5, presence := some 250000 } }

/-- A datum is taken and the chainage is 12.300 m. -/
def surveyed : State :=
  { homed with chr := { homed.chr with datumTaken := true, anchor := { homed.chr.anchor with f := 12300000 } } }

/-- A record of id `id` with code "CRK1". -/
def crack (id : Nat) : Observation :=
  ⟨id, [0x43, 0x52, 0x4B, 0x31], .point, .closed, some 12380, none, none, true, false, 0, none, false, []⟩

/-- An OPEN continuous record of id `id`. -/
def roots (id : Nat) : Observation :=
  ⟨id, [0x52, 0x54, 0x53, 0x31], .continuous, .opened, some 11900, none, none, true, false, 0, none, false, []⟩

/-- The log holds an open record 1 and a point record 2 that a mark may merge into. -/
def logged : State := { surveyed with obl := ⟨[roots 1, crack 2], 3, [2]⟩ }

/-- A stamp of frame `n`. -/
def stampOf (n : Nat) : Stamp := { State.reset.buildStamp 0 40000 .startUpSet with frame := BitVec.ofNat 32 n }

/-- Three stamps held, frames 0 to 2, on an UP tether with STREAM ON. -/
def stamped : State :=
  { up with
    fxc := { up.fxc with counter := 3 }
    stu := { up.stu with stamps := [stampOf 0, stampOf 1, stampOf 2] }
    set := (up.set.putNum .stream 1).putNum .decimation 2 }

/-- A carriage transaction is open and clocks 0x00. -/
def listening : State := { State.reset with cgp := { State.reset.cgp with transaction := .active false } }

/-- A poll is in flight. -/
def polling : State := { State.reset with ltm := { State.reset.ltm with poll := some ⟨76, .pointer, 0⟩ } }

/-! ## Ill-formed commands are refused (one for each check) -/

theorem test_wellFormed_elapsed : (Instr.frameBoundary (2 ^ 64)).wellFormed = false := by decide +kernel
theorem test_wellFormed_bytes : (Instr.reelReport 5 []).wellFormed = false := by decide +kernel
theorem test_wellFormed_pixel_column : (Instr.pixelArrival 5 720 0 0).wellFormed = false := by decide +kernel
theorem test_wellFormed_pixel_line : (Instr.pixelArrival 5 0 576 0).wellFormed = false := by decide +kernel
theorem test_wellFormed_accepts : (Instr.pixelArrival 5 719 575 0).wellFormed = true := by decide +kernel

/-! ## One step of each command -/

theorem test_power_on : (after (.powerOn { Pins.low with frameRate := true, baud := 1 }) moving).fxc.rate30 = true
    ∧ (after (.powerOn Pins.low) moving).hdp.pan.pos = none := by decide +kernel
/-- 01 R4: in ACQUIRE the first counted report is taken over. -/
theorem test_reel_report :
    let t := after (.reelReport 5 (Frame.tetherBytes ⟨1, 1, [5, 0, 0, 0, 0, 9]⟩)) State.reset
    t.rin.machine = .sync ∧ t.rin.expected = 6 ∧ t.chr.anchor.count = 9 ∧ t.rin.presence = some 250005 := by
  decide +kernel
/-- 01 R10. -/
theorem test_presence_timer_expiry :
    let t := after (.presenceTimerExpiry 250000) reeling
    t.rin.machine = .acquire ∧ t.cnd.carriage[0] = 1 := by decide +kernel
/-- 01 R14: (0,0) to (0,1) is one place against the order. -/
theorem test_wheel_transition : (after (.wheelTransition 5 .right false true) State.reset).wct.right.count = -1
    ∧ (after (.wheelTransition 5 .left true true) State.reset).wct.left.errors = 1 := by decide +kernel
theorem test_wheel_history_sample : (after (.wheelHistorySample 4000) State.reset).wct.history = [⟨4000, ⟨0, 0⟩⟩]
    ∧ (after (.wheelHistorySample 4001) State.reset).wct.history = [] := by decide +kernel
/-- 01 R21 and 04 R94: a demand of 421 is over the allowance of 420. -/
theorem test_drive_report :
    let t := after (.driveReport 5) (asks State.reset .carriage 0x02 [1, 0x01, 0xA5, 0x80, 0])
    t.drv = ⟨true, .forward, 421, none, some 500005⟩ ∧ t.ldr.overDemand = true ∧ t.cnd.tether[9] = 1 := by
  decide +kernel
theorem test_drive_fresh_expiry :
    (after (.driveFreshExpiry 500) { State.reset with drv := ⟨true, .forward, 9, none, some 500⟩ }).effDemand = 300 := by
  decide +kernel
theorem test_frame_boundary :
    let t := after (.frameBoundary 40000) running
    t.fxc.counter = 2 ∧ t.stu.stamps.map (·.frame) = [1] ∧ t.fxc.commits.length = 1 ∧ t.ldr.window = .timed 40000 := by
  decide +kernel
theorem test_sensor_write_start :
    let t := after (.sensorWriteStart 10) (after (.frameBoundary 40000) running)
    t.ssp.write = some ⟨none, t.fxc.current.set.exposure, t.fxc.current.set.gain⟩ ∧ t.ssp.sent = [] := by decide +kernel
/-- 03 R57: with its 6 bytes clocked the write completes, with 5 it does not. -/
theorem test_sensor_write_complete :
    let t := after (.sensorWriteComplete 400) (writing 6)
    t.fxc.current.settled = true ∧ t.fxc.current.set.late = false ∧ t.ldr.record.frame = 2 ∧ t.ssp.write = none ∧
      (after (.sensorWriteComplete 400) (writing 5)).fxc.current.settled = false := by decide +kernel
/-- 03 R58: at the deadline the frame repeats the set of the frame before. -/
theorem test_commit_deadline_expiry :
    let t := after (.commitDeadlineExpiry 4000) (after (.frameBoundary 40000) running)
    t.fxc.current.set = { FrameSet.startUpSet with late := true } ∧ t.fxc.commits = [] := by decide +kernel
/-- 04 R79 with E = 8,000: the window opens 32,000 after the boundary. -/
theorem test_strobe_window_open :
    let s := { State.reset with ldr := { State.reset.ldr with
      window := .timed 0, record := { State.reset.ldr.record with banks := ⟨680, 340, 0⟩ } } }
    (after (.strobeWindowOpen 32000) s).ldr.outputs = ⟨680, 340, 0⟩
      ∧ (after (.strobeWindowOpen 31999) s).ldr.outputs = ⟨0, 0, 0⟩ := by decide +kernel
theorem test_strobe_window_close :
    (after (.strobeWindowClose 9) { State.reset with ldr := { State.reset.ldr with window := .lit 9 ⟨1, 1, 1⟩ } }).ldr.window
      = .closed := by decide +kernel
theorem test_thermal_poll_due : (after (.thermalPollDue 250000 0) State.reset).ltm.poll = some ⟨76, .pointer, 250000⟩
    ∧ (after (.thermalPollDue 250000 0) polling).ltm.counters.skipped = 1 := by decide +kernel
/-- SDA held for three clocks; the transaction that follows, acknowledged throughout and refused at its pointer
(spec/04 R85, R86). -/
theorem test_thermal_bus :
    let due := after (.thermalPollDue 250000 3) State.reset
    due.ltm.bus = [.clock, .clock, .clock, .stop, .start, .address 76 false] ∧
    (after (.pollTransactionEnd 5 ⟨true, true, true, 70, 0⟩) due).ltm.bus = due.ltm.bus
      ++ [.pointer 0, .repeatedStart, .address 76 true, .acknowledge, .noAcknowledge, .stop] ∧
    (after (.pollTransactionEnd 5 ⟨true, false, true, 70, 0⟩) due).ltm.bus
      = due.ltm.bus ++ [.pointer 0, .stop, .release] := by decide +kernel

/-- 04 R90: at 70 degrees the ceiling is 680. -/
theorem test_poll_transaction_end :
    let t := after (.pollTransactionEnd 5 ⟨true, true, true, 70, 0⟩) polling
    t.ltm.state = .derate ∧ t.ltm.ceiling = 680 ∧ t.cnd.tether[6] = 1 ∧ t.cnd.carriage[6] = 0 := by decide +kernel
/-- 04 R87: the third failure in a row enters FAULT. -/
theorem test_bus_timeout :
    let t := after (.busTimeout 25000) { polling with ltm := { polling.ltm with failures := 2 } }
    t.ltm.state = .fault ∧ t.ltm.ceiling = 400 ∧ t.cnd.tether[8] = 1 := by decide +kernel
theorem test_head_history_sample :
    (after (.headHistorySample 1000) homed).hdp.history = [⟨1000, some 100, some (-200)⟩] := by decide +kernel
/-- 05 R101: from zero speed at 6,000 (0.1 degree)/s² the first step is covered in sqrt(2 / 6,000) s = 18,257.4
microseconds, and at 4,500 in 21,081.9. -/
theorem test_axis_step : (after (.axisStep 18258 .pan) moving).hdp.pan.pos = some 101
    ∧ (after (.axisStep 18257 .pan) moving).hdp.pan.pos = some 100
    ∧ (after (.axisStep 21082 .tilt) moving).hdp.tilt.togo = 199 := by decide +kernel
/-- 05 R101: stopping distances at full speed, trunc(600² / 12,000) and trunc(450² / 9,000). -/
theorem test_stopping_steps : stoppingSteps .pan (600000000 ^ 2) = 30 ∧ stoppingSteps .tilt (450000000 ^ 2) = 22 := by
  decide +kernel
theorem test_axis_rest :
    let s := { moving with hdp := { moving.hdp with pan := { moving.hdp.pan with togo := 0, target := some 100 } } }
    (after (.axisRest 5 .pan) s).hdp.pan.state = .idle ∧ (after (.axisRest 5 .pan) s).hdp.op = moving.hdp.op := by
  decide +kernel
/-- 05 R112: 10 degrees off is beyond tolerance, 0.5 degrees off is a correction. -/
theorem test_index_pass : (after (.indexPass 5 .pan) homed).hdp.pan.lossCause = .indexMismatch
    ∧ (after (.indexPass 5 .pan) { homed with hdp := { homed.hdp with pan := { homed.hdp.pan with pos := some 3595 } } }
        ).hdp.pan.corrections = 1 := by decide +kernel
/-- 05 R105, R112: a change on a negative step is at -1, whatever the level becomes. -/
theorem test_index_pass_tilt :
    let s := { homed with hdp := { homed.hdp with
      tilt := { homed.hdp.tilt with state := .moving, pos := some 3, target := some (-100), togo := -103, lastStep := some false } } }
    (after (.indexPass 5 .tilt) s).hdp.tilt.pos = some (-1) ∧ (after (.indexPass 5 .tilt) s).hdp.tilt.togo = -99 := by
  decide +kernel
theorem test_homing_limit :
    let t := after (.homingLimit 5 .pan) seeking
    t.hdp.pan.lossCause = .indexNotFound ∧ t.hdp.outcome = .lost ∧ t.cnd.carriage[12] = 1 := by decide +kernel
theorem test_tether_frame_arrival :
    let t := after (.tetherFrameArrival 5 (Frame.tetherBytes ⟨0x7E, 0x10, []⟩)) State.reset
    t.tlp.up = true ∧ t.tlp.requests = [⟨0x7E, 0x10, []⟩] ∧ t.tlp.counters.valid = 1 := by decide +kernel
theorem test_tether_frame_error :
    (after (.tetherFrameError 5 [0x7E, 123]) State.reset).tlp.counters.lengthErrors = 1 := by decide +kernel
/-- 10 R182 and 04 R95: LOST_LINK_LEVEL is 300. -/
theorem test_link_alive_timeout :
    let t := after (.linkAliveTimeout 2000000) up
    t.tlp.up = false ∧ t.manualInForce = 300 ∧ t.tlp.counters.losses = 1 := by decide +kernel
/-- 09 R172: the body of an ATTENTION message is built when it begins. -/
theorem test_message_begin :
    let t := after (.messageBegin 5) { up with tlp := { up.tlp with transmit := [.attention] } }
    t.tlp.transmit = [] ∧ (t.tlp.line.map fun m => m.wire.take 4) = some [0x7E, 21, 0, 0xC1] := by decide +kernel
/-- 10 section 10.2: 40 bytes at 57,600 baud take 6.94 ms. -/
theorem test_message_end :
    let s := { up with tlp := { up.tlp with line := some ⟨List.replicate 40 0, 0, false⟩ } }
    (after (.messageEnd 6945) s).tlp.line = none ∧ (after (.messageEnd 6944) s).tlp.line.isSome = true := by
  decide +kernel
theorem test_cs_falling : (after (.csFalling 5) State.reset).cgp.transaction = .active false := by decide +kernel
/-- 10 R185: the reply from its flag on, then 0x00. -/
theorem test_miso :
    let p := { State.reset.cgp with transaction := .active true, slot := some ⟨⟨1, 0x90, [0]⟩, 0⟩ }
    (p.miso 9).take 5 = [0x7E, 3, 1, 0x90, 0] ∧ (p.miso 9).drop 7 = [0, 0] ∧ State.reset.cgp.miso 2 = [0, 0] := by
  decide +kernel
theorem test_carriage_frame_arrival :
    (after (.carriageFrameArrival 5 (Frame.carriageBytes ⟨3, 0x02, [0, 0, 0, 0x80, 0]⟩)) listening).cgp.requests
      = [⟨3, 0x02, [0, 0, 0, 0x80, 0]⟩] := by decide +kernel
theorem test_carriage_frame_error :
    (after (.carriageFrameError 5 [0x7E, 2, 1, 0x10, 0, 0]) listening).cgp.counters.crcErrors = 1 := by decide +kernel
theorem test_cs_rising : (after (.csRising 5 [0x7E, 2]) listening).cgp.counters.partials = 1
    ∧ (after (.csRising 5 []) listening).cgp.transaction = .absent := by decide +kernel
/-- 10 R186: the oldest refusal fills the emptied slot. -/
theorem test_reply_delivered :
    let s := { listening with cgp := { listening.cgp with
      transaction := .active true, slot := some ⟨⟨1, 0x90, [0]⟩, 0⟩, refusals := [⟨2, 0x90, [3]⟩] } }
    (after (.replyDelivered 5 (List.replicate 7 0)) s).cgp.slot = some ⟨⟨2, 0x90, [3]⟩, 0⟩ := by decide +kernel
theorem test_port_reset :
    let t := after (.portReset 5) { State.reset with hdp := { State.reset.hdp with lock := true } }
    t.cgp.heldInReset = true ∧ t.hdp.lock = false := by decide +kernel
theorem test_port_reset_release :
    (after (.portResetRelease 5) (after (.portReset 5) State.reset)).cgp.heldInReset = false := by decide +kernel
theorem test_request_bad_kind :
    (after (.requestBadKind 5 .carriage) (asks State.reset .carriage 0x55 [1])).cgp.slot
      = some ⟨⟨7, 0xFF, [9]⟩, 0⟩ := by decide +kernel
theorem test_chainage_query : (said (after (.chainageQuery 5 .carriage) (asks State.reset .carriage 0x10 [])) .carriage).take 6
    = [0, 0x80, 0, 0, 0, 5] := by decide +kernel
/-- 02 R46: in ACQUIRE a datum is applied at once. -/
theorem test_set_datum : (after (.setDatum 5 .tether) (asks State.reset .tether 0x11 [0, 0, 0x03, 0xE8])).chr.anchor.f = 1000000
    ∧ (after (.setDatum 5 .tether) (asks reeling .tether 0x11 [0, 0, 0x03, 0xE8])).chr.pendingDatum = some 1000 := by
  decide +kernel
/-- 11 R195: an odd WHEEL_SCALE goes down to the even value below. -/
theorem test_set_setting :
    let t := after (.setSetting 5 .carriage) (asks State.reset .carriage 0x18 [0, 12, 0, 0, 0, 0, 251])
    t.set.num .wheelScale = 250 ∧ said t .carriage = [1, 0, 12, 0, 0, 0, 0, 250] := by decide +kernel
theorem test_get_setting : said (after (.getSetting 5 .tether) (asks State.reset .tether 0x19 [0, 1])) .tether
    = [0, 0, 1, 0, 0, 0, 0, 0, 40, 0, 0, 0, 0, 0, 0, 0, 40, 0, 0, 0, 250] := by decide +kernel
theorem test_head_home :
    let t := after (.headHome 5 .tether) (asks State.reset .tether 0x20 [])
    t.hdp.op = some ⟨.home, .tether, false⟩ ∧ t.hdp.demand = true ∧ t.fxc.clearance = .waiting := by decide +kernel
/-- 05 R106: PAN 3700 is reduced to 100, and the move is answered CLAMPED. -/
theorem test_head_move :
    let t := after (.headMove 5 .tether) (asks homed .tether 0x21 [0x0E, 0x74, 0x80, 0, 50])
    said t .tether = [1, 0, 100, 0x80, 0, 50] ∧ t.hdp.pan.limit = 300 := by decide +kernel
theorem test_head_stop :
    let t := after (.headStop 5 .tether) (asks moving .tether 0x22 [])
    t.hdp.pan.state = .stopping ∧ t.hdp.outcome = .stopped := by decide +kernel
/-- 05 R106: both targets absent: only the speed limit of travel changes, here of both axes; the operation goes on. -/
theorem test_head_move_limits :
    let t := after (.headMove 5 .tether) (asks moving .tether 0x21 [0x80, 0, 0x80, 0, 50])
    t.hdp.op = moving.hdp.op ∧ t.hdp.pan.limit = 300 ∧ t.hdp.tilt.limit = 225 ∧ t.hdp.pan.togo = 600 ∧
      t.cnd.tether[11] = 0 := by decide +kernel
theorem test_head_park :
    let t := after (.headPark 5 .carriage) (asks moving .carriage 0x23 [])
    t.hdp.lock = true ∧ t.hdp.tilt.togo = 200 ∧ (t.hdp.doneTether.map (·.outcome)) = some .superseded := by decide +kernel
theorem test_head_release :
    (after (.headRelease 5 .carriage) (asks (after (.headPark 5 .carriage) (asks moving .carriage 0x23 []))
      .carriage 0x24 [])).hdp.lock = true := by decide +kernel
theorem test_head_query : (said (after (.headQuery 5 .tether) (asks homed .tether 0x25 [])) .tether).length = 39 := by
  decide +kernel
theorem test_lamp_query : (said (after (.lampQuery 5 .carriage) (asks State.reset .carriage 0x28 [])) .carriage).length
    = 61 := by decide +kernel
/-- 03 R71: before the first boundary the still is frame 2. -/
theorem test_still : said (after (.still 5 .tether) (asks State.reset .tether 0x2C [1])) .tether = [0, 0, 0, 0, 2] := by
  decide +kernel
/-- 08 R152: 80 mm away and the same code, within GUARD 150: MERGED into record 2. -/
theorem test_mark_point :
    let t := after (.markPoint 5 .carriage) (asks logged .carriage 0x30 [0x43, 0x52, 0x4B, 0x31])
    (said t .carriage).take 3 = [2, 0, 2] ∧ t.stu.pendingMark = some ⟨2, [0x43, 0x52, 0x4B, 0x31]⟩ := by decide +kernel
theorem test_open_obs :
    let t := after (.openObs 5 .tether) (asks logged .tether 0x31 [0x44, 0x45, 0x50, 0x32])
    t.obl.records.map (·.id) = [1, 2, 3] ∧ t.obl.openOnes.length = 2 := by decide +kernel
theorem test_close_obs : (after (.closeObs 5 .tether) (asks logged .tether 0x32 [0, 1])).obl.records.map (·.finish)
    = [some 12300, none] := by decide +kernel
/-- 08 R157: CARRIAGE is not in the origin. -/
theorem test_void_obs : said (after (.voidObs 5 .carriage) (asks logged .carriage 0x33 [0, 2])) .carriage = [4]
    ∧ (after (.voidObs 5 .tether) (asks logged .tether 0x33 [0, 2])).obl.guardMemory = [] := by decide +kernel
theorem test_annotate : (after (.annotate 5 .carriage) (asks logged .carriage 0x34 [0, 2, 1, 0x41])).obl.records.map (·.remark)
    = [[], [0x41]] := by decide +kernel
theorem test_read_log : (said (after (.readLog 5 .tether) (asks logged .tether 0x35 [0, 2, 3])) .tether).take 13
    = [0, 2, 1, 1, 0, 1, 0, 2, 0, 0, 0, 3, 1] := by decide +kernel
/-- 08 R160: the OPEN record at the front stops the trim. -/
theorem test_trim_log : (said (after (.trimLog 5 .tether) (asks logged .tether 0x36 [0, 9])) .tether).take 2 = [0, 0] := by
  decide +kernel
theorem test_read_stamps : (after (.readStamps 5 .carriage) (asks stamped .carriage 0x38 [2])).stu.cursorCarriage = 2
    ∧ (said (after (.readStamps 5 .carriage) (asks stamped .carriage 0x38 [2])) .carriage).take 8 = [0, 2, 0, 0, 0, 2, 0, 1] := by
  decide +kernel
theorem test_conditions_query :
    (said (after (.conditionsQuery 5 .tether) (asks State.reset .tether 0x3C [])) .tether).drop 17
      = [0xFF, 0xFF, 2] ++ List.replicate 22 0 := by decide +kernel
theorem test_ack_conditions :
    let t := after (.ackConditions 5 .carriage) (asks (State.reset.raise .reelLost) .carriage 0x3D [0, 1])
    t.cnd.carriage[0] = 0 ∧ t.cnd.tether[0] = 1 ∧ (said t .carriage).take 2 = [0, 1] := by decide +kernel
theorem test_restart_survey :
    let t := after (.restartSurvey 5 .tether) (asks logged .tether 0x3F [])
    t.obl = ⟨[], 1, []⟩ ∧ t.fxc.origin = 5 ∧ t.chr.datumTaken = false ∧ (said t .tether).take 2 = [0, 2] := by
  decide +kernel
theorem test_startup_write_complete :
    let t := after (.startupWriteComplete 5) State.reset
    t.ssp.write = none ∧ t.ssp.sent.length = 8 := by decide +kernel
theorem test_pixel_arrival :
    let t := after (.pixelArrival 5 180 144 1020) running
    t.ist.count = 1 ∧ t.ist.bright = 1 ∧ t.ovg.pixel = some 1020 := by decide +kernel
/-- 03 R57: a line gap clocks one byte. -/
theorem test_line_gap : (after (.pixelArrival 5 719 10 0) (writing 2)).ssp.sent.length = 3
    ∧ (after (.pixelArrival 5 718 10 0) (writing 2)).ssp.sent.length = 2 := by decide +kernel
theorem test_stray_byte : (after (.strayByte 5 [0x11]) listening).cgp.counters.stray = 1 := by decide +kernel

/-! ## Numbers that the spec works out -/

/-- 10 R177: the CRC of "123456789". -/
theorem test_crc : crc16 [0x31, 0x32, 0x33, 0x34, 0x35, 0x36, 0x37, 0x38, 0x39] = 0x29B1 := by decide +kernel

/-- The table of 08 R150. -/
theorem test_clock_positions :
    [(0, -450), (149, -450), (150, -450), (1000, -450), (1800, 900), (3500, -300), (2700, -299)].map
      (fun (a : Int × Int) => clockPosition (some a.1) (some a.2))
      = [some 12, some 12, some 1, some 3, some 6, some 12, none] := by decide +kernel

/-- The worked exposure case of chapter 3. -/
def caseThree : ExposureInputs where
  tf := 40000
  program := .auto
  target := 400
  deadband := 24
  clipLimit := 50
  blurAllow := 1500
  headCap := 4000
  gainMax := 256
  eFixed := 10000
  gFixed := 16
  speed := 250
  motion := false
  ceiling := 680
  pavail := 180
  pfull := 330
  source := .auto
  manual := 500
  strobe := true
  still := none
  measured := ⟨8000, 16, 500, true, false, false, 0, false, false, false⟩
  measure := some ⟨250, 10⟩

theorem test_exposure_case : (caseThree.solve.exposure, caseThree.solve.level, caseThree.solve.gain) = (6000, 680, 26) := by
  decide +kernel

/-- 07 R140: 12,420,209 micrometres are shown as 12.42. -/
theorem test_metres_text : metresText (some 12420209) = [0x31, 0x32, 0x2E, 0x34, 0x32] := by decide +kernel

/-- 02 section "Worked reckoning case", step 1: F comes to 12,405,209 micrometres. -/
theorem test_reckoning_step :
    let c : Reckoner := { Reckoner.powerOn with
      anchor := ⟨2480, 60000000, ⟨0, 0⟩, 12400000, .track, .mean⟩, v0 := some 12400800, datumTaken := true, speed := 100 }
    let w : WheelCounter := { WheelCounter.powerOn Pins.low with history := [⟨0, ⟨20, 21⟩⟩] }
    (c.item w (some .forward) .settled 2481 60050000).1.anchor.f = 12405209 := by decide +kernel

/-! ## For each statement with hypotheses, states and operands that meet them, clause by clause -/

/-- The first request of a link is this one and the port allows service, as a test. -/
def ready (s : State) (l : Link) (f : Frame) : Bool := s.requests l == [f] && s.canServe l

theorem ready_readyFor {s : State} {l : Link} {f : Frame} (h : ready s l f = true) : s.readyFor l f [] := by
  simpa [ready, State.readyFor] using h

theorem witness_StepTakesTheFrontCommand :
    ({ State.reset with pending := [.frameBoundary 5, .csFalling 0] } : State).pending = .frameBoundary 5 :: [.csFalling 0]
      ∧ State.reset.pending = [] := by decide +kernel

theorem witness_EveryCommandKeepsTheQueueAndTime :
    (∃ p, Instr.powerOn Pins.low = .powerOn p) ∧ ∀ p, Instr.frameBoundary 5 ≠ .powerOn p :=
  ⟨⟨_, rfl⟩, fun _ h => nomatch h⟩

theorem witness_ConditionRepliesAndAcknowledgement :
    let raised := (State.reset.raise .reelLost).raise .datumTaken
    (asks raised .carriage 0x3D [0x80, 1]).readyFor .carriage ⟨7, 0x3D, [0x80, 1]⟩ [] ∧
    (asks raised .tether 0x3C []).readyFor .tether ⟨7, 0x3C, []⟩ [] ∧
    (∀ n : Fin 16, (raised.cnd.counts .carriage)[n] ≤ 255) :=
  ⟨ready_readyFor (by decide +kernel), ready_readyFor (by decide +kernel), by decide +kernel⟩

/-- The fourth clause at its boundary: the eighth error, then the ninth. -/
theorem witness_WheelTransitionCounts :
    let w := State.reset.wct.left
    (true = !w.lineB ∧ false = w.lineA) ∧ (false = w.lineB ∧ true = !w.lineA) ∧ (false = w.lineA ∧ false = w.lineB) ∧
    (true = !w.lineA ∧ true = !w.lineB) ∧
    ({ w with errors := 8 } : WheelRecord).errors + 1 = 9 ∧ w.fault = false := by decide +kernel

theorem witness_HistoryRingsSampleAndLookUp :
    let s : State := { homed with
      wct := { homed.wct with history := [⟨4000, ⟨1, 1⟩⟩, ⟨8000, ⟨2, 2⟩⟩] }
      hdp := { homed.hdp with history := [⟨4000, some 1, none⟩, ⟨5000, some 2, none⟩] } }
    let now := (s.timeBase + 12000) % 2 ^ 64
    0 < now ∧ now % 4000 = 0 ∧ now % 1000 = 0 ∧ (∀ e ∈ s.wct.history, e.time < now) ∧ (∀ e ∈ s.hdp.history, e.time < now) ∧
    ((s.timeBase + 12001) % 2 ^ 64) % 4000 ≠ 0 ∧ ((s.timeBase + 12001) % 2 ^ 64) % 1000 ≠ 0 ∧
    State.reset.wct.history = [] ∧ (∀ x ∈ s.wct.history, 3999 < x.time) ∧
    s.wct.history = [⟨4000, ⟨1, 1⟩⟩] ++ ⟨8000, ⟨2, 2⟩⟩ :: [] ∧ (8000 : Nat) ≤ 8000 ∧
    (∀ x ∈ s.hdp.history, 3999 < x.time) ∧ s.hdp.history = [] ++ ⟨4000, some 1, none⟩ :: [⟨5000, some 2, none⟩] ∧
    (4000 : Nat) ≤ 4999 ∧ (∀ x ∈ [(⟨5000, some 2, none⟩ : HeadSample)], 4999 < x.time) := by decide +kernel

theorem witness_ReelReportsReachTheReelInput :
    (List.replicate 120 (0x7E : Byte)).length ≤ 120 ∧ State.reset.tlp.framer = .hunt := by decide +kernel

/-- One report for each clause: FILL_LIMIT is 2, number 5 is expected, 44 is suspect in CHECK. -/
theorem witness_ReelInputJudgesReports :
    let seen (r : ReelInput) (seq flags low : Byte) : Option (ReelReport × Nat) :=
      (reelReportOf [seq, flags, 0, 0, 0x0F, low]).map fun rep => (rep, (rep.seq - r.expected).toNat)
    let far (rep : ReelReport) : Nat := (diff32 rep.count reeling.chr.anchor.count).natAbs
    let check : ReelInput := { reeling.rin with machine := .check, suspect := 44 }
    reelReportOf [64, 0, 0, 0, 0, 0] = none ∧ reelReportOf [5, 0] = none ∧
    State.reset.rin.machine = .acquire ∧ reeling.rin.machine = .sync ∧ reeling.rin.zeroedPending = false ∧
    reeling.set.nat .fillLimit = 2 ∧
    seen reeling.rin 7 0 0xFF = some (⟨7, false, false, 4095⟩, 2) ∧ far ⟨7, false, false, 4095⟩ = 4095 ∧
    seen reeling.rin 8 0 0 = some (⟨8, false, false, 3840⟩, 3) ∧ seen reeling.rin 5 1 0 = some (⟨5, true, false, 3840⟩, 0) ∧
    seen reeling.rin 4 0 0 = some (⟨4, false, false, 3840⟩, 63) ∧
    seen reeling.rin 13 0 0 = some (⟨13, false, false, 3840⟩, 8) ∧ seen reeling.rin 3 0 0 = some (⟨3, false, false, 3840⟩, 62) ∧
    check.machine = .check ∧ seen check 46 0 0 = some (⟨46, false, false, 3840⟩, 41) ∧
    seen check 45 0 0 = some (⟨45, false, false, 3840⟩, 40) ∧ (45 : BitVec 6) = check.suspect + 1 ∧
    seen check 5 0 0 = some (⟨5, false, false, 3840⟩, 0) ∧ seen check 5 1 0 = some (⟨5, true, false, 3840⟩, 0) ∧
    seen reeling.rin 12 2 0 = some (⟨12, false, true, 3840⟩, 7) ∧ seen reeling.rin 4 2 0 = some (⟨4, false, true, 3840⟩, 63) ∧
    seen reeling.rin 13 3 0 = some (⟨13, true, true, 3840⟩, 8) := by decide +kernel

theorem witness_PresenceLapseHoldsTheChainage :
    reeling.rin.machine ≠ .acquire ∧ reeling.rin.presence = some 250000 ∧ 250000 ≤ (reeling.timeBase + 250000) % 2 ^ 64 ∧
    reeling.chr.pendingDatum = none ∧
    (let s : State := { reeling with chr := { reeling.chr with pendingDatum := some 5 } }
     let t := after (.presenceTimerExpiry 250000) s
     s.chr.pendingDatum = some 5 ∧ s.chr.datumTaken = false ∧ t.chr.anchor.f = 5000 ∧ t.cnd.tether[0] = 1 ∧
       t.cnd.tether[5] = 1) := by decide +kernel

/-- S at both ends of its range; a cut at S_max; a slip; no wheel delta. -/
theorem witness_StepConservesCable :
    ((0 : Int) ≤ 0 ∧ (0 : Int) ≤ 2000000 ∧ (2000000 : Int) ≤ 2000000) ∧
    (verdict (some .forward) (some 0) 5000 3000 2000000 2000000).raised = [.slackLimit] ∧
    (verdict (some .forward) (some 9000) 0 3000 0 2000000).raised = [.wheelSlip] ∧
    (verdict (some .forward) (some 3000) 0 3000 0 2000000).cls = .track ∧
    (verdict (some .forward) (some (-3001)) 0 3000 0 2000000).cls = .payout ∧
    (verdict (some .forward) (some 3001) 0 3000 1 2000000).cls = .takeup ∧
    (verdict (some .reverse) (some 9) 0 3000 1 2000000).cls = .retrieve ∧
    (verdict (some .stopped) (some 0) 1 3000 2000000 2000000).raised = [.slackLimit] ∧
    (verdict (some .reverse) (some 2) 1 3000 0 2000000).cls = .retrieve ∧
    (verdict (some .stopped) (some 0) 3000 3000 0 3000).cls = .track ∧
    (verdict (some .stopped) (some 0) 3001 3000 0 3001).cls = .payout ∧
    (verdict none (some 3000) 0 3000 0 2000000).cls = .cableOnly := by decide +kernel

/-- Residuals of 4, rounded up to 1 at shift 3, and of -4; the bound of CORR_MAX, and far beyond it. -/
theorem witness_CorrectionMovesTowardTheCable :
    let eff := ReckonSettings.ofStore Settings.defaults
    0 ≤ eff.corrMax ∧ correction eff (some 4) 0 0 0 0 .track = 1 ∧ correction eff (some (-4)) 0 0 0 0 .track = -1 ∧
    correction eff (some 4) 0 0 0 0 .slip = 0 ∧
    (2 * (4 : Int).natAbs + 2 ^ eff.corrShift) / (2 * 2 ^ eff.corrShift) ≤ eff.corrMax.toNat ∧
    eff.corrMax.toNat < (2 * (1000000 : Int).natAbs + 2 ^ eff.corrShift) / (2 * 2 ^ eff.corrShift) := by decide +kernel

/-- At the disagreement limit of 1,000 and one count beyond it either way; each health. -/
theorem witness_WheelDeltaFollowsTheHealth :
    let c := Reckoner.powerOn
    let dL (n : WheelCounts) := diff32 n.left c.anchor.wheels.left * c.eff.wheelScale
    let dR (n : WheelCounts) := diff32 n.right c.anchor.wheels.right * c.eff.wheelScale
    let limit (n : WheelCounts) := c.eff.disFixed + (max ((dL n).natAbs : Int) (dR n).natAbs * c.eff.disRatio).tdiv 256
    let w := State.reset.wct
    w.left.fault = false ∧ w.right.fault = false ∧ ({ w.left with fault := true } : WheelRecord).fault = true ∧
    ((dL ⟨4, 0⟩ - dR ⟨4, 0⟩).natAbs : Int) ≤ limit ⟨4, 0⟩ ∧ limit ⟨0, 5⟩ < ((dL ⟨0, 5⟩ - dR ⟨0, 5⟩).natAbs : Int) ∧
    (dL ⟨0, 5⟩).natAbs ≤ (dR ⟨0, 5⟩).natAbs ∧ limit ⟨5, 0⟩ < ((dL ⟨5, 0⟩ - dR ⟨5, 0⟩).natAbs : Int) ∧
    (dR ⟨5, 0⟩).natAbs < (dL ⟨5, 0⟩).natAbs ∧ w.live = w.sampleAt 5 := by decide +kernel

/-- Two fill items, then the settled one. -/
theorem witness_BatchAddsTheReelTravel :
    reeling.chr.pendingDatum = none ∧
    (reeling.takeBatch (.step 2 2481 60050000)).chr.last.kind = .settled := by decide +kernel

theorem witness_PendingDatumAppliesAtTheSettledItem :
    ({ reeling with chr := { reeling.chr with pendingDatum := some 5 } } : State).chr.pendingDatum = some 5 := by
  decide +kernel

theorem witness_QualityFollowsTheTable :
    State.reset.chr.datumTaken = false ∧ surveyed.chr.datumTaken = true ∧ surveyed.rin.machine = .acquire ∧
    reeling.rin.machine ≠ .acquire ∧ surveyed.chr.anchor.cls ∈ [StepClass.track, .takeup, .retrieve, .datum] := by
  decide +kernel

theorem witness_SetDatumAppliesOrPends :
    ([0, 0, 3, 0xE8] : List Byte).length = 4 ∧
    (asks reeling .carriage 0x11 [0, 0, 3, 0xE8]).readyFor .carriage ⟨7, 0x11, [0, 0, 3, 0xE8]⟩ [] ∧
    (asks reeling .tether 0x11 [0, 0, 3, 0xE8]).readyFor .tether ⟨7, 0x11, [0, 0, 3, 0xE8]⟩ [] ∧
    reeling.set.num .datumOwner = 0 ∧ reeling.rin.machine ≠ .acquire ∧ surveyed.chr.datumTaken = true ∧
    State.reset.chr.datumTaken = false ∧
    (asks State.reset .tether 0x11 [0, 0, 3, 0xE8]).rin.machine = .acquire :=
  ⟨rfl, ready_readyFor (by decide +kernel), ready_readyFor (by decide +kernel), by decide +kernel⟩

/-- The allowance is 420: a demand of 421 exceeds it. -/
theorem witness_DriveReportsTakenAndGoStale :
    let p : List Byte := [1, 0x01, 0xA5, 0x80, 0]
    p.length = 5 ∧ (asks State.reset .carriage 0x02 p).readyFor .carriage ⟨7, 0x02, p⟩ [] ∧
    (byteAt p 0, Direction.forward) ∈ [(0, Direction.stopped), (1, .forward), (2, .reverse)] ∧
    (asks State.reset .carriage 0x02 [3, 0, 0, 0, 0]).readyFor .carriage ⟨7, 0x02, [3, 0, 0, 0, 0]⟩ [] ∧
    3 ≤ byteAt [3, 0, 0, 0, 0] 0 ∧
    ({ State.reset with drv := ⟨true, .forward, 9, none, some 500⟩ } : State).drv.fresh = true ∧
    500 ≤ (State.reset.timeBase + 500) % 2 ^ 64 :=
  ⟨rfl, ready_readyFor (by decide +kernel), by decide +kernel, ready_readyFor (by decide +kernel), by decide +kernel⟩

theorem witness_FirstBoundaryKeepsTheStartUpSet :
    State.reset.ssp.write = some ⟨some 40000, 8000, 16⟩ ∧ (writing 2).ssp.write = some ⟨none, 8000, 16⟩ ∧
    ({ State.reset with ssp := ⟨none, []⟩ } : State).ssp.write = none ∧
    State.reset.fxc.ended = none ∧ State.reset.stu.stamps.length ≤ 128 := by decide +kernel

theorem witness_BoundaryEndsTheFrame :
    running.ssp.write = none ∧ (writing 2).ssp.write = some ⟨none, 8000, 16⟩ ∧ running.fxc.ended = some .startUp ∧
    running.stu.stamps.length ≤ 128 ∧ running.fxc.counter = 1 ∧
    ({ running.fxc with pendingStill := some ⟨1, .tether, false⟩ } : FrameTimer).pendingStill = some ⟨1, .tether, false⟩ := by
  decide +kernel

/-- After a boundary one commit waits, with its deadline 4,000 later. -/
theorem witness_CommitOutcomesFixTheAppliedSet :
    let s := after (.frameBoundary 40000) running
    let c := s.fxc.commits.head?
    s.fxc.commits.length = 1 ∧ (c.map (·.age)) = some 0 ∧ (c.map (·.deadline)) = some 44000 ∧ s.ssp.write = none ∧
    (writing 6).ssp.write = some ⟨none, 8000, 16⟩ ∧ (writing 6).ssp.sent.length = 6 ∧ (writing 5).ssp.sent.length = 5 ∧ s.fxc.ended.isSome = true ∧
    ((after (.frameBoundary 5) s).fxc.commits.map (·.age)) = [1, 0] ∧ 44000 ≤ (s.timeBase + 4000) % 2 ^ 64 ∧
    (s.timeBase + 3999) % 2 ^ 64 < 44000 := by decide +kernel

theorem witness_ExposureSetsWithinBounds :
    6020 ≤ caseThree.tf ∧ 20 ≤ caseThree.headCap ∧ 16 ≤ caseThree.gainMax ∧ caseThree.gainMax ≤ 256 ∧ 16 ≤ caseThree.gFixed ∧
    caseThree.gFixed ≤ 256 ∧ caseThree.ceiling ≤ 1000 ∧ ({ caseThree with motion := true } : ExposureInputs).motion = true ∧
    caseThree.program = .auto ∧ caseThree.speed ≠ 0 ∧ 0 < caseThree.blurAllow ∧
    caseThree.source = .auto ∧ caseThree.still = none ∧
    caseThree.solve.exposure * caseThree.solve.level < caseThree.targetProduct ∧
    (let lit : ExposureInputs := { caseThree with program := .shutter, source := .manual, manual := 1000, eFixed := 34000 }
    lit.program ≠ .auto ∧ lit.program ≠ .manual ∧ lit.source ≠ .auto ∧
      lit.targetProduct ≤ lit.solve.exposure * lit.solve.level) ∧
    ({ caseThree with program := .manual } : ExposureInputs).program = .manual := by decide +kernel

/-- At the deadband's edge (376 against 400) and one below it. -/
theorem witness_TargetProductFollowsTheMeasurement :
    caseThree.measured.still = false ∧ caseThree.measured.startUp = false ∧ caseThree.measure = some ⟨250, 10⟩ ∧
    max 376 400 ≤ min 376 400 + caseThree.deadband ∧ min 375 400 + caseThree.deadband < max 375 400 ∧
    ({ caseThree with measure := none } : ExposureInputs).measure = none := by decide +kernel

theorem witness_PixelsAreMeasuredAndDrawn :
    let rows : List OverlayRow := [⟨1, 1, [0x20, 0x41]⟩]
    running.fxc.ended.isSome = true ∧ 719 < 720 ∧ 575 < running.fxc.lines ∧ running.ssp.write = none ∧
    (writing 2).fxc.ended.isSome = true ∧ (writing 2).ssp.write = some ⟨none, 8000, 16⟩ ∧ 574 + 1 < (writing 2).fxc.lines ∧
    (∀ r ∈ rows, r.cellAt (0 / 12) (0 / 20) = none) ∧ rows = [] ++ ⟨1, 1, [0x20, 0x41]⟩ :: [] ∧
    OverlayRow.cellAt ⟨1, 1, [0x20, 0x41]⟩ (35 / 12) (39 / 20) = some 0x41 ∧
    OverlayRow.cellAt ⟨1, 1, [0x20, 0x41]⟩ (23 / 12) (20 / 20) = some 0x20 := by decide +kernel

theorem witness_StrobeWindowLightsTheExposure :
    let s : State := { State.reset with ldr := { State.reset.ldr with window := .timed 0 } }
    s.ldr.window = .timed 0 ∧ s.ldr.record.strobe = true ∧
    0 + (s.fxc.period - s.ldr.record.exposure) ≤ (s.timeBase + 32000) % 2 ^ 64 ∧
    (s.timeBase + 31999) % 2 ^ 64 < 0 + (s.fxc.period - s.ldr.record.exposure) ∧
    ({ s.ldr with window := .lit 9 ⟨1, 1, 1⟩ } : LampDriver).window = .lit 9 ⟨1, 1, 1⟩ ∧ 9 ≤ (s.timeBase + 9) % 2 ^ 64 ∧
    ({ s.ldr.record with strobe := false } : DriveRecord).strobe = false := by decide +kernel

theorem witness_ThermalPollsFallDue :
    let now := (State.reset.timeBase + 250000) % 2 ^ 64
    0 < now ∧ now % 250000 = 0 ∧ State.reset.ltm.lastDue ≠ now ∧ polling.ltm.poll = some ⟨76, .pointer, 0⟩ ∧
    State.reset.ltm.poll = none ∧ 9 ≤ 9 ∧ 9 < 10 ∧ ((State.reset.timeBase + 1) % 2 ^ 64) % 250000 ≠ 0 := by decide +kernel

theorem witness_PollOutcomesMoveTheThermalState :
    polling.ltm.poll = some ⟨76, .pointer, 0⟩ ∧ (⟨76, .pointer, 0⟩ : Poll).phase = .pointer ∧
    (⟨76, .pointer, 0⟩ : Poll).begun + 25000 ≤ (polling.timeBase + 25000) % 2 ^ 64 ∧
    (polling.timeBase + 24999) % 2 ^ 64 < (⟨76, .pointer, 0⟩ : Poll).begun + 25000 := by decide +kernel

/-- TILT at the upper end of its range, stopping upward at 100 (0.1 degree)/s with so much to go. -/
def edge (togo : Int) : State :=
  { moving with hdp := { moving.hdp with
      tilt := { moving.hdp.tilt with state := .stopping, pos := some 1350, togo := togo, speedSq := (10 * 10 ^ 7) ^ 2 } } }

/-- Speeding up and cruising; slowing for a near target, a target behind and a lower limit; stopping before and within
the last step; each pulse at its instant and one microsecond before; travel back to 0 from the index; a stop that is not
homed; the range end with nothing to go and with a target behind. -/
theorem witness_AxisStepsFollowTheProfile :
    let a := moving.hdp.axis .pan
    let b := moving.hdp.axis .tilt
    let span := 2 * deceleration .pan * 10 ^ 12
    let cruise := (a.limit * 10 ^ 6) ^ 2
    let time (now : Nat) := deceleration .pan * now - a.clock
    a.state = .moving ∧ a.pos = some 100 ∧ a.part < span ∧ 1 ≤ a.limit ∧ a.limit ≤ maxSpeed .pan ∧ a.up = true ∧ 0 < a.togo ∧
    b.pos = some (-200) ∧ (-1350 : Int) ≤ -200 + 1 ∧ (-200 + 1 : Int) ≤ 1350 ∧
    a.speedSq + span ≤ cruise ∧ 2 * (a.speedSq + span) ≤ a.togo.natAbs * span - a.part + a.speedSq ∧
    isqrt span ≤ time 18258 ∧ time 18257 < isqrt span ∧
    cruise + span ≤ a.togo.natAbs * span ∧ span / (2 * isqrt cruise) ≤ time 1667 ∧ time 1666 < span / (2 * isqrt cruise) ∧
    1 * span ≤ cruise ∧ span ≤ cruise ∧ ({ a with up := false } : AxisRecord).up = false ∧ (1 * 10 ^ 6) ^ 2 + span ≤ cruise ∧
    isqrt cruise - isqrt (cruise - span) ≤ time 1681 ∧ time 1680 < isqrt cruise - isqrt (cruise - span) ∧
    ({ a with state := .stopping, speedSq := span - 1 } : AxisRecord).speedSq < span ∧
    (let back : State := { moving with hdp := moving.hdp.putAxis .pan { a with
        state := .homing, pos := some 3, up := false, togo := -3, target := some 0, limit := homingSpeed .pan } }
     ((after (.axisStep 18258 .pan) back).hdp.axis .pan).pos = some 2 ∧
       ((after (.axisStep 18258 .pan) back).hdp.axis .pan).togo = -2) ∧
    (let halt : State := { moving with hdp := moving.hdp.putAxis .pan { a with state := .stopping, pos := none, speedSq := cruise } }
     ((after (.axisStep 1681 .pan) halt).hdp.axis .pan).lastStep = some true) ∧
    (let e := (edge 0).hdp.axis .tilt
     e.part < 2 * deceleration .tilt * 10 ^ 12 ∧ 2 * deceleration .tilt * 10 ^ 12 ≤ e.speedSq ∧ 1 ≤ e.limit ∧
       e.limit ≤ maxSpeed .tilt) ∧
    ((after (.axisStep 20000 .tilt) (edge 0)).hdp.axis .tilt).state = .idle ∧
    ((after (.axisStep 20000 .tilt) (edge 0)).hdp.axis .tilt).pos = some 1350 ∧
    ((after (.axisStep 20000 .tilt) (edge (-9))).hdp.axis .tilt).state = .stopping ∧
    ((after (.axisStep 20000 .tilt) (edge (-9))).hdp.axis .tilt).speedSq = 0 ∧
    homed.hdp.pan.state = .idle ∧ State.reset.hdp.pan.state = .unhomed := by decide +kernel

/-- A move at its target, before and at its instant; a HOME back at 0, which ends REACHED, or LOST with the other axis
UNHOMED; a stop, homed or not; a search owed with clearance GIVEN, WAITING and NONE. -/
theorem witness_AxisRestEndsTheOperation :
    let s : State := { moving with hdp := { moving.hdp with
      pan := { moving.hdp.pan with togo := 0, speedSq := 10 ^ 12 } } }
    let a := s.hdp.axis .pan
    let b := s.hdp.axis .tilt
    let time (now : Nat) := deceleration .pan * now - a.clock
    a.state = .moving ∧ a.pos.isSome = true ∧ a.togo = 0 ∧ a.part + a.speedSq < 2 * deceleration .pan * 10 ^ 12 ∧
    a.startPending = .clear ∧
    a.searchOwed = false ∧ s.hdp.op = some ⟨.move, .tether, false⟩ ∧ s.fxc.clearance = .given ∧ b.startPending = .clear ∧
    b.searchOwed = false ∧ b.state = .moving ∧ homed.hdp.tilt.state = .idle ∧ isqrt a.speedSq ≤ time 167 ∧
    time 166 < isqrt a.speedSq ∧
    (let rest (a b : AxisRecord) (outcome : HeadOutcome) (c : Clearance) : State := after (.axisRest 167 .pan)
        { s with
          hdp := { s.hdp with pan := a, tilt := b, op := some ⟨.home, .tether, false⟩, outcome := outcome }
          fxc := { s.fxc with clearance := c } }
     let back : AxisRecord := { a with state := .homing, pos := some 0, target := some 0 }
     let lost : AxisRecord := { a with state := .stopping, pos := none, target := none }
     let owing : AxisRecord := { lost with searchOwed := true }
     (rest back homed.hdp.tilt .reached .given).hdp.doneTether = some ⟨.home, .reached, some 0, some (-200), 0⟩ ∧
     (rest back State.reset.hdp.tilt .lost .given).hdp.doneTether = some ⟨.home, .lost, some 0, none, 0⟩ ∧
     (rest lost homed.hdp.tilt .stopped .given).hdp.doneTether = some ⟨.home, .stopped, none, some (-200), 0⟩ ∧
     (rest lost homed.hdp.tilt .stopped .given).hdp.pan.state = .unhomed ∧
     (rest { lost with pos := some 4, togo := 9 } homed.hdp.tilt .stopped .given).hdp.pan.state = .idle ∧
     (rest owing homed.hdp.tilt .reached .given).hdp.pan.state = .homing ∧
     (rest owing homed.hdp.tilt .reached .waiting).hdp.pan.startPending = .home ∧
     (rest owing homed.hdp.tilt .reached .unasked).fxc.clearance = .waiting) := by decide +kernel

/-- One step short of the limit of 4,000, and at it. -/
theorem witness_SearchesEndAtTheIndexOrTheLimit :
    let a := seeking.hdp.axis .pan
    a.state = .homing ∧ a.pos = none ∧ 4000 ≤ a.homingTravel ∧
    ({ a with homingTravel := 3999 } : AxisRecord).homingTravel < 4000 ∧
    a.lastStep = none ∧ ({ a with lastStep := some false } : AxisRecord).lastStep = some false ∧
    0 < 2 * deceleration .pan * 10 ^ 12 - a.part ∧
    a.speedSq + (2 * deceleration .pan * 10 ^ 12 - a.part) ≤ (homingSpeed .pan * 10 ^ 6) ^ 2 ∧
    isqrt (2 * deceleration .pan * 10 ^ 12) ≤ deceleration .pan * 18258 - a.clock ∧
    2 * deceleration .pan * 10 ^ 12 / (2 * isqrt ((homingSpeed .pan * 10 ^ 6) ^ 2)) ≤ deceleration .pan * 10000 - a.clock ∧
    ({ moving.hdp.tilt with state := .homing, pos := none } : AxisRecord).pos = none := by decide +kernel

/-- At an error of 20 and of 21. -/
theorem witness_IndexPassesCorrectOrLose :
    (3580 - 3600 : Int).natAbs ≤ 20 ∧ 20 < (21 : Int).natAbs ∧
    (homed.hdp.axis .pan).state = .idle ∧ (homed.hdp.axis .tilt).state = .idle ∧ homed.hdp.op = none ∧
    homed.hdp.anyPending = false ∧ (homed.hdp.axis .pan).searchOwed = false ∧ homed.hdp.demand = false ∧
    homed.fxc.clearance = .unasked ∧ (homed.hdp.axis .pan).pos = some 100 ∧
    (State.reset.hdp.axis .pan).pos = none ∧ (State.reset.hdp.axis .pan).state ≠ .homing ∧
    moving.hdp.op = some ⟨.move, .tether, false⟩ ∧ (moving.hdp.axis .tilt).state = .moving ∧
    (moving.hdp.axis .pan).pos = some 100 := by decide +kernel

theorem witness_HeadHomeAsksForBothSearches :
    (asks homed .tether 0x20 []).readyFor .tether ⟨7, 0x20, []⟩ [] ∧ homed.hdp.lock = false ∧ homed.hdp.op = none ∧
    homed.hdp.atRest = true ∧ homed.fxc.clearance = .unasked ∧ moving.hdp.op.isSome = true ∧ moving.hdp.atRest = false ∧
    ({ homed.hdp with lock := true } : HeadPositioner).lock = true :=
  ⟨ready_readyFor (by decide +kernel), by decide +kernel⟩

/-- The homed head at rest meets the head's rules. -/
theorem homed_headOk : HeadOk homed := by
  refine ⟨?_, ?_, ?_, ?_, ?_, ?_, ?_, ?_, fun ax => by cases ax <;> decide +kernel⟩
  · decide +kernel
  · intro o h; cases h
  · decide +kernel
  · decide +kernel
  · decide +kernel
  · decide +kernel
  · intro p h; cases h; decide
  · intro p h; cases h; decide

/-- A surface move in travel meets them. -/
theorem moving_headOk : HeadOk moving := by
  refine ⟨by decide +kernel, ?_, by decide +kernel, by decide +kernel, by decide +kernel, by decide +kernel, ?_, ?_,
    fun ax => by cases ax <;> decide +kernel⟩
  · intro o h; cases h; decide
  · intro p h; cases h; decide
  · intro p h; cases h; decide

/-- The head as power-on leaves it meets them. -/
theorem reset_headOk : HeadOk State.reset := by
  refine ⟨by decide +kernel, ?_, by decide +kernel, by decide +kernel, by decide +kernel, by decide +kernel, ?_, ?_,
    fun ax => by cases ax <;> decide +kernel⟩
  · intro o h; cases h
  · intro p h; cases h
  · intro p h; cases h

/-- Both axes homed and at rest at 0. -/
def level : State :=
  { homed with hdp := { homed.hdp with pan := { homed.hdp.pan with pos := some 0 }, tilt := { homed.hdp.tilt with pos := some 0 } } }

/-- The head at rest at 0 meets them. -/
theorem level_headOk : HeadOk level := by
  refine ⟨by decide +kernel, ?_, by decide +kernel, by decide +kernel, by decide +kernel, by decide +kernel, ?_, ?_,
    fun ax => by cases ax <;> decide +kernel⟩
  · intro o h; cases h
  · intro p h; cases h; decide
  · intro p h; cases h; decide

/-- A surface move of PAN waits for clearance with the head at rest. -/
def waitingFrom (s : State) : State :=
  { s with
    hdp := { s.hdp with
      pan := { s.hdp.pan with target := some 700, togo := 600, startPending := .move }
      op := some ⟨.move, .tether, false⟩, demand := true }
    fxc := { s.fxc with clearance := .waiting } }

/-- A move that waits meets them, from rest at 0 and beside it. -/
theorem waiting_headOk : HeadOk (waitingFrom homed) ∧ HeadOk (waitingFrom level) := by
  constructor <;>
    refine ⟨by decide +kernel, ?_, by decide +kernel, by decide +kernel, by decide +kernel, by decide +kernel, ?_, ?_,
      fun ax => by cases ax <;> decide +kernel⟩
  all_goals
    intro _ h
    cases h
    decide

/-- The head ends a move after a stop, in travel. -/
def halting : State := after (.headStop 5 .tether) (asks moving .tether 0x22 [])

/-- A park is under way in travel, with the lock released by hand. -/
def parking : State :=
  { moving with hdp := { moving.hdp with op := some ⟨.park, .carriage, false⟩ } }

/-- Targets 150 and 0 from 100 and -200; one target; nothing to travel, with one target and with both; a retarget in
travel; a stopping operation and a park; no target. -/
theorem witness_HeadMoveTakesTargets :
    let p : List Byte := [0, 150, 0, 0, 0]
    p.length = 5 ∧ (asks homed .tether 0x21 p).readyFor .tether ⟨7, 0x21, p⟩ [] ∧ HeadOk homed ∧
    homed.hdp.lock = false ∧ homed.hdp.op = none ∧ homed.hdp.pan.pos = some 100 ∧ homed.hdp.tilt.pos = some (-200) ∧
    (s16optAt p 0).map (· % 3600) = some 150 ∧ s16optAt p 2 = some 0 ∧
    s16optAt [0x80, 0, 0x80, 0, 0] 0 = none ∧ s16optAt [0x80, 0, 0x80, 0, 0] 2 = none ∧
    (asks moving .tether 0x21 p).readyFor .tether ⟨7, 0x21, p⟩ [] ∧ moving.hdp.op = some ⟨.move, .tether, false⟩ ∧
    moving.hdp.pan.state = .moving ∧ moving.hdp.tilt.state = .moving ∧ moving.hdp.anyPending = false ∧
    State.reset.hdp.pan.state = .unhomed ∧ State.reset.hdp.pan.pos = none ∧
    (s16optAt [0, 150, 0x80, 0, 0] 0).map (· % 3600) = some 150 ∧ s16optAt [0, 150, 0x80, 0, 0] 2 = none ∧
    s16optAt [0, 100, 0x80, 0, 0] 0 = some 100 ∧ s16optAt [0, 100, 0xFF, 0x38, 0] 2 = some (-200) ∧
    halting.hdp.op = some ⟨.move, .tether, true⟩ ∧ halting.hdp.pan.state = .stopping ∧ halting.hdp.tilt.state = .stopping ∧
    halting.hdp.lock = false ∧ halting.hdp.anyPending = false ∧ halting.hdp.pan.pos = some 100 ∧
    parking.hdp.op = some ⟨.park, .carriage, false⟩ ∧ parking.hdp.lock = false ∧ parking.hdp.pan.state = .moving ∧
    parking.hdp.pan.startPending = .clear ∧ parking.hdp.tilt.startPending = .clear :=
  ⟨rfl, ready_readyFor (by decide +kernel), homed_headOk, by decide +kernel, by decide +kernel, by decide +kernel,
    by decide +kernel, by decide +kernel, by decide +kernel, by decide +kernel, by decide +kernel,
    ready_readyFor (by decide +kernel), by decide +kernel⟩

theorem witness_HeadStopAndRelease :
    (asks moving .tether 0x22 []).readyFor .tether ⟨7, 0x22, []⟩ [] ∧
    (asks moving .carriage 0x24 []).readyFor .carriage ⟨7, 0x24, []⟩ [] ∧ moving.hdp.lock = false ∧
    moving.hdp.op = some ⟨.move, .tether, false⟩ ∧ moving.hdp.atRest = false ∧ homed.hdp.op = none ∧
    halting.hdp.op = some ⟨.move, .tether, true⟩ ∧
    ({ homed.hdp with op := some ⟨.home, .tether, false⟩ } : HeadPositioner).atRest = true ∧
    (after (.headPark 5 .carriage) (asks moving .carriage 0x23 [])).hdp.op = some ⟨.park, .carriage, false⟩ ∧
    (after (.headPark 5 .carriage) (asks moving .carriage 0x23 [])).hdp.atRest = false ∧
    (let s : State :=
       { asks homed .carriage 0x24 [] with hdp := (after (.headPark 5 .carriage) (asks homed .carriage 0x23 [])).hdp }
     s.readyFor .carriage ⟨7, 0x24, []⟩ [] ∧ s.hdp.op = some ⟨.park, .carriage, false⟩ ∧ s.hdp.atRest = true) :=
  ⟨ready_readyFor (by decide +kernel), ready_readyFor (by decide +kernel), by decide +kernel, by decide +kernel,
    by decide +kernel, by decide +kernel, by decide +kernel, by decide +kernel, by decide +kernel, by decide +kernel,
    ready_readyFor (by decide +kernel), by decide +kernel⟩

theorem witness_HeadParkTakesOver :
    (asks moving .carriage 0x23 []).readyFor .carriage ⟨7, 0x23, []⟩ [] ∧ moving.hdp.op = some ⟨.move, .tether, false⟩ ∧
    moving.hdp.pan.state = .moving ∧ moving.hdp.tilt.state = .moving ∧ moving.hdp.pan.pos = some 100 ∧
    moving.hdp.tilt.pos = some (-200) ∧ moving.hdp.anyPending = false ∧ moving.fxc.clearance = .given ∧ homed.hdp.op = none ∧
    (after (.headPark 5 .carriage) (asks moving .carriage 0x23 [])).hdp.op = some ⟨.park, .carriage, false⟩ ∧
    HeadOk moving ∧ HeadOk homed ∧ moving.hdp.atRest = false ∧ (homed.hdp.axis .pan).pos = some 100 ∧
    (homed.hdp.axis .tilt).pos = some (-200) ∧ HeadOk State.reset ∧ State.reset.hdp.op = none ∧
    (∀ ax : Axis, (State.reset.hdp.axis ax).state = .unhomed) ∧ HeadOk level ∧ level.hdp.op = none ∧
    level.hdp.pan.pos = some 0 ∧ level.hdp.tilt.pos = some 0 ∧
    (asks (waitingFrom level) .carriage 0x23 []).readyFor .carriage ⟨7, 0x23, []⟩ [] ∧
    (HeadOk (waitingFrom homed) ∧ HeadOk (waitingFrom level)) ∧
    (waitingFrom level).hdp.op = some ⟨.move, .tether, false⟩ ∧ (waitingFrom level).hdp.atRest = true ∧
    (waitingFrom level).fxc.clearance = .waiting ∧ (waitingFrom level).hdp.pan.searchOwed = false ∧
    (waitingFrom level).hdp.tilt.searchOwed = false :=
  ⟨ready_readyFor (by decide +kernel), by decide +kernel, by decide +kernel, by decide +kernel, by decide +kernel,
    by decide +kernel, by decide +kernel, by decide +kernel, by decide +kernel, by decide +kernel, moving_headOk,
    homed_headOk, by decide +kernel, by decide +kernel, by decide +kernel, reset_headOk, by decide +kernel,
    fun ax => by cases ax <;> decide +kernel, level_headOk, by decide +kernel, by decide +kernel, by decide +kernel,
    ready_readyFor (by decide +kernel), waiting_headOk, by decide +kernel⟩

theorem witness_ReadStampsReturnsWhatFits :
    (asks stamped .carriage 0x38 [4]).readyFor .carriage ⟨7, 0x38, [4]⟩ [] ∧ (stampOf 0).openIds.length ≤ 4 ∧
    stamped.stu.waiting .carriage = stampOf 0 :: [stampOf 1, stampOf 2] :=
  ⟨ready_readyFor (by decide +kernel), by decide +kernel⟩

/-- A full ring whose oldest is frame 0: the carriage's cursor names it; the tether's, with STREAM ON and frame 1 the
oldest, is free of charge. -/
theorem witness_LappedCursorsAreCharged :
    let kept := (List.range 127).map fun n => stampOf (n + 1)
    let s : State := { stamped with stu := { stamped.stu with stamps := stampOf 0 :: kept, cursorTether := 5 } }
    s.stu.stamps = stampOf 0 :: kept ∧ kept.length = 127 ∧ s.stu.cursor .carriage = (stampOf 0).frame ∧
    s.stu.cursor .tether ≠ (stampOf 0).frame ∧ s.set.num .stream = 1 ∧
    (stampOf 1).frame.toNat % s.set.nat .decimation ≠ 0 := by decide +kernel

theorem witness_StreamSendsMultiplesOfDecimation :
    let s : State := { stamped with stu := { stamped.stu with cursorTether := 1 } }
    let t : State := { stamped with stu := { stamped.stu with stamps := [stampOf 1], cursorTether := 1 } }
    State.reset.set.num .stream ≠ 1 ∧ s.set.num .stream = 1 ∧ s.tlp.up = true ∧ s.tlp.line = none ∧ s.tlp.transmit = [] ∧
    s.stu.waiting .tether = [stampOf 1] ++ stampOf 2 :: [] ∧ (∀ x ∈ [stampOf 1], x.frame.toNat % s.set.nat .decimation ≠ 0) ∧
    (stampOf 2).frame.toNat % s.set.nat .decimation = 0 ∧
    (∀ x ∈ t.stu.waiting .tether, x.frame.toNat % t.set.nat .decimation ≠ 0) := by decide +kernel

theorem witness_ComposedRowsFillTheirWidth :
    ({ stampOf 0 with clean := true } : Stamp).clean = true ∧ (stampOf 0).clean = false ∧
    (State.reset.compose (stampOf 0) none (some ⟨1, [0x41, 0x42, 0x43, 0x44]⟩)).ovg.rows.length = 3 := by decide +kernel

/-- The ends of the pan range and of the tilt rule. -/
theorem witness_ClockPositionIsTheHour :
    (0 : Int) ≤ 3599 ∧ (3599 : Int) ≤ 3599 ∧ (299 : Int).natAbs < 300 ∧ 300 ≤ (-300 : Int).natAbs ∧
    clockPosition (some 3599) (some (-300)) = some 12 ∧ clockPosition (some 0) (some 299) = none := by decide +kernel

/-- A mark exactly GUARD (150 mm) from record 2; a full log; a spent next id. -/
theorem witness_MarksMergeWithinTheGuard :
    let code : List Byte := [0x43, 0x52, 0x4B, 0x31]
    let s : State := { logged with chr := { logged.chr with anchor := { logged.chr.anchor with f := 12230000 } } }
    code.length = 4 ∧ (asks s .carriage 0x30 code).readyFor .carriage ⟨7, 0x30, code⟩ [] ∧
    s.obl.records = [roots 1] ++ crack 2 :: [] ∧ 2 ∈ s.obl.guardMemory ∧ (crack 2).code = code ∧
    (crack 2).start = some 12380 ∧ s.chainageNow = some 12230 ∧
    (((12380 : Int) - 12230).natAbs : Int) ≤ s.set.num .guardWidth ∧ (∀ q ∈ [roots 1], q.id ≠ 2) ∧
    ({ logged.obl with nextId := 65536, guardMemory := [] } : ObsLog).nextId = 65536 ∧
    (List.replicate 96 (crack 2)).length = 96 :=
  ⟨rfl, ready_readyFor (by decide +kernel), by decide +kernel⟩

/-- No chainage; a chainage with another code, and with the same code 151 mm away; AUTO_STILL OFF and not, with a still
pending and not; room for the 96th record, and none; 3 and 4 records OPEN. -/
theorem witness_CreationsAppendARecord :
    let code : List Byte := [0x44, 0x45, 0x50, 0x32]
    code.length = 4 ∧ logged.set.nat .autoStill = 0 ∧ (logged.set.putNum .autoStill 2).nat .autoStill = 2 ∧
    logged.fxc.pendingStill = none ∧
    ({ logged.fxc with pendingStill := some ⟨2, .tether, false⟩ } : FrameTimer).pendingStill = some ⟨2, .tether, false⟩ ∧
    (crack 2).start = some 12380 ∧ logged.set.num .guardWidth < ((12380 - 12229 : Int).natAbs : Int) ∧
    (96 : Nat) ≤ (List.replicate 96 (crack 2)).length ∧
    (asks logged .tether 0x30 code).readyFor .tether ⟨7, 0x30, code⟩ [] ∧
    (asks logged .tether 0x31 code).readyFor .tether ⟨7, 0x31, code⟩ [] ∧ homed.chainageNow = none ∧
    logged.chainageNow = some 12300 ∧ (∀ r ∈ logged.obl.records, r.code ≠ code ∨ r.id ∉ logged.obl.guardMemory) ∧
    (List.replicate 95 (crack 2)).length ≤ 95 ∧ logged.obl.nextId ≤ 65535 ∧
    ([roots 1, roots 2, roots 3].filter fun r => r.state == .opened).length ≤ 3 ∧
    4 ≤ ([roots 1, roots 2, roots 3, roots 4].filter fun r => r.state == .opened).length :=
  ⟨rfl, by decide +kernel, by decide +kernel, by decide +kernel, by decide +kernel, by decide +kernel, by decide +kernel,
    by decide +kernel, ready_readyFor (by decide +kernel), ready_readyFor (by decide +kernel), by decide +kernel⟩

theorem witness_RecordsCloseVoidAndAnnotate :
    (asks logged .carriage 0x32 [0, 1]).readyFor .carriage ⟨7, 0x32, [0, 1]⟩ [] ∧
    (asks logged .tether 0x33 [0, 2]).readyFor .tether ⟨7, 0x33, [0, 2]⟩ [] ∧
    (asks logged .carriage 0x34 [0, 2, 1, 0x41]).readyFor .carriage ⟨7, 0x34, [0, 2, 1, 0x41]⟩ [] ∧
    ([0, 1] : List Byte).length = 2 ∧ ([0, 2, 1, 0x41] : List Byte).drop 2 = BitVec.ofNat 8 [0x41].length :: [0x41] ∧
    logged.obl.records = [] ++ roots 1 :: [crack 2] ∧ (roots 1).id = u16At [0, 1] 0 ∧ (∀ q ∈ [crack 2], q.id ≠ 1) ∧
    (roots 1).state = .opened ∧ (crack 2).state ≠ .opened ∧ logged.chainageNow = some 12300 ∧
    (∀ r ∈ logged.obl.records, r.id ≠ u16At [0, 9] 0) ∧ (crack 2).fromCarriage = false ∧ (crack 2).state ≠ .voided ∧
    ({ crack 2 with state := .voided } : Observation).state = .voided :=
  ⟨ready_readyFor (by decide +kernel), ready_readyFor (by decide +kernel), ready_readyFor (by decide +kernel),
    by decide +kernel⟩

theorem witness_LogIsReadAndTrimmed :
    (asks logged .carriage 0x35 [0, 1, 4]).readyFor .carriage ⟨7, 0x35, [0, 1, 4]⟩ [] ∧
    (asks logged .tether 0x36 [0, 9]).readyFor .tether ⟨7, 0x36, [0, 9]⟩ [] ∧
    logged.obl.records = [] ++ roots 1 :: [crack 2] ∧ (roots 1).state = .opened ∧
    [crack 2, roots 3] = [crack 2] ++ roots 3 :: [] ∧ (crack 2).id ≤ u16At [0, 9] 0 ∧ (crack 2).state ≠ .opened :=
  ⟨ready_readyFor (by decide +kernel), ready_readyFor (by decide +kernel), by decide +kernel⟩

theorem witness_SetSettingStoresInRange :
    let num : List Byte := [0, 12, 0, 0, 0, 0, 251]
    let text : List Byte := [0, 75, 1, 1, 0x41]
    let mask : List Byte := [0, 105, 2, 0, 1]
    num.length = 7 ∧ text.length = 4 + byteAt text 3 ∧ mask.length = 5 ∧
    (asks State.reset .carriage 0x18 num).readyFor .carriage ⟨7, 0x18, num⟩ [] ∧
    (asks State.reset .tether 0x18 text).readyFor .tether ⟨7, 0x18, text⟩ [] ∧
    SettingRef.ofId (u16At num 0) = some (.num .wheelScale) ∧ NumId.wheelScale.line.owner = .carriage ∧
    SettingRef.ofId (u16At text 0) = some (.text 0) ∧ SettingRef.ofId (u16At mask 0) = some (.mask .carriage) ∧
    SettingRef.ofId 0 = none ∧ byteAt num 2 = 0 ∧ byteAt text 2 = 1 ∧ byteAt mask 2 = 2 :=
  ⟨by decide +kernel, by decide +kernel, by decide +kernel, ready_readyFor (by decide +kernel),
    ready_readyFor (by decide +kernel), by decide +kernel⟩

theorem witness_QueriesReadAndStillIsPending :
    (asks surveyed .tether 0x10 []).readyFor .tether ⟨7, 0x10, []⟩ [] ∧
    (asks homed .carriage 0x25 []).readyFor .carriage ⟨7, 0x25, []⟩ [] ∧
    (asks homed .tether 0x28 []).readyFor .tether ⟨7, 0x28, []⟩ [] ∧
    (asks homed .tether 0x19 [0, 1]).readyFor .tether ⟨7, 0x19, [0, 1]⟩ [] ∧
    (asks running .carriage 0x2C [1]).readyFor .carriage ⟨7, 0x2C, [1]⟩ [] ∧
    SettingRef.ofId (u16At [0, 75] 0) = some (.text 0) ∧ SettingRef.ofId (u16At [0, 105] 0) = some (.mask .carriage) ∧
    SettingRef.ofId (u16At [0, 1] 0) = some (.num .latency) ∧ SettingRef.ofId (u16At [0, 0] 0) = none ∧
    running.fxc.pendingStill = none ∧
    ({ running.fxc with pendingStill := some ⟨2, .tether, false⟩ } : FrameTimer).pendingStill.isSome = true :=
  ⟨ready_readyFor (by decide +kernel), ready_readyFor (by decide +kernel), ready_readyFor (by decide +kernel),
    ready_readyFor (by decide +kernel), ready_readyFor (by decide +kernel), by decide +kernel⟩

/-- A KIND of the other link; a length of one for a KIND of none, of five, and of a number's seven with a text's kind
byte; a KIND missing from the table. -/
theorem witness_PortsRefuseByTheirTests :
    servedBy 5 .carriage 0x20 = some (.headHome 5 .carriage) ∧ servedBy 5 .tether 0x23 = some (.headPark 5 .tether) ∧
    (asks homed .carriage 0x20 []).readyFor .carriage ⟨7, 0x20, []⟩ [] ∧
    (asks homed .tether 0x10 [1]).readyFor .tether ⟨7, 0x10, [1]⟩ [] ∧
    (asks homed .carriage 0x02 [1]).readyFor .carriage ⟨7, 0x02, [1]⟩ [] ∧
    (asks homed .tether 0x18 [0, 1, 1, 0, 0, 0, 0]).readyFor .tether ⟨7, 0x18, [0, 1, 1, 0, 0, 0, 0]⟩ [] ∧
    byteAt [0, 1, 1, 0, 0, 0, 0] 2 = 1 ∧ [0, 1, 1, 0, 0, 0, 0].length ≠ 4 + byteAt [0, 1, 1, 0, 0, 0, 0] 3 ∧
    homed.requests .tether = [] ∧ (0x55 : Byte) ∉ ([0x01, 0x02, 0x10, 0x11] : List Byte) ∧
    (asks homed .carriage 0x55 [1]).readyFor .carriage ⟨7, 0x55, [1]⟩ [] :=
  ⟨by decide +kernel, by decide +kernel, ready_readyFor (by decide +kernel), ready_readyFor (by decide +kernel),
    ready_readyFor (by decide +kernel), ready_readyFor (by decide +kernel), by decide +kernel, by decide +kernel,
    by decide +kernel, by decide +kernel, ready_readyFor (by decide +kernel)⟩

/-- Queues at 3 and at 4; LEN at 1 and at 123. -/
theorem witness_TetherFramesArrive :
    let f : Frame := ⟨9, 0x10, [0x7D, 0x7E]⟩
    f.payload.length ≤ 120 ∧ (List.replicate 120 (0x7D : Byte)).length ≤ 120 ∧ up.tlp.framer = .hunt ∧ up.tlp.up = true ∧ f.kind ≠ 0x01 ∧ f.kind ≠ 0x02 ∧
    ({ up.tlp with requests := [f, f, f] } : TetherPort).requests.length ≤ 3 ∧
    4 ≤ ({ up.tlp with requests := [f, f, f, f] } : TetherPort).requests.length ∧ up.tlp.refusals ≤ 3 ∧
    4 ≤ ({ up.tlp with transmit := List.replicate 4 (.refusal f) } : TetherPort).refusals ∧
    State.reset.tlp.up = false ∧ State.reset.tlp.requests = [] ∧ State.reset.tlp.transmit = [] ∧
    ((1 : Byte).toNat < 2 ∨ 122 < (1 : Byte).toNat) ∧ ((123 : Byte).toNat < 2 ∨ 122 < (123 : Byte).toNat) ∧
    ([0, 0] : List Byte) ≠ crcBytes f.body := by decide +kernel

/-- The timer at its expiry; a message at its end and one microsecond before. -/
theorem witness_LinkLossAndMessages :
    up.tlp.up = true ∧ up.tlp.alive = some 2000000 ∧ 2000000 ≤ (up.timeBase + 2000000) % 2 ^ 64 ∧ up.hdp.op = none ∧
    moving.hdp.op = some ⟨.move, .tether, false⟩ ∧ moving.hdp.pan.state = .moving ∧ moving.hdp.tilt.state = .moving ∧
    moving.hdp.outcome = .reached ∧ up.tlp.line = none ∧
    (let cut (h : HeadPositioner) : State := after (.linkAliveTimeout 2000000) { moving with tlp := up.tlp, hdp := h }
     let waits := (waitingFrom homed).hdp
     (cut { moving.hdp with tilt := homed.hdp.tilt }).hdp.pan.state = .stopping ∧
     (cut { moving.hdp with tilt := homed.hdp.tilt }).hdp.tilt.state = .idle ∧
     (cut { moving.hdp with pan := seeking.hdp.pan, op := some ⟨.home, .tether, false⟩, outcome := .lost }).hdp.outcome
       = .lost ∧
     waits.atRest = true ∧ (cut waits).hdp.op = none ∧ (cut waits).hdp.pan.startPending = .clear ∧
     (cut waits).hdp.doneTether = some ⟨.move, .linkLost, some 100, some (-200), 2000⟩ ∧
     (cut waits).cnd.tether[11] = 1 ∧ (cut waits).cnd.carriage[11] = 0) ∧
    ({ up.tlp with transmit := [.attention] } : TetherPort).transmit = .attention :: [] ∧
    40 * 10 * 1000000 ≤ (6945 - 0) * 57600 ∧ (6944 - 0) * 57600 < 40 * 10 * 1000000 := by decide +kernel

theorem witness_CarriageTransactions :
    let f : Frame := ⟨9, 0x10, []⟩
    let r : PendingReply := ⟨⟨1, 0x90, [0]⟩, 3⟩
    State.reset.cgp.transaction = .absent ∧ State.reset.cgp.heldInReset = false ∧
    ({ State.reset.cgp with heldInReset := true } : CarriagePort).heldInReset = true ∧ f.payload.length ≤ 120 ∧
    listening.cgp.transaction = .active false ∧ listening.cgp.framer = .hunt ∧ listening.cgp.requests.length ≤ 3 ∧
    4 ≤ [f, f, f, f].length ∧ listening.cgp.refusals = [] ∧ listening.cgp.slot = none ∧
    ([0, 0] : List Byte) ≠ crcBytes f.body ∧ r.clocked + 4 = r.frame.payload.length + 6 ∧
    r.clocked < r.frame.payload.length + 6 ∧
    ({ listening.cgp with transaction := .active true, slot := some r } : CarriagePort).slot = some r ∧
    r.clocked + 1 ≤ r.frame.payload.length + 6 ∧
    (let long : PendingReply := ⟨⟨1, 0x90, List.replicate 49 0⟩, 3⟩
     long.clocked + (f.payload.length + 6) ≤ long.frame.payload.length + 6) ∧
    ({ listening.cgp with transaction := .ignored } : CarriagePort).transaction = .ignored := by decide +kernel

theorem witness_PortResetAndSurveyRestart :
    State.reset.cgp.heldInReset = false ∧ (after (.portReset 5) State.reset).cgp.heldInReset = true ∧
    (asks logged .tether 0x3F []).readyFor .tether ⟨7, 0x3F, []⟩ [] :=
  ⟨by decide +kernel, by decide +kernel, ready_readyFor (by decide +kernel)⟩

theorem witness_FramesSurviveTheWire :
    let f : Frame := ⟨0x7E, 0x7D, [0x7E, 0x7D]⟩
    f.payload.length ≤ 120 ∧ (List.replicate 120 (0x7E : Byte)).length ≤ 120 ∧ ([0, 0] : List Byte) ≠ crcBytes f.body := by decide +kernel

/-- A step from a state that meets an invariant: the next command raises the head's counts, time or queue. -/
theorem witness_EveryStepKeepsTheHeadRules : HeadOk homed ∧ ∃ t : State, step homed = .next t :=
  ⟨homed_headOk, _, rfl⟩

/-- Three stamps, frames 0 to 2, and both cursors on the first. -/
theorem witness_EveryStepKeepsTheStampRing : RingOk stamped ∧ ∃ t : State, step stamped = .next t := by
  refine ⟨⟨by decide +kernel, by decide +kernel, ?_⟩, _, rfl⟩
  intro l
  cases l <;> decide +kernel

theorem witness_EveryStepKeepsTheLog : LogOk logged.obl ∧ ∃ t : State, step logged = .next t := by
  refine ⟨?_, _, rfl⟩
  refine ⟨?_, ?_, ?_, ?_, ?_, ?_, ?_, ?_, ?_, ?_⟩ <;> decide +kernel

theorem witness_EveryStepKeepsThePorts : PortsOk up ∧ ∃ t : State, step up = .next t := by
  refine ⟨?_, _, rfl⟩
  refine ⟨?_, ?_, ?_, ?_, ?_, ?_, ?_, ?_, ?_⟩ <;> decide +kernel

/-- Every setting at its default lies in its range. -/
theorem defaults_settingsOk : SettingsOk Settings.defaults := by
  refine ⟨?_, by decide +kernel⟩
  intro k
  cases k with
  | row n field =>
    revert n
    cases field <;> decide +kernel
  | _ => decide +kernel

theorem witness_EveryStepKeepsTheBounds :
    SettingsOk running.set ∧ ReckonerOk running.chr ∧ PipelineOk running ∧ ∃ t : State, step running = .next t := by
  refine ⟨defaults_settingsOk, ?_, ?_, _, rfl⟩
  · refine ⟨?_, ?_, ?_, ?_, ?_, ?_, ?_, ?_, ?_⟩ <;> decide +kernel
  · refine ⟨?_, ?_, ?_, ?_⟩
    · show (running.ltm.ceiling = 1000)
      decide +kernel
    · exact ⟨by decide +kernel, by decide +kernel, by decide +kernel, by decide +kernel, by decide +kernel⟩
    · intro p h
      cases h
      exact ⟨by decide +kernel, by decide +kernel, by decide +kernel, by decide +kernel, by decide +kernel⟩
    · intro c h
      cases h

/-- The clauses' premises, each met by one change to the inputs of a computation. -/
theorem witness_LampPowerWithinBudget :
    let x := running.exposureInputs running.fxc.current.set
    x.strobe = true ∧ ({ x with strobe := false } : ExposureInputs).strobe = false ∧
    ({ x with source := .off } : ExposureInputs).source = .off ∧ ({ x with pfull := 0 } : ExposureInputs).pfull = 0 ∧
    ({ x with source := .manual } : ExposureInputs).source = .manual ∧ x.source = .auto ∧ x.still = none := by
  decide +kernel

theorem witness_RebaseZeroesTheResidual : (running.takeBatch (.rebase 7 0)).chr.v0 = some 0 := by decide +kernel

end Sys2Proof.Tests
end

