-- ==== Sys2Proof/Proofs/Quality.lean ====
section
/-! PROOFS. The quality of a reported chainage (spec/02 R43): one lemma for each of the first two tests of the table, and
one for the tests on the anchor's class, which the others come down to. -/

namespace Sys2Proof.Machine

/-- The rows of R43's table that read the anchor's class. -/
def StepClass.reportedQuality : StepClass → Quality
  | .track | .takeup | .retrieve | .datum => .good
  | .payout => .slack
  | .slip => .slip
  | .cableOnly => .cable

theorem State.inAcquire_iff (s : State) : s.inAcquire = true ↔ s.rin.machine = .acquire := beq_iff_eq

theorem State.quality_of_not_datumTaken {s : State} (h : s.chr.datumTaken = false) : s.quality = .noDatum := by
  simp [State.quality, h]

theorem State.quality_of_acquire {s : State} (taken : s.chr.datumTaken = true) (acquire : s.rin.machine = .acquire) :
    s.quality = .wheel := by
  simp [State.quality, taken, s.inAcquire_iff.mpr acquire]

theorem State.quality_of_not_acquire {s : State} (taken : s.chr.datumTaken = true)
    (received : s.rin.machine ≠ .acquire) : s.quality = s.chr.anchor.cls.reportedQuality := by
  have outside : ¬ s.inAcquire = true := mt s.inAcquire_iff.mp received
  unfold State.quality
  rw [if_neg (by simp [taken]), if_neg outside]
  cases s.chr.anchor.cls <;> rfl

theorem StepClass.reportedQuality_eq_good {c : StepClass} (h : c ∈ [StepClass.track, .takeup, .retrieve, .datum]) :
    c.reportedQuality = .good := by
  simp only [List.mem_cons, List.not_mem_nil, or_false] at h
  obtain rfl | rfl | rfl | rfl := h <;> rfl

/-- Settles O18: the first two tests are the lemmas on an untaken datum and on ACQUIRE; past both, the quality is that of
the anchor's class. -/
theorem qualityFollowsTheTable : Obligations.QualityFollowsTheTable := by
  intro s
  refine ⟨State.quality_of_not_datumTaken, State.quality_of_acquire, fun taken received => ?_⟩
  rw [State.quality_of_not_acquire taken received]
  refine ⟨StepClass.reportedQuality_eq_good, ?payout, ?slip, ?cableOnly⟩
  case payout | slip | cableOnly =>
    intro cls
    rw [cls]
    rfl

end Sys2Proof.Machine
end

