-- ==== Sys2Proof/Proofs/Conditions.lean ====
section
/-! PROOFS. Reading and acknowledging the conditions (spec/09 section 9.4): the fields of the content that both replies
share (spec/12 section 12.8), the step of each request, and the obligation from the two. -/

namespace Sys2Proof.Machine

/-! ## The counts of a link -/

@[simp] theorem Conditions.putCounts_counts (c : Conditions) (l : Link) (v : Vector Nat 16) :
    (c.putCounts l v).counts l = v := by cases l <;> rfl

theorem acknowledged_getElem (v : Vector Nat 16) (named : BitVec 16) (n : Fin 16) :
    (acknowledged v named)[n] = if named.getLsbD n.val then 0 else v[n] := by
  simp [acknowledged]

/-- A link's attention is told by its counts and its mask; a reply on either link changes neither. -/
theorem State.answered_attention (s : State) (l k : Link) (f : Frame) (st : Status) (content : List Byte) :
    (s.answered l f st content).attention k = s.attention k := by
  simp [State.answered, State.attention]

@[simp] theorem State.taken_cnd (s : State) (dt : Nat) (l : Link) (rest : List Frame) :
    (s.taken dt l rest).cnd = s.cnd := by simp [State.taken]

@[simp] theorem State.taken_set (s : State) (dt : Nat) (l : Link) (rest : List Frame) :
    (s.taken dt l rest).set = s.set := by simp [State.taken]

/-! ## The content of the replies (spec/12 section 12.8) -/

theorem countBytes_eq_map (v : Vector Nat 16) : countBytes v = v.toList.map (BitVec.ofNat 8) :=
  List.map_eq_flatMap.symm

@[simp] theorem countBytes_length (v : Vector Nat 16) : (countBytes v).length = 16 := by
  simp [countBytes_eq_map]

/-- A count that fits a byte is the byte at the place of its latch. -/
theorem byteAt_countBytes {v : Vector Nat 16} {n : Fin 16} (tail : List Byte) (fits : v[n] ≤ 255) :
    byteAt (countBytes v ++ tail) n.val = v[n] := by
  have byte : (countBytes v ++ tail)[n.val]? = some (BitVec.ofNat 8 v[n]) := by
    rw [List.getElem?_append_left (by simp), countBytes_eq_map]
    simp
  have small : v[n] % 2 ^ 8 = v[n] := Nat.mod_eq_of_lt (by omega)
  rw [byteAt, List.getD_eq_getElem?_getD, byte, Option.getD_some, BitVec.toNat_ofNat, small]

/-- What follows the sixteen counts: the mask, the attention and link state bits, and the port counters. -/
def State.conditionsTail (s : State) (l : Link) : List Byte :=
  u16 (s.set.mask l).toNat ++ flags [s.attention l, s.tlp.up] ++ (s.portCounters l).encode

theorem State.conditionsContent_eq (s : State) (l : Link) (v : Vector Nat 16) :
    s.conditionsContent l v = countBytes v ++ s.conditionsTail l := by
  simp [State.conditionsContent, State.conditionsTail]

theorem State.conditionsContent_fields (s : State) (l : Link) (v : Vector Nat 16) :
    (s.conditionsContent l v).length = 41 ∧
    (∀ n : Fin 16, v[n] ≤ 255 → byteAt (s.conditionsContent l v) n.val = v[n]) ∧
    (s.conditionsContent l v).drop 16 = s.conditionsTail l := by
  have tailLength : (s.conditionsTail l).length = 25 := rfl
  rw [s.conditionsContent_eq l v]
  refine ⟨?_, fun n fits => byteAt_countBytes _ fits, List.drop_left' (countBytes_length v)⟩
  rw [List.length_append, countBytes_length, tailLength]

/-- The content reads nothing that taking a request changes. -/
theorem State.taken_conditionsContent (s : State) (dt : Nat) (l : Link) (rest : List Frame) (v : Vector Nat 16) :
    (s.taken dt l rest).conditionsContent l v = s.conditionsContent l v := by
  cases l <;> rfl

/-- Replacing the counts and taking a request commute. -/
theorem State.taken_with_cnd (s : State) (dt : Nat) (l : Link) (rest : List Frame) (c : Conditions) :
    { s.taken dt l rest with cnd := c } = { s with cnd := c }.taken dt l rest := by
  cases l <;> rfl

/-! ## The two requests (spec/09 R173, R174) -/

theorem exec_ackConditions (dt : Nat) (l : Link) (s : State) :
    exec (.ackConditions dt l) s = execAckConditions dt l s := rfl

theorem exec_conditionsQuery (dt : Nat) (l : Link) (s : State) :
    exec (.conditionsQuery dt l) s = execConditionsQuery dt l s := rfl

theorem exec_ackConditions_ready {s : State} {l : Link} {tag : Byte} {p : List Byte} {rest : List Frame} (dt : Nat)
    (twoBytes : p.length = 2) (ready : s.readyFor l ⟨tag, 0x3D, p⟩ rest) :
    let cnd := s.cnd.putCounts l (acknowledged (s.cnd.counts l) (setAt p 0))
    exec (.ackConditions dt l) s
      = .next ({ s.taken dt l rest with cnd := cnd }.answered l ⟨tag, 0x3D, p⟩ .done
          ({ s with cnd := cnd }.conditionsContent l (s.cnd.counts l))) := by
  intro cnd
  have allowed : allowedOn 0x3D l = true := by cases l <;> rfl
  have formed : lengthFits 0x3D p = true := beq_iff_eq.mpr twoBytes
  have answer : answerAckConditions l p (s.taken dt l rest)
      = ⟨{ s.taken dt l rest with cnd := cnd }, .done, { s with cnd := cnd }.conditionsContent l (s.cnd.counts l)⟩ := by
    rw [← State.taken_conditionsContent { s with cnd := cnd } dt l rest, ← s.taken_with_cnd dt l rest cnd]
    simp [answerAckConditions, cnd]
  rw [exec_ackConditions, execAckConditions, requestStep, State.serve_passing dt _ ready rfl allowed formed, answer,
    Answer.payload_carrying _ _ rfl]
  rfl

theorem exec_conditionsQuery_ready {s : State} {l : Link} {tag : Byte} {rest : List Frame} (dt : Nat)
    (ready : s.readyFor l ⟨tag, 0x3C, []⟩ rest) :
    exec (.conditionsQuery dt l) s
      = .next ((s.taken dt l rest).answered l ⟨tag, 0x3C, []⟩ .done (s.conditionsContent l (s.cnd.counts l))) := by
  have allowed : allowedOn 0x3C l = true := by cases l <;> rfl
  rw [exec_conditionsQuery, execConditionsQuery, requestStep, State.serve_passing dt _ ready rfl allowed rfl,
    answerConditionsQuery, State.taken_cnd, s.taken_conditionsContent, Answer.payload_carrying _ _ rfl]
  rfl

/-- Settles O6: each request's step is the lemma on its service, the fields of its reply are those of the shared content,
and the attention after an acknowledgement is told by the counts it leaves. -/
theorem conditionRepliesAndAcknowledgement : Obligations.ConditionRepliesAndAcknowledgement := by
  intro dt s l tag p rest mask counters
  have maskOf : s.set.mask l = mask := by cases l <;> rfl
  have countersOf : (s.portCounters l).encode = counters := by cases l <;> rfl
  have tail (c : Conditions) : { s with cnd := c }.conditionsTail l
      = u16 mask.toNat ++ flags [attentionOf (c.counts l) mask, s.tlp.up] ++ counters := by
    rw [← maskOf, ← countersOf]
    rfl
  constructor
  case left =>
    intro twoBytes ready
    let v := acknowledged (s.cnd.counts l) (setAt p 0)
    let after : State := { s with cnd := s.cnd.putCounts l v }
    obtain ⟨len, bytes, behind⟩ := after.conditionsContent_fields l (s.cnd.counts l)
    refine ⟨v, after.conditionsContent l (s.cnd.counts l), ?_⟩
    intro t
    have attention : t.attention l = attentionOf v mask := by
      rw [State.answered_attention, ← maskOf]
      simp [State.attention]
    refine ⟨acknowledged_getElem _ _, exec_ackConditions_ready dt twoBytes ready, attention, ?line, len, bytes, ?drop⟩
    case line =>
      rintro rfl
      exact attention
    case drop => rw [behind, tail, Conditions.putCounts_counts]
  case right =>
    intro ready
    obtain ⟨len, bytes, behind⟩ := s.conditionsContent_fields l (s.cnd.counts l)
    exact ⟨_, exec_conditionsQuery_ready dt ready, len, bytes, behind.trans (tail s.cnd)⟩

end Sys2Proof.Machine
end

