-- ==== Sys2Proof/Proofs/Effects.lean ====
section
/-! PROOFS. What each command may change. `effect` is a command once its time has passed, `Touches` says which parts of
the state an operation may change, and `effect_touches` gives the frame of every command. The obligations on the step and
its queue follow; the invariants of the headline obligations use the frames for every command they are indifferent to. -/

namespace Sys2Proof.Machine

/-! ## A command once its time has passed -/

def effect (c : Instr) (s : State) : State :=
  match c with
  | .powerOn pins => { State.powerOn pins with pending := s.pending }
  | .reelReport _ rx => s.tetherReel rx
  | .presenceTimerExpiry _ => s.presenceExpiry
  | .wheelTransition _ wheel a b => s.wheelMoves wheel a b
  | .wheelHistorySample _ => s.wheelSample
  | .driveReport _ => s.serve .carriage 0x02 answerDriveReport
  | .driveFreshExpiry _ => s.driveStale
  | .frameBoundary _ => s.boundary
  | .sensorWriteStart _ => s.writeStarts
  | .sensorWriteComplete _ => s.writeCompletes
  | .commitDeadlineExpiry _ => s.commitExpires
  | .strobeWindowOpen _ => s.windowOpens
  | .strobeWindowClose _ => s.windowCloses
  | .thermalPollDue _ sdaClocks => s.pollDue sdaClocks
  | .pollTransactionEnd _ answer => s.pollTransactionEnd answer
  | .busTimeout _ => s.busTimeout
  | .headHistorySample _ => s.headSample
  | .axisStep _ axis => s.axisStep axis
  | .axisRest _ axis => s.axisRest axis
  | .indexPass _ axis => s.indexPass axis
  | .homingLimit _ axis => s.homingFails axis
  | .tetherFrameArrival _ rx => s.tetherArrival rx
  | .tetherFrameError _ rx => s.tetherError rx
  | .linkAliveTimeout _ => s.linkTimeout
  | .messageBegin _ => s.messageBegins
  | .messageEnd _ => s.messageEnds
  | .csFalling _ => { s with cgp := s.cgp.opens }
  | .carriageFrameArrival _ mosi => { s with cgp := s.cgp.arrival mosi }
  | .carriageFrameError _ mosi => { s with cgp := s.cgp.error mosi }
  | .csRising _ mosi => { s with cgp := s.cgp.closes mosi }
  | .replyDelivered _ mosi => { s with cgp := s.cgp.delivers mosi }
  | .portReset _ => s.portResets
  | .portResetRelease _ => s.portReleased
  | .requestBadKind _ link => s.serveBadKind link
  | .chainageQuery _ link => s.serve link 0x10 answerChainageQuery
  | .setDatum _ link => s.serve link 0x11 (answerSetDatum link)
  | .setSetting _ link => streamAfter link (fun s => s.serve link 0x18 (answerSetSetting link)) s
  | .getSetting _ link => s.serve link 0x19 answerGetSetting
  | .headHome _ link => s.serve link 0x20 answerHeadHome
  | .headMove _ link => s.serve link 0x21 answerHeadMove
  | .headStop _ link => s.serve link 0x22 answerHeadStop
  | .headPark _ link => s.serve link 0x23 answerHeadPark
  | .headRelease _ link => s.serve link 0x24 answerHeadRelease
  | .headQuery _ link => s.serve link 0x25 (answerHeadQuery link)
  | .lampQuery _ link => s.serve link 0x28 answerLampQuery
  | .still _ link => s.serve link 0x2C (answerStill link)
  | .markPoint _ link => s.serve link 0x30 (answerMarkPoint link)
  | .openObs _ link => s.serve link 0x31 (answerOpenObs link)
  | .closeObs _ link => s.serve link 0x32 answerCloseObs
  | .voidObs _ link => s.serve link 0x33 (answerVoidObs link)
  | .annotate _ link => s.serve link 0x34 answerAnnotate
  | .readLog _ link => s.serve link 0x35 answerReadLog
  | .trimLog _ link => s.serve link 0x36 answerTrimLog
  | .readStamps _ link => streamAfter link (fun s => s.serve link 0x38 (answerReadStamps link)) s
  | .conditionsQuery _ link => s.serve link 0x3C (answerConditionsQuery link)
  | .ackConditions _ link => s.serve link 0x3D (answerAckConditions link)
  | .restartSurvey _ link => s.serve link 0x3F answerRestartSurvey
  | .startupWriteComplete _ => s.startupWritten
  | .pixelArrival _ x y value => s.pixel x y value
  | .strayByte _ mosi => { s with cgp := s.cgp.strayByte mosi }

/-- Ties `effect` to the model: every command answers its effect on the state in which its time has passed. -/
theorem exec_eq_effect (c : Instr) (s : State) : exec c s = .next (effect c (s.elapse (elapsedBefore c))) := by
  cases c <;> rfl

/-! ## The parts of the state that the invariants read -/

inductive Part where
  | timeBase
  | chr
  | counter
  | clearance
  | pipeline
  | ltm
  | hdp
  | ring
  | obl
  | tether
  | carriage
  | set
deriving DecidableEq

/-- The transmit queue as it was, or with the one ATTENTION message that an UP tether may hold (spec/09 R172). -/
def TetherPort.Announces (t : TetherPort) (tx : List TxMessage) : Prop :=
  tx = t.transmit ∨ (t.up = true ∧ .attention ∉ t.transmit ∧ tx = t.transmit ++ [.attention])

@[simp] theorem TetherPort.announces_self (t : TetherPort) : t.Announces t.transmit := .inl rfl

/-- From `s` to `t` no part changes but the listed ones. The tether port counts as unchanged when its queue has gained an
ATTENTION message. -/
structure Touches (ps : List Part) (s t : State) : Prop where
  pending : t.pending = s.pending
  timeBase : .timeBase ∉ ps → t.timeBase = s.timeBase
  chr : .chr ∉ ps → t.chr = s.chr
  counter : .counter ∉ ps → t.fxc.counter = s.fxc.counter
  clearance : .clearance ∉ ps → t.fxc.clearance = s.fxc.clearance
  pipeline : .pipeline ∉ ps → t.fxc.rate30 = s.fxc.rate30 ∧ t.fxc.current = s.fxc.current ∧ t.fxc.ended = s.fxc.ended ∧
    t.fxc.commits = s.fxc.commits
  ltm : .ltm ∉ ps → t.ltm = s.ltm
  hdp : .hdp ∉ ps → t.hdp = s.hdp
  ring : .ring ∉ ps → t.stu.stamps = s.stu.stamps ∧ t.stu.cursorTether = s.stu.cursorTether ∧
    t.stu.cursorCarriage = s.stu.cursorCarriage
  obl : .obl ∉ ps → t.obl = s.obl
  tether : .tether ∉ ps → t.tlp.requests = s.tlp.requests ∧ t.tlp.up = s.tlp.up ∧ t.tlp.alive = s.tlp.alive ∧
    s.tlp.Announces t.tlp.transmit
  carriage : .carriage ∉ ps → t.cgp = s.cgp
  set : .set ∉ ps → t.set = s.set

theorem TetherPort.Announces.trans {t u : TetherPort} {tx : List TxMessage} (up : u.up = t.up)
    (first : t.Announces u.transmit) (second : u.Announces tx) : t.Announces tx := by
  rcases first with same | ⟨on, none, gained⟩
  · rcases second with rfl | ⟨on, none, gained⟩
    · exact .inl same
    · exact .inr ⟨up ▸ on, same ▸ none, same ▸ gained⟩
  · rcases second with rfl | ⟨_, absent, _⟩
    · exact .inr ⟨on, none, gained⟩
    · simp [gained] at absent

theorem Touches.refl (ps : List Part) (s : State) : Touches ps s s := by
  constructor <;> simp

theorem Touches.trans {ps : List Part} {s t u : State} (a : Touches ps s t) (b : Touches ps t u) : Touches ps s u where
  pending := b.pending.trans a.pending
  timeBase h := (b.timeBase h).trans (a.timeBase h)
  chr h := (b.chr h).trans (a.chr h)
  counter h := (b.counter h).trans (a.counter h)
  clearance h := (b.clearance h).trans (a.clearance h)
  pipeline h := by
    obtain ⟨rate, current, ended, commits⟩ := a.pipeline h
    rw [← rate, ← current, ← ended, ← commits]
    exact b.pipeline h
  ltm h := (b.ltm h).trans (a.ltm h)
  hdp h := (b.hdp h).trans (a.hdp h)
  ring h := by
    obtain ⟨stamps, tether, carriage⟩ := a.ring h
    rw [← stamps, ← tether, ← carriage]
    exact b.ring h
  obl h := (b.obl h).trans (a.obl h)
  tether h := by
    obtain ⟨requests, up, alive, first⟩ := a.tether h
    obtain ⟨requests', up', alive', second⟩ := b.tether h
    exact ⟨requests'.trans requests, up'.trans up, alive'.trans alive, first.trans up second⟩
  carriage h := (b.carriage h).trans (a.carriage h)
  set h := (b.set h).trans (a.set h)

/-- A longer list allows more. -/
theorem Touches.mono {ps qs : List Part} {s t : State} (a : Touches ps s t) (sub : ps ⊆ qs) : Touches qs s t where
  pending := a.pending
  timeBase h := a.timeBase fun m => h (sub m)
  chr h := a.chr fun m => h (sub m)
  counter h := a.counter fun m => h (sub m)
  clearance h := a.clearance fun m => h (sub m)
  pipeline h := a.pipeline fun m => h (sub m)
  ltm h := a.ltm fun m => h (sub m)
  hdp h := a.hdp fun m => h (sub m)
  ring h := a.ring fun m => h (sub m)
  obl h := a.obl fun m => h (sub m)
  tether h := a.tether fun m => h (sub m)
  carriage h := a.carriage fun m => h (sub m)
  set h := a.set fun m => h (sub m)

/-! ## Conditions -/

theorem State.afterAttention_announces (s : State) (was : Bool) :
    ∃ tx, s.tlp.Announces tx ∧ s.afterAttention was = { s with tlp := { s.tlp with transmit := tx } } := by
  unfold State.afterAttention State.placeAttention
  split
  · next turned =>
    split
    · exact ⟨_, .inl rfl, rfl⟩
    · next absent =>
      simp only [Bool.and_eq_true, List.contains_iff_mem] at turned absent
      exact ⟨_, .inr ⟨turned.2, absent, rfl⟩, rfl⟩
  · exact ⟨_, .inl rfl, rfl⟩

theorem Touches.ofAnnounces {s t : State} {cnd : Conditions} {tx : List TxMessage} (announces : s.tlp.Announces tx)
    (changed : t = { s with cnd := cnd, tlp := { s.tlp with transmit := tx } }) : Touches [] s t := by
  subst changed
  constructor <;> simp [announces]

theorem State.countFor_touches (c : Condition) (s : State) (l : Link) : Touches [] s (s.countFor c l) := by
  let counted : State := { s with cnd := s.cnd.putCounts l ((s.cnd.counts l).set c.latch (sat8 (s.cnd.counts l)[c.latch])) }
  obtain ⟨tx, announces, changed⟩ := counted.afterAttention_announces (s.attention .tether)
  exact .ofAnnounces (s := s) announces changed

theorem State.raiseFor_touches (s : State) (c : Condition) (named : Link) : Touches [] s (s.raiseFor c named) := by
  unfold State.raiseFor
  generalize c.audience named = links
  induction links generalizing s with
  | nil => exact .refl _ _
  | cons l links ih => exact (State.countFor_touches c s l).trans (ih _)

theorem State.raise_touches (s : State) (c : Condition) : Touches [] s (s.raise c) := s.raiseFor_touches c _

theorem State.raiseAll_touches (s : State) (cs : List Condition) : Touches [] s (s.raiseAll cs) := by
  unfold State.raiseAll
  induction cs generalizing s with
  | nil => exact .refl _ _
  | cons c cs ih => exact (s.raise_touches c).trans (ih _)

theorem State.raiseFor_keeps (s : State) (c : Condition) (named : Link) (ps : List Part) :
    Touches ps s (s.raiseFor c named) := (s.raiseFor_touches c named).mono (List.nil_subset _)

theorem State.raise_keeps (s : State) (c : Condition) (ps : List Part) : Touches ps s (s.raise c) :=
  s.raiseFor_keeps c _ ps

theorem State.raiseAll_keeps (s : State) (cs : List Condition) (ps : List Part) : Touches ps s (s.raiseAll cs) :=
  (s.raiseAll_touches cs).mono (List.nil_subset _)

end Sys2Proof.Machine
end

