-- ==== Sys2Proof/Proofs/Frames.lean ====
section
/-! PROOFS. The frame of each operation of the model and, from them, of every command (`effect_touches`). -/

namespace Sys2Proof.Machine

/-! ## The Reckoner and the reel (spec/01, spec/02) -/

theorem State.takeDatum_touches (s : State) (c : Reckoner) : Touches [.chr, .obl] s (s.takeDatum c) := by
  have taken : Touches [.chr, .obl] s { s with chr := c } := by constructor <;> simp
  have raised := taken.trans (State.raise_keeps _ .datumTaken _)
  have noted (t : State) (o : ObsLog) : Touches [.chr, .obl] t { t with obl := o } := by constructor <;> simp
  exact raised.trans (noted _ _)

theorem State.settledItem_touches (s : State) (dir : Option Direction) (count : Count) (time : Nat) :
    Touches [.chr, .obl] s (s.settledItem dir count time) := by
  unfold State.settledItem
  split
  · exact s.takeDatum_touches _
  · have moved (c : Reckoner) : Touches [.chr, .obl] s { s with chr := c } := by constructor <;> simp
    exact (moved _).trans (State.raiseAll_keeps _ _ _)

theorem State.takeBatch_touches (s : State) (b : Batch) : Touches [.chr, .obl] s (s.takeBatch b) := by
  have moved (t : State) (c : Reckoner) : Touches [.chr, .obl] t { t with chr := c } := by constructor <;> simp
  have checked (t : State) : Touches [.chr, .obl] t t.checkpoint := by constructor <;> simp [State.checkpoint]
  have rebased (t : State) (count : Count) (time : Nat) : Touches [.chr, .obl] t (t.rebaseItem count time) := by
    constructor <;> simp [State.rebaseItem]
  have started := (moved s (s.chr.begin_ s.set).1).trans (State.raiseAll_keeps _ (s.chr.begin_ s.set).2 _)
  cases b with
  | rebase count time => exact (started.trans (rebased _ count time)).trans (checked _)
  | step n count time =>
    exact (((started.trans (moved _ _)).trans (State.raiseAll_keeps _ _ _)).trans
      (State.settledItem_touches _ _ count time)).trans (checked _)

theorem State.reelArrival_touches (s : State) (payload : List Byte) :
    Touches [.chr, .obl] s (s.reelArrival payload) := by
  have judged (t : State) (r : ReelInput) : Touches [.chr, .obl] t { t with rin := r } := by constructor <;> simp
  unfold State.reelArrival
  split
  · exact judged _ _
  · dsimp only
    split
    · exact judged _ _
    · refine Touches.trans (Touches.trans ?_ (State.takeBatch_touches _ _)) (judged _ _)
      split
      · exact s.raise_keeps _ _
      · exact .refl _ _

theorem State.presenceExpiry_touches (s : State) : Touches [.chr, .obl] s s.presenceExpiry := by
  have updated (r : ReelInput) : Touches [.chr, .obl] s { s with rin := r } := by constructor <;> simp
  have held (t : State) (c : Reckoner) : Touches [.chr, .obl] t { t with chr := c } := by constructor <;> simp
  unfold State.presenceExpiry
  split
  · have noticed (t : State) : Touches [.chr, .obl] t t.acquireNotice := by
      unfold State.acquireNotice
      dsimp only
      split
      · exact (held _ _).trans (State.takeDatum_touches _ _)
      · exact held _ _
    exact ((updated _).trans (State.raise_keeps _ .reelLost _)).trans (noticed _)
  · exact .refl _ _

theorem State.wheelMoves_touches (s : State) (k : Wheel) (a b : Bool) : Touches [] s (s.wheelMoves k a b) := by
  have moved (w : WheelCounter) : Touches [] s { s with wct := w } := by constructor <;> simp
  unfold State.wheelMoves
  dsimp only
  split
  · exact (moved _).trans (State.raise_touches _ _)
  · exact moved _

theorem State.wheelSample_touches (s : State) : Touches [] s s.wheelSample := by
  unfold State.wheelSample
  split <;> constructor <;> simp

theorem State.driveStale_touches (s : State) : Touches [] s s.driveStale := by
  unfold State.driveStale
  split <;> constructor <;> simp

/-! ## Frames, lamps and the thermal monitor (spec/03, spec/04) -/

theorem State.streamDecision_touches (s : State) : Touches [.ring] s s.streamDecision := by
  unfold State.streamDecision State.sendStamp
  split
  · dsimp only
    split <;> constructor <;> simp
  · exact .refl _ _

theorem State.lapLink_touches (s : State) (gone : Count) (l : Link) : Touches [.ring] s (s.lapLink gone l) := by
  have moved (u : StampUnit) : Touches [.ring] s { s with stu := u } := by constructor <;> simp
  unfold State.lapLink
  dsimp only
  split
  · split
    · exact moved _
    · exact (moved _).trans (State.raiseFor_keeps _ _ _ _)
  · exact .refl _ _

theorem State.lapOldest_touches (s : State) : Touches [.ring] s s.lapOldest := by
  unfold State.lapOldest
  split
  · exact .refl _ _
  · split
    · exact .refl _ _
    · have dropped (u : StampUnit) : Touches [.ring] s { s with stu := u } := by constructor <;> simp
      exact ((dropped _).trans (State.lapLink_touches _ _ _)).trans (State.lapLink_touches _ _ _)

theorem State.stillWritten_touches (s : State) (frame : Count) : Touches [] s (s.stillWritten frame) := by
  have written (p : Option PendingStill) : Touches [] s { s with fxc := { s.fxc with pendingStill := p } } := by
    constructor <;> simp
  unfold State.stillWritten
  split
  · split
    · exact (written _).trans (State.raiseFor_touches _ _ _)
    · exact .refl _ _
  · exact .refl _ _

theorem State.stampFrame_touches (s : State) (f : FrameSet) : Touches [.ring] s (s.stampFrame f) := by
  have cleared : Touches [.ring] s { s with stu := { s.stu with pendingMark := none } } := by constructor <;> simp
  have joined (t : State) (u : StampUnit) : Touches [.ring] t { t with stu := u } := by constructor <;> simp
  have written (t : State) (st : Stamp) : Touches [.ring] t (t.writeStamp st) :=
    t.lapOldest_touches.trans (joined _ _)
  have composed (t : State) (st : Stamp) (u : Option Int) (m : Option Mark) : Touches [.ring] t (t.compose st u m) := by
    constructor <;> simp [State.compose]
  exact ((cleared.trans (written _ _)).trans (composed _ _ _ _)).trans
    ((State.stillWritten_touches _ _).mono (List.nil_subset _))

theorem State.checkLimited_touches (s : State) (f : FrameSet) : Touches [] s (s.checkLimited f) := by
  have noted (b : Bool) : Touches [] s { s with fxc := { s.fxc with prevLimited := b } } := by constructor <;> simp
  unfold State.checkLimited
  dsimp only
  split
  · exact (noted _).trans (State.raise_touches _ _)
  · exact noted _

theorem State.boundary_touches (s : State) : Touches [.counter, .pipeline, .ring] s s.boundary := by
  unfold State.boundary
  split
  · exact .refl _ _
  · have formed : Touches [.counter, .pipeline, .ring] s s.formStats := by constructor <;> simp [State.formStats]
    have advanced (t : State) (slot : PipeSlot) : Touches [.counter, .pipeline, .ring] t (t.advanceFrame slot) := by
      constructor <;> simp [State.advanceFrame]
    have ended := ((formed.trans ((State.checkLimited_touches _ s.fxc.endingSlot.set).mono (List.nil_subset _))).trans
      ((State.stampFrame_touches _ s.fxc.endingSlot.set).mono (by simp))).trans (advanced _ s.fxc.endingSlot)
    have timed (t : State) : Touches [.counter, .pipeline, .ring] t t.timeWindow := by
      constructor <;> simp [State.timeWindow]
    have streamed (t : State) : Touches [.counter, .pipeline, .ring] t t.timeWindow.streamDecision :=
      (timed t).trans ((State.streamDecision_touches _).mono (by simp))
    refine Touches.trans (ended.trans ?_) (streamed _)
    split <;> constructor <;> simp [State.placeStartUp, State.computeSet]

theorem State.writeStarts_touches (s : State) : Touches [] s s.writeStarts := by
  unfold State.writeStarts
  split <;> constructor <;> simp

theorem State.commitOutcome_touches (s : State) (c : Commit) (rest : List Commit) (slot : PipeSlot) :
    Touches [.pipeline, .clearance, .hdp] s (s.commitOutcome c rest slot) := by
  have placed (p : SensorPort) (f : FrameTimer) (l : LampDriver) (counter : f.counter = s.fxc.counter) :
      Touches [.pipeline, .clearance, .hdp] s { s with ssp := p, fxc := f, ldr := l } := by
    constructor <;> simp [counter]
  have counterKept : ({ s.fxc with commits := rest }.place c.age slot).counter = s.fxc.counter := by
    unfold FrameTimer.place
    split <;> rfl
  have cleared (t : State) : Touches [.pipeline, .clearance, .hdp] t (t.clearanceAt c slot.set) := by
    unfold State.clearanceAt State.giveClearance
    split <;> constructor <;> simp
  exact (placed _ _ _ counterKept).trans (cleared _)

theorem State.writeCompletes_touches (s : State) : Touches [.pipeline, .clearance, .hdp] s s.writeCompletes := by
  unfold State.writeCompletes
  split
  · split
    · exact s.commitOutcome_touches _ _ _
    · exact .refl _ _
  · exact .refl _ _

theorem State.commitExpires_touches (s : State) : Touches [.pipeline, .clearance, .hdp] s s.commitExpires := by
  unfold State.commitExpires
  split
  · split
    · exact s.commitOutcome_touches _ _ _
    · exact .refl _ _
  · exact .refl _ _

theorem State.windowOpens_touches (s : State) : Touches [] s s.windowOpens := by
  unfold State.windowOpens
  dsimp only
  split
  · split <;> constructor <;> simp
  · exact .refl _ _
  · exact .refl _ _

theorem State.windowCloses_touches (s : State) : Touches [] s s.windowCloses := by
  unfold State.windowCloses
  split
  · split <;> constructor <;> simp
  · exact .refl _ _
  · exact .refl _ _

theorem State.pollEnds_touches (s : State) (r : ThermalMonitor × List Condition) : Touches [.ltm] s (s.pollEnds r) :=
  (by constructor <;> simp : Touches [.ltm] s { s with ltm := r.1 }).trans (State.raiseAll_keeps _ _ _)

theorem State.pollDue_touches (s : State) (sdaClocks : Nat) : Touches [.ltm] s (s.pollDue sdaClocks) := by
  unfold State.pollDue
  split
  · dsimp only
    split
    · constructor <;> simp
    · split
      · exact s.pollEnds_touches _
      · constructor <;> simp
  · exact .refl _ _

theorem State.pollTransactionEnd_touches (s : State) (a : SensorAnswer) : Touches [.ltm] s (s.pollTransactionEnd a) := by
  unfold State.pollTransactionEnd
  split
  · exact .refl _ _
  · dsimp only
    split <;> exact s.pollEnds_touches _

theorem State.busTimeout_touches (s : State) : Touches [.ltm] s s.busTimeout := by
  unfold State.busTimeout
  split
  · exact .refl _ _
  · split
    · exact s.pollEnds_touches _
    · exact .refl _ _

theorem State.startupWritten_touches (s : State) : Touches [] s s.startupWritten := by
  unfold State.startupWritten
  split
  · split <;> constructor <;> simp
  · exact .refl _ _

theorem State.pixel_touches (s : State) (x y : Nat) (value : BitVec 10) : Touches [] s (s.pixel x y value) := by
  unfold State.pixel
  split <;> constructor <;> simp

/-! ## The head (spec/05) -/

theorem Touches.ofHead (s : State) (h : HeadPositioner) : Touches [.hdp, .clearance] s { s with hdp := h } := by
  constructor <;> simp

theorem State.askClearance_touches (s : State) : Touches [.hdp, .clearance] s s.askClearance := by
  unfold State.askClearance
  split
  · split <;> constructor <;> simp
  · exact .refl _ _

theorem State.endOperation_touches (s : State) : Touches [.hdp, .clearance] s s.endOperation := by
  unfold State.endOperation
  split
  · exact .refl _ _
  · exact (Touches.ofHead _ _).trans (State.raiseFor_keeps _ _ _ _)

theorem State.settleHead_touches (s : State) : Touches [.hdp, .clearance] s s.settleHead := by
  unfold State.settleHead
  refine Touches.trans (t := if s.hdp.finished = true then s.endOperation else s) ?_ ?_
  · split
    · exact s.endOperation_touches
    · exact .refl _ _
  · dsimp only
    generalize (if s.hdp.finished = true then s.endOperation else s) = t
    split <;> constructor <;> simp

theorem State.noteRest_touches (s : State) : Touches [.hdp, .clearance] s s.noteRest := by
  unfold State.noteRest
  split
  · exact .ofHead _ _
  · exact .refl _ _

theorem State.axisRests_touches (s : State) (ax : Axis) : Touches [.hdp, .clearance] s (s.axisRests ax) :=
  (((Touches.ofHead _ _).trans (State.askClearance_touches _)).trans (State.noteRest_touches _)).trans
    (State.settleHead_touches _)

theorem State.axisStep_touches (s : State) (ax : Axis) : Touches [.hdp, .clearance] s (s.axisStep ax) := by
  unfold State.axisStep State.rangeEnd
  dsimp only
  split
  · split
    · split
      · exact (Touches.ofHead _ _).trans (State.axisRests_touches _ _)
      · exact .ofHead _ _
    · exact .ofHead _ _
  · exact .refl _ _

theorem State.axisRest_touches (s : State) (ax : Axis) : Touches [.hdp, .clearance] s (s.axisRest ax) := by
  unfold State.axisRest
  dsimp only
  split
  · exact (Touches.ofHead _ _).trans (State.axisRests_touches _ _)
  · exact .refl _ _

theorem State.stopOperation_touches (s : State) (outcome : HeadOutcome) :
    Touches [.hdp, .clearance] s (s.stopOperation outcome) := by
  unfold State.stopOperation
  split
  · exact .refl _ _
  · split
    · exact .refl _ _
    · exact (Touches.ofHead _ _).trans (State.settleHead_touches _)

theorem State.homingFails_touches (s : State) (ax : Axis) : Touches [.hdp, .clearance] s (s.homingFails ax) := by
  unfold State.homingFails
  dsimp only
  split
  · exact (Touches.ofHead _ _).trans (State.raise_keeps _ _ _)
  · exact .refl _ _

theorem State.indexMismatch_touches (s : State) (ax : Axis) : Touches [.hdp, .clearance] s (s.indexMismatch ax) := by
  unfold State.indexMismatch
  refine Touches.trans ?_ (State.settleHead_touches _)
  split
  · exact (Touches.ofHead _ _).trans (State.raise_keeps _ _ _)
  · exact ((Touches.ofHead _ _).trans (State.raise_keeps _ _ _)).trans (State.noteRest_touches _)

theorem State.indexPass_touches (s : State) (ax : Axis) : Touches [.hdp, .clearance] s (s.indexPass ax) := by
  have judged (t : State) (a : AxisRecord) (q : Int) : Touches [.hdp, .clearance] t
      (if a.seeking then { t with hdp := t.hdp.putAxis ax (a.found q) }
        else match a.pos with
          | none => t
          | some p =>
            if indexError ax p q ≤ 20 then { t with hdp := t.hdp.putAxis ax (a.correct ax p q) } else t.indexMismatch ax) := by
    split
    · exact .ofHead _ _
    · split
      · exact .refl _ _
      · split
        · exact .ofHead _ _
        · exact t.indexMismatch_touches ax
  cases ax with
  | pan => exact judged s _ _
  | tilt => exact (Touches.ofHead _ _).trans (judged _ _ _)

theorem State.headSample_touches (s : State) : Touches [.hdp, .clearance] s s.headSample := by
  unfold State.headSample
  split
  · exact .ofHead _ _
  · exact .refl _ _

theorem State.headHome_touches (s : State) : Touches [.hdp, .clearance] s s.headHome.1 := by
  unfold State.headHome
  split
  · exact .refl _ _
  · split
    · exact .refl _ _
    · dsimp only
      exact (Touches.ofHead _ _).trans (State.askClearance_touches _)

theorem State.yieldToMove_touches (s : State) : Touches [.hdp, .clearance] s s.yieldToMove := by
  unfold State.yieldToMove
  split
  · exact .refl _ _
  · split
    · exact s.endOperation_touches
    · split
      · exact .refl _ _
      · exact (Touches.ofHead _ _).trans (State.endOperation_touches _)

theorem State.takeMove_touches (s : State) (pan tilt : Option Int) (percent : Nat) :
    Touches [.hdp, .clearance] s (s.takeMove pan tilt percent) := by
  unfold State.takeMove
  split
  · exact .ofHead _ _
  · have yielded : Touches [.hdp, .clearance] s s.advanceHead.yieldToMove :=
      (Touches.ofHead _ _).trans (State.yieldToMove_touches _)
    exact ((yielded.trans (.ofHead _ _)).trans (State.askClearance_touches _)).trans (State.settleHead_touches _)

theorem State.headMove_touches (s : State) (pan tilt : Option Int) (percent : Nat) :
    Touches [.hdp, .clearance] s (s.headMove pan tilt percent).1 := by
  unfold State.headMove
  dsimp only
  split
  · exact .refl _ _
  · split
    · exact .refl _ _
    · split
      · exact .refl _ _
      · exact s.takeMove_touches _ _ _

theorem State.headStop_touches (s : State) : Touches [.hdp, .clearance] s s.headStop.1 := by
  unfold State.headStop
  split
  · exact .refl _ _
  · exact s.stopOperation_touches _

theorem State.headPark_touches (s : State) : Touches [.hdp, .clearance] s s.headPark := by
  have superseded (t : State) : Touches [.hdp, .clearance] t t.supersede := by
    unfold State.supersede
    split
    · exact .refl _ _
    · exact (Touches.ofHead _ _).trans (State.endOperation_touches _)
  unfold State.headPark
  dsimp only
  split
  · exact .ofHead _ _
  · have yielded := ((Touches.ofHead s { s.hdp with lock := true }).trans
      (Touches.ofHead _ _ : Touches _ _ (State.advanceHead _))).trans (superseded _)
    exact ((yielded.trans (.ofHead _ _)).trans (State.askClearance_touches _)).trans (State.settleHead_touches _)

theorem State.headRelease_touches (s : State) : Touches [.hdp, .clearance] s s.headRelease := by
  unfold State.headRelease
  dsimp only
  split
  · exact (Touches.ofHead _ _).trans (State.stopOperation_touches _ _)
  · exact .ofHead _ _

theorem State.headLinkLost_touches (s : State) : Touches [.hdp, .clearance] s s.headLinkLost := by
  unfold State.headLinkLost
  split
  · exact .refl _ _
  · split
    · exact s.stopOperation_touches _
    · exact .refl _ _

/-! ## The ports (spec/10) -/

theorem State.placeAttention_touches (s : State) : Touches [.tether] s s.placeAttention := by
  unfold State.placeAttention
  split <;> constructor <;> simp

theorem State.tetherValid_touches (s : State) : Touches [.tether, .ring] s s.tetherValid := by
  have updated (t : State) (l : LampDriver) (p : TetherPort) : Touches [.tether, .ring] t { t with ldr := l, tlp := p } := by
    constructor <;> simp
  unfold State.tetherValid
  dsimp only
  split
  · exact updated s s.ldr _
  · unfold State.becomeUp State.clearOverride
    refine Touches.trans ?_ ((State.streamDecision_touches _).mono (by simp))
    split
    · exact (updated s _ _).trans ((State.placeAttention_touches _).mono (by simp))
    · exact updated s _ _

theorem State.tetherReel_touches (s : State) (rx : List Byte) :
    Touches [.tether, .ring, .chr, .obl] s (s.tetherReel rx) := by
  unfold State.tetherReel
  split
  · split
    · have fed (g : Framer) : Touches [.tether, .ring, .chr, .obl] s (s.putTetherFramer g) := by
        constructor <;> simp [State.putTetherFramer]
      exact ((fed _).trans ((State.tetherValid_touches _).mono (by simp))).trans
        ((State.reelArrival_touches _ _).mono (by simp))
    · exact .refl _ _
  · exact .refl _ _

theorem State.tetherArrival_touches (s : State) (rx : List Byte) :
    Touches [.tether, .ring] s (s.tetherArrival rx) := by
  unfold State.tetherArrival
  split
  · split
    · exact .refl _ _
    · have fed (g : Framer) : Touches [.tether, .ring] s (s.putTetherFramer g) := by
        constructor <;> simp [State.putTetherFramer]
      have queued (t : State) (p : TetherPort) : Touches [.tether, .ring] t { t with tlp := p } := by
        constructor <;> simp
      exact ((fed _).trans (State.tetherValid_touches _)).trans (queued _ _)
  · exact .refl _ _

theorem State.tetherError_touches (s : State) (rx : List Byte) : Touches [] s (s.tetherError rx) := by
  unfold State.tetherError
  split
  · split
    · constructor <;> simp [TetherPort.Announces]
    · exact .refl _ _
  · exact .refl _ _

theorem State.linkTimeout_touches (s : State) : Touches [.tether, .hdp, .clearance] s s.linkTimeout := by
  unfold State.linkTimeout
  split
  · exact Touches.trans (by constructor <;> simp) ((State.headLinkLost_touches _).mono (by simp))
  · exact .refl _ _

theorem State.messageBegins_touches (s : State) : Touches [.tether] s s.messageBegins := by
  unfold State.messageBegins
  split
  · constructor <;> simp
  · exact .refl _ _

theorem State.messageEnds_touches (s : State) : Touches [.ring] s s.messageEnds := by
  unfold State.messageEnds
  split
  · exact .refl _ _
  · split
    · refine Touches.trans ?_ (State.streamDecision_touches _)
      split <;> constructor <;> simp [TetherPort.Announces]
    · exact .refl _ _

theorem Touches.ofCarriage (s : State) (p : CarriagePort) : Touches [.carriage] s { s with cgp := p } := by
  constructor <;> simp

theorem State.portResets_touches (s : State) : Touches [.carriage, .hdp, .ring, .set] s s.portResets := by
  unfold State.portResets State.carriageReset
  split
  · exact .refl _ _
  · constructor <;> simp

theorem State.putRequests_touches (s : State) (l : Link) (q : List Frame) :
    Touches [.tether, .carriage] s (s.putRequests l q) := by
  cases l <;> constructor <;> simp [State.putRequests]

theorem State.reply_touches (s : State) (l : Link) (f : Frame) : Touches [.tether, .carriage] s (s.reply l f) := by
  cases l <;> constructor <;> simp [State.reply]

/-- A served request changes its port and what its block changes. -/
theorem State.serve_touches {ps : List Part} (s : State) (l : Link) (kind : Byte) (act : List Byte → State → Answer)
    (acts : ∀ p t, Touches ps t (act p t).state) : Touches (.tether :: .carriage :: ps) s (s.serve l kind act) := by
  have answered (t : State) (f : Frame) : Touches ps t (t.answer l f act).state := by
    unfold State.answer
    split
    · exact .refl _ _
    · split
      · exact .refl _ _
      · exact acts _ _
  unfold State.serve
  split
  · exact .refl _ _
  · split
    · exact (((State.putRequests_touches _ _ _).mono (by simp)).trans ((answered _ _).mono (by simp))).trans
        ((State.reply_touches _ _ _).mono (by simp))
    · exact .refl _ _

/-- A served request keeps what its block keeps and the port has no part in. -/
theorem State.serve_keeps {keeps : State → Prop} {s : State} {l : Link} {kind : Byte} {act : List Byte → State → Answer}
    (ports : ∀ t u, Touches [.tether, .carriage] t u → keeps t → keeps u)
    (acts : ∀ p t, keeps t → keeps (act p t).state) (ok : keeps s) : keeps (s.serve l kind act) := by
  have answered (t : State) (f : Frame) (ok : keeps t) : keeps (t.answer l f act).state := by
    unfold State.answer
    split
    · exact ok
    · split
      · exact ok
      · exact acts _ _ ok
  unfold State.serve
  split
  · exact ok
  · split
    · exact ports _ _ (State.reply_touches _ _ _) (answered _ _ (ports _ _ (State.putRequests_touches _ _ _) ok))
    · exact ok

theorem State.serveBadKind_touches (s : State) (l : Link) : Touches [.tether, .carriage] s (s.serveBadKind l) := by
  unfold State.serveBadKind
  split
  · exact .refl _ _
  · split
    · exact (State.putRequests_touches _ _ _).trans (State.reply_touches _ _ _)
    · exact .refl _ _

theorem streamAfter_touches {ps : List Part} {l : Link} {act : State → State} {s : State} (acts : Touches ps s (act s)) :
    Touches (.ring :: ps) s (streamAfter l act s) := by
  unfold streamAfter
  dsimp only
  split
  · exact (acts.mono (by simp)).trans ((State.streamDecision_touches _).mono (by simp))
  · exact acts.mono (by simp)

/-! ## The answers of the blocks -/

theorem answerDriveReport_touches (p : List Byte) (s : State) : Touches [] s (answerDriveReport p s).state := by
  unfold answerDriveReport
  split
  · exact .refl _ _
  · have noted (t : State) (demand : Nat) : Touches [] t (t.compareDemand demand) := by
      have flagged (b : Bool) : Touches [] t { t with ldr := { t.ldr with overDemand := b } } := by constructor <;> simp
      unfold State.compareDemand
      dsimp only
      split
      · exact (flagged _).trans (State.raise_touches _ _)
      · exact flagged _
    have taken (d : DriveState) : Touches [] s { s with drv := d } := by constructor <;> simp
    exact (taken _).trans (noted _ _)

theorem answerSetDatum_touches (l : Link) (p : List Byte) (s : State) :
    Touches [.chr, .obl] s (answerSetDatum l p s).state := by
  unfold answerSetDatum
  split
  · exact .refl _ _
  · dsimp only
    split
    · exact s.takeDatum_touches _
    · constructor <;> simp

theorem answerSetSetting_touches (l : Link) (p : List Byte) (s : State) :
    Touches [.set] s (answerSetSetting l p s).state := by
  have written (r : SettingRef) (v : SettingValue) : Touches [.set] s (s.writeSetting r v) := by
    have put : Touches [.set] s { s with set := s.set.put r v } := by constructor <;> simp
    obtain ⟨tx, announces, changed⟩ := State.afterAttention_announces { s with set := s.set.put r v } (s.attention .tether)
    exact put.trans ((Touches.ofAnnounces announces changed).mono (List.nil_subset _))
  unfold answerSetSetting
  split
  · exact .refl _ _
  · split
    · exact .refl _ _
    · split
      · exact .refl _ _
      · split
        · exact .refl _ _
        · exact written _ _

theorem answerGetSetting_touches (p : List Byte) (s : State) : Touches [] s (answerGetSetting p s).state := by
  unfold answerGetSetting
  split <;> exact .refl _ _

theorem FrameTimer.askStill_fields (f : FrameTimer) (l : Link) (clean : Bool) :
    ∃ still, (f.askStill l clean).1 = { f with pendingStill := still } := by
  unfold FrameTimer.askStill
  split
  · exact ⟨_, rfl⟩
  · exact ⟨_, rfl⟩

theorem State.autoStill_fields (s : State) (l : Link) :
    ∃ still, (s.autoStill l).1 = { s.fxc with pendingStill := still } := by
  unfold State.autoStill
  split
  · exact ⟨_, rfl⟩
  · exact s.fxc.askStill_fields _ _

theorem answerStill_touches (l : Link) (p : List Byte) (s : State) : Touches [] s (answerStill l p s).state := by
  unfold answerStill
  split
  · exact .refl _ _
  · obtain ⟨still, changed⟩ := s.fxc.askStill_fields l (decide (byteAt p 0 ≠ 0))
    dsimp only
    rw [changed]
    constructor <;> simp

theorem State.createObservation_touches (s : State) (l : Link) (kind : ObsKind) (code : List Byte) :
    Touches [.obl] s (s.createObservation l kind code).1 := by
  obtain ⟨still, changed⟩ := s.autoStill_fields l
  unfold State.createObservation State.handMark
  dsimp only
  rw [changed]
  have made (o : ObsLog) (u : StampUnit) (ring : u.stamps = s.stu.stamps ∧ u.cursorTether = s.stu.cursorTether ∧
      u.cursorCarriage = s.stu.cursorCarriage) :
      Touches [.obl] s { s with fxc := { s.fxc with pendingStill := still }, stu := u, obl := o } := by
    constructor <;> simp [ring]
  generalize joined : s.obl.append _ = o
  have made := made o { s.stu with pendingMark := some ⟨s.obl.nextId, code⟩ } ⟨rfl, rfl, rfl⟩
  split
  · exact made.trans (State.raise_keeps _ _ _)
  · exact made

theorem answerMarkPoint_touches (l : Link) (p : List Byte) (s : State) :
    Touches [.obl] s (answerMarkPoint l p s).state := by
  unfold answerMarkPoint State.markPoint
  dsimp only
  split
  · constructor <;> simp [State.handMark]
  · split
    · exact .refl _ _
    · exact s.createObservation_touches _ _ _

theorem answerOpenObs_touches (l : Link) (p : List Byte) (s : State) : Touches [.obl] s (answerOpenObs l p s).state := by
  unfold answerOpenObs State.openObs
  split
  · exact .refl _ _
  · split
    · exact .refl _ _
    · exact s.createObservation_touches _ _ _

theorem Touches.ofLog (s : State) (o : ObsLog) : Touches [.obl] s { s with obl := o } := by
  constructor <;> simp

theorem answerCloseObs_touches (p : List Byte) (s : State) : Touches [.obl] s (answerCloseObs p s).state := by
  unfold answerCloseObs State.closeObs
  dsimp only
  split
  · exact .refl _ _
  · split
    · exact .refl _ _
    · split
      · exact .refl _ _
      · exact .ofLog _ _

theorem answerVoidObs_touches (l : Link) (p : List Byte) (s : State) : Touches [.obl] s (answerVoidObs l p s).state := by
  unfold answerVoidObs State.voidObs
  dsimp only
  split
  · exact .refl _ _
  · split
    · exact .refl _ _
    · split
      · exact .refl _ _
      · exact .ofLog _ _

theorem answerAnnotate_touches (p : List Byte) (s : State) : Touches [.obl] s (answerAnnotate p s).state := by
  unfold answerAnnotate State.annotate
  dsimp only
  split
  · exact .refl _ _
  · split
    · exact .refl _ _
    · exact .ofLog _ _

theorem answerReadStamps_touches (l : Link) (p : List Byte) (s : State) :
    Touches [.ring] s (answerReadStamps l p s).state := by
  cases l <;> constructor <;> simp [answerReadStamps, State.readStamps]

theorem answerAckConditions_touches (l : Link) (p : List Byte) (s : State) :
    Touches [] s (answerAckConditions l p s).state := by
  constructor <;> simp [answerAckConditions]

theorem answerRestartSurvey_touches (p : List Byte) (s : State) :
    Touches [.chr, .counter, .ltm, .ring, .obl] s (answerRestartSurvey p s).state := by
  constructor <;> simp [answerRestartSurvey, State.restart]

/-! ## Every command -/

/-- The parts that a command may change. -/
def commandParts : Instr → List Part
  | .powerOn _ => [.timeBase, .chr, .counter, .clearance, .pipeline, .ltm, .hdp, .ring, .obl, .tether, .carriage, .set]
  | .reelReport _ _ => [.tether, .ring, .chr, .obl]
  | .presenceTimerExpiry _ => [.chr, .obl]
  | .frameBoundary _ => [.counter, .pipeline, .ring]
  | .sensorWriteComplete _ | .commitDeadlineExpiry _ => [.pipeline, .clearance, .hdp]
  | .thermalPollDue _ _ | .pollTransactionEnd _ _ | .busTimeout _ => [.ltm]
  | .headHistorySample _ | .axisStep _ _ | .axisRest _ _ | .indexPass _ _ | .homingLimit _ _ => [.hdp, .clearance]
  | .tetherFrameArrival _ _ => [.tether, .ring]
  | .linkAliveTimeout _ => [.tether, .hdp, .clearance]
  | .messageBegin _ => [.tether]
  | .messageEnd _ => [.ring]
  | .csFalling _ | .carriageFrameArrival _ _ | .carriageFrameError _ _ | .csRising _ _ | .replyDelivered _ _
  | .strayByte _ _ | .portResetRelease _ => [.carriage]
  | .portReset _ => [.carriage, .hdp, .ring, .set]
  | .driveReport _ | .requestBadKind _ _ | .chainageQuery _ _ | .getSetting _ _ | .headQuery _ _ | .lampQuery _ _
  | .still _ _ | .readLog _ _ | .conditionsQuery _ _ | .ackConditions _ _ => [.tether, .carriage]
  | .setDatum _ _ => [.tether, .carriage, .chr, .obl]
  | .setSetting _ _ => [.ring, .tether, .carriage, .set]
  | .headHome _ _ | .headMove _ _ | .headStop _ _ | .headPark _ _ | .headRelease _ _ =>
    [.tether, .carriage, .hdp, .clearance]
  | .markPoint _ _ | .openObs _ _ | .closeObs _ _ | .voidObs _ _ | .annotate _ _ | .trimLog _ _ =>
    [.tether, .carriage, .obl]
  | .readStamps _ _ => [.ring, .tether, .carriage]
  | .restartSurvey _ _ => [.tether, .carriage, .chr, .counter, .ltm, .ring, .obl]
  | .wheelTransition _ _ _ _ | .wheelHistorySample _ | .driveFreshExpiry _ | .sensorWriteStart _ | .strobeWindowOpen _
  | .strobeWindowClose _ | .tetherFrameError _ _ | .startupWriteComplete _ | .pixelArrival _ _ _ _ => []

/-- The frame of every command. -/
theorem effect_touches (c : Instr) (s : State) : Touches (commandParts c) s (effect c s) := by
  cases c with
  | powerOn => constructor <;> simp [commandParts, effect]
  | reelReport _ rx => exact s.tetherReel_touches rx
  | presenceTimerExpiry => exact s.presenceExpiry_touches
  | wheelTransition _ k a b => exact s.wheelMoves_touches k a b
  | wheelHistorySample => exact s.wheelSample_touches
  | driveReport => exact s.serve_touches _ _ _ answerDriveReport_touches
  | driveFreshExpiry => exact s.driveStale_touches
  | frameBoundary => exact s.boundary_touches
  | sensorWriteStart => exact s.writeStarts_touches
  | sensorWriteComplete => exact s.writeCompletes_touches
  | commitDeadlineExpiry => exact s.commitExpires_touches
  | strobeWindowOpen => exact s.windowOpens_touches
  | strobeWindowClose => exact s.windowCloses_touches
  | thermalPollDue _ n => exact s.pollDue_touches n
  | pollTransactionEnd _ a => exact s.pollTransactionEnd_touches a
  | busTimeout => exact s.busTimeout_touches
  | headHistorySample => exact s.headSample_touches
  | axisStep _ ax => exact s.axisStep_touches ax
  | axisRest _ ax => exact s.axisRest_touches ax
  | indexPass _ ax => exact s.indexPass_touches ax
  | homingLimit _ ax => exact s.homingFails_touches ax
  | tetherFrameArrival _ rx => exact s.tetherArrival_touches rx
  | tetherFrameError _ rx => exact s.tetherError_touches rx
  | linkAliveTimeout => exact s.linkTimeout_touches
  | messageBegin => exact s.messageBegins_touches
  | messageEnd => exact s.messageEnds_touches
  | csFalling | carriageFrameArrival | carriageFrameError | csRising | replyDelivered | strayByte | portResetRelease =>
    exact .ofCarriage _ _
  | portReset => exact s.portResets_touches
  | requestBadKind _ l => exact s.serveBadKind_touches l
  | chainageQuery => exact s.serve_touches _ _ answerChainageQuery fun _ _ => .refl _ _
  | headQuery _ l => exact s.serve_touches _ _ (answerHeadQuery l) fun _ _ => .refl _ _
  | lampQuery => exact s.serve_touches _ _ answerLampQuery fun _ _ => .refl _ _
  | readLog => exact s.serve_touches _ _ answerReadLog fun _ _ => .refl _ _
  | conditionsQuery _ l => exact s.serve_touches _ _ (answerConditionsQuery l) fun _ _ => .refl _ _
  | setDatum _ l => exact s.serve_touches _ _ _ (answerSetDatum_touches l)
  | setSetting _ l =>
    have served := s.serve_touches l 0x18 _ (answerSetSetting_touches l)
    exact streamAfter_touches (act := fun s => s.serve _ _ _) served
  | getSetting => exact s.serve_touches _ _ _ answerGetSetting_touches
  | headHome => exact s.serve_touches _ _ answerHeadHome fun _ t => t.headHome_touches
  | headMove => exact s.serve_touches _ _ answerHeadMove fun _ t => t.headMove_touches _ _ _
  | headStop => exact s.serve_touches _ _ answerHeadStop fun _ t => t.headStop_touches
  | headPark => exact s.serve_touches _ _ answerHeadPark fun _ t => t.headPark_touches
  | headRelease => exact s.serve_touches _ _ answerHeadRelease fun _ t => t.headRelease_touches
  | still _ l => exact s.serve_touches _ _ _ (answerStill_touches l)
  | markPoint _ l => exact s.serve_touches _ _ _ (answerMarkPoint_touches l)
  | openObs _ l => exact s.serve_touches _ _ _ (answerOpenObs_touches l)
  | closeObs => exact s.serve_touches _ _ _ answerCloseObs_touches
  | voidObs _ l => exact s.serve_touches _ _ _ (answerVoidObs_touches l)
  | annotate => exact s.serve_touches _ _ _ answerAnnotate_touches
  | trimLog => exact s.serve_touches _ _ answerTrimLog fun _ t => .ofLog t _
  | readStamps _ l =>
    have served := s.serve_touches l 0x38 _ (answerReadStamps_touches l)
    exact (streamAfter_touches (act := fun s => s.serve _ _ _) served).mono (by simp [commandParts])
  | ackConditions _ l => exact s.serve_touches _ _ _ (answerAckConditions_touches l)
  | restartSurvey => exact s.serve_touches _ _ _ answerRestartSurvey_touches
  | startupWriteComplete => exact s.startupWritten_touches
  | pixelArrival _ x y v => exact s.pixel_touches x y v

/-! ## The step and its queue -/

/-- Settles O1: the two cases of the step's definition. -/
theorem stepTakesTheFrontCommand : Obligations.StepTakesTheFrontCommand := by
  intro s
  constructor
  · intro c rest queue
    simp only [step, queue]
  · intro queue
    simp only [step, queue]

/-- Settles O2: by the frame of every command, on the state in which its time has passed. -/
theorem everyCommandKeepsTheQueueAndTime : Obligations.EveryCommandKeepsTheQueueAndTime := by
  intro c s
  have frame := effect_touches c (s.elapse (elapsedBefore c))
  refine ⟨_, exec_eq_effect c s, frame.pending, ?_, fun other => ?_⟩
  · rintro ⟨p, rfl⟩
    rfl
  · refine frame.timeBase ?_
    cases c <;> simp [commandParts] at other ⊢

/-- What a step of a nonempty queue leaves, with the queue and the time base behind. -/
theorem step_effect {s t : State} (stepped : step s = .next t) :
    t = s ∨ ∃ c rest, t = effect c ({ s with pending := rest }.elapse (elapsedBefore c)) := by
  unfold step at stepped
  split at stepped
  · exact .inl (Host.Outcome.next.inj stepped).symm
  · next c rest _ =>
    rw [exec_eq_effect] at stepped
    exact .inr ⟨c, rest, (Host.Outcome.next.inj stepped).symm⟩

end Sys2Proof.Machine
end

