-- ==== Sys2Proof/Proofs/StampRing.lean ====
section
/-! PROOFS. The stamp ring stays gapless (spec/06 section 6.2). The place of a frame number in the ring tells what waits
for a cursor; each of the operations that move a cursor or write a stamp then keeps the ring, and every other command has
it in its frame. -/

namespace Sys2Proof.Machine

/-! ## Places in the ring -/

/-- `RingOk` reads the Stamp Unit and the frame counter alone. -/
def RingAt (u : StampUnit) (c : Count) : Prop :=
  u.stamps.length ≤ 128 ∧
    u.stamps.map (·.frame) = (List.range u.stamps.length).map (fun i => c - BitVec.ofNat 32 (u.stamps.length - i)) ∧
    ∀ l : Link, (c - u.cursor l).toNat ≤ u.stamps.length

theorem ringOk_iff (s : State) : RingOk s ↔ RingAt s.stu s.fxc.counter := Iff.rfl

theorem dropWhile_eq_drop {α : Type} {p : α → Bool} {l : List α} {k : Nat} (before : ∀ x ∈ l.take k, p x = true)
    (stops : ∀ x, l[k]? = some x → p x = false) : l.dropWhile p = l.drop k := by
  induction l generalizing k with
  | nil => simp
  | cons a l ih =>
    cases k with
    | zero => simp [stops a rfl]
    | succ k =>
      have head : p a = true := before a (by simp)
      rw [List.dropWhile_cons_of_pos head, List.drop_succ_cons]
      exact ih (fun x m => before x (by simp [m])) fun x at_ => stops x (by simpa using at_)

/-- The frame number at each place. -/
theorem RingAt.frame_of_getElem {u : StampUnit} {c : Count} (ring : RingAt u c) {i : Nat} {st : Stamp}
    (place : u.stamps[i]? = some st) : st.frame = c - BitVec.ofNat 32 (u.stamps.length - i) ∧ i < u.stamps.length := by
  obtain ⟨_, frames, _⟩ := ring
  have bound : i < u.stamps.length := (List.getElem?_eq_some_iff.mp place).1
  have numbered := congrArg (·[i]?) frames
  simp only [List.getElem?_map, place, List.getElem?_range bound, Option.map_some, Option.some.injEq] at numbered
  exact ⟨numbered, bound⟩

/-- The held stamps from the cursor on are the newest ones, as many as the cursor is behind c. -/
theorem RingAt.waiting_eq {u : StampUnit} {c : Count} (ring : RingAt u c) (l : Link) :
    u.waiting l = u.stamps.drop (u.stamps.length - (c - u.cursor l).toNat) := by
  have depth := ring.1
  have behind := ring.2.2 l
  refine dropWhile_eq_drop (fun st member => ?_) fun st place => ?_
  · obtain ⟨i, bound, place⟩ := List.getElem_of_mem member
    have inTake : i < u.stamps.length - (c - u.cursor l).toNat := by
      simp only [List.length_take] at bound
      omega
    obtain ⟨frame, _⟩ := ring.frame_of_getElem (i := i) (st := st) (by
      rw [← place, List.getElem_take, List.getElem?_eq_getElem])
    simp only [bne_iff_ne, ne_eq, frame]
    bv_omega
  · obtain ⟨frame, inside⟩ := ring.frame_of_getElem place
    simp only [bne_eq_false_iff_eq, frame]
    bv_omega

theorem RingAt.waiting_length {u : StampUnit} {c : Count} (ring : RingAt u c) (l : Link) :
    (u.waiting l).length = (c - u.cursor l).toNat := by
  rw [ring.waiting_eq l, List.length_drop]
  have := ring.2.2 l
  omega

/-- A waiting stamp's number is at or past the cursor and before c. -/
theorem RingAt.waiting_frame {u : StampUnit} {c : Count} (ring : RingAt u c) {l : Link} {st : Stamp}
    (member : st ∈ u.waiting l) : (c - (st.frame + 1)).toNat < (c - u.cursor l).toNat := by
  have depth := ring.1
  have behind := ring.2.2 l
  rw [ring.waiting_eq l] at member
  obtain ⟨i, bound, place⟩ := List.getElem_of_mem member
  rw [List.length_drop] at bound
  obtain ⟨frame, _⟩ := ring.frame_of_getElem
    (i := u.stamps.length - (c - u.cursor l).toNat + i) (st := st) (by
      rw [← place, List.getElem_drop, List.getElem?_eq_getElem])
  rw [frame]
  bv_omega

/-- A cursor may move to any number at most as far behind c as the ring is long. -/
theorem RingAt.moveCursor {u : StampUnit} {c : Count} (ring : RingAt u c) {l : Link} {c' : Count}
    (within : (c - c').toNat ≤ u.stamps.length) : RingAt (u.putCursor l c') c := by
  obtain ⟨depth, frames, cursors⟩ := ring
  have tether := cursors .tether
  have carriage := cursors .carriage
  cases l <;> refine ⟨depth, frames, fun k => ?_⟩ <;> cases k <;> assumption

/-! ## The operations on the ring -/

/-- With the ring empty each cursor is at c. -/
theorem RingAt.empty {u : StampUnit} {c : Count} (none : u.stamps = []) (atWritePoint : ∀ l, u.cursor l = c) :
    RingAt u c :=
  ⟨by simp [none], by simp [none], fun l => by simp [none, atWritePoint l]⟩

theorem RingAt.of_touches {ps : List Part} {s t : State} {c : Count} (ring : RingAt s.stu c) (frame : Touches ps s t)
    (untouched : .ring ∉ ps) : RingAt t.stu c := by
  obtain ⟨stamps, tether, carriage⟩ := frame.ring untouched
  obtain ⟨depth, frames, cursors⟩ := ring
  have cursor (l : Link) : t.stu.cursor l = s.stu.cursor l := by cases l <;> assumption
  refine ⟨stamps ▸ depth, stamps ▸ frames, fun l => ?_⟩
  rw [stamps, cursor l]
  exact cursors l

theorem RingOk.of_touches {ps : List Part} {s t : State} (ok : RingOk s) (frame : Touches ps s t) (noRing : .ring ∉ ps)
    (noCounter : .counter ∉ ps) : RingOk t := by
  rw [ringOk_iff, frame.counter noCounter]
  exact RingAt.of_touches ok frame noRing

theorem State.streamDecision_keeps_ring {s : State} (ok : RingOk s) : RingOk s.streamDecision := by
  unfold State.streamDecision
  split
  · dsimp only
    split
    · next st rest waits =>
      have member : st ∈ s.stu.waiting .tether :=
        (List.dropWhile_suffix _).subset (waits ▸ List.mem_cons_self)
      have behind := RingAt.waiting_frame ok member
      have inside := ok.2.2 .tether
      exact RingAt.moveCursor ok (l := .tether) (c' := st.frame + 1) (by omega)
    · have far := RingAt.waiting_length ok .tether
      have inside := ok.2.2 .tether
      refine RingAt.moveCursor ok (l := .tether) ?_
      rw [far]
      simp only [StampUnit.cursor, BitVec.ofNat_toNat, BitVec.setWidth_eq]
      bv_omega
  · exact ok

theorem State.readStamps_keeps_ring {s : State} (ok : RingOk s) (l : Link) (p : List Byte) :
    RingOk (s.readStamps l p).state := by
  unfold State.readStamps
  dsimp only
  generalize ht : takeFitting 100 _ = sent
  have taken : sent.length ≤ (s.stu.waiting l).length := by
    obtain ⟨_, rest, split⟩ := takeFitting_spec 100 (((s.stu.waiting l).take (clampNat 1 4 (byteAt p 0))).map Stamp.encode)
    have sizes := congrArg List.length split
    rw [ht, List.length_append, List.length_map, List.length_take] at sizes
    omega
  have far := RingAt.waiting_length ok l
  have inside := ok.2.2 l
  have depth := ok.1
  refine RingAt.moveCursor ok ?_
  bv_omega

theorem State.tetherValid_keeps_ring {s : State} (ok : RingOk s) : RingOk s.tetherValid := by
  have announced (t : State) (ok : RingOk t) : RingOk (if t.attention .tether then t.placeAttention else t) := by
    split
    · exact ok.of_touches t.placeAttention_touches (by simp) (by simp)
    · exact ok
  unfold State.tetherValid
  dsimp only
  split
  · exact ok
  · exact State.streamDecision_keeps_ring (announced _ ok)

theorem State.tetherReel_keeps_ring {s : State} (ok : RingOk s) (rx : List Byte) : RingOk (s.tetherReel rx) := by
  unfold State.tetherReel
  split
  · split
    · next g f _ _ =>
      have valid := State.tetherValid_keeps_ring (s := s.putTetherFramer g) ok
      exact valid.of_touches (State.reelArrival_touches _ _) (by simp) (by simp)
    · exact ok
  · exact ok

theorem State.tetherArrival_keeps_ring {s : State} (ok : RingOk s) (rx : List Byte) : RingOk (s.tetherArrival rx) := by
  unfold State.tetherArrival
  split
  · split
    · exact ok
    · exact State.tetherValid_keeps_ring (s := s.putTetherFramer _) ok
  · exact ok

theorem streamAfter_keeps_ring {l : Link} {act : State → State} {s : State} (ok : RingOk (act s)) :
    RingOk (streamAfter l act s) := by
  unfold streamAfter
  dsimp only
  split
  · exact State.streamDecision_keeps_ring ok
  · exact ok

theorem State.messageEnds_keeps_ring {s : State} (ok : RingOk s) : RingOk s.messageEnds := by
  unfold State.messageEnds
  split
  · exact ok
  · split
    · refine State.streamDecision_keeps_ring ?_
      split <;> exact ok
    · exact ok

/-- The write point of a gapless ring is c. -/
theorem RingAt.writePoint_eq {u : StampUnit} {c : Count} (ring : RingAt u c) : u.writePoint c = c := by
  unfold StampUnit.writePoint
  split
  · next st newest =>
    rw [List.getLast?_eq_getElem?] at newest
    obtain ⟨frame, inside⟩ := ring.frame_of_getElem newest
    have depth := ring.1
    rw [frame]
    bv_omega
  · rfl

theorem State.portResets_keeps_ring {s : State} (ok : RingOk s) : RingOk s.portResets := by
  unfold State.portResets
  split
  · exact ok
  · refine RingAt.moveCursor ok (l := .carriage) ?_
    rw [RingAt.writePoint_eq ok]
    simp

/-! ## A boundary writes a stamp -/

theorem State.lapLink_stamps (s : State) (gone : Count) (l : Link) : (s.lapLink gone l).stu.stamps = s.stu.stamps := by
  unfold State.lapLink
  dsimp only
  split
  · split <;> cases l <;> simp [StampUnit.putCursor, StampUnit.addLost]
  · rfl

theorem State.lapLink_cursor (s : State) (gone : Count) (l k : Link) :
    (s.lapLink gone l).stu.cursor k = if k = l ∧ s.stu.cursor l = gone then gone + 1 else s.stu.cursor k := by
  unfold State.lapLink
  by_cases named : s.stu.cursor l = gone
  · simp only [named, if_true]
    split <;> cases l <;> cases k <;> simp [StampUnit.putCursor, StampUnit.addLost, StampUnit.cursor]
  · simp [named]

/-- A full ring loses its oldest stamp, and the cursors that named it move on; a ring with room stays. -/
theorem State.lapOldest_keeps_ring {s : State} (ok : RingOk s) :
    RingOk s.lapOldest ∧ s.lapOldest.stu.stamps.length ≤ 127 := by
  have depth := ok.1
  unfold State.lapOldest
  split
  · next none => exact ⟨ok, by simp [none]⟩
  · next old rest held =>
    have size : s.stu.stamps.length = rest.length + 1 := by simp [held]
    split
    · exact ⟨ok, by omega⟩
    · next full =>
      let dropped : State := { s with stu := { s.stu with stamps := rest } }
      let t := (dropped.lapLink old.frame .tether).lapLink old.frame .carriage
      change RingOk t ∧ t.stu.stamps.length ≤ 127
      have stamps : t.stu.stamps = rest := by rw [State.lapLink_stamps, State.lapLink_stamps]
      have counter : t.fxc.counter = s.fxc.counter :=
        ((State.lapLink_touches _ _ _).counter (by simp)).trans ((State.lapLink_touches _ _ _).counter (by simp))
      have cursor (l : Link) : t.stu.cursor l = if s.stu.cursor l = old.frame then old.frame + 1 else s.stu.cursor l := by
        rw [State.lapLink_cursor, State.lapLink_cursor, State.lapLink_cursor]
        cases l <;> simp [dropped, StampUnit.cursor] <;> rfl
      have oldest := (RingAt.frame_of_getElem ok (i := 0) (st := old) (by simp [held])).1
      obtain ⟨_, frames, cursors⟩ := ok
      refine ⟨⟨by rw [stamps]; omega, ?_, fun l => ?_⟩, by rw [stamps]; omega⟩
      · rw [stamps, counter]
        rw [held, List.length_cons, List.range_succ_eq_map, List.map_cons, List.map_cons, List.map_map] at frames
        simpa [Function.comp_def] using (List.cons.inj frames).2
      · have behind := cursors l
        rw [stamps, counter, cursor l]
        split <;> bv_omega

theorem RingAt.append {u : StampUnit} {c : Count} (ring : RingAt u c) (room : u.stamps.length ≤ 127) {st : Stamp}
    (numbered : st.frame = c) : RingAt { u with stamps := u.stamps ++ [st] } (c + 1) := by
  obtain ⟨depth, frames, cursors⟩ := ring
  have size : (u.stamps ++ [st]).length = u.stamps.length + 1 := by simp
  refine ⟨by simp only [size]; omega, ?_, fun l => ?_⟩
  · simp only [size, List.map_append, List.map_cons, List.map_nil, frames, List.range_succ, numbered]
    congr 1
    · refine List.map_congr_left fun i member => ?_
      have inside := List.mem_range.mp member
      bv_omega
    · simp
  · have behind := cursors l
    have kept : StampUnit.cursor { u with stamps := u.stamps ++ [st] } l = u.cursor l := by cases l <;> rfl
    simp only [size, kept]
    bv_omega

theorem State.writeStamp_ring {s : State} (ok : RingOk s) {st : Stamp} (numbered : st.frame = s.fxc.counter) :
    RingAt (s.writeStamp st).stu (s.fxc.counter + 1) := by
  obtain ⟨kept, room⟩ := State.lapOldest_keeps_ring ok
  have counter : s.lapOldest.fxc.counter = s.fxc.counter := s.lapOldest_touches.counter (by simp)
  rw [ringOk_iff, counter] at kept
  exact kept.append room numbered

theorem State.stampFrame_ring {s : State} (ok : RingOk s) (f : FrameSet) :
    RingAt (s.stampFrame f).stu (s.fxc.counter + 1) := by
  let cleared : State := { s with stu := { s.stu with pendingMark := none } }
  let st := s.buildStamp s.fxc.counter s.timeBase f
  have written : RingAt (cleared.writeStamp st).stu (s.fxc.counter + 1) := State.writeStamp_ring (s := cleared) ok rfl
  let composed : State := (cleared.writeStamp st).compose st (s.overlayChainage (midpoint s.timeBase f.exposure)) s.stu.pendingMark
  exact RingAt.of_touches (s := composed) written (State.stillWritten_touches _ _) (by simp)

theorem State.boundary_keeps_ring {s : State} (ok : RingOk s) : RingOk s.boundary := by
  have advanced (t : State) (slot : PipeSlot) (ok : RingOk t) : RingOk ((t.stampFrame slot.set).advanceFrame slot) := by
    have counter : (t.stampFrame slot.set).fxc.counter = t.fxc.counter := (t.stampFrame_touches _).counter (by simp)
    have ring := State.stampFrame_ring ok slot.set
    rwa [← counter] at ring
  unfold State.boundary
  split
  · exact ok
  · have limited : RingOk (s.formStats.checkLimited s.fxc.endingSlot.set) :=
      RingOk.of_touches (s := s.formStats) ok (State.checkLimited_touches _ _) (by simp) (by simp)
    have ended := advanced _ s.fxc.endingSlot limited
    refine State.streamDecision_keeps_ring (s := State.timeWindow _) ?_
    cases s.fxc.ended <;> exact ended

/-! ## Every command -/

theorem RingOk.powerOn (p : Pins) (q : List Instr) : RingOk { State.powerOn p with pending := q } :=
  RingAt.empty rfl fun l => by cases l <;> rfl

theorem effect_keeps_ring (c : Instr) {s : State} (ok : RingOk s) : RingOk (effect c s) := by
  have frame := effect_touches c s
  have ports (t u : State) (touched : Touches [.tether, .carriage] t u) (ok : RingOk t) : RingOk u :=
    ok.of_touches touched (by simp) (by simp)
  cases c with
  | powerOn p => exact .powerOn p _
  | reelReport _ rx => exact State.tetherReel_keeps_ring ok rx
  | tetherFrameArrival _ rx => exact State.tetherArrival_keeps_ring ok rx
  | messageEnd => exact State.messageEnds_keeps_ring ok
  | frameBoundary => exact State.boundary_keeps_ring ok
  | portReset => exact State.portResets_keeps_ring ok
  | setSetting _ l =>
    refine streamAfter_keeps_ring (act := fun s => s.serve _ _ _) (State.serve_keeps ports (fun p t ok => ?_) ok)
    exact ok.of_touches (answerSetSetting_touches l p t) (by simp) (by simp)
  | readStamps _ l =>
    exact streamAfter_keeps_ring (act := fun s => s.serve _ _ _)
      (State.serve_keeps ports (fun p t ok => State.readStamps_keeps_ring ok l p) ok)
  | restartSurvey _ l =>
    exact State.serve_keeps ports (fun p t _ => RingAt.empty rfl fun l => by cases l <;> rfl) ok
  | _ => exact ok.of_touches frame (by simp [commandParts]) (by simp [commandParts])

/-- Settles O56: an idle step changes nothing, any other is the effect of a command. -/
theorem everyStepKeepsTheStampRing : Obligations.EveryStepKeepsTheStampRing := by
  intro s t ok stepped
  rcases step_effect stepped with rfl | ⟨c, rest, rfl⟩
  · exact ok
  · exact effect_keeps_ring c (s := State.elapse { s with pending := rest } _) ok

end Sys2Proof.Machine
end

