-- ==== Sys2Proof/Proofs/LogInvariant.lean ====
section
/-! PROOFS. The observation log keeps its rules (spec/08 section 8.1). The log changes in three ways: records are revised
where they stand, one is appended, or the settled front is trimmed; each way keeps `LogOk`, and each command that touches
the log is one of them. -/

namespace Sys2Proof.Machine

/-! ## The three ways in which the log changes -/

theorem LogOk.rising {o : ObsLog} (ok : LogOk o) : (o.records.map (·.id)).Pairwise (· < ·) := by
  obtain ⟨_, _, _, rising, _⟩ := ok
  exact rising

theorem LogOk.openKind {o : ObsLog} (ok : LogOk o) {r : Observation} (held : r ∈ o.records) (isOpen : r.state = .opened) :
    r.kind = .continuous := by
  obtain ⟨_, _, _, _, _, _, openKind, _⟩ := ok
  exact openKind r held isOpen

theorem LogOk.ends {o : ObsLog} (ok : LogOk o) {r : Observation} (held : r ∈ o.records) :
    r.finish.isSome = (r.kind == .continuous && r.state == .closed) := by
  obtain ⟨_, _, _, _, _, _, _, ends, _⟩ := ok
  exact ends r held

/-- Records revised where they stand, the guard memory perhaps shortened. -/
theorem LogOk.revise {o : ObsLog} (ok : LogOk o) (f : Observation → Observation) {memory : List Nat}
    (same : ∀ r ∈ o.records, (f r).id = r.id ∧ (f r).kind = r.kind ∧ (f r).start = r.start)
    (opened : ∀ r ∈ o.records, (f r).state = .opened → r.state = .opened)
    (ends : ∀ r ∈ o.records, (f r).finish.isSome = ((f r).kind == .continuous && (f r).state == .closed))
    (kept : memory.Sublist o.guardMemory)
    (alive : ∀ r ∈ o.records, r.id ∈ memory → (f r).state = .voided → r.state = .voided) :
    LogOk { o with records := o.records.map f, guardMemory := memory } := by
  obtain ⟨depth, first, spent, rising, given, fewOpen, openKind, _, memoryRising, listed⟩ := ok
  have ids : (o.records.map f).map (·.id) = o.records.map (·.id) := by
    rw [List.map_map]
    exact List.map_congr_left fun r m => (same r m).1
  refine ⟨by simpa using depth, first, spent, by rw [ids]; exact rising, ?given, ?fewOpen, ?openKind, ?ends,
    memoryRising.sublist kept, ?listed⟩
  case given =>
    intro x m
    obtain ⟨r, held, rfl⟩ := List.mem_map.mp m
    rw [(same r held).1]
    exact given r held
  case fewOpen =>
    unfold ObsLog.openOnes at fewOpen ⊢
    rw [← List.countP_eq_length_filter] at fewOpen ⊢
    rw [List.countP_map]
    refine le_trans (List.countP_mono_left fun r m => ?_) fewOpen
    simpa using opened r m
  case openKind =>
    intro x m isOpen
    obtain ⟨r, held, rfl⟩ := List.mem_map.mp m
    rw [(same r held).2.1]
    exact openKind r held (opened r held isOpen)
  case ends =>
    intro x m
    obtain ⟨r, held, rfl⟩ := List.mem_map.mp m
    exact ends r held
  case listed =>
    intro g m
    obtain ⟨r, held, rfl, point, live, start⟩ := listed g (kept.subset m)
    obtain ⟨sameId, sameKind, sameStart⟩ := same r held
    exact ⟨f r, List.mem_map_of_mem held, sameId, sameKind ▸ point, fun void => live (alive r held m void),
      sameStart ▸ start⟩

/-- One record appended under the next id, with its place in the guard memory. -/
theorem LogOk.append {o : ObsLog} (ok : LogOk o) (room : o.full = false) {r : Observation} (numbered : r.id = o.nextId)
    (made : (r.kind = .point ∧ r.state = .closed) ∨ (r.kind = .continuous ∧ r.state = .opened ∧ o.openOnes.length < 4))
    (unended : r.finish = none) : LogOk (o.append r) := by
  obtain ⟨depth, first, spent, rising, given, fewOpen, openKind, ends, memoryRising, listed⟩ := ok
  simp only [ObsLog.full, Bool.or_eq_false_iff, decide_eq_false_iff_not, not_le] at room
  have fresh : ∀ g ∈ o.guardMemory, g < o.nextId := by
    intro g m
    obtain ⟨r, held, rfl, _⟩ := listed g m
    exact (given r held).2
  have older : ∀ g ∈ o.guardMemory, ∃ r' ∈ o.records ++ [r],
      r'.id = g ∧ r'.kind = .point ∧ r'.state ≠ .voided ∧ r'.start.isSome := by
    intro g m
    obtain ⟨r', held, facts⟩ := listed g m
    exact ⟨r', List.mem_append_left _ held, facts⟩
  refine ⟨?depth, ?first, ?spent, ?rising, ?given, ?fewOpen, ?openKind, ?ends, ?memoryRising, ?listed⟩
  case depth => simp [ObsLog.append]; omega
  case first => simp [ObsLog.append]
  case spent => simp [ObsLog.append]; omega
  case rising =>
    simp only [ObsLog.append, List.map_append, List.map_cons, List.map_nil, List.pairwise_append]
    refine ⟨rising, by simp, fun a m b m' => ?_⟩
    obtain ⟨x, held, rfl⟩ := List.mem_map.mp m
    rw [List.mem_singleton.mp m', numbered]
    exact (given x held).2
  case given =>
    intro x m
    simp only [ObsLog.append, List.mem_append, List.mem_singleton] at m ⊢
    rcases m with held | rfl
    · have := given x held
      omega
    · omega
  case fewOpen =>
    rcases made with ⟨_, closed⟩ | ⟨_, isOpen, few⟩
    · simpa [ObsLog.openOnes, ObsLog.append, closed] using fewOpen
    · simp only [ObsLog.openOnes, ObsLog.append] at few ⊢
      simp [isOpen]
      omega
  case openKind =>
    intro x m isOpen
    simp only [ObsLog.append, List.mem_append, List.mem_singleton] at m
    rcases m with held | rfl
    · exact openKind x held isOpen
    · rcases made with ⟨_, closed⟩ | ⟨continuous, _⟩
      · simp [closed] at isOpen
      · exact continuous
  case ends =>
    intro x m
    simp only [ObsLog.append, List.mem_append, List.mem_singleton] at m
    rcases m with held | rfl
    · exact ends x held
    · rcases made with ⟨point, _⟩ | ⟨_, isOpen, _⟩ <;> simp [*]
  case memoryRising =>
    simp only [ObsLog.append]
    split
    · refine List.pairwise_append.mpr ⟨memoryRising, by simp, fun g m g' m' => ?_⟩
      rw [List.mem_singleton.mp m', numbered]
      exact fresh g m
    · exact memoryRising
  case listed =>
    simp only [ObsLog.append]
    split
    · next joins =>
      intro g m
      rcases List.mem_append.mp m with m | m
      · exact older g m
      · refine ⟨r, by simp, (List.mem_singleton.mp m).symm, joins.1, ?_, joins.2⟩
        rcases made with ⟨_, closed⟩ | ⟨continuous, _⟩
        · simp [closed]
        · simp [continuous] at joins
    · exact older

/-- The settled front removed. -/
theorem LogOk.trim {o : ObsLog} (ok : LogOk o) (upTo : Nat) : LogOk (o.trim upTo) := by
  obtain ⟨depth, first, spent, rising, given, fewOpen, openKind, ends, memoryRising, listed⟩ := ok
  have kept : (o.records.dropWhile (Observation.trimmable upTo)).Sublist o.records := List.dropWhile_sublist _
  refine ⟨le_trans kept.length_le depth, first, spent, rising.sublist (kept.map _), fun r m => given r (kept.subset m),
    le_trans (kept.filter _).length_le fewOpen, fun r m => openKind r (kept.subset m), fun r m => ends r (kept.subset m),
    memoryRising.sublist List.filter_sublist, fun g m => ?_⟩
  obtain ⟨m, stays⟩ := List.mem_filter.mp m
  obtain ⟨r, held, rfl, facts⟩ := listed g m
  rw [← List.takeWhile_append_dropWhile (p := Observation.trimmable upTo) (l := o.records)] at held
  rcases List.mem_append.mp held with gone | stayed
  · simp only [List.contains_eq_mem, Bool.not_eq_true', decide_eq_false_iff_not, List.mem_map, not_exists, not_and] at stays
    exact absurd rfl (stays r gone)
  · exact ⟨r, stayed, rfl, facts⟩

theorem LogOk.empty : LogOk .powerOn := by
  simp [LogOk, ObsLog.powerOn, ObsLog.openOnes]

/-! ## The operations that revise records -/

theorem LogOk.closeByDatum {o : ObsLog} (ok : LogOk o) (mm : Int) : LogOk (o.closeByDatum mm) := by
  refine ok.revise _ (fun r _ => ?_) (fun r _ isOpen => ?_) (fun r held => ?_) (List.nil_sublist _) fun _ _ m => nomatch m
  · split <;> simp
  · by_contra other
    simp [other] at isOpen
  · split
    · next isOpen => simp [ok.openKind held isOpen]
    · exact ok.ends held

/-- Ids are given once. -/
theorem LogOk.unique {o : ObsLog} (ok : LogOk o) {r r' : Observation} (held : r ∈ o.records) (held' : r' ∈ o.records)
    (same : r.id = r'.id) : r = r' :=
  List.inj_on_of_nodup_map (ok.rising.imp fun h => ne_of_lt h) held held' same

theorem ObsLog.find_some {o : ObsLog} {id : Nat} {r : Observation} (found : o.find id = some r) :
    r ∈ o.records ∧ r.id = id :=
  ⟨List.mem_of_find?_eq_some found, by simpa using List.find?_some found⟩

/-- A change of the record found under an id. -/
theorem LogOk.change {o : ObsLog} (ok : LogOk o) {r : Observation} (held : r ∈ o.records) (f : Observation → Observation)
    {memory : List Nat} (same : (f r).id = r.id ∧ (f r).kind = r.kind ∧ (f r).start = r.start)
    (opened : (f r).state = .opened → r.state = .opened)
    (ends : (f r).finish.isSome = ((f r).kind == .continuous && (f r).state == .closed))
    (kept : memory.Sublist o.guardMemory) (alive : r.id ∈ memory → (f r).state = .voided → r.state = .voided) :
    LogOk { o.change r.id f with guardMemory := memory } := by
  have other (x : Observation) (m : x ∈ o.records) :
      (x = r ∧ (if x.id = r.id then f x else x) = f r) ∨ (if x.id = r.id then f x else x) = x := by
    by_cases named : x.id = r.id
    · obtain rfl := ok.unique m held named
      exact .inl ⟨rfl, if_pos rfl⟩
    · exact .inr (if_neg named)
  refine ok.revise (fun x => if x.id = r.id then f x else x) (fun x m => ?_) (fun x m => ?_) (fun x m => ?_) kept
    fun x m => ?_
  all_goals
    rcases other x m with ⟨rfl, changed⟩ | stays
    · simpa only [changed]
    · simp only [stays, and_self, imp_self, implies_true, ok.ends m]

/-! ## The commands that touch the log -/

theorem LogOk.of_touches {ps : List Part} {s t : State} (ok : LogOk s.obl) (frame : Touches ps s t)
    (untouched : .obl ∉ ps) : LogOk t.obl := by
  rw [frame.obl untouched]
  exact ok

theorem State.takeDatum_keeps_log {s : State} (ok : LogOk s.obl) (c : Reckoner) : LogOk (s.takeDatum c).obl :=
  ok.closeByDatum _

theorem State.takeBatch_keeps_log {s : State} (ok : LogOk s.obl) (b : Batch) : LogOk (s.takeBatch b).obl := by
  have settled (t : State) (ok : LogOk t.obl) (dir : Option Direction) (count : Count) (time : Nat) :
      LogOk (t.settledItem dir count time).obl := by
    unfold State.settledItem
    split
    · exact State.takeDatum_keeps_log ok _
    · simpa using ok
  cases b with
  | rebase count time => simpa [State.takeBatch, State.rebaseItem, State.checkpoint] using ok
  | step n count time => exact settled _ (by simpa using ok) _ _ _

theorem State.reelArrival_keeps_log {s : State} (ok : LogOk s.obl) (payload : List Byte) :
    LogOk (s.reelArrival payload).obl := by
  unfold State.reelArrival
  split
  · exact ok
  · dsimp only
    split
    · exact ok
    · refine State.takeBatch_keeps_log ?_ _
      split
      · simpa using ok
      · exact ok

theorem State.tetherReel_keeps_log {s : State} (ok : LogOk s.obl) (rx : List Byte) : LogOk (s.tetherReel rx).obl := by
  unfold State.tetherReel
  split
  · split
    · next g f _ _ =>
      exact State.reelArrival_keeps_log
        (LogOk.of_touches (s := s.putTetherFramer g) ok (State.tetherValid_touches _) (by simp)) _
    · exact ok
  · exact ok

theorem State.presenceExpiry_keeps_log {s : State} (ok : LogOk s.obl) : LogOk s.presenceExpiry.obl := by
  have noticed (t : State) (ok : LogOk t.obl) : LogOk t.acquireNotice.obl := by
    unfold State.acquireNotice State.applyImmediateDatum
    dsimp only
    split
    · exact ok.closeByDatum _
    · exact ok
  unfold State.presenceExpiry
  split
  · exact noticed _ (by simpa using ok)
  · exact ok

theorem State.createObservation_obl (s : State) (l : Link) (kind : ObsKind) (code : List Byte) :
    ∃ still, (s.createObservation l kind code).1.obl
      = s.obl.append { s.newObservation l kind code with stillFrame := still } := by
  refine ⟨(s.autoStill l).2, ?_⟩
  unfold State.createObservation
  dsimp only
  split <;> simp [State.handMark]

theorem State.markPoint_keeps_log {s : State} (ok : LogOk s.obl) (l : Link) (p : List Byte) :
    LogOk (s.markPoint l p).state.obl := by
  unfold State.markPoint
  dsimp only
  split
  · next r found =>
    have held : r ∈ s.obl.records := by
      unfold ObsLog.candidate at found
      split at found
      · exact List.mem_of_mem_filter (List.mem_of_getLast? found)
      · cases found
    cases l <;> exact ok.change held _ ⟨rfl, rfl, rfl⟩ id (ok.ends (r := r) held) (.refl _) fun _ => id
  · split
    · exact ok
    · next room =>
      obtain ⟨still, joined⟩ := s.createObservation_obl l .point (p.take 4)
      rw [joined]
      exact ok.append (by simpa using room) rfl (.inl ⟨rfl, rfl⟩) rfl

theorem State.openObs_keeps_log {s : State} (ok : LogOk s.obl) (l : Link) (p : List Byte) :
    LogOk (s.openObs l p).state.obl := by
  unfold State.openObs
  split
  · exact ok
  · split
    · exact ok
    · next room few =>
      obtain ⟨still, joined⟩ := s.createObservation_obl l .continuous (p.take 4)
      dsimp only
      rw [joined]
      exact ok.append (by simpa using room) rfl (.inr ⟨rfl, rfl, by omega⟩) rfl

theorem State.closeObs_keeps_log {s : State} (ok : LogOk s.obl) (p : List Byte) : LogOk (s.closeObs p).state.obl := by
  unfold State.closeObs
  dsimp only
  split
  · exact ok
  · next r found =>
    obtain ⟨held, named⟩ := ObsLog.find_some found
    split
    · exact ok
    · next isOpen =>
      split
      · exact ok
      · have kind := ok.openKind held (not_not.mp isOpen)
        rw [← named]
        exact ok.change held _ ⟨rfl, rfl, rfl⟩ nofun (by simp [kind]) (.refl _) fun _ => nofun

theorem State.voidObs_keeps_log {s : State} (ok : LogOk s.obl) (l : Link) (p : List Byte) :
    LogOk (s.voidObs l p).state.obl := by
  unfold State.voidObs
  dsimp only
  split
  · exact ok
  · next r found =>
    obtain ⟨held, named⟩ := ObsLog.find_some found
    split
    · exact ok
    · split
      · exact ok
      · rw [← named]
        exact ok.change held _ ⟨rfl, rfl, rfl⟩ nofun (by simp) List.filter_sublist (by simp [ObsLog.change])

theorem State.annotate_keeps_log {s : State} (ok : LogOk s.obl) (p : List Byte) : LogOk (s.annotate p).state.obl := by
  unfold State.annotate
  dsimp only
  split
  · exact ok
  · next r found =>
    obtain ⟨held, named⟩ := ObsLog.find_some found
    split
    · exact ok
    · rw [← named]
      exact ok.change held _ ⟨rfl, rfl, rfl⟩ id (ok.ends (r := r) held) (.refl _) fun _ => id

theorem effect_keeps_log (c : Instr) {s : State} (ok : LogOk s.obl) : LogOk (effect c s).obl := by
  have frame := effect_touches c s
  have served {l : Link} {kind : Byte} {act : List Byte → State → Answer}
      (acts : ∀ p t, LogOk t.obl → LogOk (act p t).state.obl) : LogOk (s.serve l kind act).obl :=
    State.serve_keeps (keeps := fun t => LogOk t.obl) (fun _ _ touched ok => ok.of_touches touched (by simp)) acts ok
  cases c with
  | powerOn => exact .empty
  | reelReport _ rx => exact State.tetherReel_keeps_log ok rx
  | presenceTimerExpiry => exact State.presenceExpiry_keeps_log ok
  | setDatum =>
    refine served fun p t ok => ?_
    unfold answerSetDatum
    split
    · exact ok
    · dsimp only
      split
      · exact State.takeDatum_keeps_log ok _
      · exact ok
  | markPoint => exact served fun p _ ok => State.markPoint_keeps_log ok _ p
  | openObs => exact served fun p _ ok => State.openObs_keeps_log ok _ p
  | closeObs => exact served fun p _ ok => State.closeObs_keeps_log ok p
  | voidObs => exact served fun p _ ok => State.voidObs_keeps_log ok _ p
  | annotate => exact served fun p _ ok => State.annotate_keeps_log ok p
  | trimLog => exact served fun p _ ok => LogOk.trim ok (u16At p 0)
  | restartSurvey => exact served fun _ _ _ => .empty
  | _ => exact ok.of_touches frame (by simp [commandParts])

/-- Settles O57: an idle step changes nothing, any other is the effect of a command. -/
theorem everyStepKeepsTheLog : Obligations.EveryStepKeepsTheLog := by
  intro s t ok stepped
  rcases step_effect stepped with rfl | ⟨c, rest, rfl⟩
  · exact ok
  · exact effect_keeps_log c (s := State.elapse { s with pending := rest } _) ok

end Sys2Proof.Machine
end

