-- ==== Sys2Proof/Proofs/PortInvariant.lean ====
section
/-! PROOFS. The depths of the ports' queues (spec/10 sections 10.2 to 10.5). The invariant is one of each port; an
ATTENTION message, a served request, an arriving frame and a carriage transaction each keep their port's. -/

namespace Sys2Proof.Machine

/-- The tether port's part of `PortsOk`. -/
def TetherPort.Ok (t : TetherPort) : Prop :=
  t.requests.length ≤ 4 ∧ t.replies ≤ 4 ∧ t.refusals ≤ 4 ∧ t.transmit.count .attention ≤ 1 ∧
    t.up = t.alive.isSome ∧ (t.up = false → t.requests = [] ∧ t.transmit = [])

/-- The carriage port's part of `PortsOk`. -/
def CarriagePort.Ok (p : CarriagePort) : Prop :=
  p.requests.length ≤ 4 ∧ p.refusals.length ≤ 4 ∧ (p.slot = none → p.refusals = [])

theorem portsOk_iff (s : State) : PortsOk s ↔ s.tlp.Ok ∧ s.cgp.Ok := by
  unfold PortsOk TetherPort.Ok CarriagePort.Ok
  tauto

/-! ## The tether port -/

/-- An ATTENTION message joins an UP tether only when none waits there. -/
theorem TetherPort.Ok.of_announces {t u : TetherPort} (ok : t.Ok) (requests : u.requests = t.requests) (up : u.up = t.up)
    (alive : u.alive = t.alive) (announces : t.Announces u.transmit) : u.Ok := by
  obtain ⟨depth, replies, refusals, attention, running, lost⟩ := ok
  rw [TetherPort.replies] at replies
  rw [TetherPort.refusals] at refusals
  unfold TetherPort.Ok TetherPort.replies TetherPort.refusals
  rw [requests, up, alive]
  rcases announces with same | ⟨on, absent, gained⟩
  · rw [same]
    exact ⟨depth, replies, refusals, attention, running, lost⟩
  · rw [gained]
    refine ⟨depth, ?_, ?_, ?_, running, fun off => ?_⟩
    · simpa [TxMessage.isReply] using replies
    · simpa [TxMessage.isRefusal] using refusals
    · simp [List.count_eq_zero.mpr absent]
    · simp [on] at off

theorem TetherPort.Ok.of_touches {ps : List Part} {s t : State} (ok : s.tlp.Ok) (frame : Touches ps s t)
    (untouched : .tether ∉ ps) : t.tlp.Ok := by
  obtain ⟨requests, up, alive, announces⟩ := frame.tether untouched
  exact ok.of_announces requests up alive announces

theorem PortsOk.of_touches {ps : List Part} {s t : State} (ok : PortsOk s) (frame : Touches ps s t) (noTether : .tether ∉ ps)
    (noCarriage : .carriage ∉ ps) : PortsOk t := by
  rw [portsOk_iff] at ok ⊢
  rw [frame.carriage noCarriage]
  exact ⟨ok.1.of_touches frame noTether, ok.2⟩

/-- A message leaves the front of the transmit queue. -/
theorem TetherPort.Ok.dropMessage {t : TetherPort} (ok : t.Ok) {m : TxMessage} {rest : List TxMessage}
    (front : t.transmit = m :: rest) (line : Option LineMessage) : { t with transmit := rest, line := line }.Ok := by
  obtain ⟨depth, replies, refusals, attention, running, lost⟩ := ok
  have behind : rest.Sublist t.transmit := front ▸ List.sublist_cons_self m rest
  refine ⟨depth, (behind.countP_le).trans replies, (behind.countP_le).trans refusals, (behind.count_le _).trans attention,
    running, fun off => ?_⟩
  simp [front] at lost
  exact absurd off (by simp [lost])

theorem State.tetherValid_up (s : State) : s.tetherValid.tlp.up = true := by
  have streamed (t : State) : t.streamDecision.tlp.up = t.tlp.up := (t.streamDecision_touches.tether (by simp)).2.1
  unfold State.tetherValid
  dsimp only
  split
  · assumption
  · unfold State.becomeUp State.placeAttention
    dsimp only
    rw [streamed]
    split
    · split <;> rfl
    · rfl

theorem State.tetherValid_cgp (s : State) : s.tetherValid.cgp = s.cgp := s.tetherValid_touches.carriage (by simp)

theorem State.tetherValid_keeps_tether {s : State} (ok : s.tlp.Ok) : s.tetherValid.tlp.Ok := by
  obtain ⟨depth, replies, refusals, attention, running, lost⟩ := ok
  unfold State.tetherValid
  dsimp only
  split
  · next up => exact ⟨depth, replies, refusals, attention, up, fun off => by simp [up] at off⟩
  · next off =>
    have empty := lost (by simpa using off)
    unfold State.becomeUp State.placeAttention
    refine TetherPort.Ok.of_touches ?_ (State.streamDecision_touches _) (by simp)
    split
    · split <;> simp [TetherPort.Ok, TetherPort.replies, TetherPort.refusals, State.startTimer, empty,
        TxMessage.isReply, TxMessage.isRefusal]
    · simp [TetherPort.Ok, TetherPort.replies, TetherPort.refusals, State.startTimer, empty]

theorem TetherPort.Ok.take {t : TetherPort} (ok : t.Ok) (up : t.up = true) (f : Frame) : (t.take f).Ok := by
  obtain ⟨depth, replies, refusals, attention, running, _⟩ := ok
  rw [TetherPort.replies] at replies
  rw [TetherPort.refusals] at refusals
  unfold TetherPort.take TetherPort.refuse
  split
  · exact ⟨depth, replies, refusals, attention, running, fun off => by simp [up] at off⟩
  · split
    · next room =>
      refine ⟨?_, replies, refusals, attention, running, fun off => by simp [up] at off⟩
      simp
      omega
    · dsimp only
      split
      · next room =>
        rw [TetherPort.refusals] at room
        refine ⟨depth, ?_, ?_, ?_, running, fun off => by simp [up] at off⟩
        · simpa [TetherPort.replies, TxMessage.isReply] using replies
        · simp [TetherPort.refusals, TxMessage.isRefusal]
          omega
        · simpa [List.count_cons] using attention
      · exact ⟨depth, replies, refusals, attention, running, fun off => by simp [up] at off⟩

theorem State.tetherReel_keeps_ports {s : State} (ok : PortsOk s) (rx : List Byte) : PortsOk (s.tetherReel rx) := by
  rw [portsOk_iff] at ok
  unfold State.tetherReel
  split
  · split
    · next g f _ _ =>
      have valid : PortsOk (s.putTetherFramer g).tetherValid :=
        (portsOk_iff _).mpr ⟨State.tetherValid_keeps_tether ok.1, by rw [State.tetherValid_cgp]; exact ok.2⟩
      exact valid.of_touches (State.reelArrival_touches _ _) (by simp) (by simp)
    · exact (portsOk_iff s).mpr ok
  · exact (portsOk_iff s).mpr ok

theorem State.tetherArrival_keeps_ports {s : State} (ok : PortsOk s) (rx : List Byte) : PortsOk (s.tetherArrival rx) := by
  rw [portsOk_iff] at ok
  unfold State.tetherArrival
  split
  · split
    · exact (portsOk_iff s).mpr ok
    · next g f _ _ =>
      have valid := State.tetherValid_keeps_tether (s := s.putTetherFramer g) ok.1
      have carriage : (s.putTetherFramer g).tetherValid.cgp = s.cgp := State.tetherValid_cgp _
      rw [portsOk_iff]
      dsimp only
      rw [carriage]
      exact ⟨valid.take (State.tetherValid_up _) f, ok.2⟩
  · exact (portsOk_iff s).mpr ok

theorem State.linkTimeout_keeps_ports {s : State} (ok : PortsOk s) : PortsOk s.linkTimeout := by
  unfold State.linkTimeout
  split
  · refine PortsOk.of_touches ?_ (State.headLinkLost_touches _) (by simp) (by simp)
    rw [portsOk_iff] at ok ⊢
    exact ⟨by simp [TetherPort.Ok, TetherPort.replies, TetherPort.refusals], ok.2⟩
  · exact ok

theorem State.messageBegins_keeps_ports {s : State} (ok : PortsOk s) : PortsOk s.messageBegins := by
  unfold State.messageBegins
  split
  · next front =>
    rw [portsOk_iff] at ok ⊢
    exact ⟨ok.1.dropMessage front _, ok.2⟩
  · exact ok

/-! ## The carriage port -/

theorem CarriagePort.Ok.fillSlot {p : CarriagePort} (requests : p.requests.length ≤ 4) (refusals : p.refusals.length ≤ 4) :
    p.fillSlot.Ok := by
  unfold CarriagePort.fillSlot
  split
  · next f rest _ held =>
    rw [held, List.length_cons] at refusals
    exact ⟨requests, by simp; omega, nofun⟩
  · next full =>
    refine ⟨requests, refusals, fun empty => ?_⟩
    cases held : p.refusals with
    | nil => rfl
    | cons f rest => exact absurd held (full f rest empty)

theorem CarriagePort.Ok.clock {p : CarriagePort} (ok : p.Ok) (n : Nat) (g : Framer) :
    { p.clock n with framer := g }.Ok := by
  unfold CarriagePort.clock
  split
  · exact ⟨ok.1, ok.2.1, nofun⟩
  · exact ok

theorem CarriagePort.Ok.run {p q : CarriagePort} {e : RxEvent} (ok : p.Ok) {mosi : List Byte}
    (ran : p.run mosi = some (q, e)) : q.Ok := by
  unfold CarriagePort.run at ran
  split at ran
  · split at ran
    · obtain ⟨rfl, _⟩ := Prod.mk.inj (Option.some.inj ran)
      exact ok.clock _ _
    · cases ran
  · cases ran

theorem CarriagePort.Ok.counters {p : CarriagePort} (ok : p.Ok) (c : PortCounters) : { p with counters := c }.Ok := ok

/-- The slot's reply starts again from its flag. -/
theorem CarriagePort.Ok.rewind {p : CarriagePort} (ok : p.Ok) {q : CarriagePort} (requests : q.requests = p.requests)
    (refusals : q.refusals = p.refusals) (slot : q.slot = p.slot.map fun r => { r with clocked := 0 }) : q.Ok := by
  obtain ⟨depth, few, none⟩ := ok
  refine ⟨requests ▸ depth, refusals ▸ few, fun empty => ?_⟩
  rw [refusals]
  exact none (by simpa [slot] using empty)

theorem CarriagePort.Ok.take {p : CarriagePort} (ok : p.Ok) (f : Frame) : (p.take f).Ok := by
  obtain ⟨depth, few, none⟩ := ok
  unfold CarriagePort.take CarriagePort.refuse
  dsimp only
  split
  · exact ⟨depth, few, none⟩
  · split
    · exact ⟨by simp; omega, few, none⟩
    · split
      · next room =>
        exact .fillSlot depth (by simp; omega)
      · exact ⟨depth, few, none⟩

theorem CarriagePort.Ok.opens {p : CarriagePort} (ok : p.Ok) : p.opens.Ok := by
  unfold CarriagePort.opens
  split
  · split
    · exact ok
    · exact ok.rewind rfl rfl rfl
  · exact ok

theorem CarriagePort.Ok.arrival {p : CarriagePort} (ok : p.Ok) (mosi : List Byte) : (p.arrival mosi).Ok := by
  unfold CarriagePort.arrival
  split
  · next ran => exact (ok.run ran).take _
  · exact ok

theorem CarriagePort.Ok.error {p : CarriagePort} (ok : p.Ok) (mosi : List Byte) : (p.error mosi).Ok := by
  unfold CarriagePort.error
  split
  · next ran =>
    split
    · exact (ok.run ran).counters _
    · exact ok
  · exact ok

theorem CarriagePort.Ok.strayByte {p : CarriagePort} (ok : p.Ok) (mosi : List Byte) : (p.strayByte mosi).Ok := by
  unfold CarriagePort.strayByte
  split
  · next ran => exact (ok.run ran).counters _
  · exact ok

theorem CarriagePort.Ok.closes {p : CarriagePort} (ok : p.Ok) (mosi : List Byte) : (p.closes mosi).Ok := by
  unfold CarriagePort.closes
  split
  · exact ok
  · exact ok
  · split
    · split
      · exact ok.rewind rfl rfl rfl
      · exact ok
    · exact ok

theorem CarriagePort.Ok.delivers {p : CarriagePort} (ok : p.Ok) (mosi : List Byte) : (p.delivers mosi).Ok := by
  unfold CarriagePort.delivers
  split
  · exact ok
  · split
    · split
      · exact .fillSlot ok.1 ok.2.1
      · exact ok
    · exact ok

theorem PortsOk.putCarriage {s : State} (ok : PortsOk s) {p : CarriagePort} (port : p.Ok) :
    PortsOk { s with cgp := p } := by
  rw [portsOk_iff] at ok ⊢
  exact ⟨ok.1, port⟩

theorem State.portResets_keeps_ports {s : State} (ok : PortsOk s) : PortsOk s.portResets := by
  unfold State.portResets State.carriageReset
  split
  · exact ok
  · rw [portsOk_iff] at ok ⊢
    exact ⟨ok.1, by simp [CarriagePort.Ok, CarriagePort.reset]⟩

/-! ## Served requests -/

/-- A port that may serve has room for the reply, and what answers the request leaves the port alone. -/
theorem PortsOk.reply {s t : State} {ps : List Part} {l : Link} {f : Frame} {rest : List Frame} (ok : PortsOk s)
    (ready : s.readyFor l f rest) (frame : Touches ps (s.putRequests l rest) t) (noTether : .tether ∉ ps)
    (noCarriage : .carriage ∉ ps) (g : Frame) : PortsOk (t.reply l g) := by
  obtain ⟨queue, serves⟩ := ready
  rw [portsOk_iff] at ok
  obtain ⟨tether, carriage⟩ := ok
  cases l with
  | tether =>
    obtain ⟨depth, replies, refusals, attention, running, lost⟩ := tether
    have queued : s.tlp.requests = f :: rest := queue
    have up : s.tlp.up = true := by
      by_contra off
      simp [queued] at lost
      exact off lost
    have room : s.tlp.replies < 4 := of_decide_eq_true serves
    have shorter : rest.length ≤ 4 := by
      rw [queued, List.length_cons] at depth
      omega
    have before : (s.putRequests .tether rest).tlp.Ok :=
      ⟨shorter, replies, refusals, attention, running, fun off => by simp [State.putRequests, up] at off⟩
    obtain ⟨_, sameUp, _, announces⟩ := frame.tether noTether
    obtain ⟨depth', _, refusals', attention', running', _⟩ := before.of_touches frame noTether
    have on : t.tlp.up = true := sameUp.trans up
    have stillRoom : t.tlp.replies < 4 := by
      rcases announces with same | ⟨_, _, gained⟩
      · simpa [TetherPort.replies, same, State.putRequests] using room
      · simpa [TetherPort.replies, gained, State.putRequests, TxMessage.isReply] using room
    rw [portsOk_iff]
    refine ⟨⟨depth', ?_, ?_, ?_, running', fun off => by simp [State.reply, on] at off⟩, ?_⟩
    · simp only [TetherPort.replies, State.reply, List.countP_append] at stillRoom ⊢
      simp [TxMessage.isReply]
      omega
    · simpa [TetherPort.refusals, State.reply, TxMessage.isRefusal] using refusals'
    · simpa [State.reply, List.count_cons] using attention'
    · simp only [State.reply, frame.carriage noCarriage]
      exact carriage
  | carriage =>
    have queued : s.cgp.requests = f :: rest := queue
    have kept := frame.carriage noCarriage
    rw [portsOk_iff]
    have kept' : t.tlp.Ok := TetherPort.Ok.of_touches (s := s.putRequests .carriage rest) tether frame noTether
    refine ⟨kept', ?_⟩
    obtain ⟨depth, few, _⟩ := carriage
    rw [queued, List.length_cons] at depth
    simp only [State.reply, kept, State.putRequests]
    exact ⟨by simp; omega, few, nofun⟩

theorem State.serve_keeps_ports {ps : List Part} {s : State} (ok : PortsOk s) {l : Link} {kind : Byte}
    {act : List Byte → State → Answer} (acts : ∀ p t, Touches ps t (act p t).state) (noTether : .tether ∉ ps)
    (noCarriage : .carriage ∉ ps) : PortsOk (s.serve l kind act) := by
  have answered (t : State) (f : Frame) : Touches ps t (t.answer l f act).state := by
    unfold State.answer
    split
    · exact .refl _ _
    · split
      · exact .refl _ _
      · exact acts _ _
  unfold State.serve
  split
  · exact ok
  · next f rest queue =>
    split
    · next ready => exact ok.reply ⟨queue, ready.2⟩ (answered _ f) noTether noCarriage _
    · exact ok

theorem State.serveBadKind_keeps_ports {s : State} (ok : PortsOk s) (l : Link) : PortsOk (s.serveBadKind l) := by
  unfold State.serveBadKind
  split
  · exact ok
  · next f rest queue =>
    split
    · next ready => exact ok.reply (ps := []) ⟨queue, ready.2⟩ (.refl _ _) (by simp) (by simp) _
    · exact ok

theorem streamAfter_keeps_ports {l : Link} {act : State → State} {s : State} (ok : PortsOk (act s)) :
    PortsOk (streamAfter l act s) := by
  unfold streamAfter
  dsimp only
  split
  · exact ok.of_touches (State.streamDecision_touches _) (by simp) (by simp)
  · exact ok

/-! ## Every command -/

theorem effect_keeps_ports (c : Instr) {s : State} (ok : PortsOk s) : PortsOk (effect c s) := by
  have frame := effect_touches c s
  have port := ((portsOk_iff s).mp ok).2
  have served {ps : List Part} {l : Link} {kind : Byte} {act : List Byte → State → Answer}
      (acts : ∀ p t, Touches ps t (act p t).state) (noPort : .tether ∉ ps ∧ .carriage ∉ ps) :
      PortsOk (s.serve l kind act) := State.serve_keeps_ports ok acts noPort.1 noPort.2
  cases c with
  | powerOn => simp [effect, PortsOk, State.powerOn, TetherPort.powerOn, CarriagePort.powerOn, TetherPort.replies, TetherPort.refusals]
  | reelReport _ rx => exact State.tetherReel_keeps_ports ok rx
  | tetherFrameArrival _ rx => exact State.tetherArrival_keeps_ports ok rx
  | linkAliveTimeout => exact State.linkTimeout_keeps_ports ok
  | messageBegin => exact State.messageBegins_keeps_ports ok
  | csFalling => exact ok.putCarriage port.opens
  | carriageFrameArrival _ mosi => exact ok.putCarriage (port.arrival mosi)
  | carriageFrameError _ mosi => exact ok.putCarriage (port.error mosi)
  | csRising _ mosi => exact ok.putCarriage (port.closes mosi)
  | replyDelivered _ mosi => exact ok.putCarriage (port.delivers mosi)
  | strayByte _ mosi => exact ok.putCarriage (port.strayByte mosi)
  | portReset => exact State.portResets_keeps_ports ok
  | portResetRelease => exact ok.putCarriage port
  | requestBadKind _ l => exact State.serveBadKind_keeps_ports ok l
  | driveReport => exact served answerDriveReport_touches (by simp)
  | chainageQuery => exact served (act := answerChainageQuery) (fun _ _ => .refl [] _) (by simp)
  | setDatum _ l => exact served (answerSetDatum_touches l) (by simp)
  | setSetting _ l =>
    exact streamAfter_keeps_ports (act := fun s => s.serve _ _ _) (served (answerSetSetting_touches l) (by simp))
  | getSetting => exact served answerGetSetting_touches (by simp)
  | headHome => exact served (act := answerHeadHome) (fun _ t => t.headHome_touches) (by simp)
  | headMove => exact served (act := answerHeadMove) (fun _ t => t.headMove_touches _ _ _) (by simp)
  | headStop => exact served (act := answerHeadStop) (fun _ t => t.headStop_touches) (by simp)
  | headPark => exact served (act := answerHeadPark) (fun _ t => t.headPark_touches) (by simp)
  | headRelease => exact served (act := answerHeadRelease) (fun _ t => t.headRelease_touches) (by simp)
  | headQuery _ l => exact served (act := answerHeadQuery l) (fun _ _ => .refl [] _) (by simp)
  | lampQuery => exact served (act := answerLampQuery) (fun _ _ => .refl [] _) (by simp)
  | still _ l => exact served (answerStill_touches l) (by simp)
  | markPoint _ l => exact served (answerMarkPoint_touches l) (by simp)
  | openObs _ l => exact served (answerOpenObs_touches l) (by simp)
  | closeObs => exact served answerCloseObs_touches (by simp)
  | voidObs _ l => exact served (answerVoidObs_touches l) (by simp)
  | annotate => exact served answerAnnotate_touches (by simp)
  | readLog => exact served (act := answerReadLog) (fun _ _ => .refl [] _) (by simp)
  | trimLog => exact served (act := answerTrimLog) (fun _ t => .ofLog t _) (by simp)
  | readStamps _ l =>
    exact streamAfter_keeps_ports (act := fun s => s.serve _ _ _) (served (answerReadStamps_touches l) (by simp))
  | conditionsQuery _ l => exact served (act := answerConditionsQuery l) (fun _ _ => .refl [] _) (by simp)
  | ackConditions _ l => exact served (answerAckConditions_touches l) (by simp)
  | restartSurvey => exact served answerRestartSurvey_touches (by simp)
  | _ => exact ok.of_touches frame (by simp [commandParts]) (by simp [commandParts])

/-- Settles O59: an idle step changes nothing, any other is the effect of a command. -/
theorem everyStepKeepsThePorts : Obligations.EveryStepKeepsThePorts := by
  intro s t ok stepped
  rcases step_effect stepped with rfl | ⟨c, rest, rfl⟩
  · exact ok
  · exact effect_keeps_ports c (s := State.elapse { s with pending := rest } _) ok

end Sys2Proof.Machine
end

