-- ==== Sys2Proof/Proofs/HeadInvariant.lean ====
section
/-! PROOFS. The head's rules (spec/05 sections 5.1, 5.2 and 5.6). `HeadBase` is the part of `HeadOk` that every piece of a
head command keeps; asking for clearance restores the rule on start pending, and settling the head the rule on rest. -/

namespace Sys2Proof.Machine

/-! ## One axis -/

/-- The range of a homed position (spec/05 R100). -/
def positionRange : Axis → Int × Int
  | .pan => (0, 3599)
  | .tilt => (-1350, 1350)

/-- A homed position in its range and a speed limit within the axis's maximum (spec/05 R99, R100). -/
def AxisRecord.Fit (ax : Axis) (a : AxisRecord) : Prop :=
  (∀ p, a.pos = some p → (positionRange ax).1 ≤ p ∧ p ≤ (positionRange ax).2) ∧ 1 ≤ a.limit ∧ a.limit ≤ maxSpeed ax

theorem AxisRecord.Fit.of_eq {ax : Axis} {a b : AxisRecord} (fit : a.Fit ax) (pos : b.pos = a.pos)
    (limit : b.limit = a.limit) : b.Fit ax := by
  unfold AxisRecord.Fit
  rw [pos, limit]
  exact fit

theorem AxisRecord.Fit.withLimit {ax : Axis} {a : AxisRecord} (fit : a.Fit ax) {n : Nat} (low : 1 ≤ n) (high : n ≤ maxSpeed ax) :
    { a with limit := n }.Fit ax := ⟨fit.1, low, high⟩

theorem AxisRecord.Fit.advance {ax : Axis} {a : AxisRecord} (fit : a.Fit ax) (now : Nat) : (a.advance ax now).Fit ax :=
  fit.of_eq (by simp) (by simp)

/-- The index position lies in the axis's range. -/
theorem AxisRecord.Fit.atIndex {ax : Axis} {a b : AxisRecord} (fit : a.Fit ax) (risen : Bool)
    (pos : b.pos = some (a.indexPosition ax risen)) (limit : b.limit = a.limit) : b.Fit ax := by
  unfold AxisRecord.Fit
  rw [limit, pos]
  refine ⟨fun p same => ?_, fit.2⟩
  obtain rfl := Option.some.inj same
  cases ax
  · simp [AxisRecord.indexPosition, positionRange]
  · unfold AxisRecord.indexPosition
    dsimp only
    split <;> simp [positionRange]

/-- A STEP pulse that is issued stays in the range. -/
theorem AxisRecord.Fit.pulse {ax : Axis} {a : AxisRecord} (fit : a.Fit ax) (inside : a.leavesRange ax = false) :
    (a.pulse ax).Fit ax := by
  refine ⟨fun p stepped => ?_, fit.2⟩
  obtain ⟨p, held, rfl⟩ := Option.map_eq_some_iff.mp (show a.pos.map _ = some p from stepped)
  cases ax with
  | pan =>
    simp only [positionRange, stepPos]
    omega
  | tilt =>
    simp only [AxisRecord.leavesRange, held, Bool.or_eq_false_iff, decide_eq_false_iff_not, not_lt] at inside
    exact inside

theorem AxisRecord.Fit.begin_ {ax : Axis} {a : AxisRecord} (fit : a.Fit ax) (tiltIndex : Bool) (now : Nat) :
    (a.begin_ ax tiltIndex now).Fit ax := by
  unfold AxisRecord.begin_
  split
  · exact fit
  · exact fit
  · refine ⟨nofun, ?_⟩
    cases ax <;> simp [homingSpeed, maxSpeed]

theorem AxisRecord.begin_startPending (ax : Axis) (a : AxisRecord) (tiltIndex : Bool) (now : Nat) :
    (a.begin_ ax tiltIndex now).startPending = .clear := by
  unfold AxisRecord.begin_
  split
  · assumption
  · rfl
  · rfl

theorem AxisRecord.rest_atRest (a : AxisRecord) : a.rest.atRest = true := by
  unfold AxisRecord.rest AxisRecord.atRest
  dsimp only
  split <;> rfl

@[simp] theorem AxisRecord.stop_atRest (a : AxisRecord) : a.stop.atRest = a.atRest := by
  unfold AxisRecord.stop
  dsimp only
  split
  · rfl
  · next moving =>
    rw [Bool.not_eq_true] at moving
    rw [moving]
    rfl

@[simp] theorem AxisRecord.stop_startPending (a : AxisRecord) : a.stop.startPending = .clear := by
  unfold AxisRecord.stop
  dsimp only
  split <;> rfl

@[simp] theorem AxisRecord.stop_searchOwed (a : AxisRecord) : a.stop.searchOwed = false := by
  unfold AxisRecord.stop
  dsimp only
  split <;> rfl

theorem AxisRecord.Fit.stop {ax : Axis} {a : AxisRecord} (fit : a.Fit ax) : a.stop.Fit ax := by
  unfold AxisRecord.stop
  dsimp only
  split <;> exact fit

theorem AxisRecord.aim_atRest (ax : Axis) (a : AxisRecord) (target : Int) : (a.aim ax target).atRest = a.atRest := by
  unfold AxisRecord.aim
  split
  · rfl
  · dsimp only
    split
    · split <;> rfl
    · next moving =>
      rw [Bool.not_eq_true] at moving
      rw [moving]
      rfl

theorem AxisRecord.aim_pos (ax : Axis) (a : AxisRecord) (target : Int) : (a.aim ax target).pos = a.pos := by
  unfold AxisRecord.aim
  dsimp only
  split
  · rfl
  · split
    · split <;> rfl
    · rfl

theorem AxisRecord.aim_limit (ax : Axis) (a : AxisRecord) (target : Int) : (a.aim ax target).limit = a.limit := by
  unfold AxisRecord.aim
  dsimp only
  split
  · rfl
  · split
    · split <;> rfl
    · rfl

theorem AxisRecord.aimOpt_atRest (ax : Axis) (a : AxisRecord) (target : Option Int) :
    (a.aimOpt ax target).atRest = a.atRest := by
  cases target with
  | none => rfl
  | some t => exact a.aim_atRest ax t

theorem AxisRecord.Fit.aimOpt {ax : Axis} {a : AxisRecord} (fit : a.Fit ax) (target : Option Int) :
    (a.aimOpt ax target).Fit ax := by
  cases target with
  | none => exact fit
  | some t => exact fit.of_eq (a.aim_pos ax t) (a.aim_limit ax t)

theorem AxisRecord.park_atRest (ax : Axis) (a : AxisRecord) : (a.park ax).atRest = a.atRest := by
  unfold AxisRecord.park
  split
  · rfl
  · split
    · exact a.aim_atRest ax 0
    · split <;> rfl

theorem AxisRecord.Fit.park {ax : Axis} {a : AxisRecord} (fit : a.Fit ax) : (a.park ax).Fit ax := by
  unfold AxisRecord.park
  split
  · exact fit
  · split
    · exact (fit.of_eq (a.aim_pos ax 0) (a.aim_limit ax 0)).withLimit (by cases ax <;> simp [maxSpeed]) le_rfl
    · split <;> exact fit

theorem speedLimit_fits (ax : Axis) {percent : Nat} (atMost : percent ≤ 100) :
    1 ≤ speedLimit ax percent ∧ speedLimit ax percent ≤ maxSpeed ax := by
  cases ax <;> simp only [speedLimit, maxSpeed] <;> omega

/-! ## The rules -/

/-- The rules of `HeadOk` that every piece of a head command keeps. -/
structure HeadBase (h : HeadPositioner) (clearance : Clearance) : Prop where
  lock : h.lock = true → ∀ o, h.op = some o → o.kind = .park
  origin : ∀ o, h.op = some o → (o.kind = .park ↔ o.origin = .carriage)
  demand : h.demand = true ↔ clearance ≠ .unasked
  moving : h.atRest = false → clearance = .given
  pan : h.pan.Fit .pan
  tilt : h.tilt.Fit .tilt

theorem headOk_iff (s : State) : HeadOk s ↔ HeadBase s.hdp s.fxc.clearance ∧
    (s.hdp.anyPending = true → s.fxc.clearance = .waiting) ∧
    (s.hdp.op = none → s.hdp.finished = true ∧ s.fxc.clearance = .unasked) := by
  constructor
  · rintro ⟨lock, origin, demand, moving, pending, idle, pan, tilt, limits⟩
    exact ⟨⟨lock, origin, demand, moving, ⟨pan, limits .pan⟩, ⟨tilt, limits .tilt⟩⟩, pending, idle⟩
  · rintro ⟨⟨lock, origin, demand, moving, pan, tilt⟩, pending, idle⟩
    exact ⟨lock, origin, demand, moving, pending, idle, pan.1, tilt.1, fun ax => by cases ax; exacts [pan.2, tilt.2]⟩

theorem HeadOk.base {s : State} (ok : HeadOk s) : HeadBase s.hdp s.fxc.clearance := ((headOk_iff s).mp ok).1

theorem HeadOk.of_touches {ps : List Part} {s t : State} (ok : HeadOk s) (frame : Touches ps s t) (noHead : .hdp ∉ ps)
    (noClearance : .clearance ∉ ps) : HeadOk t := by
  rw [headOk_iff] at ok ⊢
  rw [frame.hdp noHead, frame.clearance noClearance]
  exact ok

/-- With an axis in motion clearance is given and an operation is in flight. -/
theorem HeadOk.of_moving {s : State} (ok : HeadOk s) (moving : s.hdp.atRest = false) :
    s.fxc.clearance = .given ∧ s.hdp.op ≠ none ∧ s.hdp.anyPending = false := by
  obtain ⟨base, pending, idle⟩ := (headOk_iff s).mp ok
  have given := base.moving moving
  refine ⟨given, fun none => ?_, ?_⟩
  · simp [given] at idle
    exact idle none
  · by_contra any
    simp [given] at pending
    exact any pending

theorem HeadPositioner.atRest_of_finished {h : HeadPositioner} (done : h.finished = true) :
    h.atRest = true ∧ h.anyPending = false := by
  simp only [HeadPositioner.finished, Bool.and_eq_true, Bool.not_eq_true'] at done
  obtain ⟨⟨⟨rest, pending⟩, _⟩, _⟩ := done
  exact ⟨rest, pending⟩

/-- The axes replaced by fit ones, of which none sets off that was at rest. -/
theorem HeadBase.putAxes {h : HeadPositioner} {cl : Clearance} (base : HeadBase h cl) {p t : AxisRecord} (pan : p.Fit .pan)
    (tilt : t.Fit .tilt) (panRest : h.pan.atRest = true → p.atRest = true)
    (tiltRest : h.tilt.atRest = true → t.atRest = true) : HeadBase { h with pan := p, tilt := t } cl where
  lock := base.lock
  origin := base.origin
  demand := base.demand
  moving moves := by
    refine base.moving ?_
    simp only [HeadPositioner.atRest, Bool.and_eq_false_iff] at moves ⊢
    rcases moves with moves | moves
    · exact .inl (by by_contra rest; simp [panRest (by simpa using rest)] at moves)
    · exact .inr (by by_contra rest; simp [tiltRest (by simpa using rest)] at moves)
  pan := pan
  tilt := tilt

theorem HeadBase.putAxis {h : HeadPositioner} {cl : Clearance} (base : HeadBase h cl) {ax : Axis} {a : AxisRecord}
    (fit : a.Fit ax) (rest : (h.axis ax).atRest = true → a.atRest = true) : HeadBase (h.putAxis ax a) cl := by
  cases ax with
  | pan => exact base.putAxes fit base.tilt rest id
  | tilt => exact base.putAxes base.pan fit id rest

theorem HeadBase.fit {h : HeadPositioner} {cl : Clearance} (base : HeadBase h cl) (ax : Axis) : (h.axis ax).Fit ax := by
  cases ax
  · exact base.pan
  · exact base.tilt

theorem HeadBase.advance {h : HeadPositioner} {cl : Clearance} (base : HeadBase h cl) (now : Nat) :
    HeadBase (h.advance now) cl :=
  base.putAxes (base.pan.advance now) (base.tilt.advance now) (by simp) (by simp)

/-- The operation replaced. -/
theorem HeadBase.putOp {h : HeadPositioner} {cl : Clearance} (base : HeadBase h cl) {op : Option HeadOperation}
    (outcome : HeadOutcome) (lock : h.lock = true → ∀ o, op = some o → o.kind = .park)
    (origin : ∀ o, op = some o → (o.kind = .park ↔ o.origin = .carriage)) :
    HeadBase { h with op := op, outcome := outcome } cl where
  lock := lock
  origin := origin
  demand := base.demand
  moving := base.moving
  pan := base.pan
  tilt := base.tilt

/-! ## Clearance and completion -/

theorem State.endOperation_hdp (s : State) :
    ∃ tether carriage, s.endOperation.hdp
      = { s.hdp with op := none, doneTether := tether, doneCarriage := carriage } := by
  unfold State.endOperation
  split
  · next none => exact ⟨s.hdp.doneTether, s.hdp.doneCarriage, by rw [← none]⟩
  · next o some =>
    rw [State.raiseFor_hdp]
    cases o.origin <;> exact ⟨_, _, rfl⟩

@[simp] theorem State.endOperation_clearance (s : State) : s.endOperation.fxc = s.fxc := by
  unfold State.endOperation
  split
  · rfl
  · simp

theorem State.endOperation_base {s : State} (base : HeadBase s.hdp s.fxc.clearance) :
    HeadBase s.endOperation.hdp s.endOperation.fxc.clearance := by
  obtain ⟨tether, carriage, ended⟩ := s.endOperation_hdp
  rw [ended, State.endOperation_clearance]
  exact ⟨nofun, nofun, base.demand, base.moving, base.pan, base.tilt⟩

/-- Begun axes have no start pending. -/
theorem HeadPositioner.beginPending_anyPending (h : HeadPositioner) (now : Nat) : (h.beginPending now).anyPending = false := by
  simp [HeadPositioner.anyPending, HeadPositioner.beginPending, AxisRecord.begin_startPending]

theorem HeadBase.beginPending {h : HeadPositioner} (base : HeadBase h .given) (now : Nat) :
    HeadBase (h.beginPending now) .given where
  lock := base.lock
  origin := base.origin
  demand := base.demand
  moving _ := rfl
  pan := base.pan.begin_ h.tiltIndex now
  tilt := base.tilt.begin_ h.tiltIndex now

/-- Asking for clearance makes start pending wait, or begins it. -/
theorem State.askClearance_base {s : State} (base : HeadBase s.hdp s.fxc.clearance) :
    HeadBase s.askClearance.hdp s.askClearance.fxc.clearance ∧
    (s.askClearance.hdp.anyPending = true → s.askClearance.fxc.clearance = .waiting) ∧
    s.askClearance.hdp.op = s.hdp.op := by
  unfold State.askClearance
  split
  · split
    · next unasked =>
      have rest : s.hdp.atRest = true := by
        by_contra moving
        simp [base.moving (by simpa using moving)] at unasked
      exact ⟨⟨base.lock, base.origin, by simp, fun moving => by simp [HeadPositioner.atRest] at rest moving; simp [rest] at moving,
        base.pan, base.tilt⟩, fun _ => rfl, rfl⟩
    · next waiting => exact ⟨base, fun _ => waiting, rfl⟩
    · next given =>
      refine ⟨?_, fun any => ?_, rfl⟩
      · rw [given] at base ⊢
        exact base.beginPending _
      · simp [HeadPositioner.beginPending_anyPending] at any
  · next none => exact ⟨base, fun any => absurd any none, rfl⟩

/-- Settling the head ends an operation with nothing left to do, and gives back the clearance of a head at rest. -/
theorem State.settleHead_ok {s : State} (base : HeadBase s.hdp s.fxc.clearance)
    (pending : s.hdp.anyPending = true → s.fxc.clearance = .waiting) (idle : s.hdp.op = none → s.hdp.finished = true) :
    HeadOk s.settleHead := by
  have settled (t : State) (base : HeadBase t.hdp t.fxc.clearance)
      (pending : t.hdp.anyPending = true → t.fxc.clearance = .waiting) (idle : t.hdp.op = none → t.hdp.finished = true) :
      HeadOk (if t.hdp.atRest && t.hdp.op.isNone then
        { t with hdp := { t.hdp with demand := false }, fxc := { t.fxc with clearance := .unasked } } else t) := by
    rw [headOk_iff]
    split
    · next resting =>
      simp only [Bool.and_eq_true, Option.isNone_iff_eq_none] at resting
      obtain ⟨rest, noPending⟩ := HeadPositioner.atRest_of_finished (idle resting.2)
      refine ⟨⟨base.lock, base.origin, by simp, fun moving => ?_, base.pan, base.tilt⟩, fun any => ?_,
        fun none => ⟨idle none, rfl⟩⟩
      · exact absurd (rest.symm.trans moving) (by simp)
      · exact absurd (noPending.symm.trans any) (by simp)
    · next busy =>
      refine ⟨base, pending, fun none => ?_⟩
      have rest := (HeadPositioner.atRest_of_finished (idle none)).1
      simp [rest, none] at busy
  unfold State.settleHead
  split
  · next done =>
    obtain ⟨tether, carriage, ended⟩ := s.endOperation_hdp
    refine settled _ (State.endOperation_base base) ?_ ?_
    · rw [ended, State.endOperation_clearance]
      exact pending
    · rw [ended]
      exact fun _ => done
  · exact settled s base pending idle

/-! ## The commands of an axis -/

theorem State.noteRest_hdp (s : State) : ∃ time, s.noteRest.hdp = { s.hdp with restTime := time } ∧ s.noteRest.fxc = s.fxc := by
  unfold State.noteRest
  split
  · exact ⟨_, rfl, rfl⟩
  · exact ⟨_, rfl, rfl⟩

/-- Noting the instant of rest before settling. -/
theorem State.noteRest_settleHead_ok {s : State} (base : HeadBase s.hdp s.fxc.clearance)
    (pending : s.hdp.anyPending = true → s.fxc.clearance = .waiting) (idle : s.hdp.op = none → s.hdp.finished = true) :
    HeadOk s.noteRest.settleHead := by
  obtain ⟨time, head, timer⟩ := s.noteRest_hdp
  refine State.settleHead_ok ?_ ?_ ?_
  · rw [head, timer]
    exact ⟨base.lock, base.origin, base.demand, base.moving, base.pan, base.tilt⟩
  · rw [head, timer]
    exact pending
  · rw [head]
    exact idle

theorem HeadPositioner.putAxis_op (h : HeadPositioner) (ax : Axis) (a : AxisRecord) : (h.putAxis ax a).op = h.op := by
  cases ax <;> rfl

theorem HeadPositioner.putAxis_axis (h : HeadPositioner) (ax : Axis) (a : AxisRecord) : (h.putAxis ax a).axis ax = a := by
  cases ax <;> rfl

theorem HeadPositioner.not_atRest {h : HeadPositioner} {ax : Axis} (moving : (h.axis ax).atRest = false) :
    h.atRest = false := by
  cases ax <;> simp [HeadPositioner.atRest, HeadPositioner.axis] at moving ⊢ <;> simp [moving]

theorem State.axisRests_ok {s : State} (ax : Axis) (base : HeadBase s.hdp s.fxc.clearance) (busy : s.hdp.op ≠ none) :
    HeadOk (s.axisRests ax) := by
  have rested (a : AxisRecord) (pos : a.pos = (s.hdp.axis ax).pos) (limit : a.limit = (s.hdp.axis ax).limit)
      (rest : a.atRest = true) :
      HeadOk { s with hdp := s.hdp.putAxis ax a }.askClearance.noteRest.settleHead := by
    have put : HeadBase (s.hdp.putAxis ax a) s.fxc.clearance := base.putAxis ((base.fit ax).of_eq pos limit) fun _ => rest
    obtain ⟨asked, pending, op⟩ := State.askClearance_base (s := { s with hdp := s.hdp.putAxis ax a }) put
    refine State.noteRest_settleHead_ok asked pending fun none => ?_
    rw [op] at none
    exact absurd ((s.hdp.putAxis_op ax a).symm.trans none) busy
  unfold State.axisRests
  dsimp only
  split
  · exact rested _ rfl rfl (AxisRecord.rest_atRest _)
  · exact rested _ rfl rfl (AxisRecord.rest_atRest _)

/-- An axis in motion takes a fit record that is in motion too. -/
theorem HeadOk.putMoving {s : State} (ok : HeadOk s) {ax : Axis} {a : AxisRecord} (moving : (s.hdp.axis ax).atRest = false)
    (fit : a.Fit ax) (pending : a.startPending = (s.hdp.axis ax).startPending) :
    HeadOk { s with hdp := s.hdp.putAxis ax a } := by
  obtain ⟨given, busy, noPending⟩ := ok.of_moving (HeadPositioner.not_atRest moving)
  rw [headOk_iff]
  refine ⟨ok.base.putAxis fit (fun rest => by simp [rest] at moving), fun any => ?_, fun none => ?_⟩
  · have same : (s.hdp.putAxis ax a).anyPending = s.hdp.anyPending := by
      cases ax <;> simp_all [HeadPositioner.anyPending, HeadPositioner.putAxis, HeadPositioner.axis]
    exact absurd (noPending.symm.trans (same.symm.trans any)) (by simp)
  · exact absurd ((s.hdp.putAxis_op ax a).symm.trans none) busy

theorem State.axisStep_keeps_head {s : State} (ok : HeadOk s) (ax : Axis) : HeadOk (s.axisStep ax) := by
  unfold State.axisStep
  dsimp only
  split
  · next owed =>
    have fit := (ok.base.fit ax).advance s.timeBase
    have moving : (s.hdp.axis ax).atRest = false := by
      simp only [AxisRecord.pulseOwed, AxisRecord.advance_isAtRest, Bool.and_eq_true, Bool.not_eq_true'] at owed
      exact owed.1.1
    split
    · unfold State.rangeEnd
      have stopped := ok.putMoving moving
        (a := { (s.hdp.axis ax).advance ax s.timeBase with speedSq := 0, part := 0 }) fit (by simp)
      dsimp only
      split
      · refine State.axisRests_ok ax stopped.base ?_
        simpa only [HeadPositioner.putAxis_op] using (ok.of_moving (HeadPositioner.not_atRest moving)).2.1
      · exact stopped
    · next inside =>
      exact ok.putMoving moving (fit.pulse (by simpa using inside)) (by simp [AxisRecord.pulse])
  · exact ok

theorem State.axisRest_keeps_head {s : State} (ok : HeadOk s) (ax : Axis) : HeadOk (s.axisRest ax) := by
  unfold State.axisRest
  dsimp only
  split
  · next due =>
    have moving : (s.hdp.axis ax).atRest = false := by
      simp only [AxisRecord.restDue, AxisRecord.advance_isAtRest, Bool.and_eq_true, Bool.not_eq_true'] at due
      exact due.1.1.1.1
    have advanced := ok.putMoving moving ((ok.base.fit ax).advance s.timeBase) (by simp)
    refine State.axisRests_ok ax advanced.base ?_
    simpa only [HeadPositioner.putAxis_op] using (ok.of_moving (HeadPositioner.not_atRest moving)).2.1
  · exact ok

theorem State.homingFails_keeps_head {s : State} (ok : HeadOk s) (ax : Axis) : HeadOk (s.homingFails ax) := by
  unfold State.homingFails
  dsimp only
  split
  · next spent =>
    have moving : (s.hdp.axis ax).atRest = false := by
      simp only [AxisRecord.searchSpent, AxisRecord.seeking, AxisRecord.advance_state, Bool.and_eq_true,
        beq_iff_eq] at spent
      simp [AxisRecord.atRest, spent.1.1]
    have stopped := ok.putMoving moving (a := { (s.hdp.axis ax).advance ax s.timeBase with
      state := .stopping, lossCause := .indexNotFound }) ((ok.base.fit ax).advance _) (by simp)
    refine HeadOk.of_touches ?_ (State.raise_touches _ _) (by simp) (by simp)
    rw [headOk_iff] at stopped ⊢
    exact ⟨⟨stopped.1.lock, stopped.1.origin, stopped.1.demand, stopped.1.moving, stopped.1.pan, stopped.1.tilt⟩,
      stopped.2⟩
  · exact ok

/-! ## The index -/

theorem AxisRecord.lose_fit {ax : Axis} {a : AxisRecord} (fit : a.Fit ax) : a.lose.Fit ax := ⟨nofun, fit.2⟩

/-- What an index mismatch makes of the head. -/
def HeadPositioner.mismatched (h : HeadPositioner) (ax : Axis) (now : Nat) : HeadPositioner :=
  let h := h.putAxis ax (h.axis ax).lose
  match h.op with
  | none => h
  | some o =>
    if o.stopping then { h with outcome := .lost }
    else
      { h.putAxis (otherAxis ax) ((h.axis (otherAxis ax)).advance (otherAxis ax) now).stop with
        op := some { o with stopping := true }, outcome := .lost }

theorem State.indexMismatch_eq (s : State) (ax : Axis) :
    s.indexMismatch ax =
      (if s.hdp.atRest then { s with hdp := s.hdp.mismatched ax s.timeBase }.raise .headLost
        else ({ s with hdp := s.hdp.mismatched ax s.timeBase }.raise .headLost).noteRest).settleHead := rfl

theorem HeadPositioner.putAxis_pending {h : HeadPositioner} {ax : Axis} {a : AxisRecord} (clear : a.startPending = .clear)
    (any : (h.putAxis ax a).anyPending = true) : h.anyPending = true := by
  cases ax <;> simp_all [HeadPositioner.anyPending, HeadPositioner.putAxis]

theorem HeadPositioner.putAxis_finished {h : HeadPositioner} {ax : Axis} {a : AxisRecord} (rest : a.atRest = true)
    (clear : a.startPending = .clear) (owes : a.searchOwed = false) (done : h.finished = true) :
    (h.putAxis ax a).finished = true := by
  cases ax <;>
    simp_all [HeadPositioner.finished, HeadPositioner.anyPending, HeadPositioner.putAxis, HeadPositioner.atRest]

theorem HeadPositioner.mismatched_rules {h : HeadPositioner} {cl : Clearance} (base : HeadBase h cl)
    (pending : h.anyPending = true → cl = .waiting) (idle : h.op = none → h.finished = true) (ax : Axis) (now : Nat) :
    HeadBase (h.mismatched ax now) cl ∧ ((h.mismatched ax now).anyPending = true → cl = .waiting) ∧
      ((h.mismatched ax now).op = none → (h.mismatched ax now).finished = true) := by
  have lost : HeadBase (h.putAxis ax (h.axis ax).lose) cl := base.putAxis (AxisRecord.lose_fit (base.fit ax)) fun _ => rfl
  have lostPending (any : (h.putAxis ax (h.axis ax).lose).anyPending = true) : cl = .waiting :=
    pending (HeadPositioner.putAxis_pending rfl any)
  unfold HeadPositioner.mismatched
  dsimp only
  split
  · next none =>
    rw [HeadPositioner.putAxis_op] at none
    exact ⟨lost, lostPending, fun _ => HeadPositioner.putAxis_finished rfl rfl rfl (idle none)⟩
  · next o inFlight =>
    split
    · exact ⟨⟨lost.lock, lost.origin, lost.demand, lost.moving, lost.pan, lost.tilt⟩, lostPending,
        fun none => absurd (inFlight.symm.trans none) (by simp)⟩
    · have stopped := lost.putAxis (ax := otherAxis ax) ((lost.fit (otherAxis ax)).advance now).stop (by simp)
      refine ⟨stopped.putOp _ (fun held p same => ?_) fun p same => ?_, fun any => ?_, nofun⟩
      · obtain rfl := Option.some.inj same
        exact lost.lock (by cases ax <;> exact held) o inFlight
      · obtain rfl := Option.some.inj same
        exact lost.origin o inFlight
      · exact lostPending (HeadPositioner.putAxis_pending (by simp) any)

theorem State.indexMismatch_keeps_head {s : State} (ok : HeadOk s) (ax : Axis) : HeadOk (s.indexMismatch ax) := by
  obtain ⟨base, pending, idle⟩ := (headOk_iff s).mp ok
  obtain ⟨base', pending', idle'⟩ :=
    HeadPositioner.mismatched_rules base pending (fun none => (idle none).1) ax s.timeBase
  rw [State.indexMismatch_eq]
  split
  · exact State.settleHead_ok (by simpa using base') (by simpa using pending') (by simpa using idle')
  · exact State.noteRest_settleHead_ok (by simpa using base') (by simpa using pending') (by simpa using idle')

theorem State.indexPass_keeps_head {s : State} (ok : HeadOk s) (ax : Axis) : HeadOk (s.indexPass ax) := by
  have judged (t : State) (ok : HeadOk t) (risen : Bool) :
      let a := (t.hdp.axis ax).advance ax t.timeBase
      HeadOk (if a.seeking then { t with hdp := t.hdp.putAxis ax (a.found (a.indexPosition ax risen)) }
        else match a.pos with
          | none => t
          | some p =>
            if indexError ax p (a.indexPosition ax risen) ≤ 20 then
              { t with hdp := t.hdp.putAxis ax (a.correct ax p (a.indexPosition ax risen)) }
            else t.indexMismatch ax) := by
    intro a
    have fit : a.Fit ax := (ok.base.fit ax).advance t.timeBase
    split
    · next seeks =>
      have moving : (t.hdp.axis ax).atRest = false := by
        simp only [AxisRecord.seeking, a, AxisRecord.advance_state, Bool.and_eq_true, beq_iff_eq] at seeks
        simp [AxisRecord.atRest, seeks.1]
      exact ok.putMoving moving (fit.atIndex risen rfl rfl) (by simp [AxisRecord.found, a])
    · split
      · exact ok
      · next p _ =>
        split
        · obtain ⟨base, pending, idle⟩ := (headOk_iff t).mp ok
          have same : (a.correct ax p (a.indexPosition ax risen)).atRest = (t.hdp.axis ax).atRest := by
            change a.atRest = _
            simp [a]
          rw [headOk_iff]
          refine ⟨base.putAxis (fit.atIndex risen rfl rfl) (fun rest => same.trans rest), fun any => pending ?_,
            fun none => ?_⟩
          · cases ax <;> simp_all [HeadPositioner.anyPending, HeadPositioner.putAxis, HeadPositioner.axis,
              AxisRecord.correct, a]
          · obtain ⟨done, unasked⟩ := idle ((t.hdp.putAxis_op ax _).symm.trans none)
            refine ⟨?_, unasked⟩
            cases ax <;> simp_all [HeadPositioner.finished, HeadPositioner.atRest, HeadPositioner.anyPending,
              HeadPositioner.putAxis, HeadPositioner.axis, AxisRecord.correct, a]
        · exact State.indexMismatch_keeps_head ok ax
  cases ax with
  | pan => exact judged s ok true
  | tilt =>
    refine judged { s with hdp := { s.hdp with tiltIndex := !s.hdp.tiltIndex } } ?_ _
    rw [headOk_iff] at ok ⊢
    exact ⟨⟨ok.1.lock, ok.1.origin, ok.1.demand, ok.1.moving, ok.1.pan, ok.1.tilt⟩, ok.2⟩

/-! ## The requests -/

theorem State.stopOperation_keeps_head {s : State} (ok : HeadOk s) (outcome : HeadOutcome) :
    HeadOk (s.stopOperation outcome) := by
  obtain ⟨base, _, _⟩ := (headOk_iff s).mp ok
  unfold State.stopOperation
  split
  · exact ok
  · next o inFlight =>
    split
    · exact ok
    · have stopped : HeadBase (s.hdp.stopAxes s.timeBase) s.fxc.clearance :=
        base.putAxes (base.pan.advance _).stop (base.tilt.advance _).stop (by simp) (by simp)
      refine State.settleHead_ok (stopped.putOp _ (fun held p same => ?_) fun p same => ?_) (fun any => ?_) nofun
      · obtain rfl := Option.some.inj same
        exact base.lock held o inFlight
      · obtain rfl := Option.some.inj same
        exact base.origin o inFlight
      · simp [HeadPositioner.anyPending, HeadPositioner.stopAxes] at any

theorem State.headHome_keeps_head {s : State} (ok : HeadOk s) : HeadOk s.headHome.1 := by
  obtain ⟨base, _, idle⟩ := (headOk_iff s).mp ok
  unfold State.headHome
  split
  · exact ok
  · next free =>
    split
    · exact ok
    · next idleHead =>
      have unlocked : ∀ o, some (HeadOperation.mk .home .tether false) = some o → (o.kind = .park ↔ o.origin = .carriage) := by
        rintro o ⟨⟩
        simp
      have asking : HeadBase { s.hdp with
          pan := { s.hdp.pan with homingTravel := 0, startPending := .home }
          tilt := { s.hdp.tilt with homingTravel := 0, startPending := .home } } s.fxc.clearance :=
        base.putAxes base.pan base.tilt id id
      obtain ⟨asked, pending, op⟩ := State.askClearance_base (s := { s with hdp := _ })
        (asking.putOp .reached (fun held => absurd held free) unlocked)
      rw [headOk_iff]
      exact ⟨asked, pending, fun none => absurd (op.symm.trans none) (by simp)⟩

theorem State.yieldToMove_base {s : State} (base : HeadBase s.hdp s.fxc.clearance) :
    HeadBase s.yieldToMove.hdp s.yieldToMove.fxc.clearance := by
  unfold State.yieldToMove
  split
  · exact base
  · split
    · exact State.endOperation_base base
    · split
      · exact base
      · exact State.endOperation_base (s := { s with hdp := { s.hdp with outcome := .superseded } })
          ⟨base.lock, base.origin, base.demand, base.moving, base.pan, base.tilt⟩

theorem State.yieldToMove_lock (s : State) : s.yieldToMove.hdp.lock = s.hdp.lock := by
  have ended (t : State) : t.endOperation.hdp.lock = t.hdp.lock := by
    obtain ⟨_, _, h⟩ := t.endOperation_hdp
    rw [h]
  unfold State.yieldToMove
  split
  · rfl
  · split
    · exact ended s
    · split
      · rfl
      · exact ended _

theorem State.takeMove_keeps_head {s : State} (ok : HeadOk s) (free : s.hdp.lock = false) (pan tilt : Option Int)
    {percent : Nat} (atMost : percent ≤ 100) : HeadOk (s.takeMove pan tilt percent) := by
  obtain ⟨base, pending, idle⟩ := (headOk_iff s).mp ok
  have advanced := base.advance s.timeBase
  have limits := fun ax => speedLimit_fits ax atMost
  unfold State.takeMove
  split
  · have limited (ax : Axis) (a : AxisRecord) (fit : a.Fit ax) : (a.limitTravel ax percent).Fit ax := by
      unfold AxisRecord.limitTravel
      split
      · exact fit
      · exact fit.withLimit (limits ax).1 (limits ax).2
    have same (ax : Axis) (a : AxisRecord) : ∃ n, a.limitTravel ax percent = { a with limit := n } := by
      unfold AxisRecord.limitTravel
      split
      · exact ⟨_, rfl⟩
      · exact ⟨_, rfl⟩
    obtain ⟨n, samePan⟩ := same .pan (s.hdp.advance s.timeBase).pan
    obtain ⟨m, sameTilt⟩ := same .tilt (s.hdp.advance s.timeBase).tilt
    rw [headOk_iff]
    refine ⟨advanced.putAxes (limited _ _ advanced.pan) (limited _ _ advanced.tilt) ?_ ?_, fun any => pending ?_,
      fun none => ⟨?_, (idle none).2⟩⟩
    · exact fun rest => by rw [samePan]; exact rest
    · exact fun rest => by rw [sameTilt]; exact rest
    · dsimp only at any
      rw [samePan, sameTilt] at any
      simpa [HeadPositioner.anyPending] using any
    · have done := (idle none).1
      dsimp only
      rw [samePan, sameTilt]
      simpa [HeadPositioner.finished, HeadPositioner.anyPending, HeadPositioner.atRest, AxisRecord.atRest] using done
  · have yielded : HeadBase s.advanceHead.yieldToMove.hdp s.advanceHead.yieldToMove.fxc.clearance :=
      State.yieldToMove_base (s := s.advanceHead) advanced
    have unlocked : s.advanceHead.yieldToMove.hdp.lock = false := (State.yieldToMove_lock _).trans free
    unfold State.moveTo
    dsimp only
    generalize s.advanceHead.yieldToMove = s1 at yielded unlocked ⊢
    have aimed := yielded.putAxes
      ((yielded.pan.aimOpt pan).withLimit (limits .pan).1 (limits .pan).2)
      ((yielded.tilt.aimOpt tilt).withLimit (limits .tilt).1 (limits .tilt).2)
      (fun rest => (AxisRecord.aimOpt_atRest .pan s1.hdp.pan pan).trans rest)
      (fun rest => (AxisRecord.aimOpt_atRest .tilt s1.hdp.tilt tilt).trans rest)
    have origin : ∀ o, some (HeadOperation.mk .move .tether false) = some o → (o.kind = .park ↔ o.origin = .carriage) := by
      rintro o ⟨⟩
      simp
    obtain ⟨asked, pending, op⟩ := State.askClearance_base (s := { s1 with hdp := _ })
      (aimed.putOp (if s1.hdp.op.isSome then s1.hdp.outcome else .reached)
        (fun held => absurd (unlocked.symm.trans held) (by simp)) origin)
    exact State.settleHead_ok asked pending fun none => absurd (op.symm.trans none) (by simp)

theorem State.headMove_keeps_head {s : State} (ok : HeadOk s) (pan tilt : Option Int) (percent : Nat) :
    HeadOk (s.headMove pan tilt percent).1 := by
  unfold State.headMove
  dsimp only
  split
  · exact ok
  · next free =>
    split
    · exact ok
    · split
      · exact ok
      · exact State.takeMove_keeps_head ok (by simpa using free) _ _ (by simp [clampNat])

theorem State.headPark_keeps_head {s : State} (ok : HeadOk s) : HeadOk s.headPark := by
  obtain ⟨base, pending, idle⟩ := (headOk_iff s).mp ok
  unfold State.headPark
  dsimp only
  split
  · next parking =>
    rw [headOk_iff]
    refine ⟨⟨fun _ o inFlight => ?_, base.origin, base.demand, base.moving, base.pan, base.tilt⟩, pending, idle⟩
    have held : s.hdp.op = some o := inFlight
    simpa [HeadPositioner.parkInFlight, held] using parking
  · let s0 : State := { s with hdp := { s.hdp with lock := true } }
    have superseded : HeadBase { s0.advanceHead.supersede.hdp with op := none } s0.advanceHead.supersede.fxc.clearance := by
      unfold State.supersede
      split
      · have advanced := base.advance s.timeBase
        exact ⟨nofun, nofun, advanced.demand, advanced.moving, advanced.pan, advanced.tilt⟩
      · obtain ⟨tether, carriage, ended⟩ :=
          State.endOperation_hdp { s0.advanceHead with hdp := { s0.advanceHead.hdp with outcome := .superseded } }
        rw [ended, State.endOperation_clearance]
        have advanced := base.advance s.timeBase
        exact ⟨nofun, nofun, advanced.demand, advanced.moving, advanced.pan, advanced.tilt⟩
    change HeadOk (State.settleHead (State.askClearance { s0.advanceHead.supersede with hdp := _ }))
    generalize s0.advanceHead.supersede = s1 at superseded ⊢
    have parked := superseded.putAxes superseded.pan.park superseded.tilt.park
      (fun rest => (AxisRecord.park_atRest .pan s1.hdp.pan).trans rest)
      (fun rest => (AxisRecord.park_atRest .tilt s1.hdp.tilt).trans rest)
    obtain ⟨asked, pending, op⟩ := State.askClearance_base (s := { s1 with hdp := _ })
      (parked.putOp (op := some ⟨.park, .carriage, false⟩) .reached (fun _ o same => by cases same; rfl)
        (fun o same => by cases same; simp))
    exact State.settleHead_ok asked pending fun none => absurd (op.symm.trans none) (by simp)

theorem HeadOk.unlock {s : State} (ok : HeadOk s) : HeadOk { s with hdp := { s.hdp with lock := false } } := by
  rw [headOk_iff] at ok ⊢
  exact ⟨⟨nofun, ok.1.origin, ok.1.demand, ok.1.moving, ok.1.pan, ok.1.tilt⟩, ok.2⟩

theorem State.headRelease_keeps_head {s : State} (ok : HeadOk s) : HeadOk s.headRelease := by
  unfold State.headRelease
  dsimp only
  split
  · exact State.stopOperation_keeps_head ok.unlock _
  · exact ok.unlock

/-! ## The other commands that touch the head -/

theorem State.linkTimeout_keeps_head {s : State} (ok : HeadOk s) : HeadOk s.linkTimeout := by
  have lost (t : State) (ok : HeadOk t) : HeadOk t.headLinkLost := by
    unfold State.headLinkLost
    split
    · exact ok
    · split
      · exact State.stopOperation_keeps_head ok _
      · exact ok
  unfold State.linkTimeout
  split
  · exact lost _ ok
  · exact ok

theorem State.commitOutcome_keeps_head {s : State} (ok : HeadOk s) (c : Commit) (rest : List Commit) (slot : PipeSlot) :
    HeadOk (s.commitOutcome c rest slot) := by
  have given (t : State) (ok : HeadOk t) : HeadOk (t.clearanceAt c slot.set) := by
    obtain ⟨base, pending, idle⟩ := (headOk_iff t).mp ok
    unfold State.clearanceAt
    split
    · next asked =>
      have raised : t.hdp.demand = true := base.demand.mpr (by simp [asked.1])
      rw [headOk_iff]
      refine ⟨HeadBase.beginPending ⟨base.lock, base.origin, by simp [raised], fun _ => rfl, base.pan, base.tilt⟩ _,
        fun any => ?_, fun none => ?_⟩
      · simp [State.giveClearance, HeadPositioner.beginPending_anyPending] at any
      · have unasked := (idle none).2
        simp [asked.1] at unasked
    · exact ok
  refine given _ ?_
  rw [headOk_iff] at ok ⊢
  have clearance : ({ s.fxc with commits := rest }.place c.age slot).clearance = s.fxc.clearance := by
    unfold FrameTimer.place
    split <;> rfl
  dsimp only
  rw [clearance]
  exact ok

theorem State.writeCompletes_keeps_head {s : State} (ok : HeadOk s) : HeadOk s.writeCompletes := by
  unfold State.writeCompletes
  split
  · split
    · exact State.commitOutcome_keeps_head ok _ _ _
    · exact ok
  · exact ok

theorem State.commitExpires_keeps_head {s : State} (ok : HeadOk s) : HeadOk s.commitExpires := by
  unfold State.commitExpires
  split
  · split
    · exact State.commitOutcome_keeps_head ok _ _ _
    · exact ok
  · exact ok

theorem State.portResets_keeps_head {s : State} (ok : HeadOk s) : HeadOk s.portResets := by
  unfold State.portResets
  split
  · exact ok
  · rw [headOk_iff] at ok ⊢
    exact ⟨⟨nofun, ok.1.origin, ok.1.demand, ok.1.moving, ok.1.pan, ok.1.tilt⟩, ok.2⟩

theorem State.headSample_keeps_head {s : State} (ok : HeadOk s) : HeadOk s.headSample := by
  unfold State.headSample
  split
  · rw [headOk_iff] at ok ⊢
    exact ⟨⟨ok.1.lock, ok.1.origin, ok.1.demand, ok.1.moving, ok.1.pan, ok.1.tilt⟩, ok.2⟩
  · exact ok

theorem HeadOk.powerOn (p : Pins) (q : List Instr) : HeadOk { State.powerOn p with pending := q } := by
  have fit (ax : Axis) : (AxisRecord.powerOn (maxSpeed ax)).Fit ax := by
    refine ⟨nofun, ?_⟩
    cases ax <;> simp [AxisRecord.powerOn, maxSpeed]
  rw [headOk_iff]
  exact ⟨⟨nofun, nofun, by simp [State.powerOn, HeadPositioner.powerOn, FrameTimer.powerOn], nofun, fit .pan, fit .tilt⟩,
    nofun, fun _ => ⟨rfl, rfl⟩⟩

theorem effect_keeps_head (c : Instr) {s : State} (ok : HeadOk s) : HeadOk (effect c s) := by
  have frame := effect_touches c s
  have served {l : Link} {kind : Byte} {act : List Byte → State → Answer}
      (acts : ∀ p t, HeadOk t → HeadOk (act p t).state) : HeadOk (s.serve l kind act) :=
    State.serve_keeps (fun _ _ touched ok => ok.of_touches touched (by simp) (by simp)) acts ok
  cases c with
  | powerOn p => exact .powerOn p _
  | sensorWriteComplete => exact State.writeCompletes_keeps_head ok
  | commitDeadlineExpiry => exact State.commitExpires_keeps_head ok
  | headHistorySample => exact State.headSample_keeps_head ok
  | axisStep _ ax => exact State.axisStep_keeps_head ok ax
  | axisRest _ ax => exact State.axisRest_keeps_head ok ax
  | indexPass _ ax => exact State.indexPass_keeps_head ok ax
  | homingLimit _ ax => exact State.homingFails_keeps_head ok ax
  | linkAliveTimeout => exact State.linkTimeout_keeps_head ok
  | portReset => exact State.portResets_keeps_head ok
  | headHome => exact served fun _ _ ok => State.headHome_keeps_head ok
  | headMove => exact served fun p _ ok => State.headMove_keeps_head ok _ _ _
  | headStop =>
    refine served fun _ t ok => ?_
    unfold answerHeadStop State.headStop
    dsimp only
    split
    · exact ok
    · exact State.stopOperation_keeps_head ok _
  | headPark => exact served fun _ _ ok => State.headPark_keeps_head ok
  | headRelease => exact served fun _ _ ok => State.headRelease_keeps_head ok
  | _ => exact ok.of_touches frame (by simp [commandParts]) (by simp [commandParts])

/-- Settles O58: an idle step changes nothing, any other is the effect of a command. -/
theorem everyStepKeepsTheHeadRules : Obligations.EveryStepKeepsTheHeadRules := by
  intro s t ok stepped
  rcases step_effect stepped with rfl | ⟨c, rest, rfl⟩
  · exact ok
  · exact effect_keeps_head c (s := State.elapse { s with pending := rest } _) ok

end Sys2Proof.Machine
end

