-- ==== Sys2Proof/Proofs/Exposure.lean ====
section
/-! PROOFS. The exposure computation (spec/03 section 3.4): the exposure, the level and the gain each with their bounds,
and the three obligations on the set that they make. -/

namespace Sys2Proof.Machine

/-! ## Exposure -/

theorem ExposureInputs.exposure_auto {x : ExposureInputs} (auto : x.program = .auto) (p : Nat) :
    x.exposure p = if x.levelTop = 0 then x.exposureCap else min x.exposureCap (max 20 (ceilDiv p x.levelTop)) := by
  simp [ExposureInputs.exposure, auto]

theorem ExposureInputs.exposure_fixed {x : ExposureInputs} (fixed : x.program ≠ .auto) (p : Nat) :
    x.exposure p = x.fixedExposure := by
  unfold ExposureInputs.exposure
  cases h : x.program
  · exact absurd h fixed
  · rfl
  · rfl

theorem capBy_if (n m : Nat) (b : Bool) : capBy n (if b = true then some m else none) = if b = true then min n m else n := by
  cases b <;> rfl

theorem ExposureInputs.exposureCap_eq (x : ExposureInputs) :
    x.exposureCap = max 20 (if x.motion = true then min (capBy x.longest x.blurCap) x.headLimit
      else capBy x.longest x.blurCap) := by
  rw [ExposureInputs.exposureCap, capBy_if]

theorem ExposureInputs.fixedExposure_eq (x : ExposureInputs) :
    x.fixedExposure = if x.motion = true then min (max 20 (min x.longest x.eFixed)) x.headLimit
      else max 20 (min x.longest x.eFixed) := by
  rw [ExposureInputs.fixedExposure, capBy_if, clampNat]

/-- The blur cap in one condition. -/
theorem ExposureInputs.blurred_eq (x : ExposureInputs) :
    capBy x.longest x.blurCap
      = if x.speed ≠ 0 ∧ 0 < x.blurAllow then min x.longest (x.blurAllow * 1000 / x.speed.natAbs) else x.longest := by
  unfold ExposureInputs.blurCap
  split <;> rfl

theorem ExposureInputs.blurred_le (x : ExposureInputs) : capBy x.longest x.blurCap ≤ x.longest := by
  rw [x.blurred_eq]
  split <;> omega

/-- Every exposure is within the sensor's bounds and, with the head in motion, within its cap. -/
theorem ExposureInputs.exposure_bounds {x : ExposureInputs} (frame : 6020 ≤ x.tf) (headCap : 20 ≤ x.headCap) (p : Nat) :
    20 ≤ x.exposure p ∧ x.exposure p ≤ x.longest ∧ (x.motion = true → x.exposure p ≤ x.headLimit) := by
  have room : 20 ≤ x.longest := by unfold ExposureInputs.longest; omega
  have head : 20 ≤ x.headLimit ∧ x.headLimit ≤ x.longest := by unfold ExposureInputs.headLimit; omega
  clear frame headCap
  have blurred := x.blurred_le
  have cap := x.exposureCap_eq
  have fixed := x.fixedExposure_eq
  by_cases auto : x.program = .auto
  · have chosen : 20 ≤ x.exposure p ∧ x.exposure p ≤ x.exposureCap := by
      rw [x.exposure_auto auto]
      split <;> omega
    refine ⟨chosen.1, ?_, fun moving => ?_⟩
    · split at cap <;> omega
    · rw [if_pos moving] at cap
      omega
  · rw [x.exposure_fixed auto]
    refine ⟨?_, ?_, fun moving => ?_⟩
    · split at fixed <;> omega
    · split at fixed <;> omega
    · rw [if_pos moving] at fixed
      omega

/-- In AUTO the exposure is within the blur cap or at its floor. -/
theorem ExposureInputs.exposure_le_blur {x : ExposureInputs} (auto : x.program = .auto) (moving : x.speed ≠ 0)
    (allowed : 0 < x.blurAllow) (p : Nat) : x.exposure p ≤ max 20 (x.blurAllow * 1000 / x.speed.natAbs) := by
  have cap := x.exposureCap_eq
  have blurred := x.blurred_eq
  rw [if_pos ⟨moving, allowed⟩] at blurred
  rw [x.exposure_auto auto]
  split at cap <;> split <;> omega

/-! ## Level -/

theorem ExposureInputs.loopLevel_iff (x : ExposureInputs) : x.loopLevel = true ↔ x.source = .auto ∧ x.still = none := by
  simp [ExposureInputs.loopLevel]

theorem ExposureInputs.level_le (x : ExposureInputs) (p e : Nat) :
    x.level p e ≤ x.levelTop ∧ x.level p e ≤ x.powerLimit e := by
  unfold ExposureInputs.level
  dsimp only
  split <;> omega

theorem ExposureInputs.sourceCeiling_eq (x : ExposureInputs) :
    x.sourceCeiling = if x.source = .off then 0 else if x.source = .auto ∨ x.still.isSome = true then 1000 else x.manual := by
  unfold ExposureInputs.sourceCeiling
  cases x.source <;> cases x.still <;> rfl

/-! ## Gain -/

theorem solvedGain_bounds {gainMax : Nat} (low : 16 ≤ gainMax) (p : Nat) {e : Nat} (exposed : 0 < e) (i : Nat) :
    16 ≤ solvedGain gainMax p e i ∧ solvedGain gainMax p e i ≤ gainMax := by
  unfold solvedGain ceilDiv
  split
  · omega
  · next short =>
    split
    · omega
    · next lit =>
      have light : 0 < e * i := Nat.mul_pos exposed (Nat.pos_of_ne_zero lit)
      have missing : 16 ≤ (16 * p + e * i - 1) / (e * i) := by
        rw [Nat.le_div_iff_mul_le light]
        omega
      omega

theorem ExposureInputs.gain_manual {x : ExposureInputs} (manual : x.program = .manual) (p e i : Nat) :
    x.gain p e i = x.gFixed := by
  simp [ExposureInputs.gain, manual]

theorem ExposureInputs.gain_solved {x : ExposureInputs} (solved : x.program ≠ .manual) (p e i : Nat) :
    x.gain p e i = solvedGain x.gainMax p e i := by
  unfold ExposureInputs.gain
  cases h : x.program
  · rfl
  · rfl
  · exact absurd h solved

/-- Settles O24: the first part writes out the computation; the bounds are those of exposure, gain and level. -/
theorem exposureSetsWithinBounds : Obligations.ExposureSetsWithinBounds := by
  constructor
  case left =>
    intro x f p e i ceil longest head slow cap fixed source top limit
    have capped : x.exposureCap = cap := by rw [x.exposureCap_eq, x.blurred_eq]; rfl
    have topped : x.levelTop = top := by rw [ExposureInputs.levelTop, x.sourceCeiling_eq]
    refine ⟨fun auto => ?_, fun notAuto => ?_, ?_, ?_, fun manual => x.gain_manual manual p e i, fun solved enough => ?_,
      fun solved short => ?_, rfl, rfl, ?_, rfl, rfl⟩
    · rw [← capped, ← topped]
      exact x.exposure_auto auto p
    · exact (x.exposure_fixed notAuto p).trans x.fixedExposure_eq
    · intro loop
      rw [← topped]
      exact if_pos (x.loopLevel_iff.mpr loop)
    · intro fixedLevel
      rw [← topped]
      refine if_neg fun loop => ?_
      obtain ⟨auto, still⟩ := x.loopLevel_iff.mp loop
      rcases fixedLevel with h | h <;> contradiction
    · exact (x.gain_solved solved p e i).trans (if_pos enough)
    · exact (x.gain_solved solved p e i).trans (if_neg (by omega))
    · simp [f, ExposureInputs.solve, Bool.beq_eq_decide_eq]
  case right =>
    intro x frame headCap gainLow gainHigh fixedLow fixedHigh ceiling
    obtain ⟨low, high, moving⟩ := x.exposure_bounds frame headCap x.targetProduct
    have level := (x.level_le x.targetProduct (x.exposure x.targetProduct)).1
    refine ⟨⟨low, high, ?_⟩, moving, fun auto speed allowed => x.exposure_le_blur auto speed allowed _⟩
    have gain : 16 ≤ x.solve.gain ∧ x.solve.gain ≤ 256 := by
      by_cases manual : x.program = .manual
      · rw [show x.solve.gain = x.gFixed from x.gain_manual manual _ _ _]
        exact ⟨fixedLow, fixedHigh⟩
      · rw [show x.solve.gain = solvedGain x.gainMax _ _ _ from x.gain_solved manual _ _ _]
        have bounds := solvedGain_bounds gainLow x.targetProduct (Nat.lt_of_lt_of_le (by decide) low) x.solve.level
        exact ⟨bounds.1, bounds.2.trans gainHigh⟩
    refine ⟨gain.1, gain.2, le_trans level ?_⟩
    unfold ExposureInputs.levelTop
    omega

/-! ## The lamp power -/

/-- The power limit keeps the average power within Pavail. -/
theorem ExposureInputs.powerLimit_strobe {x : ExposureInputs} (strobe : x.strobe = true) {e i : Nat}
    (within : i ≤ x.powerLimit e) : x.pfull * i * e ≤ x.pavail * 1000 * x.tf := by
  unfold ExposureInputs.powerLimit at within
  split at within
  · next dark => simp [dark]
  · rw [Nat.div_div_eq_div_mul] at within
    calc x.pfull * i * e = i * (x.pfull * e) := by ring
      _ ≤ x.pavail * x.tf * 1000 / (x.pfull * e) * (x.pfull * e) := Nat.mul_le_mul_right _ within
      _ ≤ x.pavail * x.tf * 1000 := Nat.div_mul_le_self _ _
      _ = x.pavail * 1000 * x.tf := by ring

theorem ExposureInputs.powerLimit_steady {x : ExposureInputs} (steady : x.strobe = false) {e i : Nat}
    (within : i ≤ x.powerLimit e) : x.pfull * i ≤ x.pavail * 1000 := by
  unfold ExposureInputs.powerLimit at within
  split at within
  · next dark => simp [dark]
  · rw [if_neg (by simp [steady])] at within
    calc x.pfull * i = i * x.pfull := Nat.mul_comm _ _
      _ ≤ x.pavail * 1000 / x.pfull * x.pfull := Nat.mul_le_mul_right _ within
      _ ≤ x.pavail * 1000 := Nat.div_mul_le_self _ _

/-- Settles O25: by the two limits on the level and, with the loop, the share of the target product. -/
theorem lampPowerWithinBudget : Obligations.LampPowerWithinBudget := by
  intro x f
  obtain ⟨topped, powered⟩ := x.level_le x.targetProduct (x.exposure x.targetProduct)
  change f.level ≤ x.levelTop at topped
  change f.level ≤ x.powerLimit f.exposure at powered
  have ceiling := x.sourceCeiling_eq
  unfold ExposureInputs.levelTop at topped
  refine ⟨fun strobe => x.powerLimit_strobe strobe powered, fun steady => x.powerLimit_steady steady powered, by omega,
    fun off => ?_, fun dark => ?_, fun manual still => ?_, fun auto still => ?_⟩
  · rw [if_pos off] at ceiling
    omega
  · rw [ExposureInputs.powerLimit, if_pos dark] at powered
    omega
  · simp [manual, still] at ceiling
    omega
  · have chosen : f.level = min (min x.levelTop (x.powerLimit f.exposure)) (x.targetProduct / f.exposure) :=
      if_pos (x.loopLevel_iff.mpr ⟨auto, still⟩)
    have share : f.level ≤ x.targetProduct / f.exposure := by
      rw [chosen]
      exact min_le_right _ _
    exact (Nat.mul_le_mul_right _ share).trans (Nat.div_mul_le_self _ _)

/-! ## The target product -/

theorem nextProduct_within {p mean goal deadband : Nat} (within : max mean goal ≤ min mean goal + deadband) :
    nextProduct p mean goal deadband = max 20 p := by
  unfold nextProduct
  rw [if_pos (by omega)]

theorem nextProduct_beyond {p mean goal deadband : Nat} (beyond : min mean goal + deadband < max mean goal) :
    nextProduct p mean goal deadband = max 20 (max (p / 2) (min (2 * p) (p * goal / max mean 8))) := by
  unfold nextProduct clampNat
  rw [if_neg (by omega)]

theorem nextProduct_bounds (p mean goal deadband : Nat) :
    20 ≤ nextProduct p mean goal deadband ∧ nextProduct p mean goal deadband ≤ max 20 (2 * p) ∧
      p / 2 ≤ nextProduct p mean goal deadband := by
  unfold nextProduct clampNat
  generalize p * goal / max mean 8 = moved
  dsimp only
  split <;> omega

theorem ExposureInputs.targetProduct_kept {x : ExposureInputs}
    (unused : x.measure = none ∨ x.measured.still = true ∨ x.measured.startUp = true) :
    x.targetProduct = x.measured.target := by
  unfold ExposureInputs.targetProduct
  split
  · rfl
  · next m measured =>
    refine if_pos ?_
    simpa [measured] using unused

theorem ExposureInputs.targetProduct_moved {x : ExposureInputs} {m : Measure} (measured : x.measure = some m)
    (noStill : x.measured.still = false) (noStart : x.measured.startUp = false) :
    x.targetProduct
      = nextProduct x.measured.product m.mean (effectiveTarget x.target x.clipLimit m.clip) x.deadband := by
  simp [ExposureInputs.targetProduct, measured, noStill, noStart]

/-- Settles O26: the target product is that of the measured set, or moved as `nextProduct` has it. -/
theorem targetProductFollowsTheMeasurement : Obligations.TargetProductFollowsTheMeasurement := by
  intro x p
  refine ⟨x.targetProduct_kept, fun m measured noStill noStart => ?_, rfl, by simp [ExposureInputs.solve]⟩
  intro goal
  have moved : x.targetProduct = nextProduct p m.mean goal x.deadband := x.targetProduct_moved measured noStill noStart
  rw [moved]
  exact ⟨nextProduct_within, nextProduct_beyond, nextProduct_bounds _ _ _ _⟩

end Sys2Proof.Machine
end

