-- ==== Sys2Proof/Proofs/SettingsStore.lean ====
section
/-! PROOFS. The table of settings and the Settings Store (spec/11 section 11.1): each setting's place and id are its own,
a stored value lies in its line's range, and SET SETTING by its tests. -/

namespace Sys2Proof.Machine

/-! ## The table -/

/-- The place of a setting is its place in the table. -/
theorem NumId.all_getElem_place (k : NumId) : NumId.all[k.place.val]? = some k := by
  cases k with
  | row n field => fin_cases n <;> cases field <;> rfl
  | _ => rfl

theorem NumId.place_injective : Function.Injective NumId.place := fun j k same =>
  Option.some.inj ((j.all_getElem_place.symm.trans (by rw [same])).trans k.all_getElem_place)

theorem NumId.mem_all (k : NumId) : k ∈ NumId.all := List.mem_of_getElem? k.all_getElem_place

/-- Writing one number leaves the others. -/
theorem Settings.putNum_num (t : Settings) (j k : NumId) (v : Int) :
    (t.putNum k v).num j = if j = k then v else t.num j := by
  unfold Settings.putNum Settings.num
  by_cases same : j = k
  · simp [same]
  · have apart : k.place.val ≠ j.place.val := fun places => same (NumId.place_injective (Fin.ext places.symm))
    simp [same, apart]

theorem SettingRef.ofId_id (r : SettingRef) : SettingRef.ofId r.id = some r := by
  cases r with
  | num k =>
    have all : ∀ k ∈ NumId.all, SettingRef.ofId k.line.id = some (.num k) := by decide
    exact all k k.mem_all
  | text n => fin_cases n <;> rfl
  | mask l => cases l <;> rfl

theorem SettingRef.id_of_ofId {id : Nat} {r : SettingRef} (named : SettingRef.ofId id = some r) : r.id = id := by
  unfold SettingRef.ofId at named
  split at named
  · next tether => exact Option.some.inj named ▸ tether.symm
  · split at named
    · next carriage => exact Option.some.inj named ▸ carriage.symm
    · split at named
      · next n found => exact Option.some.inj named ▸ by simpa [SettingRef.id] using List.find?_some found
      · obtain ⟨k, found, rfl⟩ := Option.map_eq_some_iff.mp named
        simpa [SettingRef.id] using List.find?_some found

/-! ## Values in range -/

/-- A line whose rule brings every value into its range. -/
def NumRow.Sound (r : NumRow) : Prop :=
  r.lo ≤ r.hi ∧ match r.norm with
    | .clamp => True
    | .sense => r.lo = -1 ∧ r.hi = 1
    | .even => r.lo % 2 = 0
    | .coded other => r.lo ≤ other ∧ other ≤ r.hi

theorem NumId.line_sound (k : NumId) : k.line.Sound := by
  cases k with
  | row n field => fin_cases n <;> cases field <;> simp [NumId.line, rowSetting, NumRow.Sound]
  | _ => simp [NumId.line, NumRow.Sound]

theorem NumRow.Sound.store {r : NumRow} (sound : r.Sound) (v : Int) : r.lo ≤ r.store v ∧ r.store v ≤ r.hi := by
  obtain ⟨ordered, rule⟩ := sound
  cases norm : r.norm with
  | clamp =>
    simp only [NumRow.store, norm]
    omega
  | sense =>
    simp only [norm] at rule
    simp only [NumRow.store, norm]
    split <;> omega
  | even =>
    simp only [norm] at rule
    simp only [NumRow.store, norm]
    omega
  | coded other =>
    simp only [norm] at rule
    simp only [NumRow.store, norm]
    split <;> omega

theorem NumId.dflt_in_range (k : NumId) : k.line.lo ≤ k.line.dflt ∧ k.line.dflt ≤ k.line.hi := by
  cases k with
  | row n field => fin_cases n <;> cases field <;> decide
  | _ => decide

theorem Settings.defaults_num (k : NumId) : Settings.defaults.num k = k.line.dflt := by
  simp [Settings.num, Settings.defaults, defaultNums, k.all_getElem_place]

theorem SettingsOk.defaults : SettingsOk .defaults := by
  refine ⟨fun k => ?_, fun n => ?_⟩
  · rw [Settings.defaults_num]
    exact k.dflt_in_range
  · simp [Settings.defaults]

/-- What a write stores keeps the settings in range. -/
theorem SettingsOk.put {t : Settings} (ok : SettingsOk t) {r : SettingRef} {v kept : SettingValue}
    (storable : r.storable v = some kept) : SettingsOk (t.put r kept) := by
  obtain ⟨numbers, texts⟩ := ok
  unfold SettingRef.storable at storable
  split at storable <;> cases storable
  · next k x =>
    refine ⟨fun j => ?_, texts⟩
    rw [Settings.put, Settings.putNum_num]
    split
    · next same => exact same ▸ k.line_sound.store x
    · exact numbers j
  · next n x =>
    refine ⟨numbers, fun m => ?_⟩
    by_cases same : n.val = m.val
    · simp [Settings.put, Settings.putText, same]
    · simpa [Settings.put, Settings.putText, same] using texts m
  · next l m =>
    cases l <;> exact ⟨numbers, texts⟩

/-! ## SET SETTING -/

theorem knownKind_setSetting : knownKind 0x18 = true := by decide

theorem settingValue_length {p : List Byte}
    (formed : (byteAt p 2 = 0 ∧ p.length = 7) ∨ (byteAt p 2 = 2 ∧ p.length = 5) ∨
      (byteAt p 2 = 1 ∧ 4 ≤ p.length ∧ p.length = 4 + byteAt p 3)) : lengthFits 0x18 p = true := by
  change setSettingLength p = true
  unfold setSettingLength
  rcases formed with ⟨kind, size⟩ | ⟨kind, size⟩ | ⟨kind, least, size⟩
  · simp [kind, size]
  · simp [kind, size]
  · simp only [kind, Bool.and_eq_true, decide_eq_true_eq, beq_iff_eq]
    exact ⟨least, size⟩

/-- With a reply waiting on the tether the stream has nothing to decide. -/
theorem State.streamDecision_of_waiting {s : State} (waits : s.tlp.transmit ≠ []) : s.streamDecision = s := by
  unfold State.streamDecision State.streamReady
  rw [if_neg (by simp [waits])]

/-- A decision event that has just placed its reply sends no stamp. -/
theorem streamAfter_answered {s t : State} {l : Link} {act : State → State} {f : Frame} {st : Status}
    {content : List Byte} (served : act s = t.answered l f st content) : streamAfter l act s = t.answered l f st content := by
  unfold streamAfter
  dsimp only
  rw [served]
  split
  · next after =>
    refine State.streamDecision_of_waiting ?_
    rw [after.1]
    simp [State.answered, State.reply]
  · rfl

/-- The step of SET SETTING is its block's answer. -/
theorem exec_setSetting_ready {s u : State} {l : Link} {tag : Byte} {p : List Byte} {rest : List Frame} {st : Status}
    {content : List Byte} (dt : Nat) (fits : lengthFits 0x18 p = true) (ready : s.readyFor l ⟨tag, 0x18, p⟩ rest)
    (answer : answerSetSetting l p (s.taken dt l rest) = ⟨u, st, content⟩) (carries : st.carries = true ∨ content = []) :
    exec (.setSetting dt l) s = .next (u.answered l ⟨tag, 0x18, p⟩ st content) := by
  have payload : (Answer.mk u st content).payload = u8 st.code ++ content := by
    rcases carries with carries | rfl
    · exact Answer.payload_carrying _ _ carries
    · exact (Answer.payload_bare u st).trans (List.append_nil _).symm
  have served : (s.elapse dt).serve l 0x18 (answerSetSetting l) = u.answered l ⟨tag, 0x18, p⟩ st content := by
    rw [State.serve_passing dt _ ready knownKind_setSetting (by cases l <;> rfl) fits, answer, payload]
    rfl
  exact congrArg Host.Outcome.next (streamAfter_answered (act := fun s => s.serve l 0x18 (answerSetSetting l)) served)

/-- An ATTENTION message is placed exactly when the tether's attention turns on with the tether UP and none waits. -/
theorem State.afterAttention_eq (s : State) (was : Bool) : s.afterAttention was
    = if was = false ∧ s.attention .tether = true ∧ s.tlp.up = true ∧ .attention ∉ s.tlp.transmit
      then { s with tlp := { s.tlp with transmit := s.tlp.transmit ++ [.attention] } } else s := by
  unfold State.afterAttention State.placeAttention
  by_cases turned : (!was && s.attention .tether && s.tlp.up) = true
  · have conditions : was = false ∧ s.attention .tether = true ∧ s.tlp.up = true := by
      simpa [and_assoc] using turned
    by_cases waits : .attention ∈ s.tlp.transmit
    · simp [conditions, waits]
    · simp [conditions, waits]
  · rw [if_neg turned, if_neg]
    rintro ⟨off, on, up, _⟩
    exact turned (by simp [off, on, up])

/-- A write that leaves the masks alone places no message. -/
theorem State.writeSetting_of_masks {s : State} {r : SettingRef} {v : SettingValue}
    (kept : (s.set.put r v).tetherMask = s.set.tetherMask) : s.writeSetting r v = { s with set := s.set.put r v } := by
  unfold State.writeSetting
  have same : State.attention { s with set := s.set.put r v } .tether = s.attention .tether := by
    simp [State.attention, Settings.mask, kept]
  rw [State.afterAttention_eq, same, if_neg]
  rintro ⟨off, on, _⟩
  exact absurd (off.symm.trans on) (by simp)

theorem answerSetSetting_of_ofId {l : Link} {p : List Byte} {s : State} {r : SettingRef}
    (named : SettingRef.ofId (u16At p 0) = some r) (own : r.owner = l) {w : SettingValue} (value : settingValueAt p = some w) :
    answerSetSetting l p s = match r.storable w with
      | none => .bare s .badForm
      | some kept => ⟨s.writeSetting r kept, doneOr (decide (kept ≠ w)), u16 (u16At p 0) ++ kept.encode⟩ := by
  simp only [answerSetSetting, named, own, value, ne_eq, not_true_eq_false, if_false] <;> rfl

theorem doneOr_decide (P : Prop) [Decidable P] : doneOr (decide ¬P) = if P then .done else .clamped := by
  by_cases h : P <;> simp [doneOr, h]

/-- Settles O48: the table line by line, the inverse pair of ids and references, the store's places, and one case of the
answer for each kind of setting. -/
theorem setSettingStoresInRange : Obligations.SetSettingStoresInRange := by
  refine ⟨⟨by decide, ?rows, ?masks⟩, SettingRef.ofId_id, fun _ _ => SettingRef.id_of_ofId, Settings.putNum_num, ?request⟩
  case rows =>
    rintro n id rfl
    fin_cases n <;> decide
  case masks =>
    intro l
    cases l <;> decide
  case request =>
    intro dt s l tag p rest formed ready u f id
    have fits := settingValue_length formed
    have step {v : State} {st : Status} {content : List Byte} (answer : answerSetSetting l p u = ⟨v, st, content⟩)
        (carries : st.carries = true ∨ content = []) : exec (.setSetting dt l) s = .next (v.answered l f st content) :=
      exec_setSetting_ready dt fits ready answer carries
    have kinds : byteAt p 2 = 0 ∨ byteAt p 2 = 1 ∨ byteAt p 2 = 2 := by omega
    have number (kind : byteAt p 2 = 0) : settingValueAt p = some (.num (s32At p 3)) := by simp [settingValueAt, kind]
    have text (kind : byteAt p 2 = 1) : settingValueAt p = some (.text (textAt p 3)) := by simp [settingValueAt, kind]
    have set (kind : byteAt p 2 = 2) : settingValueAt p = some (.set (setAt p 3)) := by simp [settingValueAt, kind]
    have own : (SettingRef.mask l).owner = l := rfl
    have sameSet : u.set = s.set := by simp [u]
    refine ⟨fun unknown => ?_, fun r named foreign => ?_, fun k named own => ⟨fun other => ?_, fun kind => ?_⟩,
      fun n named => ⟨fun own other => ?_, fun own kind => ?_⟩, fun named => ⟨fun other => ?_, fun kind => ?_⟩⟩
    · refine step ?_ (.inr rfl)
      have unknown : SettingRef.ofId (u16At p 0) = none := unknown
      simp only [answerSetSetting, unknown]
      rfl
    · refine step ?_ (.inr rfl)
      have named : SettingRef.ofId (u16At p 0) = some r := named
      simp only [answerSetSetting, named, ne_eq, foreign, not_false_eq_true, if_true]
      rfl
    · refine step ?_ (.inr rfl)
      rcases kinds with kind | kind | kind
      · exact absurd kind other
      · rw [answerSetSetting_of_ofId named own (text kind)]; rfl
      · rw [answerSetSetting_of_ofId named own (set kind)]; rfl
    · refine ⟨k.line.store (s32At p 3), (k.line_sound.store _).1, (k.line_sound.store _).2, ?_, ?_, ?_, ?_, ?_⟩
      · exact fun norm => by simp [NumRow.store, norm]
      · exact fun norm => by simp [NumRow.store, norm]
      · exact fun norm => by simp [NumRow.store, norm]
      · exact fun other norm => by simp [NumRow.store, norm]
      · rw [List.append_assoc]
        refine step ?_ (.inl (by split <;> rfl))
        rw [answerSetSetting_of_ofId named own (number kind)]
        change Answer.mk (u.writeSetting (.num k) (.num (k.line.store (s32At p 3)))) _ _ = _
        rw [State.writeSetting_of_masks rfl, sameSet, doneOr_decide]
        simp [SettingValue.encode, Settings.put, id]
    · refine step ?_ (.inr rfl)
      rcases kinds with kind | kind | kind
      · rw [answerSetSetting_of_ofId named own.symm (number kind)]; rfl
      · exact absurd kind other
      · rw [answerSetSetting_of_ofId named own.symm (set kind)]; rfl
    · dsimp only
      rw [List.append_assoc, List.append_assoc]
      refine step ?_ (.inl (by split <;> rfl))
      rw [answerSetSetting_of_ofId named own.symm (text kind)]
      change Answer.mk (u.writeSetting (.text n) (.text ((textAt p 3).take 40))) _ _ = _
      rw [State.writeSetting_of_masks rfl, sameSet, doneOr_decide]
      simp [SettingValue.encode, Settings.put, textField, id]
    · refine step ?_ (.inr rfl)
      rcases kinds with kind | kind | kind
      · rw [answerSetSetting_of_ofId named own (number kind)]; rfl
      · rw [answerSetSetting_of_ofId named own (text kind)]; rfl
      · exact absurd kind other
    · intro v told
      rw [List.append_assoc]
      refine step ?_ (.inl rfl)
      rw [answerSetSetting_of_ofId named own (set kind)]
      change Answer.mk (u.writeSetting (.mask l) (.set (setAt p 3))) _ _ = _
      have written : u.writeSetting (.mask l) (.set (setAt p 3)) = told := by
        unfold State.writeSetting
        rw [State.afterAttention_eq, sameSet]
        cases l <;> rfl
      rw [written]
      simp [SettingValue.encode, doneOr, id]

end Sys2Proof.Machine
end

