-- ==== Sys2Proof/Proofs/Verdict.lean ====
section
/-! PROOFS. The verdict and the correction of a reckoning step (spec/02 section 2.3, stages 3 to 5): the cases of each
rule as equations, and what they conserve. -/

namespace Sys2Proof.Machine

/-! ## The rules by their cases -/

section Rules
variable {dw dC tol slack smax : Int}

theorem verdictForward_track (low : -tol ≤ dw - dC) (high : dw - dC ≤ tol) :
    verdictForward dw dC tol slack smax = ⟨dw, slack, .track, []⟩ := by
  simp only [verdictForward]
  rw [if_pos (by omega)]

theorem verdictForward_below (low : dw - dC < -tol) (positive : 0 ≤ tol) :
    verdictForward dw dC tol slack smax
      = if smax < slack - (dw - dC) then ⟨dw, smax, .payout, [.slackLimit]⟩ else ⟨dw, slack - (dw - dC), .payout, []⟩ := by
  simp only [verdictForward]
  rw [if_neg (by omega), if_pos (by omega)]

theorem verdictForward_above (high : tol < dw - dC) (positive : 0 ≤ tol) :
    verdictForward dw dC tol slack smax
      = if dw - dC - min slack (dw - dC) ≤ tol then ⟨dw, slack - min slack (dw - dC), .takeup, []⟩
        else ⟨dC + min slack (dw - dC), slack - min slack (dw - dC), .slip, [.wheelSlip]⟩ := by
  simp only [verdictForward]
  rw [if_neg (by omega), if_neg (by omega)]

theorem verdictStopped_over (beyond : smax < slack + dC - dw) :
    verdictStopped dw dC tol slack smax = ⟨dw, smax, .payout, [.slackLimit]⟩ := by
  simp [verdictStopped, beyond]

theorem verdictStopped_under (under : slack + dC - dw < 0) (room : 0 ≤ smax) :
    verdictStopped dw dC tol slack smax = ⟨dw + (slack + dC - dw), 0, .retrieve, []⟩ := by
  simp only [verdictStopped]
  rw [if_neg (by omega), if_pos under]

theorem verdictStopped_within (low : 0 ≤ slack + dC - dw) (high : slack + dC - dw ≤ smax) :
    verdictStopped dw dC tol slack smax
      = ⟨dw, slack + dC - dw, if -tol ≤ dC - dw ∧ dC - dw ≤ tol then .track else .payout, []⟩ := by
  simp only [verdictStopped]
  rw [if_neg (by omega), if_neg (by omega)]
  congr 1
  exact if_congr (by omega) rfl rfl

end Rules

/-! ## What a verdict conserves -/

/-- The bounds of S, the conservation of cable and the two conditions, as `StepConservesCable` states them of any
verdict. -/
def Verdict.Conserves (v : Verdict) (dC tol slack smax : Int) : Prop :=
  0 ≤ v.slack ∧ v.slack ≤ smax ∧
  (.wheelSlip ∈ v.raised ↔ v.cls = .slip) ∧
  (.slackLimit ∈ v.raised → v.cls = .payout ∧ v.slack = smax ∧ v.inc + (v.slack - slack) < dC) ∧
  (.slackLimit ∉ v.raised → -tol ≤ v.inc + (v.slack - slack) - dC ∧ v.inc + (v.slack - slack) - dC ≤ tol) ∧
  (.slackLimit ∉ v.raised → v.cls ≠ .track → v.cls ≠ .takeup → v.inc + (v.slack - slack) = dC)

section Conservation
variable {dw dC tol slack smax : Int} (positive : 0 ≤ tol) (low : 0 ≤ slack) (high : slack ≤ smax)
include positive low high

theorem verdictForward_conserves : (verdictForward dw dC tol slack smax).Conserves dC tol slack smax := by
  rcases lt_trichotomy (dw - dC) (-tol) with below | at_ | _
  · rw [verdictForward_below below positive]
    split <;> simp [Verdict.Conserves] <;> omega
  · rw [verdictForward_track (by omega) (by omega)]
    simp [Verdict.Conserves]
    omega
  · by_cases above : tol < dw - dC
    · rw [verdictForward_above above positive]
      split <;> simp [Verdict.Conserves] <;> omega
    · rw [verdictForward_track (by omega) (by omega)]
      simp [Verdict.Conserves]
      omega

theorem verdictStopped_conserves : (verdictStopped dw dC tol slack smax).Conserves dC tol slack smax := by
  by_cases beyond : smax < slack + dC - dw
  · rw [verdictStopped_over beyond]
    simp [Verdict.Conserves]
    omega
  · by_cases under : slack + dC - dw < 0
    · rw [verdictStopped_under under (by omega)]
      simp [Verdict.Conserves]
      omega
    · rw [verdictStopped_within (by omega) (by omega)]
      split <;> simp [Verdict.Conserves] <;> omega

theorem verdictReverse_conserves (drawn : dC ≤ 0) : (verdictReverse dC slack).Conserves dC tol slack smax := by
  simp [Verdict.Conserves, verdictReverse]
  omega

theorem verdictCableOnly_conserves : (verdictCableOnly dC slack).Conserves dC tol slack smax := by
  simp [Verdict.Conserves, verdictCableOnly]
  omega

theorem verdict_conserves (dir : Option Direction) (dw : Option Int) :
    (verdict dir dw dC tol slack smax).Conserves dC tol slack smax := by
  unfold verdict
  split
  · exact verdictCableOnly_conserves positive low high
  · exact verdictCableOnly_conserves positive low high
  · exact verdictForward_conserves positive low high
  · exact verdictStopped_conserves positive low high
  · split
    · next drawn => exact verdictReverse_conserves positive low high drawn
    · exact verdictStopped_conserves positive low high

end Conservation

/-- Settles O12: what every verdict conserves, and the rules by their cases. -/
theorem stepConservesCable : Obligations.StepConservesCable := by
  intro dir dw dC tol slack smax positive low high v carried
  obtain ⟨least, most, slip, limit, near, exact_⟩ := verdict_conserves positive low high (dC := dC) dir dw
  refine ⟨least, most, slip, limit, near, exact_, ?cableOnly, ?rules⟩
  case cableOnly =>
    rintro (rfl | rfl)
    · rfl
    · cases dw <;> rfl
  case rules =>
    rintro w rfl x u drawn trial
    have stopped (stops : dir = some .stopped ∨ (dir = some .reverse ∧ 0 < dC)) :
        v = verdictStopped w dC tol slack smax := by
      rcases stops with rfl | ⟨rfl, out⟩
      · rfl
      · exact if_neg (by omega)
    refine ⟨?forward, ?reverse, fun stops => ⟨fun beyond => ?_, fun under => ?_, fun least most near near' => ?_,
      fun least most far => ?_⟩⟩
    case forward =>
      rintro rfl
      refine ⟨verdictForward_track, fun below room => ?_, fun below full => ?_, fun above explained => ?_,
        fun above short => ?_⟩
      · exact (verdictForward_below below positive).trans (if_neg (by omega))
      · exact (verdictForward_below below positive).trans (if_pos full)
      · exact (verdictForward_above above positive).trans (if_pos explained)
      · exact (verdictForward_above above positive).trans (if_neg (by omega))
    case reverse =>
      rintro rfl drawsIn
      exact if_pos drawsIn
    · exact (stopped stops).trans (verdictStopped_over beyond)
    · exact (stopped stops).trans (verdictStopped_under under (by omega))
    · rw [stopped stops, verdictStopped_within least most, if_pos ⟨near, near'⟩]
    · rw [stopped stops, verdictStopped_within least most, if_neg (by omega)]

/-! ## The correction -/

theorem correction_of_not_track (eff : ReckonSettings) (v0 : Option Int) (cable slack f inc : Int) {cls : StepClass}
    (other : cls ≠ .track) : correction eff v0 cable slack f inc cls = 0 := by
  unfold correction
  split
  · exact absurd rfl other
  · rfl

theorem correction_unset (eff : ReckonSettings) (cable slack f inc : Int) (cls : StepClass) :
    correction eff none cable slack f inc cls = 0 := by
  unfold correction
  split
  · next set => exact absurd set (by simp)
  · rfl

/-- Rounding shrinks no number's sign and lengthens none. -/
theorem roundDiv_shrinks (r : Int) {b : Nat} (positive : 0 < b) :
    (0 ≤ r → 0 ≤ roundDiv r b ∧ roundDiv r b ≤ r) ∧ (r ≤ 0 → r ≤ roundDiv r b ∧ roundDiv r b ≤ 0) := by
  have shrinks : (2 * r.natAbs + b) / (2 * b) ≤ r.natAbs := by
    have share : r.natAbs ≤ r.natAbs * b := Nat.le_mul_of_pos_right _ positive
    refine Nat.lt_succ_iff.mp (Nat.div_lt_of_lt_mul ?_)
    calc 2 * r.natAbs + b < 2 * (r.natAbs * b) + 2 * b := by omega
      _ = 2 * b * (r.natAbs + 1) := by ring
  unfold roundDiv
  generalize (2 * r.natAbs + b) / (2 * b) = m at shrinks ⊢
  dsimp only
  constructor
  · intro up
    split <;> omega
  · intro down
    split <;> omega

/-- Settles O13: outside TRACK and with V0 unset there is no correction; in TRACK it is the clamp of the rounded
residual. -/
theorem correctionMovesTowardTheCable : Obligations.CorrectionMovesTowardTheCable := by
  intro eff v0 cable slack f inc cls bound c r
  refine ⟨correction_of_not_track eff _ cable slack f inc, correction_unset eff cable slack f inc cls, ?_⟩
  by_cases track : cls = .track
  · subst track
    obtain ⟨up, down⟩ := roundDiv_shrinks r (Nat.two_pow_pos eff.corrShift)
    have clamped : c = clampInt (-eff.corrMax) eff.corrMax (roundDiv r (2 ^ eff.corrShift)) := rfl
    have size : roundDiv r (2 ^ eff.corrShift)
        = if r < 0 then -(((2 * r.natAbs + 2 ^ eff.corrShift) / (2 * 2 ^ eff.corrShift) : Nat) : Int)
          else ((2 * r.natAbs + 2 ^ eff.corrShift) / (2 * 2 ^ eff.corrShift) : Nat) := rfl
    generalize (2 * r.natAbs + 2 ^ eff.corrShift) / (2 * 2 ^ eff.corrShift) = m at size ⊢
    generalize roundDiv r (2 ^ eff.corrShift) = rounded at up down clamped size
    unfold clampInt at clamped
    clear_value c r
    refine ⟨by omega, by omega, by omega, fun _ small => ?_, fun _ large => ?_⟩
    · split at size <;> omega
    · split at size <;> split <;> omega
  · have none : c = 0 := correction_of_not_track eff _ cable slack f inc track
    refine ⟨by omega, by omega, by omega, fun same => absurd same track, fun same => absurd same track⟩

end Sys2Proof.Machine
end

