-- ==== Sys2Proof/Proofs/Bounds.lean ====
section
/-! PROOFS. The settings stay in their ranges, the Reckoner within its bounds and every set of the pipeline within the
sensor's (spec/11 section 11.1, spec/02 section 2.3, spec/03 section 3.4, spec/04 section 4.4). The settings in range are
what keeps the other two. -/

namespace Sys2Proof.Machine

/-! ## The Reckoner -/

/-- Whatever the tolerance, S stays within its bounds. -/
theorem verdict_slack_bounds (dir : Option Direction) (dw : Option Int) (dC tol : Int) {slack smax : Int} (low : 0 ≤ slack)
    (high : slack ≤ smax) :
    0 ≤ (verdict dir dw dC tol slack smax).slack ∧ (verdict dir dw dC tol slack smax).slack ≤ smax := by
  have forward (w : Int) : 0 ≤ (verdictForward w dC tol slack smax).slack ∧ (verdictForward w dC tol slack smax).slack ≤ smax := by
    simp only [verdictForward]
    split
    · exact ⟨low, high⟩
    · split
      · split <;> constructor <;> dsimp only <;> omega
      · split <;> constructor <;> dsimp only <;> omega
  have stopped (w : Int) : 0 ≤ (verdictStopped w dC tol slack smax).slack ∧ (verdictStopped w dC tol slack smax).slack ≤ smax := by
    simp only [verdictStopped]
    split
    · constructor <;> dsimp only <;> omega
    · split <;> constructor <;> dsimp only <;> omega
  unfold verdict
  split
  · exact ⟨low, high⟩
  · exact ⟨low, high⟩
  · exact forward _
  · exact stopped _
  · split
    · simp only [verdictReverse]
      omega
    · exact stopped _

theorem saturate_bounds (v : Int) : -1000000000 ≤ saturate v ∧ saturate v ≤ 1000000000 := by
  unfold saturate clampInt
  omega

theorem smoothSpeed_bounds (vs v : Int) : -2000 ≤ smoothSpeed vs v ∧ smoothSpeed vs v ≤ 2000 := by
  unfold smoothSpeed clampInt
  omega

theorem ReckonerOk.begin_ {c : Reckoner} (ok : ReckonerOk c) {set : Settings} (settings : SettingsOk set) :
    ReckonerOk (c.begin_ set).1 := by
  obtain ⟨low, high, most, rest⟩ := ok
  have range : 0 ≤ set.num .slackMax ∧ set.num .slackMax ≤ 10000 := settings.1 .slackMax
  unfold Reckoner.begin_
  dsimp only
  split
  · exact ⟨by simp only [ReckonSettings.ofStore]; omega, le_rfl, by simp only [ReckonSettings.ofStore]; omega, rest⟩
  · next fits => exact ⟨low, not_lt.mp fits, by simp only [ReckonSettings.ofStore]; omega, rest⟩

theorem ReckonerOk.item {c : Reckoner} (ok : ReckonerOk c) (w : WheelCounter) (dir : Option Direction) (kind : LastKind)
    (count : Count) (time : Nat) : ReckonerOk (c.item w dir kind count time).1 := by
  obtain ⟨low, high, most, _, _, _, _, slips, datum⟩ := ok
  have slack := verdict_slack_bounds dir (c.wheelStage w (w.sampleAt time)).dw (c.cableDelta count)
    (c.eff.tolFixed + truncDiv (((c.cableDelta count).natAbs : Int) * c.eff.tolRatio) 256) low high
  have travelled := saturate_bounds
  have speed := smoothSpeed_bounds
  refine ⟨slack.1, slack.2, most, (travelled _).1, (travelled _).2, (speed _ _).1, (speed _ _).2, ?_, datum⟩
  simp only [Reckoner.item]
  split
  · exact min_le_left _ _
  · exact slips

theorem ReckonerOk.fills {c : Reckoner} (ok : ReckonerOk c) (w : WheelCounter) (dir : Option Direction) (a0 : Anchor)
    (count : Count) (time n : Nat) : ReckonerOk (c.fills w dir a0 count time n).1 := by
  unfold Reckoner.fills
  generalize List.range n = places
  suffices ∀ acc : Reckoner × List Condition, ReckonerOk acc.1 → ReckonerOk (places.foldl (fun acc k =>
      let r := acc.1.item w dir .fill (fillCount a0 count (k + 1) n) (fillTime a0 time (k + 1) n)
      (r.1, acc.2 ++ r.2)) acc).1 from this _ ok
  induction places with
  | nil => exact fun _ ok => ok
  | cons k places ih => exact fun acc ok => ih _ (ok.item w dir .fill _ _)

/-- The value of a datum within its range is within the bounds of F. -/
theorem ReckonerOk.atDatum {c d : Reckoner} (ok : ReckonerOk c) {value : Int} (low : -999999 ≤ value)
    (high : value ≤ 999999) (f : d.anchor.f = value * 1000) (slack : d.slack = 0) (eff : d.eff = c.eff)
    (speed : d.speed = c.speed) (slips : d.slipCount = c.slipCount) (none : d.pendingDatum = none) : ReckonerOk d := by
  obtain ⟨slackLow, slackHigh, most, _, _, slow, fast, few, _⟩ := ok
  unfold ReckonerOk
  rw [f, slack, eff, speed, slips, none]
  exact ⟨le_rfl, slackLow.trans slackHigh, most, by omega, by omega, slow, fast, few, nofun⟩

/-- F carried on within its bounds. -/
theorem ReckonerOk.carried {c d : Reckoner} (ok : ReckonerOk c) (f : ∃ v, d.anchor.f = saturate v) (slack : d.slack = c.slack)
    (eff : d.eff = c.eff) (speed : d.speed = c.speed) (slips : d.slipCount = c.slipCount)
    (datum : d.pendingDatum = c.pendingDatum) : ReckonerOk d := by
  obtain ⟨slackLow, slackHigh, most, _, _, slow, fast, few, pending⟩ := ok
  obtain ⟨v, f⟩ := f
  unfold ReckonerOk
  rw [f, slack, eff, speed, slips, datum]
  exact ⟨slackLow, slackHigh, most, (saturate_bounds v).1, (saturate_bounds v).2, slow, fast, few, pending⟩

theorem Reckoner.carry_saturated (c : Reckoner) (w : WheelCounter) (acquire : Bool) (n : WheelCounts) :
    ∃ v, c.carry w acquire n = saturate v := ⟨_, rfl⟩

@[simp] theorem State.takeDatum_chr (s : State) (c : Reckoner) : (s.takeDatum c).chr = c := by
  simp [State.takeDatum]

theorem State.takeBatch_keeps_reckoner {s : State} (ok : ReckonerOk s.chr) (settings : SettingsOk s.set) (b : Batch) :
    ReckonerOk (s.takeBatch b).chr := by
  have started := ok.begin_ settings
  have settled (t : State) (ok : ReckonerOk t.chr) (dir : Option Direction) (count : Count) (time : Nat) :
      ReckonerOk (t.settledItem dir count time).chr := by
    unfold State.settledItem
    split
    · next value pending =>
      rw [State.takeDatum_chr]
      obtain ⟨_, _, _, _, _, _, _, _, datum⟩ := id ok
      exact ok.atDatum (datum value pending).1 (datum value pending).2 rfl rfl rfl rfl rfl rfl
    · simpa using ok.item t.wct dir .settled count time
  cases b with
  | rebase count time =>
    simp only [State.takeBatch, State.rebaseItem, State.checkpoint, State.raiseAll_chr]
    exact started.carried ⟨_, rfl⟩ rfl rfl rfl rfl rfl
  | step n count time =>
    refine settled _ ?_ _ _ _
    simpa using started.fills s.wct s.drv.effDirection (s.chr.begin_ s.set).1.anchor count time n

theorem State.reelArrival_keeps_reckoner {s : State} (ok : ReckonerOk s.chr) (settings : SettingsOk s.set)
    (payload : List Byte) : ReckonerOk (s.reelArrival payload).chr := by
  unfold State.reelArrival
  split
  · exact ok
  · dsimp only
    split
    · exact ok
    · refine State.takeBatch_keeps_reckoner ?_ ?_ _ <;> split
      · simpa using ok
      · exact ok
      · simpa using settings
      · exact settings

theorem State.tetherReel_keeps_reckoner {s : State} (ok : ReckonerOk s.chr) (settings : SettingsOk s.set)
    (rx : List Byte) : ReckonerOk (s.tetherReel rx).chr := by
  unfold State.tetherReel
  split
  · split
    · next g f _ _ =>
      have frame := (s.putTetherFramer g).tetherValid_touches
      refine State.reelArrival_keeps_reckoner ?_ ?_ _
      · rw [frame.chr (by simp)]
        exact ok
      · rw [frame.set (by simp)]
        exact settings
    · exact ok
  · exact ok

theorem State.applyImmediateDatum_keeps_reckoner {s : State} (ok : ReckonerOk s.chr) {value : Int}
    (low : -999999 ≤ value) (high : value ≤ 999999) : ReckonerOk (s.applyImmediateDatum value).chr := by
  rw [State.applyImmediateDatum, State.takeDatum_chr]
  exact ok.atDatum low high rfl rfl rfl rfl rfl rfl

theorem State.presenceExpiry_keeps_reckoner {s : State} (ok : ReckonerOk s.chr) : ReckonerOk s.presenceExpiry.chr := by
  have noticed (t : State) (ok : ReckonerOk t.chr) : ReckonerOk t.acquireNotice.chr := by
    have held (live : WheelCounts) : ReckonerOk { t.chr with
        anchor := { t.chr.anchor with f := t.chr.carry t.wct false live, wheels := live } } :=
      ok.carried (t.chr.carry_saturated _ _ _) rfl rfl rfl rfl rfl
    unfold State.acquireNotice
    dsimp only
    split
    · next value pending =>
      obtain ⟨_, _, _, _, _, _, _, _, datum⟩ := id ok
      exact State.applyImmediateDatum_keeps_reckoner (s := { t with chr := _ }) (held _) (datum value pending).1
        (datum value pending).2
    · exact held _
  unfold State.presenceExpiry
  split
  · exact noticed _ (by simpa using ok)
  · exact ok

theorem answerSetDatum_keeps_reckoner (l : Link) (p : List Byte) {s : State} (ok : ReckonerOk s.chr) :
    ReckonerOk (answerSetDatum l p s).state.chr := by
  have range : -999999 ≤ storedDatum (s32At p 0) ∧ storedDatum (s32At p 0) ≤ 999999 := by
    unfold storedDatum clampInt
    omega
  unfold answerSetDatum
  split
  · exact ok
  · dsimp only
    split
    · exact State.applyImmediateDatum_keeps_reckoner ok range.1 range.2
    · obtain ⟨low, high, most, back, far, slow, fast, few, _⟩ := ok
      refine ⟨low, high, most, back, far, slow, fast, few, fun v same => ?_⟩
      exact Option.some.inj same ▸ range

theorem ReckonerOk.restart {c : Reckoner} (ok : ReckonerOk c) : ReckonerOk c.restart := by
  obtain ⟨low, high, most, back, far, slow, fast, _, _⟩ := ok
  exact ⟨le_rfl, low.trans high, most, back, far, slow, fast, by simp [Reckoner.restart], nofun⟩

theorem ReckonerOk.powerOn : ReckonerOk .powerOn := by
  have range := SettingsOk.defaults.1 .slackMax
  refine ⟨le_rfl, ?_, ?_, by decide, by decide, by decide, by decide, by decide, nofun⟩ <;>
    simp [Reckoner.powerOn, ReckonSettings.ofStore, Settings.defaults_num, NumId.line]

/-! ## The thermal monitor -/

theorem thermalCeiling_derate {tw : Int} (warm : 60 ≤ tw) :
    200 ≤ thermalCeiling .derate tw ∧ thermalCeiling .derate tw ≤ 1000 := by
  simp only [thermalCeiling]
  split
  · next below =>
    have share : 0 ≤ truncDiv ((tw - 60) * 800) 25 ∧ truncDiv ((tw - 60) * 800) 25 ≤ 800 := by
      rw [truncDiv, Int.tdiv_eq_ediv_of_nonneg (by omega)]
      omega
    omega
  · omega

/-- The ceiling goes with the state that a SUCCESS sets. -/
theorem thermalNext_ceiling (st : ThermalState) (tw : Int) (m : ThermalMonitor) (state : m.state = (thermalNext st tw).1)
    (ceiling : m.ceiling = thermalCeiling m.state tw) : ThermalOk m := by
  have warm (derates : (thermalNext st tw).1 = .derate) : 60 ≤ tw := by
    by_contra cool
    cases st <;> simp [thermalNext, cool] at derates <;> split at derates <;> simp at derates
  unfold ThermalOk
  rw [ceiling]
  split
  · next normal => rw [normal]; rfl
  · next derate => rw [derate]; exact thermalCeiling_derate (warm (state.symm.trans derate))
  · next shutdown => rw [shutdown]; rfl
  · next fault => rw [fault]; rfl

theorem ThermalOk.succeed (m : ThermalMonitor) (tw : Int) : ThermalOk (m.succeed tw).1 := by
  by_cases fault : m.state = .fault
  · by_cases leaves : 4 ≤ sat8 m.successes
    · exact thermalNext_ceiling .normal tw _ (by simp [ThermalMonitor.succeed, fault, leaves]) rfl
    · exact thermalNext_ceiling .fault tw _ (by simp [ThermalMonitor.succeed, fault, leaves, thermalNext]) rfl
  · exact thermalNext_ceiling m.state tw _ (by simp [ThermalMonitor.succeed, fault]) rfl

theorem ThermalOk.fail {m : ThermalMonitor} (ok : ThermalOk m) (o : PollOutcome) : ThermalOk (m.fail o).1 := by
  by_cases enters : m.state ≠ .fault ∧ 3 ≤ sat8 m.failures
  · simp only [ThermalOk, ThermalMonitor.fail, if_pos enters]
  · simpa only [ThermalOk, ThermalMonitor.fail, if_neg enters] using ok

theorem ThermalOk.of_eq {m n : ThermalMonitor} (ok : ThermalOk m) (state : n.state = m.state)
    (ceiling : n.ceiling = m.ceiling) : ThermalOk n := by
  unfold ThermalOk
  rw [state, ceiling]
  exact ok

theorem State.pollEnds_ltm (s : State) (r : ThermalMonitor × List Condition) : (s.pollEnds r).ltm = r.1 := by
  simp [State.pollEnds]

theorem State.pollDue_keeps_thermal {s : State} (ok : ThermalOk s.ltm) (n : Nat) : ThermalOk (s.pollDue n).ltm := by
  unfold State.pollDue
  split
  · dsimp only
    split
    · exact ok
    · split
      · rw [State.pollEnds_ltm]
        exact ThermalOk.fail (m := { s.ltm with lastDue := _, bus := _ }) ok .busTimeout
      · exact ok
  · exact ok

theorem State.pollTransactionEnd_keeps_thermal {s : State} (ok : ThermalOk s.ltm) (a : SensorAnswer) :
    ThermalOk (s.pollTransactionEnd a).ltm := by
  unfold State.pollTransactionEnd
  split
  · exact ok
  · next p _ =>
    dsimp only
    split
    · rw [State.pollEnds_ltm]
      exact .succeed _ _
    · rw [State.pollEnds_ltm]
      exact ThermalOk.fail (m := { s.ltm with bus := _ }) ok (pollResult p.phase a)

theorem State.busTimeout_keeps_thermal {s : State} (ok : ThermalOk s.ltm) : ThermalOk s.busTimeout.ltm := by
  unfold State.busTimeout
  split
  · exact ok
  · split
    · rw [State.pollEnds_ltm]
      exact ThermalOk.fail (m := { s.ltm with bus := _ }) ok .busTimeout
    · exact ok

theorem ThermalOk.ceiling_le {m : ThermalMonitor} (ok : ThermalOk m) : m.ceiling ≤ 1000 := by
  unfold ThermalOk at ok
  split at ok <;> omega

/-! ## The pipeline -/

/-- The pipeline's part of `PipelineOk`. -/
def FrameTimer.SetsOk (f : FrameTimer) : Prop :=
  SetOk f.period f.current.set ∧ (∀ p, f.ended = some p → SetOk f.period p.set) ∧ ∀ c ∈ f.commits, SetOk f.period c.set

theorem pipelineOk_iff (s : State) : PipelineOk s ↔ ThermalOk s.ltm ∧ s.fxc.SetsOk := Iff.rfl

theorem FrameTimer.period_ge (f : FrameTimer) : 33333 ≤ f.period := by
  unfold FrameTimer.period
  split <;> omega

theorem SetOk.startUp (f : FrameTimer) : SetOk f.period .startUpSet := by
  have longest := f.period_ge
  simp only [SetOk, FrameSet.startUpSet]
  omega

theorem SetOk.lateCopy {n : Nat} {f : FrameSet} (ok : SetOk n f) : SetOk n f.lateCopy := ok

/-- A computation on settings in range makes a set within the sensor's bounds. -/
theorem State.exposureInputs_solve {s : State} (settings : SettingsOk s.set) (thermal : ThermalOk s.ltm)
    (measured : FrameSet) : SetOk s.fxc.period (s.exposureInputs measured).solve := by
  have range (k : NumId) := settings.1 k
  have headCap : 20 ≤ s.set.num .headMotionCap ∧ _ := range .headMotionCap
  have gainMax : 16 ≤ s.set.num .gainMax ∧ s.set.num .gainMax ≤ 256 := range .gainMax
  have gFixed : 16 ≤ s.set.num .gFixed ∧ s.set.num .gFixed ≤ 256 := range .gFixed
  have longest := s.fxc.period_ge
  refine (exposureSetsWithinBounds.2 (s.exposureInputs measured) ?_ ?_ ?_ ?_ ?_ ?_ thermal.ceiling_le).1 <;>
    simp only [State.exposureInputs, Settings.nat] <;> omega

theorem FrameTimer.SetsOk.endingSlot {f : FrameTimer} (ok : f.SetsOk) : SetOk f.period f.endingSlot.set := by
  obtain ⟨current, ended, _⟩ := ok
  unfold FrameTimer.endingSlot
  split
  · exact current
  · split
    · next p held => exact (ended p held).lateCopy
    · exact current

theorem FrameTimer.SetsOk.of_eq {f g : FrameTimer} (ok : f.SetsOk) (rate : g.rate30 = f.rate30)
    (current : g.current = f.current) (ended : g.ended = f.ended) (commits : g.commits = f.commits) : g.SetsOk := by
  unfold FrameTimer.SetsOk FrameTimer.period
  rw [rate, current, ended, commits]
  exact ok

theorem FrameTimer.SetsOk.of_touches {ps : List Part} {s t : State} (ok : s.fxc.SetsOk) (frame : Touches ps s t)
    (untouched : .pipeline ∉ ps) : t.fxc.SetsOk := by
  obtain ⟨rate, current, ended, commits⟩ := frame.pipeline untouched
  exact ok.of_eq rate current ended commits

theorem State.boundary_keeps_sets {s : State} (settings : SettingsOk s.set) (thermal : ThermalOk s.ltm)
    (ok : s.fxc.SetsOk) : s.boundary.fxc.SetsOk := by
  have computed (t : State) (settings : SettingsOk t.set) (thermal : ThermalOk t.ltm) (ok : t.fxc.SetsOk)
      (m : FrameSet) : (t.computeSet m).fxc.SetsOk := by
    have made := State.exposureInputs_solve settings thermal m
    refine ⟨made, ok.2.1, fun c member => ?_⟩
    rcases List.mem_append.mp member with held | new
    · exact ok.2.2 c held
    · exact List.mem_singleton.mp new ▸ made
  unfold State.boundary
  split
  · exact ok
  · have limited : Touches [] s (s.formStats.checkLimited s.fxc.endingSlot.set) :=
      (by constructor <;> simp [State.formStats] : Touches [] s s.formStats).trans (State.checkLimited_touches _ _)
    have frame := (limited.mono (List.nil_subset [.ring])).trans (State.stampFrame_touches _ s.fxc.endingSlot.set)
    have stamped := ok.of_touches frame (by simp)
    have period := (frame.pipeline (by simp)).1
    have slot := ok.endingSlot
    have settings' := (frame.set (by simp)).symm ▸ settings
    have thermal' := (frame.ltm (by simp)).symm ▸ thermal
    dsimp only
    generalize (s.formStats.checkLimited s.fxc.endingSlot.set).stampFrame s.fxc.endingSlot.set = s1 at *
    have advanced : (s1.advanceFrame s.fxc.endingSlot).fxc.SetsOk := by
      refine ⟨stamped.1, fun p same => ?_, fun c member => ?_⟩
      · have same : s.fxc.endingSlot = p := Option.some.inj same
        rw [← same]
        unfold State.advanceFrame FrameTimer.period at *
        rw [period]
        exact slot
      · obtain ⟨d, held, rfl⟩ := List.mem_map.mp member
        exact stamped.2.2 d held
    refine FrameTimer.SetsOk.of_touches ?_ (State.streamDecision_touches _) (by simp)
    change FrameTimer.SetsOk (State.fxc (match s.fxc.ended with
      | none => (s1.advanceFrame s.fxc.endingSlot).placeStartUp
      | some measured => (s1.advanceFrame s.fxc.endingSlot).computeSet measured.set))
    split
    · exact ⟨SetOk.startUp (s1.advanceFrame s.fxc.endingSlot).fxc, advanced.2⟩
    · exact computed (s1.advanceFrame s.fxc.endingSlot) settings' thermal' advanced _

theorem State.commitOutcome_keeps_sets {s : State} (ok : s.fxc.SetsOk) (c : Commit) {rest : List Commit}
    (outstanding : s.fxc.commits = c :: rest) {slot : PipeSlot} (set : SetOk s.fxc.period slot.set) :
    (s.commitOutcome c rest slot).fxc.SetsOk := by
  obtain ⟨current, ended, commits⟩ := ok
  have others : ∀ d ∈ rest, SetOk s.fxc.period d.set := fun d member => commits d (by simp [outstanding, member])
  have placed : ({ s.fxc with commits := rest }.place c.age slot).SetsOk := by
    unfold FrameTimer.place
    split
    · exact ⟨set, ended, others⟩
    · exact ⟨current, fun p same => Option.some.inj same ▸ set, others⟩
    · exact ⟨current, ended, others⟩
  unfold State.commitOutcome State.clearanceAt State.giveClearance
  split
  · exact placed.of_eq rfl rfl rfl rfl
  · exact placed

theorem PipelineOk.powerOn (p : Pins) (pending : List Instr) : PipelineOk { State.powerOn p with pending := pending } :=
  ⟨rfl, SetOk.startUp (FrameTimer.powerOn p), nofun, nofun⟩

theorem State.writeCompletes_keeps_sets {s : State} (ok : s.fxc.SetsOk) : s.writeCompletes.fxc.SetsOk := by
  unfold State.writeCompletes
  split
  · next c rest outstanding =>
    split
    · exact State.commitOutcome_keeps_sets ok c outstanding (ok.2.2 c (by simp [outstanding]))
    · exact ok
  · exact ok

theorem State.commitExpires_keeps_sets {s : State} (ok : s.fxc.SetsOk) : s.commitExpires.fxc.SetsOk := by
  unfold State.commitExpires
  split
  · next c rest outstanding =>
    split
    · refine State.commitOutcome_keeps_sets ok c outstanding ?_
      unfold FrameTimer.lateSlot
      split
      · next p held => split <;> exact ok.2.1 p held
      · exact ok.2.2 c (by simp [outstanding])
    · exact ok
  · exact ok

/-! ## Every command -/

theorem effect_keeps_settings (c : Instr) {s : State} (ok : SettingsOk s.set) : SettingsOk (effect c s).set := by
  cases c with
  | powerOn => exact .defaults
  | portReset =>
    change SettingsOk s.portResets.set
    unfold State.portResets
    split
    · exact ok
    · exact ok
  | setSetting _ l =>
    have served : SettingsOk (s.serve l 0x18 (answerSetSetting l)).set := by
      refine State.serve_keeps (keeps := fun t => SettingsOk t.set) (fun t u touched ok => ?_) (fun p t ok => ?_) ok
      · rw [touched.set (by simp)]
        exact ok
      · unfold answerSetSetting
        split
        · exact ok
        · split
          · exact ok
          · split
            · exact ok
            · next w =>
              split
              · exact ok
              · next kept storable =>
                have told (was : Bool) (u : State) : (u.afterAttention was).set = u.set := by
                  obtain ⟨tx, _, changed⟩ := u.afterAttention_announces was
                  rw [changed]
                rw [State.writeSetting, told]
                exact ok.put storable
    change SettingsOk (streamAfter l (fun s => s.serve l 0x18 (answerSetSetting l)) s).set
    unfold streamAfter
    dsimp only
    split
    · rw [(State.streamDecision_touches _).set (by simp)]
      exact served
    · exact served
  | _ =>
    rw [(effect_touches _ s).set (by simp [commandParts])]
    exact ok

theorem effect_keeps_reckoner (c : Instr) {s : State} (settings : SettingsOk s.set) (ok : ReckonerOk s.chr) :
    ReckonerOk (effect c s).chr := by
  have served {l : Link} {kind : Byte} {act : List Byte → State → Answer}
      (acts : ∀ p t, ReckonerOk t.chr → ReckonerOk (act p t).state.chr) : ReckonerOk (s.serve l kind act).chr :=
    State.serve_keeps (keeps := fun t => ReckonerOk t.chr) (fun t u touched ok => by
      rw [touched.chr (by simp)]
      exact ok) acts ok
  cases c with
  | powerOn => exact .powerOn
  | reelReport _ rx => exact State.tetherReel_keeps_reckoner ok settings rx
  | presenceTimerExpiry => exact State.presenceExpiry_keeps_reckoner ok
  | setDatum _ l => exact served fun p _ ok => answerSetDatum_keeps_reckoner l p ok
  | restartSurvey => exact served fun _ _ ok => ok.restart
  | _ =>
    rw [(effect_touches _ s).chr (by simp [commandParts])]
    exact ok

theorem effect_keeps_pipeline (c : Instr) {s : State} (settings : SettingsOk s.set) (ok : PipelineOk s) :
    PipelineOk (effect c s) := by
  obtain ⟨thermal, sets⟩ := (pipelineOk_iff s).mp ok
  have frame := effect_touches c s
  have ports (t u : State) (touched : Touches [.tether, .carriage] t u) (ok : PipelineOk t) : PipelineOk u := by
    rw [pipelineOk_iff, touched.ltm (by simp)]
    exact ⟨ok.1, FrameTimer.SetsOk.of_touches (s := t) ok.2 touched (by simp)⟩
  have sameSets (untouched : .pipeline ∉ commandParts c) : (effect c s).fxc.SetsOk := sets.of_touches frame untouched
  have sameThermal (untouched : .ltm ∉ commandParts c) : ThermalOk (effect c s).ltm := by
    rw [frame.ltm untouched]
    exact thermal
  rw [pipelineOk_iff]
  cases c with
  | powerOn p =>
    exact (pipelineOk_iff _).mp (.powerOn p s.pending)
  | frameBoundary =>
    exact ⟨sameThermal (by simp [commandParts]), State.boundary_keeps_sets settings thermal sets⟩
  | sensorWriteComplete => exact ⟨sameThermal (by simp [commandParts]), State.writeCompletes_keeps_sets sets⟩
  | commitDeadlineExpiry => exact ⟨sameThermal (by simp [commandParts]), State.commitExpires_keeps_sets sets⟩
  | thermalPollDue _ n => exact ⟨State.pollDue_keeps_thermal thermal n, sameSets (by simp [commandParts])⟩
  | pollTransactionEnd _ a =>
    exact ⟨State.pollTransactionEnd_keeps_thermal thermal a, sameSets (by simp [commandParts])⟩
  | busTimeout => exact ⟨State.busTimeout_keeps_thermal thermal, sameSets (by simp [commandParts])⟩
  | restartSurvey =>
    exact State.serve_keeps (act := answerRestartSurvey) ports
      (fun _ t ok => ⟨ThermalOk.of_eq (m := t.ltm) ok.1 rfl rfl, FrameTimer.SetsOk.of_eq (f := t.fxc) ok.2 rfl rfl rfl rfl⟩) ok
  | _ => exact ⟨sameThermal (by simp [commandParts]), sameSets (by simp [commandParts])⟩

/-- Settles O60: an idle step changes nothing, any other is the effect of a command. -/
theorem everyStepKeepsTheBounds : Obligations.EveryStepKeepsTheBounds := by
  intro s t settings reckoner pipeline stepped
  rcases step_effect stepped with rfl | ⟨c, rest, rfl⟩
  · exact ⟨settings, reckoner, pipeline⟩
  · have settings' : SettingsOk (State.elapse { s with pending := rest } (elapsedBefore c)).set := settings
    exact ⟨effect_keeps_settings c settings', effect_keeps_reckoner c settings' reckoner,
      effect_keeps_pipeline c settings' pipeline⟩

/-- Settles O4: the power-on lemma of each invariant, at the state after reset. -/
theorem resetMeetsEveryInvariant : Obligations.ResetMeetsEveryInvariant := by
  refine ⟨.defaults, .powerOn, .powerOn Pins.low [], .empty, .powerOn Pins.low [], ?_, .powerOn Pins.low []⟩
  simp [PortsOk, State.reset, State.powerOn, TetherPort.powerOn, CarriagePort.powerOn, TetherPort.replies, TetherPort.refusals]

end Sys2Proof.Machine
end

