-- ==== Sys2Proof/Proofs/Sampling.lean ====
section
/-! PROOFS. Power-on (spec/11 section 11.2), what a raising counts and announces (spec/09 sections 9.1 and 9.3), the
wheels' transitions and the two history rings (spec/01 sections 1.5 and 1.6, spec/05 section 5.10). -/

namespace Sys2Proof.Machine

/-! ## Power-on -/

theorem attentionOf_iff (counts : Vector Nat 16) (mask : BitVec 16) :
    attentionOf counts mask = true ↔ ∃ n : Fin 16, 0 < counts[n] ∧ mask.getLsbD n.val = true := by
  simp [attentionOf]

theorem State.attention_eq_false_of_zero {s : State} {l : Link} (zero : s.cnd.counts l = Vector.replicate 16 0) :
    s.attention l = false := by
  rw [Bool.eq_false_iff, State.attention, zero, Ne, attentionOf_iff]
  simp

theorem CarriagePort.miso_of_silent {p : CarriagePort} (silent : p.sending = none) (n : Nat) :
    p.miso n = List.replicate n 0 := by
  simp [CarriagePort.miso, silent]

/-- Settles O3: every field is that of the power-on column; what follows from no count, no level and no transaction are
the attention, the outputs and MISO. -/
theorem powerOnTakesTheTableValues : Obligations.PowerOnTakesTheTableValues := by
  intro p s t set slot wheel axis counters
  have zero (l : Link) : t.cnd.counts l = Vector.replicate 16 0 := by cases l <;> rfl
  refine ⟨rfl, rfl, fun k => Settings.defaults_num k, ?texts, rfl, rfl, rfl, rfl, rfl, rfl, rfl, rfl, rfl, rfl, ?enable,
    ?outputs, rfl, rfl, rfl, rfl, rfl, ?counts, fun l => State.attention_eq_false_of_zero (zero l), rfl, rfl, rfl,
    CarriagePort.miso_of_silent rfl⟩
  case texts =>
    intro n
    simp [t, State.powerOn, Settings.defaults]
  case enable => rfl
  case outputs => rfl
  case counts =>
    intro l n
    rw [zero]
    simp

/-! ## Raising -/

theorem State.countFor_cnd (c : Condition) (s : State) (l : Link) : (s.countFor c l).cnd
    = s.cnd.putCounts l ((s.cnd.counts l).set c.latch (sat8 (s.cnd.counts l)[c.latch])) := by
  rw [State.countFor, State.afterAttention_eq]
  split <;> rfl

theorem State.countFor_counts (c : Condition) (s : State) (l k : Link) (n : Fin 16) :
    ((s.countFor c l).cnd.counts k)[n]
      = if k = l ∧ n = c.latch then min 255 ((s.cnd.counts k)[n] + 1) else (s.cnd.counts k)[n] := by
  rw [State.countFor_cnd]
  by_cases same : k = l
  · subst same
    rw [Conditions.putCounts_counts]
    by_cases here : n = c.latch
    · subst here
      simp [sat8]
    · have apart : ¬ c.latch.val = n.val := fun e => here (Fin.ext e.symm)
      simp [here, apart]
  · cases k <;> cases l <;> simp_all [Conditions.putCounts, Conditions.counts]

/-- An ATTENTION message joins the queue exactly when this counting turns the tether's attention on. -/
theorem State.countFor_transmit (c : Condition) (s : State) (l : Link) :
    (s.countFor c l).tlp.transmit
      = if s.attention .tether = false ∧ (s.countFor c l).attention .tether = true ∧ s.tlp.up = true
            ∧ .attention ∉ s.tlp.transmit
        then s.tlp.transmit ++ [.attention] else s.tlp.transmit := by
  have attention : (s.countFor c l).attention .tether
      = attentionOf ((s.cnd.putCounts l ((s.cnd.counts l).set c.latch (sat8 (s.cnd.counts l)[c.latch]))).counts .tether)
          (s.set.mask .tether) := by
    rw [State.countFor, State.afterAttention_eq]
    split <;> rfl
  rw [attention, State.countFor, State.afterAttention_eq]
  split
  · next turned => exact (if_pos turned).symm
  · next stays => exact (if_neg stays).symm

theorem State.countFor_carriage_attention (c : Condition) (s : State) :
    (s.countFor c .carriage).attention .tether = s.attention .tether := by
  rw [State.countFor, State.afterAttention_eq]
  split <;> rfl

theorem State.countFor_eq (c : Condition) (s : State) (l : Link) :
    s.countFor c l = { s with cnd := (s.countFor c l).cnd, tlp := { s.tlp with transmit := (s.countFor c l).tlp.transmit } } := by
  obtain ⟨cnd, tx, changed⟩ := State.countFor_changes c s l
  rw [changed]

/-- Counting for the carriage announces nothing. -/
theorem State.countFor_carriage_transmit (c : Condition) (s : State) :
    (s.countFor c .carriage).tlp.transmit = s.tlp.transmit := by
  rw [State.countFor_transmit, State.countFor_carriage_attention, if_neg]
  rintro ⟨off, on, _⟩
  exact absurd (off.symm.trans on) (by simp)

/-- The audiences that a condition may have. -/
theorem Condition.audience_cases (c : Condition) (named : Link) :
    (∃ l, c.audience named = [l]) ∨ c.audience named = [.tether, .carriage] := by
  cases c <;> simp [Condition.audience]

theorem State.raiseFor_counts (s : State) (c : Condition) (named l : Link) (n : Fin 16) :
    ((s.raiseFor c named).cnd.counts l)[n]
      = if l ∈ c.audience named ∧ n = c.latch then min 255 ((s.cnd.counts l)[n] + 1) else (s.cnd.counts l)[n] := by
  unfold State.raiseFor
  rcases c.audience_cases named with ⟨k, single⟩ | both
  · rw [single, List.foldl_cons, List.foldl_nil, State.countFor_counts]
    simp
  · rw [both, List.foldl_cons, List.foldl_cons, List.foldl_nil, State.countFor_counts, State.countFor_counts]
    cases l <;> simp

theorem State.raiseFor_transmit (s : State) (c : Condition) (named : Link) :
    (s.raiseFor c named).tlp.transmit
      = if s.attention .tether = false ∧ (s.raiseFor c named).attention .tether = true ∧ s.tlp.up = true
            ∧ .attention ∉ s.tlp.transmit
        then s.tlp.transmit ++ [.attention] else s.tlp.transmit := by
  unfold State.raiseFor
  rcases c.audience_cases named with ⟨k, single⟩ | both
  · rw [single]
    exact State.countFor_transmit c s k
  · rw [both, List.foldl_cons, List.foldl_cons, List.foldl_nil, State.countFor_carriage_transmit,
      State.countFor_carriage_attention]
    exact State.countFor_transmit c s .tether

/-- Settles O5: the audience is one link, or the tether and then the carriage, whose counting announces nothing. -/
theorem raisingCountsForItsAudience : Obligations.RaisingCountsForItsAudience := by
  refine ⟨fun s c named => ?_, fun s => ⟨attentionOf_iff _ _, attentionOf_iff _ _, rfl⟩⟩
  intro t both row
  have rowOf : row = (c.latch, c.audience named) := by cases c <;> rfl
  rw [rowOf]
  refine ⟨s.raiseFor_counts c named, ?_, s.raiseFor_transmit c named⟩
  obtain ⟨cnd, tx, changed⟩ := s.raiseFor_changes c named
  simp only [t, changed]

/-! ## The wheels -/

theorem WheelRecord.transition_along {w : WheelRecord} {a b : Bool} (first : a = !w.lineB) (second : b = w.lineA) :
    w.transition a b = ({ w with lineA := a, lineB := b, count := w.count + BitVec.ofInt 32 w.sense }, false) := by
  have place : (quadrature a b + 4 - quadrature w.lineA w.lineB) % 4 = 1 := by
    rw [first, second]
    cases w.lineA <;> cases w.lineB <;> rfl
  simp only [WheelRecord.transition, place]

theorem WheelRecord.transition_against {w : WheelRecord} {a b : Bool} (first : a = w.lineB) (second : b = !w.lineA) :
    w.transition a b = ({ w with lineA := a, lineB := b, count := w.count + BitVec.ofInt 32 (-w.sense) }, false) := by
  have place : (quadrature a b + 4 - quadrature w.lineA w.lineB) % 4 = 3 := by
    rw [first, second]
    cases w.lineA <;> cases w.lineB <;> rfl
  simp only [WheelRecord.transition, place, BitVec.ofInt_neg, BitVec.sub_eq_add_neg]

theorem WheelRecord.transition_same {w : WheelRecord} {a b : Bool} (first : a = w.lineA) (second : b = w.lineB) :
    w.transition a b = (w, false) := by
  have place : (quadrature a b + 4 - quadrature w.lineA w.lineB) % 4 = 0 := by
    rw [first, second]
    cases w.lineA <;> cases w.lineB <;> rfl
  simp only [WheelRecord.transition, place]
  rw [first, second]

theorem WheelRecord.transition_illegal {w : WheelRecord} {a b : Bool} (first : a = !w.lineA) (second : b = !w.lineB) :
    w.transition a b
      = ({ w with
            lineA := a, lineB := b, errors := min 255 (w.errors + 1)
            fault := w.fault || decide (9 ≤ min 255 (w.errors + 1)) },
          !w.fault && decide (9 ≤ min 255 (w.errors + 1))) := by
  have place : (quadrature a b + 4 - quadrature w.lineA w.lineB) % 4 = 2 := by
    rw [first, second]
    cases w.lineA <;> cases w.lineB <;> rfl
  cases struck : w.fault <;> simp [WheelRecord.transition, place, struck, sat8]

theorem WheelCounter.putWheel_wheel (w : WheelCounter) (k : Wheel) : w.putWheel k (w.wheel k) = w := by cases k <;> rfl

/-- Settles O7: the lemma on each of the four changes of a pair. -/
theorem wheelTransitionCounts : Obligations.WheelTransitionCounts := by
  intro dt k a b s w moved
  have stepped : exec (.wheelTransition dt k a b) s = .next ((s.elapse dt).wheelMoves k a b) := rfl
  have moves : (s.elapse dt).wheelMoves k a b = if (w.transition a b).2
      then State.raise { s.elapse dt with wct := s.wct.putWheel k (w.transition a b).1 } .wheelFault
      else { s.elapse dt with wct := s.wct.putWheel k (w.transition a b).1 } := rfl
  rw [stepped, moves]
  refine ⟨?along, ?against, ?same, ?illegal⟩
  case along =>
    rintro ⟨first, second⟩
    rw [w.transition_along first second]
    rfl
  case against =>
    rintro ⟨first, second⟩
    rw [w.transition_against first second]
    rfl
  case same =>
    rintro ⟨first, second⟩
    rw [w.transition_same first second, s.wct.putWheel_wheel]
    rfl
  case illegal =>
    rintro ⟨first, second⟩ errors struck
    rw [w.transition_illegal first second]
    congr 1
    simp only [Bool.and_eq_true, Bool.not_eq_true', decide_eq_true_eq]
    rfl

/-! ## The history rings -/

/-- A multiple of the period after power-on that the ring does not hold yet is a sampling instant. -/
theorem sampleDue_of_new {now period : Nat} {times : List Nat} (after : 0 < now) (multiple : now % period = 0)
    (new : ∀ t ∈ times, t < now) : sampleDue now period times.getLast? = true := by
  have absent : times.getLast? ≠ some now := fun held => absurd (new now (List.mem_of_getLast? held)) (lt_irrefl _)
  simp [sampleDue, after, multiple, absent]

theorem sampleDue_of_not_multiple {now period : Nat} (last : Option Nat) (between : now % period ≠ 0) :
    sampleDue now period last = false := by
  simp [sampleDue, between]

/-- The newest entry at or before an instant of a ring whose entries behind it are all later. -/
theorem getLast_filter_of_later {α : Type} (early : α → Bool) {l pre post : List α} {e : α} (split : l = pre ++ e :: post)
    (here : early e = true) (later : ∀ x ∈ post, early x = false) : (l.filter early).getLast? = some e := by
  have none : post.filter early = [] := List.filter_eq_nil_iff.mpr fun x member => by simp [later x member]
  simp [split, here, none]

theorem getLast_filter_of_none {α : Type} (early : α → Bool) {l : List α} (later : ∀ x ∈ l, early x = false) :
    (l.filter early).getLast? = none := by
  rw [List.filter_eq_nil_iff.mpr fun x member => by simp [later x member]]
  rfl

theorem State.wheelSample_of_due {s : State} (due : sampleDue s.timeBase 4000 (s.wct.history.getLast?.map (·.time)) = true) :
    s.wheelSample = { s with wct := { s.wct with history := keepNewest 64 (s.wct.history ++ [⟨s.timeBase, s.wct.live⟩]) } } :=
  if_pos due

theorem State.headSample_of_due {s : State} (due : sampleDue s.timeBase 1000 (s.hdp.history.getLast?.map (·.time)) = true) :
    s.headSample = { s with hdp := { s.hdp with
      history := keepNewest 64 (s.hdp.history ++ [⟨s.timeBase, s.hdp.pan.pos, s.hdp.tilt.pos⟩]) } } :=
  if_pos due

theorem WheelCounter.sampleAt_held {w : WheelCounter} {t : Nat} {e : WheelSample}
    (held : (w.history.filter fun e => decide (e.time ≤ t)).getLast? = some e) : w.sampleAt t = e.counts := by
  simp [WheelCounter.sampleAt, held]

theorem HeadPositioner.anglesAt_held {h : HeadPositioner} {t : Nat} {e : HeadSample}
    (held : (h.history.filter fun e => decide (e.time ≤ t)).getLast? = some e) : h.anglesAt t = (e.pan, e.tilt) := by
  simp [HeadPositioner.anglesAt, held]

/-- Settles O8: the sampling instants of the two rings, and the newest entry at or before an instant in each. -/
theorem historyRingsSampleAndLookUp : Obligations.HistoryRingsSampleAndLookUp := by
  refine ⟨?sampled, fun w t => ⟨?_, ?_, ?_⟩, fun h t => ⟨?_, ?_, ?_⟩⟩
  case sampled =>
    intro dt s now wheels angles
    refine ⟨fun after multiple new => ?_, fun after multiple new => ?_, fun between => ?_, fun between => ?_⟩
    · refine congrArg _ (State.wheelSample_of_due (s := s.elapse dt) ?_)
      rw [← List.getLast?_map]
      exact sampleDue_of_new after multiple (List.forall_mem_map.mpr new)
    · refine congrArg _ (State.headSample_of_due (s := s.elapse dt) ?_)
      rw [← List.getLast?_map]
      exact sampleDue_of_new after multiple (List.forall_mem_map.mpr new)
    · exact congrArg _ (if_neg (ne_true_of_eq_false (sampleDue_of_not_multiple _ between)))
    · exact congrArg _ (if_neg (ne_true_of_eq_false (sampleDue_of_not_multiple _ between)))
  · intro empty
    simp [WheelCounter.sampleAt, empty, WheelCounter.live]
  · intro e rest history later
    rw [WheelCounter.sampleAt, getLast_filter_of_none _ (by simpa using later), history]
    rfl
  · intro pre e post history reached later
    exact w.sampleAt_held (getLast_filter_of_later _ history (by simpa using reached) (by simpa using later))
  · intro empty
    simp [HeadPositioner.anglesAt, empty]
  · intro e rest history later
    rw [HeadPositioner.anglesAt, getLast_filter_of_none _ (by simpa using later), history]
    rfl
  · intro pre e post history reached later
    exact h.anglesAt_held (getLast_filter_of_later _ history (by simpa using reached) (by simpa using later))

end Sys2Proof.Machine
end

