-- ==== Sys2Proof/Proofs/Service.lean ====
section
/-! PROOFS. What a served request leaves (spec/10 R188, spec/12 R203), and how a raising goes with other changes of the
state. -/

namespace Sys2Proof.Machine

/-! ## Taking a request -/

@[simp] theorem State.taken_pending (s : State) (dt : Nat) (l : Link) (rest : List Frame) :
    (s.taken dt l rest).pending = s.pending := by simp [State.taken]
@[simp] theorem State.taken_timeBase (s : State) (dt : Nat) (l : Link) (rest : List Frame) :
    (s.taken dt l rest).timeBase = (s.timeBase + dt) % 2 ^ 64 := by simp [State.taken]
@[simp] theorem State.taken_rin (s : State) (dt : Nat) (l : Link) (rest : List Frame) :
    (s.taken dt l rest).rin = s.rin := by simp [State.taken]
@[simp] theorem State.taken_wct (s : State) (dt : Nat) (l : Link) (rest : List Frame) :
    (s.taken dt l rest).wct = s.wct := by simp [State.taken]
@[simp] theorem State.taken_drv (s : State) (dt : Nat) (l : Link) (rest : List Frame) :
    (s.taken dt l rest).drv = s.drv := by simp [State.taken]
@[simp] theorem State.taken_chr (s : State) (dt : Nat) (l : Link) (rest : List Frame) :
    (s.taken dt l rest).chr = s.chr := by simp [State.taken]
@[simp] theorem State.taken_fxc (s : State) (dt : Nat) (l : Link) (rest : List Frame) :
    (s.taken dt l rest).fxc = s.fxc := by simp [State.taken]
@[simp] theorem State.taken_ssp (s : State) (dt : Nat) (l : Link) (rest : List Frame) :
    (s.taken dt l rest).ssp = s.ssp := by simp [State.taken]
@[simp] theorem State.taken_ist (s : State) (dt : Nat) (l : Link) (rest : List Frame) :
    (s.taken dt l rest).ist = s.ist := by simp [State.taken]
@[simp] theorem State.taken_ldr (s : State) (dt : Nat) (l : Link) (rest : List Frame) :
    (s.taken dt l rest).ldr = s.ldr := by simp [State.taken]
@[simp] theorem State.taken_ltm (s : State) (dt : Nat) (l : Link) (rest : List Frame) :
    (s.taken dt l rest).ltm = s.ltm := by simp [State.taken]
@[simp] theorem State.taken_hdp (s : State) (dt : Nat) (l : Link) (rest : List Frame) :
    (s.taken dt l rest).hdp = s.hdp := by simp [State.taken]
@[simp] theorem State.taken_stu (s : State) (dt : Nat) (l : Link) (rest : List Frame) :
    (s.taken dt l rest).stu = s.stu := by simp [State.taken]
@[simp] theorem State.taken_ovg (s : State) (dt : Nat) (l : Link) (rest : List Frame) :
    (s.taken dt l rest).ovg = s.ovg := by simp [State.taken]
@[simp] theorem State.taken_obl (s : State) (dt : Nat) (l : Link) (rest : List Frame) :
    (s.taken dt l rest).obl = s.obl := by simp [State.taken]
@[simp] theorem State.taken_up (s : State) (dt : Nat) (l : Link) (rest : List Frame) :
    (s.taken dt l rest).tlp.up = s.tlp.up := by cases l <;> rfl
@[simp] theorem State.taken_attention (s : State) (dt : Nat) (l k : Link) (rest : List Frame) :
    (s.taken dt l rest).attention k = s.attention k := by simp [State.attention]

/-! ## A request that its block takes -/

section
variable {s : State} {l : Link} {tag kind : Byte} {p : List Byte} {rest : List Frame} {act : List Byte → State → Answer}

/-- The block's answer, whose status carries content, is sent under the request's TAG. -/
theorem State.serve_answered (dt : Nat) (ready : s.readyFor l ⟨tag, kind, p⟩ rest) (known : knownKind kind = true)
    (allowed : allowedOn kind l = true) (formed : lengthFits kind p = true) {t : State} {st : Status}
    {content : List Byte} (answer : act p (s.taken dt l rest) = ⟨t, st, content⟩) (carries : st.carries = true) :
    (s.elapse dt).serve l kind act = t.answered l ⟨tag, kind, p⟩ st content := by
  rw [State.serve_passing dt act ready known allowed formed, answer, Answer.payload_carrying t content carries]
  rfl

/-- The block's answer by a status alone. -/
theorem State.serve_bare (dt : Nat) (ready : s.readyFor l ⟨tag, kind, p⟩ rest) (known : knownKind kind = true)
    (allowed : allowedOn kind l = true) (formed : lengthFits kind p = true) {t : State} {st : Status}
    (answer : act p (s.taken dt l rest) = .bare t st) :
    (s.elapse dt).serve l kind act = t.answered l ⟨tag, kind, p⟩ st [] := by
  rw [State.serve_passing dt act ready known allowed formed, answer, Answer.payload_bare]
  rfl

end

/-! ## Raisings and other changes -/

/-- A raising reads the counts, the masks and the tether port alone. -/
theorem State.countFor_alike {s t : State} (cnd : s.cnd = t.cnd) (tlp : s.tlp = t.tlp) (set : s.set = t.set)
    (c : Condition) (l : Link) :
    s.countFor c l = { s with cnd := (t.countFor c l).cnd, tlp := (t.countFor c l).tlp } := by
  have fixed (u : State) : (u.countFor c l).set = u.set := by rw [State.countFor_eq]
  have counted : (s.countFor c l).cnd = (t.countFor c l).cnd := by
    rw [State.countFor_cnd, State.countFor_cnd, cnd]
  have placed : (s.countFor c l).tlp.transmit = (t.countFor c l).tlp.transmit := by
    rw [State.countFor_transmit, State.countFor_transmit]
    simp only [State.attention, fixed, counted, cnd, tlp, set]
  rw [State.countFor_eq c s l, counted, placed, tlp, State.countFor_eq c t l]

theorem State.raiseFor_alike {s t : State} (cnd : s.cnd = t.cnd) (tlp : s.tlp = t.tlp) (set : s.set = t.set)
    (c : Condition) (named : Link) :
    s.raiseFor c named = { s with cnd := (t.raiseFor c named).cnd, tlp := (t.raiseFor c named).tlp } := by
  unfold State.raiseFor
  generalize c.audience named = ls
  induction ls generalizing s t with
  | nil =>
    simp only [List.foldl_nil, ← cnd, ← tlp]
  | cons l ls ih =>
    have first := State.countFor_alike cnd tlp set c l
    have fixed (u : State) : (u.countFor c l).set = u.set := by
      obtain ⟨_, _, changed⟩ := State.countFor_changes c u l
      rw [changed]
    rw [List.foldl_cons, List.foldl_cons, ih (t := t.countFor c l) (by rw [first]) (by rw [first]) (by rw [fixed, fixed, set])]
    simp only [first]

theorem State.raise_alike {s t : State} (cnd : s.cnd = t.cnd) (tlp : s.tlp = t.tlp) (set : s.set = t.set)
    (c : Condition) : s.raise c = { s with cnd := (t.raise c).cnd, tlp := (t.raise c).tlp } :=
  State.raiseFor_alike cnd tlp set c .tether

theorem State.raiseAll_alike {s t : State} (cnd : s.cnd = t.cnd) (tlp : s.tlp = t.tlp) (set : s.set = t.set)
    (cs : List Condition) :
    s.raiseAll cs = { s with cnd := (t.raiseAll cs).cnd, tlp := (t.raiseAll cs).tlp } := by
  unfold State.raiseAll
  induction cs generalizing s t with
  | nil =>
    simp only [List.foldl_nil, ← cnd, ← tlp]
  | cons c cs ih =>
    have first := State.raise_alike cnd tlp set c
    rw [List.foldl_cons, List.foldl_cons,
      ih (t := t.raise c) (by rw [first]) (by rw [first]) (by rw [State.raise_set, State.raise_set, set])]
    simp only [first]

theorem State.raiseAll_append (s : State) (cs ds : List Condition) : s.raiseAll (cs ++ ds) = (s.raiseAll cs).raiseAll ds :=
  List.foldl_append

/-- The tether port as a raising leaves it. -/
theorem State.raiseAll_tlp (s : State) (cs : List Condition) :
    (s.raiseAll cs).tlp = { s.tlp with transmit := (s.raiseAll cs).tlp.transmit } := by
  obtain ⟨_, _, changed⟩ := s.raiseAll_changes cs
  rw [changed]

theorem State.raiseFor_tlp (s : State) (c : Condition) (named : Link) :
    (s.raiseFor c named).tlp = { s.tlp with transmit := (s.raiseFor c named).tlp.transmit } := by
  obtain ⟨_, _, changed⟩ := s.raiseFor_changes c named
  rw [changed]

theorem State.raise_tlp (s : State) (c : Condition) :
    (s.raise c).tlp = { s.tlp with transmit := (s.raise c).tlp.transmit } := s.raiseFor_tlp c _

/-- Raisings of other latches leave a latch's counts. -/
theorem State.raiseAll_counts_of_other {n : Fin 16} {cs : List Condition} (other : ∀ c ∈ cs, c.latch ≠ n) (s : State)
    (l : Link) : ((s.raiseAll cs).cnd.counts l)[n] = (s.cnd.counts l)[n] := by
  unfold State.raiseAll
  induction cs generalizing s with
  | nil => rfl
  | cons c cs ih =>
    have apart : n ≠ c.latch := fun same => other c (by simp) same.symm
    rw [List.foldl_cons, ih (fun d member => other d (by simp [member])), State.raise, State.raiseFor_counts, if_neg]
    exact fun both => apart both.2

theorem State.raise_counts_of_both {c : Condition} (both : c.audience .tether = [.tether, .carriage]) (s : State) (l : Link)
    (n : Fin 16) : ((s.raise c).cnd.counts l)[n]
      = if n = c.latch then min 255 ((s.cnd.counts l)[n] + 1) else (s.cnd.counts l)[n] := by
  rw [State.raise, State.raiseFor_counts, both]
  cases l <;> simp

end Sys2Proof.Machine
end

