-- ==== Sys2Proof/Proofs/Reckoning.lean ====
section
/-! PROOFS. The batches of the Reckoner (spec/02 sections 2.2 to 2.7): stage 2 by the wheels' health, the provisional
chainage by the selection, the step batch as its items in order, the rebase and the datums. -/

namespace Sys2Proof.Machine

/-! ## Stage 2 and the provisional chainage -/

theorem wheelStage_healthy {c : Reckoner} {w : WheelCounter} (left : w.left.fault = false) (right : w.right.fault = false)
    (n : WheelCounts) : c.wheelStage w n
      = (let dL := diff32 n.left c.anchor.wheels.left * c.eff.wheelScale
        let dR := diff32 n.right c.anchor.wheels.right * c.eff.wheelScale
        if ((dL - dR).natAbs : Int) ≤ c.eff.disFixed + (max (dL.natAbs : Int) dR.natAbs * c.eff.disRatio).tdiv 256 then
          ⟨some ((diff32 n.left c.anchor.wheels.left + diff32 n.right c.anchor.wheels.right) * c.eff.wheelScale / 2),
            .mean, false⟩
        else if dL.natAbs ≤ dR.natAbs then ⟨some dL, .left, true⟩
        else ⟨some dR, .right, true⟩) := by
  rw [Reckoner.wheelStage, left, right]
  rfl

/-- Settles O14: stage 2 by the two fault flags; with both set there is no wheel delta, and the verdict is CABLE-ONLY. -/
theorem wheelDeltaFollowsTheHealth : Obligations.WheelDeltaFollowsTheHealth := by
  intro c w n dir count time dL dR limit d last
  refine ⟨fun left right agree => ?mean, fun left right apart shorter => ?left, fun left right apart shorter => ?right,
    fun left right => ?rightOnly, fun left right => ?leftOnly, fun left right => ⟨?noDelta, ?cable⟩, fun sample => ?record⟩
  case mean => exact (wheelStage_healthy left right n).trans (if_pos agree)
  case left => exact (wheelStage_healthy left right n).trans ((if_neg (not_le.mpr apart)).trans (if_pos shorter))
  case right =>
    exact (wheelStage_healthy left right n).trans ((if_neg (not_le.mpr apart)).trans (if_neg (not_le.mpr shorter)))
  case rightOnly => simp only [d, Reckoner.wheelStage, left, right, wheelDelta, dR]
  case leftOnly => simp only [d, Reckoner.wheelStage, left, right, wheelDelta, dL]
  case noDelta => simp only [d, Reckoner.wheelStage, left, right, wheelDelta]
  case cable =>
    have none : (c.wheelStage w (w.sampleAt time)).dw = none := by
      simp only [Reckoner.wheelStage, left, right, wheelDelta]
    simp only [last, Reckoner.item, none, verdict, verdictCableOnly]
  case record =>
    subst sample
    exact ⟨rfl, rfl, rfl⟩

theorem usableDistance (sel : Selection) {leftFault rightFault : Bool} (healthy : ¬ (leftFault = true ∧ rightFault = true))
    (kw dl dr : Int) : wheelDistance (usableSelection sel leftFault rightFault) kw dl dr
      = if leftFault = true then dr * kw
        else if rightFault = true then dl * kw
        else match sel with
          | .mean => (dl + dr) * kw / 2
          | .left => dl * kw
          | .right => dr * kw := by
  cases leftFault <;> cases rightFault
  case true.true => exact absurd ⟨rfl, rfl⟩ healthy
  all_goals cases sel <;> rfl

theorem heldAtF_iff (cls : StepClass) (leftFault rightFault acquire : Bool) :
    heldAtF cls leftFault rightFault acquire = true
      ↔ (leftFault = true ∧ rightFault = true) ∨ (acquire = false ∧ (cls = .slip ∨ cls = .cableOnly)) := by
  simp [heldAtF]

/-- The provisional chainage that a carry gives, the rules of spec/02 R41 written out. -/
theorem Reckoner.carry_eq (c : Reckoner) (w : WheelCounter) (acquire : Bool) (n : WheelCounts) :
    c.carry w acquire n = saturate (c.anchor.f
      + if (w.left.fault = true ∧ w.right.fault = true) ∨ (acquire = false ∧ (c.anchor.cls = .slip ∨ c.anchor.cls = .cableOnly))
        then 0
        else wheelDistance (usableSelection c.anchor.sel w.left.fault w.right.fault) c.eff.wheelScale
          (diff32 n.left c.anchor.wheels.left) (diff32 n.right c.anchor.wheels.right)) := by
  unfold Reckoner.carry
  dsimp only
  by_cases held : heldAtF c.anchor.cls w.left.fault w.right.fault acquire = true
  · rw [if_pos held, if_pos ((heldAtF_iff ..).mp held), add_zero]
  · rw [if_neg held, if_neg (mt (heldAtF_iff ..).mpr held)]

/-- From an anchor at the live counts nothing has been travelled. -/
theorem Reckoner.carry_of_live (c : Reckoner) {w : WheelCounter} (acquire : Bool) {n : WheelCounts}
    (live : c.anchor.wheels = n) : c.carry w acquire n = saturate c.anchor.f := by
  have none : wheelDistance (usableSelection c.anchor.sel w.left.fault w.right.fault) c.eff.wheelScale 0 0 = 0 := by
    cases usableSelection c.anchor.sel w.left.fault w.right.fault <;> simp [wheelDistance]
  have same (k : Count) : diff32 k k = 0 := by simp [diff32]
  rw [Reckoner.carry_eq, live, same, same, none, ite_self, add_zero]

theorem saturate_saturate (v : Int) : saturate (saturate v) = saturate v := by
  unfold saturate clampInt
  omega

theorem saturate_of_datum {v : Int} (low : -999999 ≤ v) (high : v ≤ 999999) : saturate (v * 1000) = v * 1000 := by
  unfold saturate clampInt
  omega

/-! ## The start of a batch -/

theorem Reckoner.begin_fst (c : Reckoner) (set : Settings) :
    (c.begin_ set).1 = { c with eff := .ofStore set, slack := min c.slack (ReckonSettings.ofStore set).slackMax } := by
  unfold Reckoner.begin_
  dsimp only
  split
  · next cut => rw [min_eq_right cut.le]
  · next fits => rw [min_eq_left (not_lt.mp fits)]

theorem Reckoner.begin_snd (c : Reckoner) (set : Settings) :
    (c.begin_ set).2 = if (ReckonSettings.ofStore set).slackMax < c.slack then [.slackLimit] else [] := by
  unfold Reckoner.begin_
  dsimp only
  split <;> rfl

/-! ## The items of a step batch -/

/-- The conditions that an item may raise. -/
theorem Reckoner.item_raised (c : Reckoner) (w : WheelCounter) (dir : Option Direction) (kind : LastKind) (count : Count)
    (time : Nat) : ∀ d ∈ (c.item w dir kind count time).2, d = .slackLimit ∨ d = .wheelSlip := by
  have raised (dw : Option Int) (dC tol slack smax : Int) :
      ∀ d ∈ (verdict dir dw dC tol slack smax).raised, d = .slackLimit ∨ d = .wheelSlip := by
    have stopped (x : Int) : ∀ d ∈ (verdictStopped x dC tol slack smax).raised, d = .slackLimit ∨ d = .wheelSlip := by
      unfold verdictStopped
      dsimp only
      split
      · simp
      · split <;> simp
    have forward (x : Int) : ∀ d ∈ (verdictForward x dC tol slack smax).raised, d = .slackLimit ∨ d = .wheelSlip := by
      unfold verdictForward
      dsimp only
      split
      · simp
      · split <;> split <;> simp
    unfold verdict
    split
    · simp [verdictCableOnly]
    · simp [verdictCableOnly]
    · exact forward _
    · exact stopped _
    · split
      · simp [verdictReverse]
      · exact stopped _
  exact raised _ _ _ _ _

/-- What the fill items of a batch have reached: `q` is the part of the count difference that they have carried. -/
structure Reckoner.Reached (c d : Reckoner) (count : Count) (q : Int) : Prop where
  count : d.anchor.count = count + BitVec.ofInt 32 q
  cable : d.cable = c.cable + q * c.eff.reelScale * c.eff.reelSense
  eff : d.eff = c.eff
  v0 : d.v0 = c.v0
  datumTaken : d.datumTaken = c.datumTaken
  pendingDatum : d.pendingDatum = c.pendingDatum

theorem diff32_add_ofInt (a : Count) {p q : Int} (low : -2147483648 ≤ p - q) (high : p - q ≤ 2147483647) :
    diff32 (a + BitVec.ofInt 32 p) (a + BitVec.ofInt 32 q) = p - q := by
  have difference : a + BitVec.ofInt 32 p - (a + BitVec.ofInt 32 q) = BitVec.ofInt 32 (p - q) := by
    rw [sub_eq_add_neg p q, BitVec.ofInt_add, BitVec.ofInt_neg]
    bv_omega
  rw [diff32, difference, BitVec.toInt_ofInt]
  exact Int.bmod_eq_of_le (by omega) (by omega)

theorem diff32_bounds (a b : Count) : -2147483648 ≤ diff32 a b ∧ diff32 a b ≤ 2147483647 := by
  have low := BitVec.le_toInt (a - b)
  have high := BitVec.toInt_lt (x := a - b)
  unfold diff32
  omega

theorem ofInt_diff32 (a b : Count) : b + BitVec.ofInt 32 (diff32 a b) = a := by
  rw [diff32, BitVec.ofInt_toInt]
  bv_omega

/-- The part of a count difference that k of n + 1 items carry. -/
def partOf (whole : Int) (k n : Nat) : Int := truncDiv (whole * k) (n + 1)

theorem partOf_zero (whole : Int) (n : Nat) : partOf whole 0 n = 0 := by simp [partOf, truncDiv]

/-- Parts of one difference lie within it and never run back. -/
theorem partOf_steps (whole : Int) {k n : Nat} (fits : k ≤ n) :
    (0 ≤ whole → 0 ≤ partOf whole k n ∧ partOf whole k n ≤ partOf whole (k + 1) n ∧ partOf whole (k + 1) n ≤ whole) ∧
      (whole ≤ 0 → whole ≤ partOf whole (k + 1) n ∧ partOf whole (k + 1) n ≤ partOf whole k n ∧ partOf whole k n ≤ 0) := by
  have forward (w : Int) (up : 0 ≤ w) :
      0 ≤ partOf w k n ∧ partOf w k n ≤ partOf w (k + 1) n ∧ partOf w (k + 1) n ≤ w := by
    have here : 0 ≤ w * k := by positivity
    have next : 0 ≤ w * (k + 1 : Nat) := by positivity
    have order : w * k ≤ w * (k + 1 : Nat) := by gcongr; omega
    have most : w * (k + 1 : Nat) ≤ w * (n + 1) := by gcongr; omega
    unfold partOf truncDiv
    rw [Int.tdiv_eq_ediv_of_nonneg here, Int.tdiv_eq_ediv_of_nonneg next]
    refine ⟨Int.ediv_nonneg here (by omega), Int.ediv_le_ediv (by omega) order, ?_⟩
    exact (Int.ediv_le_ediv (by omega) most).trans_eq (Int.mul_ediv_cancel _ (by omega))
  refine ⟨forward whole, fun down => ?_⟩
  have mirrored (j : Nat) : partOf (-whole) j n = -partOf whole j n := by
    rw [partOf, partOf, truncDiv, truncDiv, neg_mul, Int.neg_tdiv]
  have parts := forward (-whole) (by omega)
  rw [mirrored, mirrored] at parts
  omega

theorem Reckoner.Reached.item {c d : Reckoner} {a r : Count} {q p : Int} (reached : c.Reached d a q)
    (target : r = a + BitVec.ofInt 32 p) (low : -2147483648 ≤ p - q) (high : p - q ≤ 2147483647) (w : WheelCounter)
    (dir : Option Direction) (kind : LastKind) (time : Nat) : c.Reached (d.item w dir kind r time).1 a p where
  count := target
  cable := by
    have travelled : d.cableDelta r = (p - q) * c.eff.reelScale * c.eff.reelSense := by
      rw [Reckoner.cableDelta, reached.count, target, diff32_add_ofInt a low high, reached.eff]
    change d.cable + d.cableDelta r = _
    rw [travelled, reached.cable]
    ring
  eff := reached.eff
  v0 := reached.v0
  datumTaken := reached.datumTaken
  pendingDatum := reached.pendingDatum

/-- The first k fill items of a batch of n. -/
def Reckoner.firstFills (c : Reckoner) (w : WheelCounter) (dir : Option Direction) (a : Anchor) (count : Count)
    (time n k : Nat) : Reckoner × List Condition :=
  (List.range k).foldl (fun acc j =>
    let r := acc.1.item w dir .fill (fillCount a count (j + 1) n) (fillTime a time (j + 1) n)
    (r.1, acc.2 ++ r.2)) (c, [])

theorem Reckoner.fills_eq_firstFills (c : Reckoner) (w : WheelCounter) (dir : Option Direction) (a : Anchor)
    (count : Count) (time n : Nat) : c.fills w dir a count time n = c.firstFills w dir a count time n n := rfl

theorem Reckoner.firstFills_succ (c : Reckoner) (w : WheelCounter) (dir : Option Direction) (a : Anchor) (count : Count)
    (time n k : Nat) : c.firstFills w dir a count time n (k + 1)
      = (let acc := c.firstFills w dir a count time n k
        let r := acc.1.item w dir .fill (fillCount a count (k + 1) n) (fillTime a time (k + 1) n)
        (r.1, acc.2 ++ r.2)) := by
  unfold Reckoner.firstFills
  rw [List.range_succ, List.foldl_append]
  rfl

theorem Reckoner.firstFills_reached (c : Reckoner) (w : WheelCounter) (dir : Option Direction) (count : Count)
    (time n : Nat) {k : Nat} (fits : k ≤ n) :
    c.Reached (c.firstFills w dir c.anchor count time n k).1 c.anchor.count
      (partOf (diff32 count c.anchor.count) k n) := by
  induction k with
  | zero =>
    rw [partOf_zero]
    exact ⟨by simp [Reckoner.firstFills], by simp [Reckoner.firstFills], rfl, rfl, rfl, rfl⟩
  | succ k ih =>
    obtain ⟨up, down⟩ := partOf_steps (diff32 count c.anchor.count) (Nat.le_of_succ_le fits)
    have bounds := diff32_bounds count c.anchor.count
    rw [Reckoner.firstFills_succ]
    exact (ih (Nat.le_of_succ_le fits)).item (p := partOf (diff32 count c.anchor.count) (k + 1) n) rfl (by omega) (by omega)
      w dir .fill _

theorem Reckoner.firstFills_raised (c : Reckoner) (w : WheelCounter) (dir : Option Direction) (a : Anchor) (count : Count)
    (time n k : Nat) : ∀ d ∈ (c.firstFills w dir a count time n k).2, d = .slackLimit ∨ d = .wheelSlip := by
  induction k with
  | zero => nofun
  | succ k ih =>
    rw [Reckoner.firstFills_succ]
    intro d member
    rcases List.mem_append.mp member with before | new
    · exact ih d before
    · exact Reckoner.item_raised _ _ _ _ _ _ d new

/-- The settled item carries what the fill items have left of the count difference. -/
theorem Reckoner.Reached.rest {c d : Reckoner} {count : Count} {n : Nat}
    (reached : c.Reached d c.anchor.count (partOf (diff32 count c.anchor.count) n n)) :
    d.cable + d.cableDelta count
      = c.cable + diff32 count c.anchor.count * c.eff.reelScale * c.eff.reelSense := by
  obtain ⟨up, down⟩ := partOf_steps (diff32 count c.anchor.count) (le_refl n)
  have bounds := diff32_bounds count c.anchor.count
  have travelled : d.cableDelta count
      = (diff32 count c.anchor.count - partOf (diff32 count c.anchor.count) n n) * c.eff.reelScale * c.eff.reelSense := by
    have target := ofInt_diff32 count c.anchor.count
    generalize diff32 count c.anchor.count = whole at *
    rw [Reckoner.cableDelta, reached.count, reached.eff, ← target, diff32_add_ofInt _ (by omega) (by omega)]
  rw [travelled, reached.cable]
  ring

/-! ## A batch as its parts -/

/-- Conditions raised on another Reckoner, where `u` is the state that has raised what went before. -/
theorem State.raiseAll_with_chr {s u : State} (set : u.set = s.set) (c : Reckoner) (cs : List Condition) :
    State.raiseAll { s with chr := c, cnd := u.cnd, tlp := u.tlp } cs
      = { s with chr := c, cnd := (u.raiseAll cs).cnd, tlp := (u.raiseAll cs).tlp } :=
  State.raiseAll_alike (s := { s with chr := c, cnd := u.cnd, tlp := u.tlp }) (t := u) rfl rfl set.symm cs

/-- A step batch up to its settled item: its fill items taken, with what they and the start of the batch raise. -/
theorem State.takeBatch_step (s : State) (n : Nat) (count : Count) (time : Nat) :
    let started := s.chr.begin_ s.set
    let filled := started.1.fills s.wct s.drv.effDirection s.chr.anchor count time n
    let told := s.raiseAll (started.2 ++ filled.2)
    s.takeBatch (.step n count time)
      = (State.settledItem { s with chr := filled.1, cnd := told.cnd, tlp := told.tlp } s.drv.effDirection count
          time).checkpoint := by
  intro started filled told
  have first : State.raiseAll { s with chr := started.1 } started.2
      = { s with chr := started.1, cnd := (s.raiseAll started.2).cnd, tlp := (s.raiseAll started.2).tlp } :=
    State.raiseAll_with_chr (u := s) rfl _ _
  have second : State.raiseAll
        { s with chr := filled.1, cnd := (s.raiseAll started.2).cnd, tlp := (s.raiseAll started.2).tlp } filled.2
      = { s with chr := filled.1, cnd := told.cnd, tlp := told.tlp } := by
    rw [State.raiseAll_with_chr (by simp), ← State.raiseAll_append]
  have anchor : (s.chr.begin_ s.set).1.anchor = s.chr.anchor := by rw [Reckoner.begin_fst]
  simp only [State.takeBatch]
  rw [first]
  dsimp only
  rw [anchor]
  exact congrArg (fun u => (State.settledItem u s.drv.effDirection count time).checkpoint) second

theorem State.settledItem_of_none {s : State} (none : s.chr.pendingDatum = none) (dir : Option Direction) (count : Count)
    (time : Nat) : s.settledItem dir count time
      = (let r := s.chr.item s.wct dir .settled count time
        { s with chr := r.1, cnd := (s.raiseAll r.2).cnd, tlp := (s.raiseAll r.2).tlp }) := by
  unfold State.settledItem
  split
  · next pending => exact absurd (none.symm.trans pending) (by simp)
  · exact State.raiseAll_with_chr (u := s) rfl _ _

/-- A datum: the Reckoner as given, DATUM_TAKEN counted, and the log's part. -/
theorem State.takeDatum_eq (s : State) (c : Reckoner) : s.takeDatum c
    = { s with
        chr := c, cnd := (s.raise .datumTaken).cnd, tlp := (s.raise .datumTaken).tlp
        obl := s.obl.closeByDatum (s.datumNotice { s with chr := c }) } := by
  unfold State.takeDatum
  dsimp only
  rw [State.raise_alike (s := { s with chr := c }) (t := s) rfl rfl rfl]

theorem State.settledItem_of_some {s : State} {v : Int} (pending : s.chr.pendingDatum = some v) (dir : Option Direction)
    (count : Count) (time : Nat) :
    s.settledItem dir count time = s.takeDatum (s.chr.datumItem s.wct v count time) := by
  unfold State.settledItem
  rw [pending]

/-! ## The step batch -/

/-- A fold over reckoners and conditions goes by the step that agrees with it while an invariant holds. -/
theorem foldl_congr_of_invariant {α β : Type} {P : α → Prop} {f g : α → β → α} (same : ∀ a b, P a → f a b = g a b)
    (kept : ∀ a b, P a → P (g a b)) (l : List β) {a : α} (start : P a) : l.foldl f a = l.foldl g a := by
  induction l generalizing a with
  | nil => rfl
  | cons b l ih => rw [List.foldl_cons, List.foldl_cons, same a b start, ih (kept a b start)]

/-- What a step batch without a pending datum leaves. -/
theorem State.takeBatch_step_of_none {s : State} (none : s.chr.pendingDatum = none) (n : Nat) (count : Count) (time : Nat) :
    let started := s.chr.begin_ s.set
    let filled := started.1.fills s.wct s.drv.effDirection s.chr.anchor count time n
    let settled := filled.1.item s.wct s.drv.effDirection .settled count time
    let told := s.raiseAll (started.2 ++ filled.2 ++ settled.2)
    s.takeBatch (.step n count time)
      = State.checkpoint { s with chr := settled.1, cnd := told.cnd, tlp := told.tlp } := by
  intro started filled settled told
  have anchor : started.1.anchor = s.chr.anchor := by rw [Reckoner.begin_fst]
  have reached := started.1.firstFills_reached s.wct s.drv.effDirection count time n le_rfl
  rw [← Reckoner.fills_eq_firstFills, anchor] at reached
  have pending : filled.1.pendingDatum = Option.none := by
    rw [reached.pendingDatum, Reckoner.begin_fst, none]
  let filledTold := s.raiseAll (started.2 ++ filled.2)
  have counted := State.raiseAll_with_chr (s := s) (u := filledTold) (by simp [filledTold]) filled.1 settled.2
  rw [← State.raiseAll_append] at counted
  refine (s.takeBatch_step n count time).trans (congrArg State.checkpoint ?_)
  refine (State.settledItem_of_none (s := { s with chr := filled.1, cnd := filledTold.cnd, tlp := filledTold.tlp }) pending _ _
    _).trans ?_
  exact congrArg (fun u : State => { s with chr := settled.1, cnd := u.cnd, tlp := u.tlp }) counted

/-- Settles O15: the items written out are those of the model while the settings in effect are those taken in, and the
batch is its parts. -/
theorem batchAddsTheReelTravel : Obligations.BatchAddsTheReelTravel := by
  intro s fills count time unset t num eff dir item a filled settled cut told
  have sameItem (c : Reckoner) (here : c.eff = eff) (kind : LastKind) (r : Count) (at_ : Nat) :
      item c kind r at_ = c.item s.wct s.drv.effDirection kind r at_ := by
    simp only [item, ← here]
    rfl
  have startedIs : (s.chr.begin_ s.set).1 = { s.chr with eff := eff, slack := min s.chr.slack eff.slackMax } :=
    s.chr.begin_fst s.set
  have filledIs : filled = (s.chr.begin_ s.set).1.fills s.wct s.drv.effDirection s.chr.anchor count time fills := by
    rw [startedIs]
    change List.foldl _ _ _ = List.foldl _ _ _
    apply foldl_congr_of_invariant (P := fun acc : Reckoner × List Condition => acc.1.eff = eff)
    case same =>
      intro acc k here
      simp only [sameItem acc.1 here]
      rfl
    case kept => exact fun acc k here => here
    case start => rfl
  have reached := (s.chr.begin_ s.set).1.firstFills_reached s.wct s.drv.effDirection count time fills le_rfl
  have anchorIs : (s.chr.begin_ s.set).1.anchor = s.chr.anchor := by rw [startedIs]
  have cableIs : (s.chr.begin_ s.set).1.cable = s.chr.cable := by rw [startedIs]
  have effIs' : (s.chr.begin_ s.set).1.eff = eff := by rw [startedIs]
  rw [← Reckoner.fills_eq_firstFills, anchorIs, ← filledIs] at reached
  have effIs : filled.1.eff = eff := reached.eff.trans effIs'
  have settledIs : settled = filled.1.item s.wct s.drv.effDirection .settled count time := sameItem _ effIs _ _ _
  have cutIs : (s.chr.begin_ s.set).2 = cut := s.chr.begin_snd s.set
  have batch : t = State.checkpoint { s with chr := settled.1, cnd := told.cnd, tlp := told.tlp } := by
    have parts := State.takeBatch_step_of_none unset fills count time
    simp only [cutIs, ← filledIs, ← settledIs] at parts
    exact parts
  have carried := Reckoner.Reached.rest (c := (s.chr.begin_ s.set).1) (by rw [anchorIs]; exact reached)
  rw [anchorIs, cableIs, effIs'] at carried
  have anchor : settled.1.anchor.count = count ∧ settled.1.anchor.time = time ∧ settled.1.anchor.wheels = s.wct.sampleAt time :=
    ⟨rfl, rfl, rfl⟩
  have tlp : told.tlp = { s.tlp with transmit := told.tlp.transmit } := s.raiseAll_tlp _
  rw [batch]
  refine ⟨rfl, rfl, rfl, anchor.1, anchor.2.1, anchor.2.2, (congrArg (·.1.cable) settledIs).trans carried, effIs, ?_, ?_, ?_, rfl, rfl, rfl, ?_⟩
  · exact reached.v0.trans (by rw [startedIs])
  · exact reached.datumTaken.trans (by rw [startedIs])
  · exact reached.pendingDatum.trans (by rw [startedIs]; exact unset)
  · simp only [State.checkpoint]
    rw [← tlp]

/-! ## The rebase -/

theorem State.takeBatch_rebase (s : State) (count : Count) (time : Nat) :
    let started := s.chr.begin_ s.set
    let told := s.raiseAll started.2
    s.takeBatch (.rebase count time)
      = (State.rebaseItem { s with chr := started.1, cnd := told.cnd, tlp := told.tlp } count time).checkpoint := by
  intro started told
  have first : State.raiseAll { s with chr := started.1 } started.2
      = { s with chr := started.1, cnd := told.cnd, tlp := told.tlp } := State.raiseAll_with_chr (u := s) rfl _ _
  simp only [State.takeBatch]
  rw [first]

/-- Settles O16: the provisional chainage is a carry, whose rules are those written out, and a rebase takes it over. -/
theorem rebaseZeroesTheResidual : Obligations.RebaseZeroesTheResidual := by
  refine ⟨?provisional, ?rebase⟩
  case provisional =>
    intro s n a dl dr kw leftFault rightFault distance
    refine ⟨?_, rfl⟩
    have acquire : s.inAcquire = false ↔ s.rin.machine ≠ .acquire := by simp [State.inAcquire]
    rw [State.provisionalAt, Reckoner.carry_eq]
    refine congrArg (fun d => saturate (s.chr.anchor.f + d)) ?_
    by_cases held : (leftFault ∧ rightFault) ∨ (s.rin.machine ≠ .acquire ∧ (a.cls = .slip ∨ a.cls = .cableOnly))
    · exact (if_pos (by rwa [acquire])).trans (if_pos held).symm
    · refine (if_neg (by rwa [acquire])).trans (Eq.trans ?_ (if_neg held).symm)
      exact usableDistance _ (fun both => held (.inl both)) _ _ _
  case rebase =>
    intro s count time eff n f slack t
    have batch := s.takeBatch_rebase count time
    have chr : t.chr = { s.chr with
        anchor := { s.chr.anchor with count := count, time := time, wheels := n, f := f }
        slack := slack, eff := eff, v0 := some (f + slack - s.chr.cable)
        last := { s.chr.last with kind := .rebase } } := by
      change (s.takeBatch _).chr = _
      rw [batch, Reckoner.begin_fst]
      have residual : f - s.chr.cable + slack = f + slack - s.chr.cable := by ring
      rw [← residual]
      rfl
    refine ⟨chr, ?_, ?_⟩
    · intro v held
      rw [chr] at held ⊢
      have vIs : f + slack - s.chr.cable = v := Option.some.inj held
      dsimp only
      omega
    · change s.takeBatch _ = _
      have tlp := s.raiseAll_tlp (s.chr.begin_ s.set).2
      rw [show t = s.takeBatch (.rebase count time) from rfl, batch]
      simp only [State.checkpoint, State.rebaseItem]
      rw [← tlp]

end Sys2Proof.Machine
end

