-- ==== Sys2Proof/Proofs/Datum.lean ====
section
/-! PROOFS. The three ways in which a datum is taken (spec/02 sections 2.5 and 2.7): at the settled item of a step batch,
at once in ACQUIRE, and at the lapse of the presence timer. -/

namespace Sys2Proof.Machine

theorem Condition.datumTaken_counts (s : State) (l : Link) :
    ((s.raise .datumTaken).cnd.counts l)[(5 : Fin 16)] = min 255 ((s.cnd.counts l)[(5 : Fin 16)] + 1) :=
  (State.raise_counts_of_both rfl s l 5).trans (if_pos rfl)

/-- What a step batch with a pending datum leaves. -/
theorem State.takeBatch_step_of_some {s : State} {v : Int} (pending : s.chr.pendingDatum = some v) (n : Nat) (count : Count)
    (time : Nat) :
    let started := s.chr.begin_ s.set
    let filled := started.1.fills s.wct s.drv.effDirection s.chr.anchor count time n
    let told := s.raiseAll (started.2 ++ filled.2)
    s.takeBatch (.step n count time)
      = (State.takeDatum { s with chr := filled.1, cnd := told.cnd, tlp := told.tlp }
          (filled.1.datumItem s.wct v count time)).checkpoint := by
  intro started filled told
  have anchor : started.1.anchor = s.chr.anchor := by rw [Reckoner.begin_fst]
  have reached := started.1.firstFills_reached s.wct s.drv.effDirection count time n le_rfl
  rw [← Reckoner.fills_eq_firstFills, anchor] at reached
  have waiting : filled.1.pendingDatum = some v := by
    rw [reached.pendingDatum, Reckoner.begin_fst, pending]
  refine (s.takeBatch_step n count time).trans (congrArg State.checkpoint ?_)
  exact State.settledItem_of_some (s := { s with chr := filled.1, cnd := told.cnd, tlp := told.tlp }) waiting _ _ _

/-- The fill items of a batch raise nothing on the latch of a datum. -/
theorem Reckoner.fills_raise_no_datum (s : State) (w : WheelCounter) (dir : Option Direction) (a : Anchor) (count : Count)
    (time n : Nat) : ∀ c ∈ (s.chr.begin_ s.set).2 ++ ((s.chr.begin_ s.set).1.fills w dir a count time n).2, c.latch ≠ 5 := by
  intro c member
  have cases : c = .slackLimit ∨ c = .wheelSlip := by
    rcases List.mem_append.mp member with start | item
    · rw [Reckoner.begin_snd] at start
      split at start
      · exact .inl (List.mem_singleton.mp start)
      · exact absurd start (by simp)
    · exact Reckoner.firstFills_raised _ _ _ _ _ _ _ _ c item
  rcases cases with rfl | rfl <;> decide

/-- Settles O17: the batch up to its settled item, which is the datum's. -/
theorem pendingDatumAppliesAtTheSettledItem : Obligations.PendingDatumAppliesAtTheSettledItem := by
  intro s n count time v pending t started filled dated closing
  have anchor : (s.chr.begin_ s.set).1.anchor = s.chr.anchor := by rw [Reckoner.begin_fst]
  have cable : (s.chr.begin_ s.set).1.cable = s.chr.cable := by rw [Reckoner.begin_fst]
  have eff : (s.chr.begin_ s.set).1.eff = .ofStore s.set := by rw [Reckoner.begin_fst]
  have datumTaken : (s.chr.begin_ s.set).1.datumTaken = s.chr.datumTaken := by rw [Reckoner.begin_fst]
  have reached := (s.chr.begin_ s.set).1.firstFills_reached s.wct s.drv.effDirection count time n le_rfl
  have carried := reached.rest
  have takenBefore := reached.datumTaken
  rw [← Reckoner.fills_eq_firstFills, anchor] at carried takenBefore
  rw [cable, eff] at carried
  rw [datumTaken] at takenBefore
  have filledIs : filled = { s with chr :=
      ((s.chr.begin_ s.set).1.fills s.wct s.drv.effDirection s.chr.anchor count time n).1 } := by
    rw [← anchor]
  have other := Reckoner.fills_raise_no_datum s s.wct s.drv.effDirection s.chr.anchor count time n
  have batch : t = _ := State.takeBatch_step_of_some pending n count time
  generalize (s.chr.begin_ s.set).1.fills s.wct s.drv.effDirection s.chr.anchor count time n = items at *
  have counted (l : Link) := State.raiseAll_counts_of_other other s l
  generalize s.raiseAll ((s.chr.begin_ s.set).2 ++ items.2) = told at *
  have chr : t.chr = items.1.datumItem s.wct v count time := by
    rw [batch]
    exact State.takeDatum_chr _ _
  have now : State.provisionalNow { s with chr := items.1, cnd := told.cnd, tlp := told.tlp } = filled.provisionalNow := by
    rw [filledIs]
    rfl
  have after : State.provisionalNow { s with chr := items.1.datumItem s.wct v count time, cnd := told.cnd, tlp := told.tlp }
      = dated.provisionalNow := by
    rw [← chr]
    rfl
  have notice : State.datumNotice { s with chr := items.1, cnd := told.cnd, tlp := told.tlp }
      { s with chr := items.1.datumItem s.wct v count time, cnd := told.cnd, tlp := told.tlp } = closing := by
    rw [State.datumNotice, now, after]
    simp only [takenBefore]
    rfl
  have counts (l : Link) : (t.cnd.counts l)[(5 : Fin 16)] = min 255 ((s.cnd.counts l)[(5 : Fin 16)] + 1) := by
    rw [batch, State.takeDatum_eq, ← counted]
    exact Condition.datumTaken_counts { s with chr := items.1, cnd := told.cnd, tlp := told.tlp } l
  have obl : t.obl = s.obl.closeByDatum closing := by
    rw [batch, State.takeDatum_eq]
    exact congrArg s.obl.closeByDatum notice
  rw [chr]
  exact ⟨rfl, rfl, rfl, rfl, rfl, rfl, rfl, carried, rfl, rfl, rfl, counts, obl⟩

/-! ## At once -/

theorem Reckoner.immediateDatum_now (c : Reckoner) (w : WheelCounter) {v : Int} (low : -999999 ≤ v) (high : v ≤ 999999) (acquire : Bool) :
    (c.immediateDatum w.live v).carry w acquire w.live = v * 1000 :=
  (Reckoner.carry_of_live (c.immediateDatum w.live v) acquire rfl).trans (saturate_of_datum low high)

theorem roundDiv_of_multiple (v : Int) : roundDiv (v * 1000) 1000 = v := by
  simp only [roundDiv]
  split <;> omega

/-- A datum to the millimetre at the links. -/
theorem State.linkMm_of_mm (s : State) (v : Int) : s.linkMm (v * 1000) = v + s.set.num .lensOffset := by
  rw [State.linkMm, State.withLens, ← add_mul, roundDiv_of_multiple]

theorem roundDiv_nearest (a : Int) : let off := (1000 * roundDiv a 1000 - a).natAbs
    2 * off ≤ 1000 ∧ (2 * off = 1000 → a.natAbs < (1000 * roundDiv a 1000).natAbs) := by
  simp only [roundDiv]
  split <;> omega

theorem storedDatum_bounds (v : Int) : -999999 ≤ storedDatum v ∧ storedDatum v ≤ 999999 := by
  unfold storedDatum clampInt
  omega

/-- The tests of SET DATUM passed: applied at once in ACQUIRE, else pending. -/
theorem answerSetDatum_of_owner {l : Link} {s : State} (owner : l = .tether ∨ s.set.num .datumOwner ≠ 0) (p : List Byte) :
    answerSetDatum l p s
      = (let v := storedDatum (s32At p 0)
        let st : Status := if v = s32At p 0 then .done else .clamped
        if s.inAcquire then ⟨s.applyImmediateDatum v, st, u8 1 ++ s32 v⟩
        else ⟨{ s with chr := { s.chr with pendingDatum := some v } }, st, u8 0 ++ s32 v⟩) := by
  have permitted : ¬ (l = .carriage ∧ s.set.num .datumOwner = 0) := by
    rintro ⟨rfl, tether⟩
    rcases owner with wrong | other
    · exact absurd wrong (by decide)
    · exact other tether
  unfold answerSetDatum
  rw [if_neg permitted]
  dsimp only
  rw [doneOr_decide]

theorem ite_status_carries {P : Prop} [Decidable P] : (if P then Status.done else .clamped).carries = true := by
  split <;> rfl

/-- Settles O19: the rounding of a chainage, then the answer's tests in order. -/
theorem setDatumAppliesOrPends : Obligations.SetDatumAppliesOrPends := by
  refine ⟨fun s u => roundDiv_nearest _, ?_⟩
  intro dt s l tag p rest length ready f v st
  have known : knownKind 0x11 = true := rfl
  have allowed : allowedOn 0x11 l = true := by cases l <;> rfl
  have formed : lengthFits 0x11 p = true := beq_iff_eq.mpr length
  have range := storedDatum_bounds (s32At p 0)
  let u := s.taken dt l rest
  refine ⟨?refused, ?pends, ?applies⟩
  case refused =>
    rintro rfl tether
    refine congrArg _ (State.serve_bare dt ready known allowed formed (t := u) (st := .notPermitted) ?_)
    exact if_pos ⟨rfl, by simpa [u] using tether⟩
  case pends =>
    intro owner outside
    have owner' : l = .tether ∨ u.set.num .datumOwner ≠ 0 := by simpa [u] using owner
    have inSync : ¬ u.inAcquire = true := by simpa [u, State.inAcquire] using outside
    have answer := (answerSetDatum_of_owner owner' p).trans (if_neg inSync)
    refine congrArg _ ((State.serve_answered dt ready known allowed formed answer ite_status_carries).trans ?_)
    simp only [u, State.taken_chr]
    rfl
  case applies =>
    intro owner inside
    have owner' : l = .tether ∨ u.set.num .datumOwner ≠ 0 := by simpa [u] using owner
    have inAcquire : u.inAcquire = true := by simpa [u, State.inAcquire] using inside
    have answer := (answerSetDatum_of_owner owner' p).trans (if_pos inAcquire)
    let datum := s.chr.immediateDatum s.wct.live v
    let t := u.takeDatum datum
    have taken : u.applyImmediateDatum v = t := by
      simp only [State.applyImmediateDatum, u, t, datum, State.taken_chr, State.taken_wct]
    have fields := u.takeDatum_eq datum
    have now (w : State) (chr : w.chr = datum) (wct : w.wct = s.wct) (set : w.set = s.set) :
        w.linkMm w.provisionalNow = v + s.set.num .lensOffset := by
      have held : w.provisionalNow = v * 1000 := by
        rw [State.provisionalNow, State.provisionalAt, chr, wct]
        exact Reckoner.immediateDatum_now s.chr s.wct range.1 range.2 _
      rw [held, State.linkMm_of_mm, set]
    have provisional : u.linkMm u.provisionalNow = s.linkMm s.provisionalNow := by
      simp only [State.linkMm, State.withLens, State.provisionalNow, State.provisionalAt, State.inAcquire, u,
        State.taken_chr, State.taken_wct, State.taken_rin, State.taken_set]
    refine ⟨t, congrArg Host.Outcome.next ?_, State.takeDatum_chr u datum, ?_, ?_, ?_, ?_⟩
    · rw [← taken]
      exact State.serve_answered dt ready known allowed formed answer ite_status_carries
    · have onDatum := now t (State.takeDatum_chr u datum) (by simp [t, fields, u]) (by simp [t, fields, u])
      rw [State.chainageNow, onDatum]
      exact if_pos (by rw [show t.chr = datum from State.takeDatum_chr u datum]; rfl)
    · have notice : u.datumNotice { u with chr := datum }
          = if s.chr.datumTaken = true then s.linkMm s.provisionalNow else v + s.set.num .lensOffset := by
        rw [State.datumNotice, provisional, now { u with chr := datum } rfl (by simp [u]) (by simp [u])]
        simp only [u, State.taken_chr]
      simp only [t, fields, notice]
      simp only [u, State.taken_obl]
      rfl
    · intro k
      simp only [t, fields, Condition.datumTaken_counts]
      simp only [u, State.taken_cnd]
    · simp only [t, fields]
      rw [State.raise_tlp]

/-! ## At the lapse of the presence timer -/

/-- The Reckoner as the hold-over leaves it. -/
def Reckoner.heldOver (c : Reckoner) (w : WheelCounter) : Reckoner :=
  { c with anchor := { c.anchor with f := c.carry w false w.live, wheels := w.live } }

theorem State.acquireNotice_of_none {s : State} (none : s.chr.pendingDatum = none) :
    s.acquireNotice = { s with chr := s.chr.heldOver s.wct } := by
  unfold State.acquireNotice
  dsimp only
  split
  · next pending => exact absurd (none.symm.trans pending) (by simp)
  · rfl

theorem State.acquireNotice_of_some {s : State} {v : Int} (pending : s.chr.pendingDatum = some v) :
    s.acquireNotice
      = State.takeDatum { s with chr := s.chr.heldOver s.wct }
          ((s.chr.heldOver s.wct).immediateDatum s.wct.live v) := by
  unfold State.acquireNotice
  dsimp only
  split
  · next w waiting => rw [Option.some.inj (pending.symm.trans waiting)]; rfl
  · next none => exact absurd (pending.symm.trans none) (by simp)

/-- The chainage does not jump when it is held over. -/
theorem Reckoner.heldOver_carry (c : Reckoner) (w : WheelCounter) (acquire : Bool) :
    (c.heldOver w).carry w acquire w.live = c.carry w false w.live := by
  obtain ⟨x, saturated⟩ := c.carry_saturated w false w.live
  refine (Reckoner.carry_of_live (c.heldOver w) acquire rfl).trans ?_
  change saturate (c.carry w false w.live) = c.carry w false w.live
  rw [saturated, saturate_saturate]

theorem State.raise_raise_tlp (s : State) (c d : Condition) :
    ((s.raise c).raise d).tlp = { s.tlp with transmit := ((s.raise c).raise d).tlp.transmit } := by
  rw [State.raise_tlp, State.raise_tlp s c]

/-- REEL_LOST and then DATUM_TAKEN, each for both links. -/
theorem State.raise_lost_taken_counts (s : State) (l : Link) (n : Fin 16) :
    (((s.raise .reelLost).raise .datumTaken).cnd.counts l)[n]
      = if n = 0 ∨ n = 5 then min 255 ((s.cnd.counts l)[n] + 1) else (s.cnd.counts l)[n] := by
  rw [State.raise_counts_of_both rfl, State.raise_counts_of_both rfl]
  simp only [Condition.latch]
  by_cases first : n = 0
  · subst first
    rfl
  · by_cases fifth : n = 5
    · subst fifth
      rfl
    · simp only [first, fifth, if_false, or_self]

theorem State.linkMm_of_set {s t : State} (same : t.set = s.set) (um : Int) : t.linkMm um = s.linkMm um := by
  unfold State.linkMm State.withLens
  rw [same]

theorem State.provisionalNow_of_same {s t : State} (chr : t.chr = s.chr) (wct : t.wct = s.wct) (rin : t.rin = s.rin) :
    t.provisionalNow = s.provisionalNow := by
  unfold State.provisionalNow State.provisionalAt State.inAcquire
  rw [chr, wct, rin]

theorem State.raise_heldOver (s : State) (c : Condition) :
    (s.raise c).chr.heldOver (s.raise c).wct = s.chr.heldOver s.wct := by
  rw [State.raise_chr, State.raise_wct]

/-- The notice after REEL_LOST, with no datum pending. -/
theorem State.notice_of_none {s : State} (none : s.chr.pendingDatum = none) :
    (s.raise .reelLost).acquireNotice = { s.raise .reelLost with chr := s.chr.heldOver s.wct } := by
  rw [State.acquireNotice_of_none (by simpa using none), State.raise_heldOver]

/-- The notice after REEL_LOST, with a datum pending. -/
theorem State.notice_of_some {s : State} {v : Int} (pending : s.chr.pendingDatum = some v) :
    let datum := (s.chr.heldOver s.wct).immediateDatum s.wct.live v
    let told := (s.raise .reelLost).raise .datumTaken
    (s.raise .reelLost).acquireNotice
      = { s with
          chr := datum, cnd := told.cnd, tlp := told.tlp
          obl := s.obl.closeByDatum
            (State.datumNotice { s with chr := s.chr.heldOver s.wct } { s with chr := datum }) } := by
  intro datum told
  have datumIs : (s.chr.heldOver s.wct).immediateDatum (s.raise .reelLost).wct.live v = datum := by rw [State.raise_wct]
  have toldIs : State.raise { s.raise .reelLost with chr := s.chr.heldOver s.wct } .datumTaken
      = { s.raise .reelLost with chr := s.chr.heldOver s.wct, cnd := told.cnd, tlp := told.tlp } :=
    State.raise_alike (s := { s.raise .reelLost with chr := s.chr.heldOver s.wct }) (t := s.raise .reelLost) rfl rfl rfl _
  rw [State.acquireNotice_of_some (v := v) (by simpa using pending), State.raise_heldOver, datumIs, State.takeDatum_eq,
    toldIs]
  have notice : State.datumNotice { s.raise .reelLost with chr := s.chr.heldOver s.wct }
        { s.raise .reelLost with chr := datum }
      = State.datumNotice { s with chr := s.chr.heldOver s.wct } { s with chr := datum } := by
    have now (c : Reckoner) : State.provisionalNow { s.raise .reelLost with chr := c }
        = State.provisionalNow { s with chr := c } := State.provisionalNow_of_same rfl (State.raise_wct ..) (State.raise_rin ..)
    have link (c : Reckoner) (um : Int) : State.linkMm { s.raise .reelLost with chr := c } um
        = State.linkMm { s with chr := c } um := State.linkMm_of_set (State.raise_set ..) um
    simp only [State.datumNotice, now, link]
  have obl : (s.raise .reelLost).obl = s.obl := State.raise_obl ..
  have lapsed : s.raise .reelLost = { s with cnd := (s.raise .reelLost).cnd, tlp := (s.raise .reelLost).tlp } :=
    State.raise_alike (s := s) (t := s) rfl rfl rfl .reelLost
  dsimp only
  rw [notice, obl]
  exact congrArg (fun w : State => { w with
    chr := datum, cnd := told.cnd, tlp := told.tlp
    obl := s.obl.closeByDatum
      (State.datumNotice { s with chr := s.chr.heldOver s.wct } { s with chr := datum }) }) lapsed

/-- Settles O11: the expiry's two conditions, then the notice to the Reckoner. -/
theorem presenceLapseHoldsTheChainage : Obligations.PresenceLapseHoldsTheChainage := by
  intro dt s d outside running expired lapsed held
  have inSync : s.inAcquire = false := by simpa [State.inAcquire] using outside
  have provisional : s.provisionalNow = s.chr.carry s.wct false s.wct.live := by
    rw [State.provisionalNow, State.provisionalAt, inSync]
  let acquired : State := { s.elapse dt with
    rin := { s.rin with machine := .acquire, presence := none, zeroedPending := false } }
  have stepped : exec (.presenceTimerExpiry dt) s = .next (acquired.raise .reelLost).acquireNotice := by
    refine congrArg Host.Outcome.next (if_pos ?_)
    have due : (s.elapse dt).due (s.elapse dt).rin.presence = true := by
      simp only [State.due, State.elapse_rin, running, decide_eq_true_eq]
      exact expired
    have sync : (s.elapse dt).inAcquire = false := inSync
    rw [due, sync]
    rfl
  have heldOver : s.chr.heldOver s.wct
      = { s.chr with anchor := { s.chr.anchor with f := s.provisionalNow, wheels := s.wct.live } } := by
    rw [provisional]
    rfl
  have noJump (t : State) (chr : t.chr = s.chr.heldOver s.wct) (wct : t.wct = s.wct) :
      t.provisionalNow = s.provisionalNow := by
    rw [State.provisionalNow, State.provisionalAt, chr, wct, Reckoner.heldOver_carry, provisional]
  refine ⟨fun unset => ⟨?_, noJump held heldOver.symm (State.raise_wct acquired .reelLost)⟩, fun v pending => ?_⟩
  · rw [stepped, State.notice_of_none (s := acquired) unset]
    exact congrArg (fun c => Host.Outcome.next { lapsed with chr := c }) heldOver
  · intro told fixed closing
    refine ⟨?_, State.raise_lost_taken_counts acquired, State.raise_raise_tlp acquired .reelLost .datumTaken⟩
    have after : State.provisionalNow { acquired with chr := fixed.chr } = fixed.provisionalNow :=
      State.provisionalNow_of_same rfl rfl rfl
    have notice : State.datumNotice { acquired with chr := s.chr.heldOver s.wct } { acquired with chr := fixed.chr }
        = closing := by
      rw [State.datumNotice, noJump { acquired with chr := s.chr.heldOver s.wct } rfl rfl, after]
      rfl
    rw [stepped, State.notice_of_some (s := acquired) pending]
    exact congrArg (fun mm => Host.Outcome.next { fixed with obl := s.obl.closeByDatum mm }) notice

end Sys2Proof.Machine
end

