-- ==== Sys2Proof/Proofs/Reports.lean ====
section
/-! PROOFS. The reports that the part takes: reel reports by the Reel Input's judgement (spec/01 sections 1.1 and 1.2),
drive reports by the drive state and the motor allowance (spec/01 section 1.7, spec/04 section 4.5). -/

namespace Sys2Proof.Machine

/-! ## Reel reports -/

theorem reelReportOf_eq (p : List Byte) : reelReportOf p
    = if p.length = 6 ∧ byteAt p 0 ≤ 63 then
        some ⟨BitVec.ofNat 6 (byteAt p 0), decide (byteAt p 1 % 2 = 1), decide (byteAt p 1 / 2 % 2 = 1),
          BitVec.ofNat 32 (u32At p 2)⟩
      else none := by
  have first : (p.getD 1 0).getLsbD 0 = decide (byteAt p 1 % 2 = 1) := Nat.testBit_zero _
  have second : (p.getD 1 0).getLsbD 1 = decide (byteAt p 1 / 2 % 2 = 1) :=
    (Nat.testBit_succ _ 0).trans (Nat.testBit_zero _)
  rw [reelReportOf, first, second]

theorem forcedRebase_iff (r : ReelInput) (anchorCount : Count) (rep : ReelReport) :
    forcedRebase r anchorCount rep = true
      ↔ rep.zeroed = true ∨ r.zeroedPending = true ∨ 4095 < (diff32 rep.count anchorCount).natAbs := by
  simp [forcedRebase, or_assoc]

section
variable {s : State} {payload : List Byte} {rep : ReelReport} (taken : reelReportOf payload = some rep)
include taken

/-- A judgement that hands nothing on changes the Reel Input alone. -/
theorem State.reelArrival_of_idle {rin : ReelInput} (judged : s.judge rep = ⟨rin, none, false⟩) :
    s.reelArrival payload = { s with rin := rin } := by
  unfold State.reelArrival
  simp only [taken, judged]

/-- A judgement that hands a batch on. -/
theorem State.reelArrival_of_batch {rin : ReelInput} {b : Batch} {rebased : Bool}
    (judged : s.judge rep = ⟨rin, some b, rebased⟩) :
    s.reelArrival payload
      = { (if rebased then s.raise .reelRebased else s).takeBatch b with
          rin := { rin with presence := some (s.timeBase + s.set.nat .reelTimeout * 1000) } } := by
  unfold State.reelArrival
  simp only [taken, judged]
  rfl

end

section
variable {s : State} {rep : ReelReport}

theorem State.judge_counted (counted : rep.noCount = false) :
    s.judge rep = s.rin.judgeCounted s.chr.anchor.count (s.set.nat .fillLimit) rep s.alignedTime := by
  simp [State.judge, counted]

theorem State.judge_noCount (silent : rep.noCount = true) :
    s.judge rep = ⟨s.rin.judgeNoCount rep, none, false⟩ := by
  simp [State.judge, silent]

end

section
variable {r : ReelInput} {anchorCount : Count} {fillLimit : Nat} {rep : ReelReport} {time : Nat}

theorem ReelInput.accept_forced {n : Nat} {forced : Bool} (must : fillLimit < n ∨ forced = true) :
    r.accept n fillLimit forced rep time = ⟨r.rebase rep.seq n, some (.rebase rep.count time), true⟩ :=
  if_pos (by simpa [or_comm] using must)

theorem ReelInput.accept_step {n : Nat} {forced : Bool} (fits : n ≤ fillLimit) (free : ¬ forced = true) :
    r.accept n fillLimit forced rep time
      = ⟨{ r with
            machine := .sync, expected := rep.seq + 1
            stats := { r.stats with missing := sat16 r.stats.missing n, fills := sat16 r.stats.fills n } },
          some (.step n rep.count time), false⟩ :=
  if_neg (by simp [free, fits])

theorem ReelInput.judgeCounted_acquire (machine : r.machine = .acquire) :
    r.judgeCounted anchorCount fillLimit rep time
      = ⟨r.rebase rep.seq 0, some (.rebase rep.count time), false⟩ := by
  simp only [ReelInput.judgeCounted, machine]

theorem ReelInput.judgeCounted_sync (machine : r.machine = .sync) :
    r.judgeCounted anchorCount fillLimit rep time
      = if (rep.seq - r.expected).toNat ≤ 7 then
          r.accept (rep.seq - r.expected).toNat fillLimit (forcedRebase r anchorCount rep) rep time
        else if (rep.seq - r.expected).toNat = 63 then ⟨r.duplicate, none, false⟩
        else ⟨r.suspectReport rep.seq, none, false⟩ := by
  simp only [ReelInput.judgeCounted, machine]

theorem ReelInput.judgeCounted_check (machine : r.machine = .check) :
    r.judgeCounted anchorCount fillLimit rep time
      = if rep.seq = r.expected then r.accept 0 fillLimit (forcedRebase r anchorCount rep) rep time
        else if rep.seq = r.suspect + 1 then ⟨r.rebase rep.seq 0, some (.rebase rep.count time), true⟩
        else ⟨r.suspectReport rep.seq, none, false⟩ := by
  simp only [ReelInput.judgeCounted, machine]

/-- A report without a count, noted. -/
def ReelInput.noted (r : ReelInput) : ReelInput :=
  { r with stats := { r.stats with noCount := sat16 r.stats.noCount 1 } }

theorem ReelInput.judgeNoCount_acquire (machine : r.machine = .acquire) : r.judgeNoCount rep = r.noted := by
  simp only [ReelInput.judgeNoCount, machine, ReelInput.noted]

theorem ReelInput.judgeNoCount_sync (machine : r.machine = .sync) :
    r.judgeNoCount rep
      = if (rep.seq - r.expected).toNat ≤ 7 then r.noted.advance (rep.seq - r.expected).toNat rep
        else if (rep.seq - r.expected).toNat = 63 then r.noted.duplicate
        else r.noted.suspectReport rep.seq := by
  simp only [ReelInput.judgeNoCount, machine, ReelInput.noted]

theorem ReelInput.judgeNoCount_check (machine : r.machine = .check) :
    r.judgeNoCount rep
      = if rep.seq = r.expected then r.noted.advance 0 rep else r.noted.suspectReport rep.seq := by
  simp only [ReelInput.judgeNoCount, machine, ReelInput.noted]

end

/-- Settles O10: the judgement by state, with and without a count, and what an arrival makes of it. -/
theorem reelInputJudgesReports : Obligations.ReelInputJudgesReports := by
  intro s payload one r st restarted
  refine ⟨?aligned, reelReportOf_eq payload, ?malformed, ?judged⟩
  case aligned =>
    unfold State.alignedTime
    omega
  case malformed =>
    intro malformed
    unfold State.reelArrival
    simp only [malformed]
    rfl
  case judged =>
    intro rep taken n forced rebased suspected noted advanced
    have force : forcedRebase s.rin s.chr.anchor.count rep = true ↔ forced := forcedRebase_iff _ _ _
    refine ⟨?_, ?_, ?_, ?_, ?_, ?_, ?_, ?_, ?_, ?_, ?_, ?_, ?_, ?_, ?_⟩
    · intro counted machine
      exact State.reelArrival_of_batch taken
        ((State.judge_counted counted).trans (ReelInput.judgeCounted_acquire machine))
    · intro counted machine near fits free
      exact State.reelArrival_of_batch taken ((State.judge_counted counted).trans
        ((ReelInput.judgeCounted_sync machine).trans ((if_pos near).trans
          (ReelInput.accept_step fits (mt force.mp free)))))
    · intro counted machine near must
      exact State.reelArrival_of_batch taken ((State.judge_counted counted).trans
        ((ReelInput.judgeCounted_sync machine).trans ((if_pos near).trans
          (ReelInput.accept_forced (must.imp_right force.mpr)))))
    · intro counted machine last
      exact State.reelArrival_of_idle taken ((State.judge_counted counted).trans
        ((ReelInput.judgeCounted_sync machine).trans ((if_neg (by omega)).trans (if_pos last))))
    · intro counted machine far short
      exact State.reelArrival_of_idle taken ((State.judge_counted counted).trans
        ((ReelInput.judgeCounted_sync machine).trans ((if_neg (by omega)).trans (if_neg (by omega)))))
    · intro counted machine unexpected unconfirmed
      exact State.reelArrival_of_idle taken ((State.judge_counted counted).trans
        ((ReelInput.judgeCounted_check machine).trans ((if_neg unexpected).trans (if_neg unconfirmed))))
    · intro counted machine unexpected confirmed
      exact State.reelArrival_of_batch taken ((State.judge_counted counted).trans
        ((ReelInput.judgeCounted_check machine).trans ((if_neg unexpected).trans (if_pos confirmed))))
    · intro counted machine expected must
      exact State.reelArrival_of_batch taken ((State.judge_counted counted).trans
        ((ReelInput.judgeCounted_check machine).trans ((if_pos expected).trans
          (ReelInput.accept_forced (.inr (force.mpr must))))))
    · intro counted machine expected free
      exact State.reelArrival_of_batch taken ((State.judge_counted counted).trans
        ((ReelInput.judgeCounted_check machine).trans ((if_pos expected).trans
          (ReelInput.accept_step (Nat.zero_le _) (mt force.mp free)))))
    · intro silent machine
      refine (State.reelArrival_of_idle taken (State.judge_noCount silent)).trans ?_
      rw [ReelInput.judgeNoCount_acquire machine]
      rfl
    · intro silent machine near
      refine (State.reelArrival_of_idle taken (State.judge_noCount silent)).trans ?_
      rw [ReelInput.judgeNoCount_sync machine, if_pos near]
      rfl
    · intro silent machine last
      refine (State.reelArrival_of_idle taken (State.judge_noCount silent)).trans ?_
      rw [ReelInput.judgeNoCount_sync machine, if_neg (by omega), if_pos last]
      rfl
    · intro silent machine far short
      refine (State.reelArrival_of_idle taken (State.judge_noCount silent)).trans ?_
      rw [ReelInput.judgeNoCount_sync machine, if_neg (by omega), if_neg (by omega)]
      rfl
    · intro silent machine expected
      refine (State.reelArrival_of_idle taken (State.judge_noCount silent)).trans ?_
      rw [ReelInput.judgeNoCount_check machine, if_pos expected]
      rfl
    · intro silent machine unexpected
      refine (State.reelArrival_of_idle taken (State.judge_noCount silent)).trans ?_
      rw [ReelInput.judgeNoCount_check machine, if_neg unexpected]
      rfl

/-! ## Drive reports -/

theorem directionOf_listed {n : Nat} {d : Direction}
    (listed : (n, d) ∈ [(0, Direction.stopped), (1, .forward), (2, .reverse)]) : directionOf n = some d := by
  simp only [List.mem_cons, Prod.mk.injEq, List.not_mem_nil, or_false] at listed
  rcases listed with ⟨rfl, rfl⟩ | ⟨rfl, rfl⟩ | ⟨rfl, rfl⟩ <;> rfl

theorem directionOf_unlisted {n : Nat} (above : 3 ≤ n) : directionOf n = none := by
  match n, above with
  | n + 3, _ => rfl

theorem State.compareDemand_eq (s : State) (demand : Nat) :
    s.compareDemand demand
      = (let excess := decide (s.motorAllowance < demand)
        let read := { s with ldr := { s.ldr with overDemand := excess } }
        if excess = true ∧ s.ldr.overDemand = false then read.raise .budgetOver else read) := by
  unfold State.compareDemand
  simp

/-- The reply's content goes by fields that the comparison leaves. -/
theorem State.compareDemand_keeps (s : State) (demand : Nat) :
    ∃ ldr cnd tx, s.compareDemand demand = { s with ldr := ldr, cnd := cnd, tlp := { s.tlp with transmit := tx } } := by
  rw [State.compareDemand_eq]
  dsimp only
  split
  · obtain ⟨cnd, tx, changed⟩ := State.raiseFor_changes
      { s with ldr := { s.ldr with overDemand := decide (s.motorAllowance < demand) } } .budgetOver .tether
    exact ⟨_, cnd, tx, changed⟩
  · exact ⟨_, s.cnd, s.tlp.transmit, rfl⟩

/-- The reply's content after a change that leaves the blocks it reads. -/
theorem State.driveReplyContent_of_same {s t : State} (chr : t.chr = s.chr) (wct : t.wct = s.wct) (rin : t.rin = s.rin)
    (hdp : t.hdp = s.hdp) (set : t.set = s.set) : t.driveReplyContent
      = s32opt s.chainageNow ++ u8 s.quality.code
        ++ flags [s.chr.pendingDatum.isSome, s.hdp.lock, t.attention .carriage]
        ++ s16 s.chr.speed ++ u16 (s.chr.slack.tdiv 1000).toNat ++ u16 s.motorAllowance
        ++ u16 t.drv.demand ++ s16opt t.drv.inclination := by
  have chainage : t.chainageNow = s.chainageNow := by
    simp only [State.chainageNow, State.linkMm, State.withLens, State.provisionalNow, State.provisionalAt,
      State.inAcquire, chr, wct, rin, set]
  have quality : t.quality = s.quality := by
    unfold State.quality State.inAcquire
    rw [chr, rin]
  have allowance : t.motorAllowance = s.motorAllowance := by
    simp only [State.motorAllowance, set]
  simp only [State.driveReplyContent, chainage, quality, allowance, State.slackMm, truncDiv, chr, hdp]

theorem doneOr_decide_or (P Q : Prop) [Decidable P] [Decidable Q] :
    doneOr (decide (¬P) || decide (¬Q)) = if P ∧ Q then .done else .clamped := by
  by_cases p : P <;> by_cases q : Q <;> simp [doneOr, p, q]

/-- Settles O20: the answer of a taken report, of one in no direction, and the expiry. -/
theorem driveReportsTakenAndGoStale : Obligations.DriveReportsTakenAndGoStale := by
  have known : knownKind 0x02 = true := rfl
  have allowed : allowedOn 0x02 .carriage = true := rfl
  refine ⟨?taken, ?refused, ?stale⟩
  case taken =>
    intro dt s tag p rest d length ready now incl demand allowance excess read after content listed
    have formed : lengthFits 0x02 p = true := beq_iff_eq.mpr length
    let u := s.taken dt .carriage rest
    let fresh : State := { u with drv := ⟨true, d, demand, incl, some (now + s.set.nat .driveFresh * 1000)⟩ }
    have compared : decide (u.motorAllowance < demand) = excess := by
      have same : ((u.motorAllowance : Nat) : Int) = allowance := by
        simp only [u, State.motorAllowance, State.taken_set]
        exact Int.toNat_of_nonneg (le_max_left _ _)
      simp only [excess, ← same, Nat.cast_lt]
    have afterIs : fresh.compareDemand demand = after := by
      have compared' : decide (fresh.motorAllowance < demand) = excess := compared
      rw [State.compareDemand_eq, compared']
      rfl
    obtain ⟨ldr, cnd, tx, changed⟩ := fresh.compareDemand_keeps demand
    have contentIs : (fresh.compareDemand demand).driveReplyContent = content := by
      have drv : after.drv = fresh.drv := by rw [← afterIs, changed]
      rw [State.driveReplyContent_of_same (s := s) (by rw [changed]; simp [fresh, u]) (by rw [changed]; simp [fresh, u])
        (by rw [changed]; simp [fresh, u]) (by rw [changed]; simp [fresh, u]) (by rw [changed]; simp [fresh, u]), afterIs,
        drv]
      rfl
    have answer : answerDriveReport p u
        = ⟨after, if demand = u16At p 1 ∧ incl = s16optAt p 3 then .done else .clamped, content⟩ := by
      rw [← afterIs, ← contentIs, ← doneOr_decide_or]
      simp only [answerDriveReport, driveReportOf, directionOf_listed listed, Option.map_some, State.takeDrive, fresh,
        State.startTimer, u, State.taken_timeBase, State.taken_set]
      rfl
    exact congrArg Host.Outcome.next (State.serve_answered dt ready known allowed formed answer ite_status_carries)
  case refused =>
    intro dt s tag p rest length unlisted ready
    have formed : lengthFits 0x02 p = true := beq_iff_eq.mpr length
    refine congrArg Host.Outcome.next (State.serve_bare dt ready known allowed formed ?_)
    simp only [answerDriveReport, driveReportOf, directionOf_unlisted unlisted, Option.map_none]
  case stale =>
    intro dt s d fresh running expired t
    have due : (s.elapse dt).due (s.elapse dt).drv.timer = true := by
      simp only [State.due, State.elapse_drv, running, decide_eq_true_eq]
      exact expired
    refine ⟨congrArg Host.Outcome.next (if_pos ?_), rfl, rfl, rfl⟩
    rw [due, Bool.and_true]
    exact fresh

end Sys2Proof.Machine
end

