-- ==== Sys2Proof/Proofs/Stamps.lean ====
section
/-! PROOFS. The Stamp Unit (spec/06): the lapping of a full ring, the tether stream, a stamp's encoding and READ
STAMPS. -/

namespace Sys2Proof.Machine

/-! ## Lapping -/

/-- A link whose cursor names a replaced stamp is charged for it. -/
def State.charges (s : State) (gone : Count) (l : Link) : Prop := s.stu.cursor l = gone ∧ s.exempt l gone = false

theorem State.exempt_iff (s : State) (l : Link) (gone : Count) : s.exempt l gone = true
    ↔ l = .tether ∧ s.set.num .stream = 1 ∧ gone.toNat % s.set.nat .decimation ≠ 0 := by
  simp [State.exempt, and_assoc]

theorem State.lapLink_of_charged {s : State} {gone : Count} {l : Link} (charged : s.charges gone l) :
    s.lapLink gone l
      = State.raiseFor { s with stu := (s.stu.putCursor l (gone + 1)).addLost l } .stampsLost l := by
  obtain ⟨named, pays⟩ := charged
  simp [State.lapLink, named, pays]

theorem State.lapLink_of_free {s : State} {gone : Count} {l : Link} (free : ¬ s.charges gone l) :
    ∃ u : StampUnit, s.lapLink gone l = { s with stu := u } ∧ u.lostTether = s.stu.lostTether
      ∧ u.lostCarriage = s.stu.lostCarriage := by
  unfold State.lapLink
  by_cases named : s.stu.cursor l = gone
  · have exempt : s.exempt l gone = true := by
      by_contra pays
      exact free ⟨named, by simpa using pays⟩
    simp only [named, exempt, if_true]
    cases l <;> exact ⟨_, rfl, rfl, rfl⟩
  · simp only [named, if_false]
    exact ⟨s.stu, rfl, rfl, rfl⟩

theorem StampUnit.addLost_lost (u : StampUnit) (l k : Link) :
    (u.addLost l).lost k = if k = l then min 65535 (u.lost k + 1) else u.lost k := by
  cases l <;> cases k <;> rfl

theorem StampUnit.putCursor_lost (u : StampUnit) (l k : Link) (c : Count) : (u.putCursor l c).lost k = u.lost k := by
  cases l <;> cases k <;> rfl

open Classical in
theorem State.lapLink_lost (s : State) (gone : Count) (l k : Link) : (s.lapLink gone l).stu.lost k
    = if k = l ∧ s.charges gone l then min 65535 (s.stu.lost k + 1) else s.stu.lost k := by
  by_cases charged : s.charges gone l
  · rw [State.lapLink_of_charged charged, State.raiseFor_stu]
    simp only [StampUnit.addLost_lost, StampUnit.putCursor_lost, charged, and_true]
  · obtain ⟨u, lapped, tether, carriage⟩ := State.lapLink_of_free charged
    rw [lapped]
    simp only [charged, and_false, if_false]
    cases k <;> assumption

open Classical in
theorem State.lapLink_counts (s : State) (gone : Count) (l k : Link) (n : Fin 16) :
    ((s.lapLink gone l).cnd.counts k)[n]
      = if (k = l ∧ n = 14) ∧ s.charges gone l then min 255 ((s.cnd.counts k)[n] + 1) else (s.cnd.counts k)[n] := by
  by_cases charged : s.charges gone l
  · rw [State.lapLink_of_charged charged, State.raiseFor_counts]
    simp [Condition.audience, Condition.latch, charged]
  · obtain ⟨u, lapped, _⟩ := State.lapLink_of_free charged
    rw [lapped]
    simp [charged]

theorem State.lapLink_set (s : State) (gone : Count) (l : Link) : (s.lapLink gone l).set = s.set :=
  (s.lapLink_touches gone l).set (by simp)

theorem State.lapLink_pendingMark (s : State) (gone : Count) (l : Link) :
    (s.lapLink gone l).stu.pendingMark = s.stu.pendingMark := by
  unfold State.lapLink
  dsimp only
  split
  · split <;> cases l <;> simp [StampUnit.putCursor, StampUnit.addLost]
  · rfl

/-- Lapping one link leaves what the other is charged for. -/
theorem State.lapLink_charges_other (s : State) (gone : Count) {l k : Link} (other : k ≠ l) :
    (s.lapLink gone l).charges gone k ↔ s.charges gone k := by
  simp only [State.charges, State.lapLink_cursor, State.exempt, State.lapLink_set, other, false_and, if_false]

theorem State.writeStamp_full {s : State} {old : Stamp} {kept : List Stamp} (held : s.stu.stamps = old :: kept)
    (full : kept.length = 127) (st : Stamp) :
    let lapped := (State.lapLink { s with stu := { s.stu with stamps := kept } } old.frame .tether).lapLink old.frame
      .carriage
    s.writeStamp st = { lapped with stu := { lapped.stu with stamps := kept ++ [st] } } := by
  intro lapped
  have stamps : lapped.stu.stamps = kept := by rw [State.lapLink_stamps, State.lapLink_stamps]
  have laps : s.lapOldest = lapped := by simp [State.lapOldest, held, full, lapped]
  rw [State.writeStamp, laps]
  dsimp only
  rw [stamps]

/-- Settles O40: the two links are lapped in turn, each by its own cursor and charge. -/
theorem lappedCursorsAreCharged : Obligations.LappedCursorsAreCharged := by
  intro s st old kept held full t named free
  let dropped : State := { s with stu := { s.stu with stamps := kept } }
  let one := dropped.lapLink old.frame .tether
  let both := one.lapLink old.frame .carriage
  have written : t = { both with stu := { both.stu with stamps := kept ++ [st] } } := State.writeStamp_full held full st
  have charges (l : Link) : dropped.charges old.frame l ↔ named l ∧ ¬ free l := by
    have exempt : s.exempt l old.frame = true ↔ free l := s.exempt_iff l old.frame
    rw [← exempt, Bool.not_eq_true]
    cases l <;> rfl
  have second : one.charges old.frame .carriage ↔ dropped.charges old.frame .carriage :=
    dropped.lapLink_charges_other old.frame (by decide)
  have cursor (l : Link) : t.stu.cursor l = if named l then old.frame + 1 else s.stu.cursor l := by
    have kept : t.stu.cursor l = both.stu.cursor l := by
      rw [written]
      cases l <;> rfl
    rw [kept, State.lapLink_cursor, State.lapLink_cursor, State.lapLink_cursor]
    cases l <;> simp [dropped, StampUnit.cursor, named] <;> rfl
  have lost (l : Link) : t.stu.lost l = both.stu.lost l := by
    rw [written]
    cases l <;> rfl
  have counts (l : Link) : t.cnd.counts l = both.cnd.counts l := by rw [written]
  have same (l : Link) : dropped.stu.lost l = s.stu.lost l := by cases l <;> rfl
  refine ⟨by rw [written], ?_, fun l at_ => by rw [cursor, if_pos at_], fun l off => by rw [cursor, if_neg off],
    fun l pays => ?_, fun l spared => ?_, fun l n other => ?_⟩
  · rw [written]
    exact (State.lapLink_pendingMark ..).trans (State.lapLink_pendingMark ..)
  · have charged := (charges l).mpr pays
    rw [lost, counts, State.lapLink_lost, State.lapLink_counts, State.lapLink_lost, State.lapLink_counts, second, same]
    cases l <;> simp [charged, dropped]
  · have uncharged : ¬ dropped.charges old.frame l := by
      rw [charges]
      tauto
    rw [lost, counts, State.lapLink_lost, State.lapLink_counts, State.lapLink_lost, State.lapLink_counts, second, same]
    cases l <;> simp [uncharged, dropped]
  · rw [counts, State.lapLink_counts, State.lapLink_counts]
    simp [other, dropped]

/-! ## The stream -/

theorem State.streamDecision_of_not_ready {s : State} (idle : ¬ s.streamReady = true) : s.streamDecision = s :=
  if_neg idle

theorem State.streamReady_iff (s : State) : s.streamReady = true
    ↔ s.set.num .stream = 1 ∧ s.tlp.up = true ∧ s.tlp.line = none ∧ s.tlp.transmit = [] ∧ s.stu.waiting .tether ≠ [] := by
  simp [State.streamReady, and_assoc]

theorem State.streamDecision_of_ready {s : State} (ready : s.streamReady = true) : s.streamDecision
    = match (s.stu.waiting .tether).dropWhile (steppedOver (s.set.nat .decimation)) with
      | st :: _ => s.sendStamp st
      | [] => { s with stu := { s.stu with
          cursorTether := s.stu.cursorTether + BitVec.ofNat 32 (s.stu.waiting .tether).length } } := by
  exact if_pos ready

theorem steppedOver_iff (k : Nat) (st : Stamp) : steppedOver k st = true ↔ st.frame.toNat % k ≠ 0 := by
  simp [steppedOver]

/-- Settles O41: a decision that is not ready changes nothing; a ready one goes by the first multiple that waits. -/
theorem streamSendsMultiplesOfDecimation : Obligations.StreamSendsMultiplesOfDecimation := by
  intro s k
  refine ⟨fun idle => State.streamDecision_of_not_ready ?_, fun streaming up free silent => ⟨?_, ?_⟩⟩
  · rw [s.streamReady_iff]
    rintro ⟨streaming, up, free, silent, waits⟩
    rcases idle with off | lost | busy | message | empty
    · exact off streaming
    · exact absurd (up.symm.trans lost) (by simp)
    · simp [free] at busy
    · exact message silent
    · exact waits empty
  · intro skipped st after waits stepping multiple
    have ready : s.streamReady = true := s.streamReady_iff.mpr ⟨streaming, up, free, silent, by simp [waits]⟩
    have first : (s.stu.waiting .tether).dropWhile (steppedOver k) = st :: after := by
      rw [waits, List.dropWhile_append_of_pos fun x member => (steppedOver_iff k x).mpr (stepping x member),
        List.dropWhile_cons_of_neg]
      exact fun stepped => (steppedOver_iff k st).mp stepped multiple
    rw [State.streamDecision_of_ready ready, first]
    rfl
  · intro stepping
    by_cases waits : s.stu.waiting .tether = []
    · have idle : ¬ s.streamReady = true := fun ready => (s.streamReady_iff.mp ready).2.2.2.2 waits
      rw [State.streamDecision_of_not_ready idle, waits]
      simp
    · have ready : s.streamReady = true := s.streamReady_iff.mpr ⟨streaming, up, free, silent, waits⟩
      have none : (s.stu.waiting .tether).dropWhile (steppedOver k) = [] :=
        List.dropWhile_eq_nil_iff.mpr fun x member => (steppedOver_iff k x).mpr (stepping x member)
      rw [State.streamDecision_of_ready ready, none]

/-! ## READ STAMPS -/

theorem u8_length (n : Nat) : (u8 n).length = 1 := rfl
theorem u16_length (n : Nat) : (u16 n).length = 2 := rfl
theorem u32_length (n : Nat) : (u32 n).length = 4 := rfl
theorem s16_length (v : Int) : (s16 v).length = 2 := rfl
theorem s32_length (v : Int) : (s32 v).length = 4 := rfl
theorem flags_length (bits : List Bool) : (flags bits).length = 1 := rfl

theorem flatMap_u16_length (ids : List Nat) : (ids.flatMap u16).length = 2 * ids.length := by
  induction ids with
  | nil => rfl
  | cons id ids ih =>
    rw [List.flatMap_cons, List.length_append, ih, u16_length, List.length_cons]
    omega

theorem optional_length {α : Type} {encode : α → List Byte} {size : Nat} (sized : ∀ a, (encode a).length = size)
    (o : Option α) : ((o.map encode).getD []).length = if o.isSome = true then size else 0 := by
  cases o <;> simp [sized]

theorem Stamp.encode_length (st : Stamp) : st.encode.length
    = 22 + 2 * st.openIds.length + (if st.chainage.isSome = true then 4 else 0) + (if st.pan.isSome = true then 2 else 0)
      + (if st.tilt.isSome = true then 2 else 0) + (if st.inclination.isSome = true then 2 else 0)
      + (if st.markId.isSome = true then 2 else 0) := by
  unfold Stamp.encode
  simp only [List.length_append, u8_length, u16_length, u32_length, s16_length, flags_length, flatMap_u16_length,
    optional_length s32_length, optional_length s16_length, optional_length u16_length]

theorem Stamp.encode_bounds {st : Stamp} (few : st.openIds.length ≤ 4) :
    22 ≤ st.encode.length ∧ st.encode.length ≤ 42 := by
  rw [st.encode_length]
  constructor
  · omega
  · split <;> split <;> split <;> split <;> split <;> omega

/-- What is taken is as much as fits. -/
theorem takeFitting_maximal {room : Nat} {l after : List (List Byte)} {x : List Byte}
    (split : l = takeFitting room l ++ x :: after) : room < ((takeFitting room l).map List.length).sum + x.length := by
  induction l generalizing room with
  | nil => simp [takeFitting] at split
  | cons e l ih =>
    by_cases fits : e.length ≤ room
    · have rest : l = takeFitting (room - e.length) l ++ x :: after := by simpa [takeFitting, fits] using split
      have := ih rest
      simp only [takeFitting, fits, if_true, List.map_cons, List.sum_cons]
      omega
    · have here : e = x := by
        have both : e = x ∧ l = after := by simpa [takeFitting, fits] using split
        exact both.1
      simp only [takeFitting, fits, if_false, List.map_nil, List.sum_nil, ← here]
      omega

/-- What a reply returns: from the front of `waiting`, at most `n`, as many as fit. -/
theorem takeFitting_encoded {α : Type} (encode : α → List Byte) (room : Nat) (waiting : List α) (n : Nat) :
    ∃ sent after : List α, waiting = sent ++ after ∧ sent.length ≤ n ∧
      takeFitting room ((waiting.take n).map encode) = sent.map encode ∧
      (sent.map fun x => (encode x).length).sum ≤ room ∧
      ∀ x more, after = x :: more →
        sent.length = n ∨ room < (sent.map fun x => (encode x).length).sum + (encode x).length := by
  obtain ⟨fits, rest, split⟩ := takeFitting_spec room ((waiting.take n).map encode)
  obtain ⟨sent, unsent, parts, sentIs, unsentIs⟩ := List.map_eq_append_iff.mp split
  have sizes : sent.length ≤ n := by
    have := congrArg List.length parts
    rw [List.length_take, List.length_append] at this
    omega
  have sums : ((takeFitting room ((waiting.take n).map encode)).map List.length).sum
      = (sent.map fun x => (encode x).length).sum := by
    simp only [← sentIs, List.map_map, Function.comp_def]
  refine ⟨sent, unsent ++ waiting.drop n, ?_, sizes, sentIs.symm, by rw [← sums]; exact fits, ?_⟩
  · rw [← List.append_assoc, ← parts, List.take_append_drop]
  · intro x more following
    cases unsent with
    | nil =>
      left
      have taken := congrArg List.length parts
      have left : x ∈ waiting.drop n := by simp [show waiting.drop n = x :: more from following]
      have longer : n < waiting.length := by
        by_contra short
        simp [List.drop_eq_nil_of_le (not_lt.mp short)] at left
      rw [List.length_take, List.append_nil] at taken
      omega
    | cons y unsent =>
      right
      have same : y = x := by simpa using (List.cons.inj following).1
      have blocked : ((waiting.take n).map encode)
          = takeFitting room ((waiting.take n).map encode) ++ encode x :: unsent.map encode := by
        rw [← same, ← List.map_cons (f := encode), unsentIs]
        exact split
      have := takeFitting_maximal blocked
      rwa [sums] at this

theorem waiting_splits (u : StampUnit) (l : Link) : ∃ passed : List Stamp, u.stamps = passed ++ u.waiting l ∧
    (∀ x ∈ passed, x.frame ≠ u.cursor l) ∧ ∀ x more, u.waiting l = x :: more → x.frame = u.cursor l := by
  refine ⟨u.stamps.takeWhile fun st => st.frame != u.cursor l, List.takeWhile_append_dropWhile.symm, fun x member => ?_,
    fun x more waits => ?_⟩
  · simpa using List.mem_takeWhile_imp member
  · have head := List.head?_dropWhile_not (fun st : Stamp => st.frame != u.cursor l) u.stamps
    rw [show u.stamps.dropWhile _ = x :: more from waits] at head
    simpa using head

/-- Settles O39: the encoding field by field and its length, the cursor's place in the ring, and the reply of the stamps
that fit. -/
theorem readStampsReturnsWhatFits : Obligations.ReadStampsReturnsWhatFits := by
  refine ⟨?layout, ?waiting, Stamp.encode_length, ?bounds, ?served⟩
  case layout =>
    intro st quality angle
    have angleIs (o : Option Int) : angle o = (o.map s16).getD [] := by cases o <;> rfl
    have qualityIs : quality = st.quality.code := by
      simp only [quality]
      cases st.quality <;> rfl
    rw [qualityIs, angleIs, angleIs, angleIs, Stamp.encode]
    cases st.chainage <;> cases st.markId <;> rfl
  case waiting =>
    intro s l cursor
    obtain ⟨passed, split, others, first⟩ := waiting_splits s.stu l
    have same : s.stu.cursor l = cursor := by cases l <;> rfl
    rw [same] at others first
    exact ⟨passed, split, others, first⟩
  case bounds =>
    intro st few
    obtain ⟨low, high⟩ := Stamp.encode_bounds few
    exact ⟨low, high, rfl⟩
  case served =>
    intro dt s l tag count rest ready n st
    obtain ⟨sent, after, split, few, fit, room, maximal⟩ := takeFitting_encoded Stamp.encode 100 (s.stu.waiting l) n
    let u : State := { s.taken dt l rest with
      stu := s.stu.putCursor l (s.stu.cursor l + BitVec.ofNat 32 sent.length) }
    have some (x : Stamp) (more : List Stamp) (waits : s.stu.waiting l = x :: more) (opens : x.openIds.length ≤ 4) :
        sent ≠ [] := by
      rintro rfl
      obtain ⟨_, short⟩ := Stamp.encode_bounds opens
      rcases maximal x more (by simpa using split.symm.trans waits) with none | long
      · simp only [List.length_nil, n] at none
        omega
      · simp only [List.map_nil, List.sum_nil] at long
        omega
    refine ⟨sent, after, u, split, few, room, maximal, rfl, some, ?_⟩
    intro oldest newest header
    refine ⟨rfl, ?_⟩
    intro content
    have headerIs : u.stampsHeader l sent.length = header := by
      have lost : u.stu.lost l = s.stu.lost l := StampUnit.putCursor_lost _ _ _ _
      have stamps : u.stu.stamps = s.stu.stamps := by cases l <;> rfl
      have inFlight : u.stu.inFlight = s.stu.inFlight := by cases l <;> rfl
      have oldestIs : ((s.stu.stamps.head?.map fun st => st.frame.toNat).getD 0) = oldest := by
        simp only [oldest]
        cases s.stu.stamps <;> rfl
      have newestIs : ((s.stu.stamps.getLast?.map fun st => st.frame.toNat).getD 0) = newest := by
        simp only [newest]
        cases s.stu.stamps.getLast? <;> rfl
      have empty : (!s.stu.stamps.isEmpty) = decide (s.stu.stamps ≠ []) := by cases s.stu.stamps <;> rfl
      have set : u.set = s.set := State.taken_set s dt l rest
      rw [State.stampsHeader, stamps, inFlight, lost, oldestIs, newestIs, empty, set]
      cases l <;> rfl
    have answer : answerReadStamps l [count] (s.taken dt l rest) = ⟨u, st, content⟩ := by
      have status : doneOr (clampNat 1 4 (byteAt [count] 0) != byteAt [count] 0) = st := by
        simp only [doneOr, bne_iff_ne, ne_eq, ite_not]
        rfl
      have taken : takeFitting 100 (((s.stu.waiting l).take (clampNat 1 4 (byteAt [count] 0))).map Stamp.encode)
          = sent.map Stamp.encode := fit
      unfold answerReadStamps State.readStamps
      dsimp only
      rw [State.taken_stu, taken, List.length_map, status, ← List.flatMap_def]
      exact congrArg (fun h => Answer.mk u st (h ++ sent.flatMap Stamp.encode)) headerIs
    have served := State.serve_answered dt ready rfl (by cases l <;> rfl) rfl answer ite_status_carries
    exact congrArg Host.Outcome.next
      (streamAfter_answered (act := fun s => s.serve l 0x38 (answerReadStamps l)) served)

end Sys2Proof.Machine
end

