-- ==== Sys2Proof/Proofs/Drawing.lean ====
section
/-! PROOFS. The overlay (spec/07): decimal numbers, the text of each source, the composition of the rows, and the pixel
that is drawn over (spec/07 section 7.3) and measured (spec/03 section 3.3). -/

namespace Sys2Proof.Machine

/-! ## Numbers in decimal -/

/-- One more place changes nothing for a number that fits. -/
theorem decimalDigits_succ {fuel n : Nat} (fits : n < 10 ^ (fuel + 1)) : decimalDigits (fuel + 1) n = decimalDigits fuel n := by
  induction fuel generalizing n with
  | zero =>
    have small : n < 10 := by simpa using fits
    simp [decimalDigits, small, Nat.mod_eq_of_lt small]
  | succ fuel ih =>
    have shorter : n / 10 < 10 ^ (fuel + 1) := by
      rw [Nat.div_lt_iff_lt_mul (by norm_num)]
      rwa [pow_succ] at fits
    rw [decimalDigits, ih shorter]
    conv_rhs => rw [decimalDigits]

theorem decimal_of_digit {n : Nat} (small : n < 10) : decimal n = [digitChar n] := by
  simp [decimal, decimalDigits, small]

theorem decimal_of_more {n : Nat} (large : 10 ≤ n) (fits : n < 10000000000) :
    decimal n = decimal (n / 10) ++ [digitChar (n % 10)] := by
  have shorter : n / 10 < 10 ^ 10 := by omega
  have unfolded : decimal n = decimalDigits 9 (n / 10) ++ [digitChar (n % 10)] := by
    rw [decimal, decimalDigits, if_neg (not_lt.mpr large)]
  rw [unfolded, ← decimalDigits_succ shorter]
  rfl

/-! ## The sources -/

/-- The metres text with the rounding to the centimetre written out. -/
theorem metresText_some (x : Int) : metresText (some x)
    = (let cm := (2 * x.natAbs + 10000) / 20000
      (if x < 0 ∧ 0 < cm then [0x2D] else []) ++ decimal (cm / 100)
        ++ [0x2E, BitVec.ofNat 8 (0x30 + cm / 10 % 10), BitVec.ofNat 8 (0x30 + cm % 10)]) := by
  have size : (roundDiv x 10000).natAbs = (2 * x.natAbs + 10000) / 20000 := by
    unfold roundDiv
    dsimp only
    split <;> omega
  have sign : (roundDiv x 10000 < 0) ↔ (x < 0 ∧ 0 < (2 * x.natAbs + 10000) / 20000) := by
    unfold roundDiv
    dsimp only
    split <;> omega
  have digits : twoDigits ((2 * x.natAbs + 10000) / 20000 % 100)
      = [BitVec.ofNat 8 (0x30 + (2 * x.natAbs + 10000) / 20000 / 10 % 10),
          BitVec.ofNat 8 (0x30 + (2 * x.natAbs + 10000) / 20000 % 10)] := by
    generalize (2 * x.natAbs + 10000) / 20000 = cm
    have tens : cm % 100 / 10 % 10 = cm / 10 % 10 := by omega
    have units : cm % 100 % 10 = cm % 10 := by omega
    rw [twoDigits, tens, units, digitChar, digitChar]
  simp only [metresText, size, sign, digits, List.append_assoc, List.cons_append, List.nil_append]

theorem State.rowDrawn_iff (s : State) (n : Fin 4) : s.rowDrawn n = true
    ↔ s.set.num (.row n .enable) = 1 ∧ s.set.nat (.row n .line) < if s.fxc.rate30 = true then 24 else 28 := by
  have lines : s.fxc.lines / 20 = if s.fxc.rate30 = true then 24 else 28 := by
    unfold FrameTimer.lines
    split <;> rfl
  simp [State.rowDrawn, lines]

theorem fitText_length (width : Nat) (t : List Byte) : (fitText width t).length = width := by
  simp [fitText]

theorem filterMap_ite {α β : Type} (keep : α → Bool) (f : α → β) (l : List α) :
    l.filterMap (fun a => if keep a then some (f a) else none) = (l.filter keep).map f := by
  induction l with
  | nil => rfl
  | cons a l ih => by_cases kept : keep a = true <;> simp [kept, ih]

/-- Settles O42: decimal numbers, the five sources, and the rows as a filter of the four. -/
theorem composedRowsFillTheirWidth : Obligations.ComposedRowsFillTheirWidth := by
  refine ⟨fun n small => decimal_of_digit small, fun n large fits => decimal_of_more large fits, ?_⟩
  intro s st u mark t flash metres letter degrees pan tilt shown status text fitted drawn
  have metresIs : metresText u = metres := by
    cases u with
    | none => rfl
    | some x => exact metresText_some x
  have letterIs : st.quality.letter = letter := by
    simp only [letter]
    cases st.quality <;> rfl
  have panIs : panText st.pan = pan := by
    simp only [pan]
    cases st.pan <;> rfl
  have tiltIs : tiltText st.tilt = tilt := by
    simp only [tilt]
    cases st.tilt <;> rfl
  have flashIs : s.takeFlash mark = flash := by cases mark <;> rfl
  have shownIs : markText flash = shown := by
    simp only [shown]
    cases flash <;> rfl
  have statusIs : statusText st = status := by
    simp only [statusText, status, rightAligned, List.cons_append, List.nil_append, List.append_assoc]
  have textIs (n : Fin 4) : s.rowText n st u flash = text n := by
    have chainage : chainageText u st.quality st.datumPending
        = metres ++ [0x6D, 0x20, letter] ++ (if st.datumPending = true then [0x2A] else []) := by
      rw [chainageText, metresIs, letterIs]
    have head : headText st.pan st.tilt = pan ++ [0x20] ++ tilt := by
      rw [headText, panIs, tiltIs, List.append_assoc, List.singleton_append]
    simp only [State.rowText, text, Settings.nat, chainage, head, shownIs, statusIs]
    match s.set.num (.row n .source) with
    | .ofNat 0 => rfl
    | .ofNat 1 => rfl
    | .ofNat 2 => rfl
    | .ofNat 3 => rfl
    | .ofNat 4 => rfl
    | .ofNat (_ + 5) => rfl
    | .negSucc _ => rfl
  have fittedIs (n : Fin 4) : fitText (s.set.nat (.row n .width)) (s.rowText n st u flash) = fitted n := by
    rw [textIs]
    rfl
  have drawnIs : drawn = (List.finRange 4).filter s.rowDrawn := by
    refine List.filter_congr fun n _ => ?_
    rw [Bool.eq_iff_iff, s.rowDrawn_iff, decide_eq_true_iff]
  refine ⟨fun clean => ?_, fun unclean => ?_, fun n => ?_, ?_, rfl⟩
  · exact if_pos clean
  · have rows : t.ovg.rows = (List.finRange 4).filterMap (s.composeRow st u flash) := by
      rw [← flashIs]
      exact if_neg (by simp [unclean])
    rw [rows, drawnIs]
    unfold State.composeRow
    rw [filterMap_ite]
    simp only [fittedIs]
  · rw [← fittedIs]
    exact fitText_length _ _
  · rw [← flashIs]
    rfl

/-! ## Pixels -/

theorem drawnCode_of_none {rows : List OverlayRow} {column line : Nat} (none : ∀ r ∈ rows, r.cellAt column line = none) :
    drawnCode rows column line = Option.none := by
  rw [drawnCode, List.filterMap_eq_nil_iff.mpr none]
  rfl

/-- The highest row with a cell there gives the code. -/
theorem drawnCode_of_highest {pre post : List OverlayRow} {r : OverlayRow} {column line : Nat} {code : Byte}
    (here : r.cellAt column line = some code) (none : ∀ q ∈ post, q.cellAt column line = none) :
    drawnCode (pre ++ r :: post) column line = some code := by
  have behind : post.filterMap (fun q => q.cellAt column line) = [] := List.filterMap_eq_nil_iff.mpr none
  simp [drawnCode, here, behind]

theorem State.pixel_of_readout {s : State} {x y : Nat} (reads : s.fxc.ended.isSome = true) (column : x < 720)
    (line : y < s.fxc.lines) (value : BitVec 10) : s.pixel x y value
      = { s with
          ist := s.ist.take x y value
          ssp := s.gapAfter x y
          ovg := { s.ovg with pixel := some (drawnPixel s.ovg.rows x y value) } } :=
  if_pos ⟨reads, column, line⟩

/-- Settles O27: the measurement, the line gap and the drawn pixel of one arrival. -/
theorem pixelsAreMeasuredAndDrawn : Obligations.PixelsAreMeasuredAndDrawn := by
  intro dt x y value s reads column line w inside out col row port
  have measured : s.ist.take x y value = { s.ist with
      count := s.ist.count + (if inside = true then 1 else 0)
      sum := s.ist.sum + (if inside = true then value.toNat else 0)
      bright := s.ist.bright + (if inside = true ∧ 1020 ≤ value.toNat then 1 else 0) } := by
    have holds : s.ist.window.holds x y = inside := by
      simp [MeterWindow.holds, inside, w, Bool.and_assoc]
    rw [ImageStats.take, holds]
    cases inside with
    | false => simp
    | true => by_cases bright : 1020 ≤ value.toNat <;> simp [bright]
  have gap : (s.elapse dt).gapAfter x y = port := by
    have portIs : port = if x = 719 ∧ y + 1 < s.fxc.lines then s.ssp.lineGap else s.ssp := by
      simp only [port, SensorPort.lineGap]
      cases carried : s.ssp.write with
      | none => simp
      | some w =>
        rcases w with ⟨_ | tf, e, g⟩
        · simp only [true_and, Option.isSome_none, Bool.false_eq_true, if_false]
          rfl
        · simp
    rw [portIs]
    rfl
  refine ⟨?_, fun none => ?_, fun pre post r code rows here none => ?_⟩
  · refine congrArg Host.Outcome.next ?_
    refine (State.pixel_of_readout (s := s.elapse dt) reads column line value).trans ?_
    rw [gap]
    exact congrArg (fun i => { s.elapse dt with
      ssp := port, ist := i, ovg := { s.ovg with pixel := some out } }) measured
  · simp only [out, drawnPixel]
    rw [drawnCode_of_none none]
  · have drawn : out = if glyphAt code (x % 12) (y % 20) then 940 else 64 := by
      simp only [out, drawnPixel]
      rw [rows, drawnCode_of_highest here none]
    rw [drawn]
    constructor
    · split
      · exact .inr rfl
      · exact .inl rfl
    · rintro rfl
      rfl

end Sys2Proof.Machine
end

