-- ==== Sys2Proof/Proofs/LampsThermal.lean ====
section
/-! PROOFS. The strobe window and the outputs (spec/04 section 4.2), and the polls of the thermal monitor (spec/04
section 4.4). -/

namespace Sys2Proof.Machine

/-! ## The strobe window -/

theorem LampDriver.enable_iff (l : LampDriver) : l.enable = true ↔ l.record.banks ≠ ⟨0, 0, 0⟩ := by
  rcases l with ⟨⟨_, _, _, _, _, ⟨ring, spot, body⟩⟩, _⟩
  simp only [LampDriver.enable, Bool.or_eq_true, decide_eq_true_eq, ne_eq, Banks.mk.injEq]
  omega

theorem LampDriver.outputs_of_steady {l : LampDriver} (steady : l.record.strobe = false) : l.outputs = l.record.banks := by
  by_cases on : l.enable = true
  · simp [LampDriver.outputs, on, steady]
  · have dark : l.record.banks = ⟨0, 0, 0⟩ := by
      by_contra lit
      exact on (l.enable_iff.mpr lit)
    simp [LampDriver.outputs, on, dark]

theorem LampDriver.outputs_of_lit {l : LampDriver} {e : Nat} {b : Banks} (strobe : l.record.strobe = true)
    (lit : l.window = .lit e b) : l.outputs = if l.enable = true then b else ⟨0, 0, 0⟩ := by
  by_cases on : l.enable = true <;> simp [LampDriver.outputs, on, strobe, lit]

theorem LampDriver.outputs_of_closed {l : LampDriver} (strobe : l.record.strobe = true) (closed : l.window = .closed) :
    l.outputs = ⟨0, 0, 0⟩ := by
  by_cases on : l.enable = true <;> simp [LampDriver.outputs, on, strobe, closed]

/-- Settles O28: an opening and a closing by the window's state, and the outputs of each. -/
theorem strobeWindowLightsTheExposure : Obligations.StrobeWindowLightsTheExposure := by
  intro dt s now r
  refine ⟨fun b timed strobe due => ?_, fun b timed early => ?_, fun e w lit over_ => ?_, LampDriver.outputs_of_steady,
    s.ldr.enable_iff⟩
  · intro t
    refine ⟨congrArg Host.Outcome.next ?_, LampDriver.outputs_of_lit (l := t.ldr) strobe rfl⟩
    have opens : ((s.elapse dt).ldr.record.strobe
        && decide (b + ((s.elapse dt).fxc.period - (s.elapse dt).ldr.record.exposure) ≤ (s.elapse dt).timeBase)) = true := by
      rw [Bool.and_eq_true, decide_eq_true_eq]
      exact ⟨strobe, due⟩
    simp only [State.windowOpens, State.elapse_ldr, timed]
    exact if_pos opens
  · refine congrArg Host.Outcome.next ?_
    have waits : ¬ ((s.elapse dt).ldr.record.strobe
        && decide (b + ((s.elapse dt).fxc.period - (s.elapse dt).ldr.record.exposure) ≤ (s.elapse dt).timeBase)) = true := by
      rw [Bool.and_eq_true, decide_eq_true_eq]
      exact fun both => absurd both.2 (not_le.mpr early)
    simp only [State.windowOpens, State.elapse_ldr, timed]
    exact if_neg waits
  · intro t
    refine ⟨congrArg Host.Outcome.next ?_, fun strobe => LampDriver.outputs_of_closed (l := t.ldr) strobe rfl⟩
    simp only [State.windowCloses, State.elapse_ldr, lit]
    exact if_pos over_

/-! ## Polls -/

/-- The end of a transaction in a failure, by whether FAULT is entered. -/
theorem State.pollEnds_fail (s : State) (m : ThermalMonitor) (o : PollOutcome) :
    s.pollEnds (m.fail o)
      = (let r : ThermalMonitor := { m with
          failures := min 255 (m.failures + 1), successes := 0, poll := none, lastOutcome := some o
          counters := m.counters.countFailure o }
        if m.state ≠ .fault ∧ 3 ≤ min 255 (m.failures + 1)
        then State.raise { s with ltm := { r with state := .fault, ceiling := 400 } } .thermalSensorFault
        else { s with ltm := r }) := by
  by_cases enters : m.state ≠ .fault ∧ 3 ≤ sat8 m.failures
  · rw [if_pos (show m.state ≠ .fault ∧ 3 ≤ min 255 (m.failures + 1) from enters)]
    simp only [State.pollEnds, ThermalMonitor.fail, if_pos enters]
    rfl
  · rw [if_neg (show ¬ (m.state ≠ .fault ∧ 3 ≤ min 255 (m.failures + 1)) from enters)]
    simp only [State.pollEnds, ThermalMonitor.fail, if_neg enters]
    rfl

theorem sampleDue_iff (now period last : Nat) :
    sampleDue now period (some last) = true ↔ 0 < now ∧ now % period = 0 ∧ last ≠ now := by
  simp [sampleDue, and_assoc]

theorem recoverySignals_few {clocks : Nat} (few : clocks ≤ 9) :
    recoverySignals clocks = if clocks = 0 then [] else List.replicate clocks .clock ++ [.stop] := by
  unfold recoverySignals
  rw [if_pos few]

theorem recoverySignals_many {clocks : Nat} (many : 9 < clocks) :
    recoverySignals clocks = [.clock, .clock, .clock, .clock, .clock, .clock, .clock, .clock, .clock]
      ++ if Config.stopAfterNinthClock = true then [.stop, .release] else [.release] := by
  unfold recoverySignals
  rw [if_neg (by omega), if_neg (by omega)]
  rfl

/-- Settles O29: the instants at which a poll falls due, and the three things that one can meet. -/
theorem thermalPollsFallDue : Obligations.ThermalPollsFallDue := by
  intro dt clocks s now m k bad stuck
  have stepped : exec (.thermalPollDue dt clocks) s = .next ((s.elapse dt).pollDue clocks) := rfl
  rw [stepped]
  refine ⟨fun after multiple new => ?due, fun between => ?idle⟩
  case idle =>
    have idle : ¬ sampleDue (s.elapse dt).timeBase 250000 (some (s.elapse dt).ltm.lastDue) = true := by
      rw [sampleDue_iff]
      exact fun ⟨_, multiple, _⟩ => between multiple
    exact congrArg Host.Outcome.next (if_neg idle)
  case due =>
    have due : sampleDue (s.elapse dt).timeBase 250000 (some s.ltm.lastDue) = true :=
      (sampleDue_iff ..).mpr ⟨after, multiple, new⟩
    refine ⟨fun p busy => ?_, fun free few => ?_, fun free many => ?_⟩
    · simp only [State.pollDue, due, State.elapse_ltm, busy, if_true, m, k]
      rfl
    · rw [← recoverySignals_few few]
      simp only [State.pollDue, due, State.elapse_ltm, free, if_true]
      exact congrArg Host.Outcome.next (if_neg (not_lt.mpr few))
    · have ended : (s.elapse dt).pollDue clocks
          = (s.elapse dt).pollEnds ({ m with bus := recoverySignals clocks }.fail .busTimeout) := by
        simp only [State.pollDue, due, State.elapse_ltm, free, if_true]
        exact if_pos many
      rw [ended, State.pollEnds_fail, recoverySignals_many many]
      rfl

/-- The state that a SUCCESS sets outside FAULT, and what it raises. -/
theorem thermalNext_eq {st : ThermalState} (outside : st ≠ .fault) (tw : Int) :
    thermalNext st tw
      = (let after : ThermalState :=
          if 95 ≤ tw ∨ (st = .shutdown ∧ 91 ≤ tw) then .shutdown else if 60 ≤ tw then .derate else .normal
        (after, if after = st then [] else if after = .shutdown then [.lampShutdown]
          else if after = .derate then [.lampDerated] else [])) := by
  cases st with
  | fault => exact absurd rfl outside
  | normal | derate =>
    simp only [thermalNext, reduceCtorEq, false_and, or_false]
    split
    · rfl
    · split <;> rfl
  | shutdown =>
    by_cases warm : 91 ≤ tw
    · simp [thermalNext, warm]
    · have cool : ¬ 95 ≤ tw := by omega
      by_cases mild : 60 ≤ tw <;> simp [thermalNext, warm, cool, mild]

/-- A success by the state it sets. -/
theorem ThermalMonitor.succeed_eq {m : ThermalMonitor} {tw : Int} {next : ThermalState × List Condition}
    (sets : (if m.state = .fault then (if 4 ≤ min 255 (m.successes + 1) then thermalNext .normal tw else (.fault, []))
      else thermalNext m.state tw) = next) :
    m.succeed tw
      = ({ m with
          state := next.1, lastTemp := some tw, failures := 0, successes := min 255 (m.successes + 1), poll := none
          lastOutcome := some .success, ceiling := thermalCeiling next.1 tw
          counters := { m.counters with successes := min 65535 (m.counters.successes + 1) } },
        next.2) := by
  subst sets
  rfl

theorem State.pollTransactionEnd_of_success {s : State} {p : Poll} {a : SensorAnswer} (busy : s.ltm.poll = some p)
    (result : pollResult p.phase a = .success) : s.pollTransactionEnd a
      = s.pollEnds ((s.ltm.send (pollSignals p.addr p.phase a)).succeed (readingTemp a.high a.low)) := by
  simp only [State.pollTransactionEnd, busy, result]

theorem State.pollTransactionEnd_of_failure {s : State} {p : Poll} {a : SensorAnswer} {o : PollOutcome}
    (busy : s.ltm.poll = some p) (result : pollResult p.phase a = o) (failed : o ≠ .success) :
    s.pollTransactionEnd a = s.pollEnds ((s.ltm.send (pollSignals p.addr p.phase a)).fail o) := by
  cases o with
  | success => exact absurd rfl failed
  | addressNack | pointerNack | busTimeout => simp only [State.pollTransactionEnd, busy, result]

theorem State.busTimeout_of_due {s : State} {p : Poll} (busy : s.ltm.poll = some p) (due : p.begun + 25000 ≤ s.timeBase) :
    s.busTimeout = s.pollEnds ((s.ltm.send (timeoutSignals p)).fail .busTimeout) := by
  simp only [State.busTimeout, busy, due, if_true]

theorem State.busTimeout_of_early {s : State} {p : Poll} (busy : s.ltm.poll = some p)
    (early : s.timeBase < p.begun + 25000) : s.busTimeout = s := by
  simp only [State.busTimeout, busy, not_le.mpr early, if_false]

section
variable {a : SensorAnswer} (addr : Nat) (address : a.addressAck = true)

theorem pollSignals_of_addressNack (refused : a.addressAck = false) :
    pollResult .pointer a = .addressNack ∧ pollSignals addr .pointer a = [.stop] ++ [.release] := by
  simp [pollResult, pollSignals, refused, failureSignals]

include address

theorem pollSignals_of_pointerNack (refused : a.pointerAck = false) :
    pollResult .pointer a = .pointerNack ∧ pollSignals addr .pointer a = [.pointer 0, .stop] ++ [.release] := by
  simp [pollResult, pollSignals, address, refused, failureSignals]

theorem pollSignals_of_readNack (pointer : a.pointerAck = true) (refused : a.readAck = false) :
    pollResult .pointer a = .addressNack ∧ pollSignals addr .pointer a
      = [.pointer 0, .repeatedStart, .address addr true] ++ [.stop] ++ [.release] := by
  simp [pollResult, pollSignals, address, pointer, refused, failureSignals]

theorem pollSignals_of_success (pointer : a.pointerAck = true) (read : a.readAck = true) :
    pollResult .pointer a = .success ∧ pollSignals addr .pointer a
      = [.pointer 0, .repeatedStart, .address addr true] ++ [.acknowledge, .noAcknowledge] ++ [.stop] := by
  simp [pollResult, pollSignals, address, pointer, read]

end

theorem timeoutSignals_of_pointer {p : Poll} (phase : p.phase = .pointer) : timeoutSignals p
    = ([.pointer 0, .repeatedStart, .address p.addr true] ++ [.acknowledge, .noAcknowledge] : List BusSignal).take
        (Config.timeoutPlace p.begun) ++ [.release] := by
  simp [timeoutSignals, pollSignals, phase]

/-- Settles O30: the outcome of each answer, then what a success and a failure leave. -/
theorem pollOutcomesMoveTheThermalState : Obligations.PollOutcomesMoveTheThermalState := by
  intro dt s a p busy m k word tw good bad after told next ceiling reading data succeeded failed one
  have ended : exec (.pollTransactionEnd dt a) s = .next ((s.elapse dt).pollTransactionEnd a) := rfl
  have timeout : exec (.busTimeout dt) s = .next (s.elapse dt).busTimeout := rfl
  have temperature : readingTemp a.high a.low = tw := rfl
  have fails (o : PollOutcome) (sent : List BusSignal) :
      (s.elapse dt).pollEnds ((s.ltm.send (sent ++ [.release])).fail o) = failed o (k.countFailure o) sent := by
    rw [State.pollEnds_fail]
    simp only [ThermalMonitor.send, failed, List.append_assoc]
    rfl
  rw [ended, timeout]
  refine ⟨fun phase address pointer read => ?_, fun phase address => ?_, fun phase address pointer => ?_,
    fun phase address pointer read => ?_, fun phase late => ?_, fun early => ?_⟩
  · obtain ⟨result, signals⟩ := pollSignals_of_success p.addr address pointer read
    rw [← phase] at result signals
    have nextIs : (if m.state = .fault then (if 4 ≤ good then thermalNext .normal tw else (.fault, []))
        else thermalNext m.state tw) = next := by
      simp only [next]
      by_cases fault : m.state = .fault
      · rw [if_pos fault, if_neg (not_not.mpr fault)]
        by_cases leaves : 4 ≤ good
        · rw [if_pos leaves, if_pos leaves]
          exact thermalNext_eq (by simp) tw
        · rw [if_neg leaves, if_neg leaves]
      · rw [if_neg fault, if_pos fault]
        exact thermalNext_eq fault tw
    have ceilingIs : thermalCeiling next.1 tw = ceiling := by
      simp only [ceiling, thermalCeiling]
      cases next.1 <;> rfl
    rw [State.pollTransactionEnd_of_success (s := s.elapse dt) busy result, temperature,
      ThermalMonitor.succeed_eq (m := (s.elapse dt).ltm.send _) nextIs, ceilingIs, signals]
    simp only [succeeded, List.append_assoc]
    rfl
  · obtain ⟨result, signals⟩ := pollSignals_of_addressNack p.addr address
    rw [← phase] at result signals
    rw [State.pollTransactionEnd_of_failure (s := s.elapse dt) busy result (by simp), signals]
    exact congrArg Host.Outcome.next (fails .addressNack [.stop])
  · obtain ⟨result, signals⟩ := pollSignals_of_pointerNack p.addr address pointer
    rw [← phase] at result signals
    rw [State.pollTransactionEnd_of_failure (s := s.elapse dt) busy result (by simp), signals]
    exact congrArg Host.Outcome.next (fails .pointerNack [.pointer 0, .stop])
  · obtain ⟨result, signals⟩ := pollSignals_of_readNack p.addr address pointer read
    rw [← phase] at result signals
    rw [State.pollTransactionEnd_of_failure (s := s.elapse dt) busy result (by simp), signals]
    exact congrArg Host.Outcome.next (fails .addressNack (reading ++ [BusSignal.stop]))
  · rw [State.busTimeout_of_due (s := s.elapse dt) busy late, timeoutSignals_of_pointer phase]
    exact congrArg Host.Outcome.next (fails .busTimeout _)
  · rw [State.busTimeout_of_early (s := s.elapse dt) busy early]

end Sys2Proof.Machine
end

