-- ==== Sys2Proof/Proofs/Boundary.lean ====
section
/-! PROOFS. The boundary of a frame (spec/03 sections 3.1 to 3.4): what the links and the Stamp Unit come to depends on
few blocks, so that the boundary is the pipeline's move together with that outcome; and the outcomes of a commit (spec/03
section 3.2). -/

namespace Sys2Proof.Machine

/-! ## What the links and the Stamp Unit come to -/

/-- The state with the Stamp Unit, the counts and the tether port of another. -/
def State.withOut (s u : State) : State := { s with stu := u.stu, cnd := u.cnd, tlp := u.tlp }

/-- Two states agree in what the raisings, the ring and the stream read. -/
structure State.Alike (s t : State) : Prop where
  stu : s.stu = t.stu
  cnd : s.cnd = t.cnd
  tlp : s.tlp = t.tlp
  set : s.set = t.set
  timeBase : s.timeBase = t.timeBase

theorem State.Alike.refl (s : State) : s.Alike s := ⟨rfl, rfl, rfl, rfl, rfl⟩

theorem State.withOut_of_alike {s t : State} (alike : s.Alike t) : s = s.withOut t := by
  obtain ⟨stu, cnd, tlp, _, _⟩ := alike
  rw [State.withOut, ← stu, ← cnd, ← tlp]

/-- The outcome of an operation that keeps the settings and the time base is alike again. -/
theorem State.Alike.out {s t u : State} (alike : s.Alike t) (set : u.set = t.set) (timeBase : u.timeBase = t.timeBase) :
    (s.withOut u).Alike u :=
  ⟨rfl, rfl, rfl, alike.set.trans set.symm, alike.timeBase.trans timeBase.symm⟩

theorem State.raiseFor_withOut {s t : State} (alike : s.Alike t) (c : Condition) (l : Link) :
    s.raiseFor c l = s.withOut (t.raiseFor c l) := by
  rw [State.withOut, State.raiseFor_stu, ← alike.stu]
  exact State.raiseFor_alike alike.cnd alike.tlp alike.set c l

theorem State.lapLink_withOut {s t : State} (alike : s.Alike t) (gone : Count) (l : Link) :
    s.lapLink gone l = s.withOut (t.lapLink gone l) := by
  obtain ⟨stu, cnd, tlp, set, timeBase⟩ := id alike
  have exempt : s.exempt l gone = t.exempt l gone := by simp only [State.exempt, set]
  unfold State.lapLink
  rw [stu, exempt]
  dsimp only
  split
  · split
    · rw [State.withOut, ← cnd, ← tlp]
    · exact State.raiseFor_withOut (s := { s with stu := (t.stu.putCursor l (gone + 1)).addLost l })
        (t := { t with stu := (t.stu.putCursor l (gone + 1)).addLost l }) ⟨rfl, cnd, tlp, set, timeBase⟩ _ _
  · exact State.withOut_of_alike alike

theorem State.lapLink_timeBase (s : State) (gone : Count) (l : Link) : (s.lapLink gone l).timeBase = s.timeBase :=
  (s.lapLink_touches gone l).timeBase (by simp)

theorem State.lapOldest_withOut {s t : State} (alike : s.Alike t) : s.lapOldest = s.withOut t.lapOldest := by
  obtain ⟨stu, cnd, tlp, set, timeBase⟩ := id alike
  unfold State.lapOldest
  rw [stu]
  split
  · exact State.withOut_of_alike alike
  · split
    · exact State.withOut_of_alike alike
    · next old rest _ _ =>
      have dropped : State.Alike { s with stu := { t.stu with stamps := rest } }
          { t with stu := { t.stu with stamps := rest } } := ⟨rfl, cnd, tlp, set, timeBase⟩
      have first := State.lapLink_withOut dropped old.frame .tether
      rw [first]
      exact State.lapLink_withOut (dropped.out (State.lapLink_set ..) (State.lapLink_timeBase ..)) old.frame .carriage

theorem State.writeStamp_withOut {s t : State} (alike : s.Alike t) (st : Stamp) :
    s.writeStamp st = s.withOut (t.writeStamp st) := by
  unfold State.writeStamp
  rw [State.lapOldest_withOut alike]
  rfl

theorem State.streamDecision_withOut {s t : State} (alike : s.Alike t) :
    s.streamDecision = s.withOut t.streamDecision := by
  obtain ⟨stu, cnd, tlp, set, timeBase⟩ := id alike
  have ready : s.streamReady = t.streamReady := by simp only [State.streamReady, stu, tlp, set]
  by_cases sends : t.streamReady = true
  · rw [State.streamDecision_of_ready (ready.trans sends), State.streamDecision_of_ready sends, stu, set]
    split
    · dsimp only [State.sendStamp, State.withOut]
      rw [stu, tlp, timeBase, cnd]
    · dsimp only [State.withOut]
      rw [cnd, tlp, set]
  · rw [State.streamDecision_of_not_ready (ready ▸ sends), State.streamDecision_of_not_ready sends]
    exact State.withOut_of_alike alike

/-! ## The boundary as its parts -/

/-- STILL_DONE, for the requester of the still of a frame. -/
def State.stillTold (u : State) (still : Option PendingStill) (frame : Count) : State :=
  match still with
  | some p => if p.frame = frame then u.raiseFor .stillDone p.requester else u
  | none => u

/-- The pending still after the frame's stamp has been written. -/
def stillLeft (still : Option PendingStill) (frame : Count) : Option PendingStill :=
  match still with
  | some p => if p.frame = frame then none else some p
  | none => none

/-- What a boundary raises before the stamp. -/
def State.limitedTold (s : State) (f : FrameSet) : State :=
  if f.lightLimited && !s.fxc.prevLimited then s.raise .lightLimited else s

/-- The stamp of the frame that ends now. -/
def State.endingStamp (s : State) (f : FrameSet) : Stamp := s.buildStamp s.fxc.counter s.timeBase f

/-- The stamp written after what was raised before it. -/
def State.stampWritten (s : State) (f : FrameSet) : State :=
  { s.limitedTold f with stu := { s.stu with pendingMark := none } }.writeStamp (s.endingStamp f)

/-- What the links and the Stamp Unit come to at a boundary, before the stream's decision. -/
def State.boundaryTold (s : State) (f : FrameSet) : State :=
  (s.stampWritten f).stillTold s.fxc.pendingStill s.fxc.counter

/-- The composition of the frame that ends now. -/
def State.endingOverlay (s : State) (f : FrameSet) : Overlay :=
  (s.compose (s.endingStamp f) (s.overlayChainage (midpoint s.timeBase f.exposure)) s.stu.pendingMark).ovg

/-- The pipeline moved on past a frame, its statistics formed and its overlay composed. -/
def State.movedOn (s : State) (slot : PipeSlot) : State :=
  { s with
    ist := ⟨s.meterWindow, 0, 0, 0, s.ist.formed⟩
    ovg := s.endingOverlay slot.set
    fxc := { s.fxc with
      counter := s.fxc.counter + 1, ended := some slot
      commits := s.fxc.commits.map fun c => { c with age := c.age + 1 }
      prevLimited := slot.set.lightLimited, pendingStill := stillLeft s.fxc.pendingStill s.fxc.counter } }

theorem State.limitedTold_stu (s : State) (f : FrameSet) : (s.limitedTold f).stu = s.stu := by
  unfold State.limitedTold
  split
  · exact State.raise_stu s _
  · rfl

theorem State.limitedTold_set (s : State) (f : FrameSet) : (s.limitedTold f).set = s.set := by
  unfold State.limitedTold
  split
  · exact State.raise_set s _
  · rfl

theorem State.limitedTold_timeBase (s : State) (f : FrameSet) : (s.limitedTold f).timeBase = s.timeBase := by
  unfold State.limitedTold
  split
  · exact State.raise_timeBase s _
  · rfl

theorem State.checkLimited_eq (s : State) (f : FrameSet) :
    s.formStats.checkLimited f
      = State.withOut
          { s with ist := ⟨s.meterWindow, 0, 0, 0, s.ist.formed⟩, fxc := { s.fxc with prevLimited := f.lightLimited } }
          (s.limitedTold f) := by
  unfold State.checkLimited State.limitedTold State.formStats
  dsimp only
  split
  · exact State.raiseFor_withOut
      (s := { s with ist := ⟨s.meterWindow, 0, 0, 0, s.ist.formed⟩, fxc := { s.fxc with prevLimited := f.lightLimited } })
      (t := s) ⟨rfl, rfl, rfl, rfl, rfl⟩ _ _
  · rfl

theorem State.stillWritten_eq {s t : State} (alike : s.Alike t) (frame : Count) :
    s.stillWritten frame
      = State.withOut { s with fxc := { s.fxc with pendingStill := stillLeft s.fxc.pendingStill frame } }
          (t.stillTold s.fxc.pendingStill frame) := by
  unfold State.stillWritten State.stillTold stillLeft
  cases pending : s.fxc.pendingStill with
  | none =>
    dsimp only
    rw [← pending]
    exact State.withOut_of_alike alike
  | some p =>
    dsimp only
    split
    · exact State.raiseFor_withOut (s := { s with fxc := { s.fxc with pendingStill := none } })
        ⟨alike.stu, alike.cnd, alike.tlp, alike.set, alike.timeBase⟩ _ _
    · rw [← pending]
      exact State.withOut_of_alike alike

theorem State.writeStamp_set (s : State) (st : Stamp) : (s.writeStamp st).set = s.set :=
  s.lapOldest_touches.set (by simp)

theorem State.writeStamp_timeBase (s : State) (st : Stamp) : (s.writeStamp st).timeBase = s.timeBase :=
  s.lapOldest_touches.timeBase (by simp)

/-- The stamp that is built once the statistics have been formed and LIGHT_LIMITED counted is that of the state before. -/
theorem State.buildStamp_of_began {s told : State} (stu : told.stu = s.stu) (i : ImageStats) (limited : Bool)
    (f : FrameSet) :
    (State.withOut { s with ist := i, fxc := { s.fxc with prevLimited := limited } } told).buildStamp s.fxc.counter
      s.timeBase f = s.endingStamp f := by
  simp only [State.buildStamp, State.endingStamp, State.withOut, stu]
  rfl

theorem State.stampWritten_set (s : State) (f : FrameSet) : (s.stampWritten f).set = s.set := by
  rw [State.stampWritten, State.writeStamp_set]
  exact s.limitedTold_set f

theorem State.stampWritten_timeBase (s : State) (f : FrameSet) : (s.stampWritten f).timeBase = s.timeBase := by
  rw [State.stampWritten, State.writeStamp_timeBase]
  exact s.limitedTold_timeBase f

/-- The state at the writing of a boundary's stamp, but for what the links and the Stamp Unit have come to. -/
def State.formedFor (s : State) (f : FrameSet) : State :=
  { s with ist := ⟨s.meterWindow, 0, 0, 0, s.ist.formed⟩, fxc := { s.fxc with prevLimited := f.lightLimited } }

theorem State.stampFrame_began (s : State) (f : FrameSet) :
    ((s.formedFor f).withOut (s.limitedTold f)).stampFrame f
      = State.withOut
          { s.formedFor f with
            ovg := s.endingOverlay f
            fxc := { (s.formedFor f).fxc with pendingStill := stillLeft s.fxc.pendingStill s.fxc.counter } }
          (s.boundaryTold f) := by
  have stu := s.limitedTold_stu f
  have begun : ((s.formedFor f).withOut (s.limitedTold f)).stampFrame f
      = (State.compose
          (State.writeStamp { (s.formedFor f).withOut (s.limitedTold f) with
              stu := { (s.limitedTold f).stu with pendingMark := none } }
            (((s.formedFor f).withOut (s.limitedTold f)).buildStamp s.fxc.counter s.timeBase f))
          (((s.formedFor f).withOut (s.limitedTold f)).buildStamp s.fxc.counter s.timeBase f)
          (s.overlayChainage (midpoint s.timeBase f.exposure)) (s.limitedTold f).stu.pendingMark).stillWritten
          s.fxc.counter := rfl
  have stamp := State.buildStamp_of_began stu ⟨s.meterWindow, 0, 0, 0, s.ist.formed⟩ f.lightLimited f
  have written : State.writeStamp { (s.formedFor f).withOut (s.limitedTold f) with
        stu := { s.stu with pendingMark := none } } (s.endingStamp f)
      = (s.formedFor f).withOut (s.stampWritten f) :=
    State.writeStamp_withOut
      (s := { (s.formedFor f).withOut (s.limitedTold f) with stu := { s.stu with pendingMark := none } })
      (t := { s.limitedTold f with stu := { s.stu with pendingMark := none } })
      ⟨rfl, rfl, rfl, (s.limitedTold_set f).symm, (s.limitedTold_timeBase f).symm⟩ _
  have composed : State.compose ((s.formedFor f).withOut (s.stampWritten f)) (s.endingStamp f)
        (s.overlayChainage (midpoint s.timeBase f.exposure)) s.stu.pendingMark
      = State.withOut { s.formedFor f with ovg := s.endingOverlay f } (s.stampWritten f) := rfl
  have alike : State.Alike (State.withOut { s.formedFor f with ovg := s.endingOverlay f } (s.stampWritten f))
      (s.stampWritten f) :=
    ⟨rfl, rfl, rfl, (s.stampWritten_set f).symm, (s.stampWritten_timeBase f).symm⟩
  rw [begun, State.formedFor, stamp, stu]
  refine (congrArg (fun w : State => (w.compose (s.endingStamp f) (s.overlayChainage (midpoint s.timeBase f.exposure))
    s.stu.pendingMark).stillWritten s.fxc.counter) written).trans ?_
  rw [composed, State.stillWritten_eq alike]
  rfl

/-- The frame that ends is stamped, the pipeline moves on, and the links come to what was told. -/
theorem State.stampedAndAdvanced (s : State) (slot : PipeSlot) :
    ((s.formStats.checkLimited slot.set).stampFrame slot.set).advanceFrame slot
      = (s.movedOn slot).withOut (s.boundaryTold slot.set) := by
  have limited : s.formStats.checkLimited slot.set = (s.formedFor slot.set).withOut (s.limitedTold slot.set) :=
    s.checkLimited_eq slot.set
  rw [limited, State.stampFrame_began]
  rfl

theorem State.boundaryTold_set (s : State) (f : FrameSet) : (s.boundaryTold f).set = s.set := by
  have told (u : State) (still : Option PendingStill) (frame : Count) : (u.stillTold still frame).set = u.set := by
    unfold State.stillTold
    split
    · split
      · exact State.raiseFor_set ..
      · rfl
    · rfl
  exact (told ..).trans (s.stampWritten_set f)

theorem State.boundaryTold_timeBase (s : State) (f : FrameSet) : (s.boundaryTold f).timeBase = s.timeBase := by
  have told (u : State) (still : Option PendingStill) (frame : Count) : (u.stillTold still frame).timeBase = u.timeBase := by
    unfold State.stillTold
    split
    · split
      · exact State.raiseFor_timeBase ..
      · rfl
    · rfl
  exact (told ..).trans (s.stampWritten_timeBase f)

/-- A boundary while the sensor produces frames: the pipeline moved on with its next set, and the links at what the
stream's decision leaves. -/
theorem State.boundary_eq {s : State} (running : s.ssp.startingUp = false) :
    s.boundary
      = ((match s.fxc.ended with
          | none => (s.movedOn s.fxc.endingSlot).placeStartUp
          | some measured => (s.movedOn s.fxc.endingSlot).computeSet measured.set).timeWindow).withOut
          (s.boundaryTold s.fxc.endingSlot.set).streamDecision := by
  have set := s.boundaryTold_set s.fxc.endingSlot.set
  have timeBase := s.boundaryTold_timeBase s.fxc.endingSlot.set
  have moved : s.boundary
      = (State.timeWindow (match s.fxc.ended with
          | none => (((s.formStats.checkLimited s.fxc.endingSlot.set).stampFrame s.fxc.endingSlot.set).advanceFrame
              s.fxc.endingSlot).placeStartUp
          | some measured => (((s.formStats.checkLimited s.fxc.endingSlot.set).stampFrame
              s.fxc.endingSlot.set).advanceFrame s.fxc.endingSlot).computeSet measured.set)).streamDecision := by
    unfold State.boundary
    exact if_neg (by simp [running])
  rw [moved, State.stampedAndAdvanced]
  cases s.fxc.ended with
  | none => exact State.streamDecision_withOut ⟨rfl, rfl, rfl, set.symm, timeBase.symm⟩
  | some measured => exact State.streamDecision_withOut ⟨rfl, rfl, rfl, set.symm, timeBase.symm⟩

end Sys2Proof.Machine
end

