-- ==== Sys2Proof/Proofs/BoundaryOutcome.lean ====
section
/-! PROOFS. What a boundary comes to (spec/03 sections 3.1 to 3.4, spec/06 sections 6.1 and 6.2), and the outcomes of a
commit (spec/03 section 3.2, spec/04 sections 4.1 and 4.2). -/

namespace Sys2Proof.Machine

/-! ## What the write and the stream leave unchanged -/

/-- The tether port differs in what waits and in what is on the line alone. -/
def SameTether (s t : State) : Prop := t.tlp = { s.tlp with transmit := t.tlp.transmit, line := t.tlp.line }

theorem SameTether.refl (s : State) : SameTether s s := rfl

theorem SameTether.trans {s t u : State} (first : SameTether s t) (second : SameTether t u) : SameTether s u := by
  unfold SameTether at *
  rw [second, first]

theorem State.raiseFor_sameTether (s : State) (c : Condition) (named : Link) : SameTether s (s.raiseFor c named) := by
  unfold SameTether
  rw [s.raiseFor_tlp c named]

/-- A stream's decision leaves the held stamps, the mark and the counts, and moves the line alone of the tether port. -/
theorem State.streamDecision_keeps (s : State) :
    s.streamDecision.stu.stamps = s.stu.stamps ∧ s.streamDecision.stu.pendingMark = s.stu.pendingMark ∧
      s.streamDecision.cnd = s.cnd ∧ SameTether s s.streamDecision := by
  by_cases ready : s.streamReady = true
  · rw [State.streamDecision_of_ready ready]
    split
    · exact ⟨rfl, rfl, rfl, rfl⟩
    · exact ⟨rfl, rfl, rfl, rfl⟩
  · rw [State.streamDecision_of_not_ready ready]
    exact ⟨rfl, rfl, rfl, rfl⟩

theorem State.lapLink_sameTether (s : State) (gone : Count) (l : Link) : SameTether s (s.lapLink gone l) := by
  unfold State.lapLink
  dsimp only
  split
  · split
    · exact .refl s
    · exact State.raiseFor_sameTether { s with stu := (s.stu.putCursor l (gone + 1)).addLost l } .stampsLost l
  · exact .refl s

/-- The ring after a write holds the newest 128. -/
theorem State.writeStamp_stamps {s : State} (depth : s.stu.stamps.length ≤ 128) (st : Stamp) :
    (s.writeStamp st).stu.stamps = (s.stu.stamps ++ [st]).drop ((s.stu.stamps ++ [st]).length - 128) := by
  unfold State.writeStamp State.lapOldest
  cases held : s.stu.stamps with
  | nil => simp [held]
  | cons old rest =>
    rw [held, List.length_cons] at depth
    dsimp only
    by_cases room : rest.length < 127
    · rw [if_pos room, held, List.length_append, List.length_cons, List.length_singleton,
        Nat.sub_eq_zero_of_le (by omega), List.drop_zero]
    · have full : (old :: rest ++ [st]).length - 128 = 1 := by
        simp only [List.cons_append, List.length_cons, List.length_append, List.length_nil]
        omega
      rw [if_neg room, full]
      simp [State.lapLink_stamps]

/-- A write leaves the mark, the counts of every latch but STAMPS_LOST, and moves the transmit queue alone. -/
theorem State.lapOldest_keeps (s : State) :
    s.lapOldest.stu.pendingMark = s.stu.pendingMark ∧
      (∀ (l : Link) (n : Fin 16), n ≠ 14 → (s.lapOldest.cnd.counts l)[n] = (s.cnd.counts l)[n]) ∧
      SameTether s s.lapOldest := by
  unfold State.lapOldest
  split
  · exact ⟨rfl, fun _ _ _ => rfl, rfl⟩
  · split
    · exact ⟨rfl, fun _ _ _ => rfl, rfl⟩
    · next old rest _ _ =>
      refine ⟨by rw [State.lapLink_pendingMark, State.lapLink_pendingMark], fun l n other => ?_, ?_⟩
      · rw [State.lapLink_counts, State.lapLink_counts, if_neg (by simp [other]), if_neg (by simp [other])]
      · exact (State.lapLink_sameTether { s with stu := { s.stu with stamps := rest } } old.frame .tether).trans
          (State.lapLink_sameTether _ old.frame .carriage)

theorem State.stillTold_stu (u : State) (still : Option PendingStill) (frame : Count) :
    (u.stillTold still frame).stu = u.stu := by
  unfold State.stillTold
  cases still with
  | none => rfl
  | some p =>
    dsimp only
    split
    · exact State.raiseFor_stu ..
    · rfl

/-- What a boundary tells keeps the ring's rule: the stamp joins, the oldest of 128 leaves, and the mark is spent. -/
theorem State.boundaryTold_stamps {s : State} (depth : s.stu.stamps.length ≤ 128) (f : FrameSet) :
    (s.boundaryTold f).stu.stamps
        = (s.stu.stamps ++ [s.endingStamp f]).drop ((s.stu.stamps ++ [s.endingStamp f]).length - 128) ∧
      (s.boundaryTold f).stu.pendingMark = none := by
  unfold State.boundaryTold
  rw [State.stillTold_stu]
  exact ⟨State.writeStamp_stamps (s := { s.limitedTold f with stu := { s.stu with pendingMark := none } }) depth _,
    (State.lapOldest_keeps { s.limitedTold f with stu := { s.stu with pendingMark := none } }).1⟩

theorem State.stampWritten_counts (s : State) (f : FrameSet) (l : Link) {n : Fin 16} (other : n ≠ 14) :
    ((s.stampWritten f).cnd.counts l)[n] = ((s.limitedTold f).cnd.counts l)[n] := by
  obtain ⟨_, counts, _⟩ := State.lapOldest_keeps { s.limitedTold f with stu := { s.stu with pendingMark := none } }
  exact counts l n other

theorem State.limitedTold_counts (s : State) (f : FrameSet) (l : Link) (n : Fin 16) :
    ((s.limitedTold f).cnd.counts l)[n]
      = if (f.lightLimited = true ∧ s.fxc.prevLimited = false) ∧ l = .tether ∧ n = 10
        then min 255 ((s.cnd.counts l)[n] + 1) else (s.cnd.counts l)[n] := by
  unfold State.limitedTold
  by_cases first : f.lightLimited = true ∧ s.fxc.prevLimited = false
  · rw [if_pos (by simp [first]), State.raise, State.raiseFor_counts]
    simp [first, Condition.audience, Condition.latch]
  · rw [if_neg (by simpa using first), if_neg (fun both => first both.1)]

theorem State.stillTold_counts (u : State) (still : Option PendingStill) (frame : Count) (l : Link) (n : Fin 16) :
    ((u.stillTold still frame).cnd.counts l)[n]
      = match still with
        | some p =>
          if p.frame = frame ∧ p.requester = l ∧ n = 13 then min 255 ((u.cnd.counts l)[n] + 1)
          else (u.cnd.counts l)[n]
        | none => (u.cnd.counts l)[n] := by
  unfold State.stillTold
  cases still with
  | none => rfl
  | some p =>
    dsimp only
    by_cases done : p.frame = frame
    · rw [if_pos done, State.raiseFor_counts]
      simp [done, Condition.audience, Condition.latch, eq_comm]
    · rw [if_neg done, if_neg (fun both => done both.1)]

/-- LIGHT_LIMITED at a boundary. -/
theorem State.boundaryTold_limited (s : State) (f : FrameSet) :
    ((s.boundaryTold f).cnd.counts .tether)[(10 : Fin 16)]
      = if f.lightLimited = true ∧ s.fxc.prevLimited = false
        then min 255 ((s.cnd.counts .tether)[(10 : Fin 16)] + 1) else (s.cnd.counts .tether)[(10 : Fin 16)] := by
  have written : ((s.boundaryTold f).cnd.counts .tether)[(10 : Fin 16)]
      = ((s.stampWritten f).cnd.counts .tether)[(10 : Fin 16)] := by
    rw [State.boundaryTold, State.stillTold_counts]
    cases s.fxc.pendingStill <;> simp
  rw [written, State.stampWritten_counts s f .tether (by decide), State.limitedTold_counts]
  simp

/-- STILL_DONE at a boundary. -/
theorem State.boundaryTold_still (s : State) (f : FrameSet) (l : Link) :
    ((s.boundaryTold f).cnd.counts l)[(13 : Fin 16)]
      = match s.fxc.pendingStill with
        | some p =>
          if p.frame = s.fxc.counter ∧ p.requester = l then min 255 ((s.cnd.counts l)[(13 : Fin 16)] + 1)
          else (s.cnd.counts l)[(13 : Fin 16)]
        | none => (s.cnd.counts l)[(13 : Fin 16)] := by
  have before : ((s.stampWritten f).cnd.counts l)[(13 : Fin 16)] = (s.cnd.counts l)[(13 : Fin 16)] := by
    rw [State.stampWritten_counts s f l (by decide), State.limitedTold_counts, if_neg (by simp)]
  rw [State.boundaryTold, State.stillTold_counts, before]
  cases s.fxc.pendingStill <;> simp

theorem State.boundaryTold_sameTether (s : State) (f : FrameSet) : SameTether s (s.boundaryTold f) := by
  have limited : SameTether s (s.limitedTold f) := by
    unfold State.limitedTold
    split
    · exact s.raiseFor_sameTether _ _
    · exact .refl s
  obtain ⟨_, _, written⟩ := State.lapOldest_keeps { s.limitedTold f with stu := { s.stu with pendingMark := none } }
  have told (u : State) (still : Option PendingStill) (frame : Count) : SameTether u (u.stillTold still frame) := by
    unfold State.stillTold
    split
    · split
      · exact u.raiseFor_sameTether _ _
      · exact .refl u
    · exact .refl u
  exact (limited.trans written).trans (told (s.stampWritten f) _ _)

/-! ## The first boundary and the start-up write -/

theorem SensorPort.startingUp_eq_false {p : SensorPort} (plain : ∀ w, p.write = some w → w.period = none) :
    p.startingUp = false := by
  unfold SensorPort.startingUp
  cases write : p.write with
  | none => rfl
  | some w => simp [plain w write]

theorem FrameTimer.endingSlot_of_first {f : FrameTimer} (first : f.ended = none) : f.endingSlot = f.current := by
  unfold FrameTimer.endingSlot
  rw [first]
  split <;> rfl

/-- Settles O21. -/
theorem firstBoundaryKeepsTheStartUpSet : Obligations.FirstBoundaryKeepsTheStartUpSet := by
  intro dt s
  refine ⟨fun w tf write starts => ⟨?_, ?_⟩, fun plain first depth => ?_⟩
  · have held : s.ssp.startingUp = true := by simp [SensorPort.startingUp, write, starts]
    have kept : (s.elapse dt).boundary = s.elapse dt := if_pos held
    exact congrArg Host.Outcome.next kept
  · have written : (s.elapse dt).startupWritten
        = { s.elapse dt with ssp := ⟨none, (List.range 8).map (Config.sensorByte (some tf) w.exposure w.gain)⟩ } := by
      simp [State.startupWritten, write, starts, SensorWrite.bytes, SensorWrite.size]
    exact congrArg Host.Outcome.next written
  · have boundary := State.boundary_eq (s := s.elapse dt) (SensorPort.startingUp_eq_false plain)
    rw [show (s.elapse dt).fxc.ended = none from first,
      show (s.elapse dt).fxc.endingSlot = s.fxc.current from FrameTimer.endingSlot_of_first first] at boundary
    refine ⟨_, congrArg Host.Outcome.next boundary, rfl, rfl, rfl, rfl, rfl, rfl, rfl, rfl, rfl, ?_⟩
    obtain ⟨stamps, _⟩ := (s.elapse dt).boundaryTold s.fxc.current.set |>.streamDecision_keeps
    obtain ⟨ring, _⟩ := State.boundaryTold_stamps (s := s.elapse dt) depth s.fxc.current.set
    refine (congrArg (fun l : List Stamp => l.getLast?.map (·.frame)) (stamps.trans ring)).trans ?_
    have short : ((s.elapse dt).stu.stamps ++ [(s.elapse dt).endingStamp s.fxc.current.set]).length - 128
        ≤ (s.elapse dt).stu.stamps.length := by
      simp only [List.length_append, List.length_singleton]
      omega
    rw [List.drop_append_of_le_length short, List.getLast?_append]
    rfl

end Sys2Proof.Machine
end

