-- ==== Sys2Proof/Proofs/BoundaryFrame.lean ====
section
/-! PROOFS. A boundary after the first, and the outcomes of a commit (spec/03 sections 3.1, 3.2 and 3.4). -/

namespace Sys2Proof.Machine

/-! ## What a boundary reads of the head and the lamp -/

theorem AxisRecord.atRest_iff (a : AxisRecord) : a.atRest = true ↔ a.state = .unhomed ∨ a.state = .idle := by
  simp [AxisRecord.atRest]

theorem HeadPositioner.atRest_iff (h : HeadPositioner) :
    h.atRest = true ↔ (h.pan.state = .unhomed ∨ h.pan.state = .idle) ∧ (h.tilt.state = .unhomed ∨ h.tilt.state = .idle) := by
  rw [HeadPositioner.atRest, Bool.and_eq_true, AxisRecord.atRest_iff, AxisRecord.atRest_iff]

theorem State.movingFlag_eq (s : State) (boundary exposure : Nat) : s.movingFlag boundary exposure
    = decide (¬((s.hdp.pan.state = .unhomed ∨ s.hdp.pan.state = .idle)
          ∧ (s.hdp.tilt.state = .unhomed ∨ s.hdp.tilt.state = .idle))
        ∨ (boundary : Int) - exposure ≤ s.hdp.restTime) := by
  rw [Bool.eq_iff_iff, decide_eq_true_iff, ← HeadPositioner.atRest_iff]
  simp [State.movingFlag]

theorem HeadPositioner.inMotion_eq (h : HeadPositioner) : h.inMotion
    = decide (¬((h.pan.state = .unhomed ∨ h.pan.state = .idle) ∧ (h.tilt.state = .unhomed ∨ h.tilt.state = .idle))
        ∨ h.demand = true) := by
  rw [Bool.eq_iff_iff, decide_eq_true_iff, ← HeadPositioner.atRest_iff]
  simp [HeadPositioner.inMotion]

theorem State.sourceInForce_eq (s : State) : s.sourceInForce
    = if s.ldr.override.isSome = true ∨ s.set.num .lampSource = 1 then .manual
      else if s.set.num .lampSource = 0 then .auto else .off := by
  unfold State.sourceInForce LampSource.ofCode
  cases s.ldr.override with
  | none =>
    by_cases auto : s.set.num .lampSource = 0
    · simp [auto]
    · simp [auto]
  | some v => simp

theorem State.manualInForce_eq (s : State) : s.manualInForce = s.ldr.override.getD (s.set.nat .lampManual) := by
  unfold State.manualInForce
  cases s.ldr.override <;> rfl

theorem count_ne_succ (c : Count) : c ≠ c + 1 := by
  intro same
  bv_omega

/-- The still that a computation finds pending is not the one that the boundary ends. -/
theorem still_of_left (still : Option PendingStill) (c : Count) :
    (match stillLeft still c with
      | some p => if p.frame = c + 1 then some p.clean else none
      | none => none)
      = match still with
        | some p => if p.frame = c + 1 then some p.clean else none
        | none => none := by
  cases still with
  | none => rfl
  | some p =>
    unfold stillLeft
    by_cases ends : p.frame = c
    · simp only [ends, if_true, count_ne_succ, if_false]
    · simp only [ends, if_false]

theorem FrameTimer.endingSlot_of_ended {f : FrameTimer} {before : PipeSlot} (ended : f.ended = some before) :
    f.endingSlot = if f.current.settled = true then f.current else ⟨before.set.lateCopy, before.profile, true⟩ := by
  unfold FrameTimer.endingSlot
  rw [ended]

theorem State.limitedTold_eq (s : State) (f : FrameSet) : s.limitedTold f
    = if f.lightLimited = true ∧ s.fxc.prevLimited = false then s.raise .lightLimited else s := by
  unfold State.limitedTold
  simp only [Bool.and_eq_true, Bool.not_eq_true']

/-! ## The boundary after the first -/

/-- Settles O22: the boundary's parts, read one by one. -/
theorem boundaryEndsTheFrame : Obligations.BoundaryEndsTheFrame := by
  intro dt s before plain ended depth now slot f middle reached rests stamp ring formed still num nat tf lines demand
    power inputs computed weights right bottom window overlay limited written told decided
  have slotEq : (s.elapse dt).fxc.endingSlot = slot := FrameTimer.endingSlot_of_ended ended
  have stampEq : (s.elapse dt).endingStamp f = stamp := by
    unfold State.endingStamp State.buildStamp
    rw [State.movingFlag_eq]
    rfl
  have toldEq : (s.elapse dt).boundaryTold f = told := by
    unfold State.boundaryTold State.stampWritten
    rw [State.limitedTold_eq, stampEq]
    rfl
  have inputsEq : ((s.elapse dt).movedOn slot).exposureInputs before.set = inputs := by
    unfold State.exposureInputs
    rw [State.sourceInForce_eq, State.manualInForce_eq, HeadPositioner.inMotion_eq]
    exact congrArg (fun d : Option Bool => { inputs with still := d }) (still_of_left s.fxc.pendingStill s.fxc.counter)
  have boundary := State.boundary_eq (s := s.elapse dt) (SensorPort.startingUp_eq_false plain)
  rw [show (s.elapse dt).fxc.ended = some before from ended, slotEq, toldEq] at boundary
  obtain ⟨stamps, mark, counts, tether⟩ := told.streamDecision_keeps
  have limitedCount := (s.elapse dt).boundaryTold_limited f
  have stillCount := (s.elapse dt).boundaryTold_still f
  have same := (s.elapse dt).boundaryTold_sameTether f
  obtain ⟨ringTold, markTold⟩ := State.boundaryTold_stamps (s := s.elapse dt) depth f
  rw [toldEq] at limitedCount stillCount same ringTold markTold
  rw [stampEq] at ringTold
  refine ⟨_, congrArg Host.Outcome.next boundary, ?_, stamps.trans ringTold, mark.trans markTold, rfl, rfl, rfl, ?_, rfl,
    ?_, ?_, rfl, ?_⟩
  · have fxc : (((s.elapse dt).movedOn slot).computeSet before.set).fxc
        = { ((s.elapse dt).movedOn slot).fxc with
            current := ⟨inputs.solve, weights, false⟩
            commits := ((s.elapse dt).movedOn slot).fxc.commits
              ++ [⟨0, inputs.solve, weights, now + 4000, s.hdp.demand, inputs.headLimit⟩] } := by
      unfold State.computeSet
      rw [inputsEq]
      rfl
    exact fxc
  · have overlaid : (s.elapse dt).endingOverlay f = (s.compose stamp overlay s.stu.pendingMark).ovg := by
      unfold State.endingOverlay
      rw [stampEq]
      rfl
    exact overlaid
  · exact (congrArg (fun c : Conditions => (c.counts .tether)[(10 : Fin 16)]) counts).trans limitedCount
  · exact fun l => (congrArg (fun c : Conditions => (c.counts l)[(13 : Fin 16)]) counts).trans (stillCount l)
  · have outcome : decided.tlp = { s.tlp with transmit := decided.tlp.transmit, line := decided.tlp.line } :=
      same.trans tether
    exact congrArg (fun p : TetherPort => { (((s.elapse dt).movedOn slot).computeSet before.set).timeWindow with
      stu := decided.stu, cnd := decided.cnd, tlp := p }) outcome

end Sys2Proof.Machine
end

