-- ==== Sys2Proof/Proofs/CommitOutcomes.lean ====
section
/-! PROOFS. The outcomes of a commit (spec/03 sections 3.2 and 3.4, spec/04 sections 4.1 and 4.2). -/

namespace Sys2Proof.Machine

theorem SensorPort.allSent_of_write {p : SensorPort} {w : SensorWrite} (write : p.write = some w)
    (plain : w.period = none) : p.allSent = decide (6 ≤ p.sent.length) := by
  simp [SensorPort.allSent, write, SensorWrite.size, plain]

theorem SensorPort.startingUp_of_write {p : SensorPort} {w : SensorWrite} (write : p.write = some w)
    (plain : w.period = none) : p.startingUp = false := by
  simp [SensorPort.startingUp, write, plain]

theorem SensorPort.allSent_of_idle {p : SensorPort} (idle : p.write = none) : p.allSent = false := by
  simp [SensorPort.allSent, idle]

/-! ## The write of the oldest set -/

theorem State.writeStarts_of_idle {s : State} {c : Commit} {rest : List Commit} (idle : s.ssp.write = none)
    (waits : s.fxc.commits = c :: rest) :
    s.writeStarts = { s with ssp := ⟨some ⟨none, c.set.exposure, c.set.gain⟩, []⟩ } := by
  simp only [State.writeStarts, idle, waits]

theorem State.writeStarts_of_busy {s : State} {w : SensorWrite} (busy : s.ssp.write = some w) : s.writeStarts = s := by
  simp only [State.writeStarts, busy]

theorem State.writeCompletes_of_sent {s : State} {c : Commit} {rest : List Commit} (waits : s.fxc.commits = c :: rest)
    (sent : s.ssp.allSent = true) (plain : s.ssp.startingUp = false) :
    s.writeCompletes = s.commitOutcome c rest ⟨{ c.set with late := false }, c.profile, true⟩ := by
  simp [State.writeCompletes, waits, sent, plain]

theorem State.writeCompletes_of_unsent {s : State} {c : Commit} {rest : List Commit} (waits : s.fxc.commits = c :: rest)
    (unsent : s.ssp.allSent = false) : s.writeCompletes = s := by
  simp [State.writeCompletes, waits, unsent]

theorem State.commitExpires_of_due {s : State} {c : Commit} {rest : List Commit} (waits : s.fxc.commits = c :: rest)
    (due : c.deadline ≤ s.timeBase) (unsent : s.ssp.allSent = false) :
    s.commitExpires = s.commitOutcome c rest (s.fxc.lateSlot c.age c) := by
  simp only [State.commitExpires, waits]
  exact if_pos ⟨due, unsent⟩

theorem State.commitExpires_of_early {s : State} {c : Commit} {rest : List Commit} (waits : s.fxc.commits = c :: rest)
    (early : ¬ (c.deadline ≤ s.timeBase ∧ s.ssp.allSent = false)) : s.commitExpires = s := by
  simp only [State.commitExpires, waits]
  exact if_neg early

/-! ## Placing the applied set -/

/-- What a commit outcome leaves when clearance is not given at it. -/
def State.applied (s : State) (rest : List Commit) (frame : Count) (slot : PipeSlot) (placed : FrameTimer) : State :=
  { s with
    ssp := s.ssp.release
    fxc := { placed with commits := rest }
    ldr := s.ldr.drive frame slot.set slot.profile }

theorem State.commitOutcome_current {s : State} {c : Commit} (rest : List Commit) (slot : PipeSlot) (fresh : c.age = 0) :
    s.commitOutcome c rest slot
      = (s.applied rest s.fxc.counter slot { s.fxc with current := slot }).clearanceAt c slot.set := by
  unfold State.commitOutcome
  rw [fresh, show s.fxc.counter - BitVec.ofNat 32 0 = s.fxc.counter from BitVec.sub_zero _]
  rfl

theorem State.commitOutcome_ended {s : State} {c : Commit} (rest : List Commit) (slot : PipeSlot) (passed : c.age = 1) :
    s.commitOutcome c rest slot
      = (s.applied rest (s.fxc.counter - 1) slot { s.fxc with ended := some slot }).clearanceAt c slot.set := by
  unfold State.commitOutcome
  rw [passed]
  rfl

theorem FrameTimer.lateSlot_of_fresh {f : FrameTimer} {p : PipeSlot} {age : Nat} (c : Commit) (ended : f.ended = some p)
    (fresh : age = 0) : f.lateSlot age c = ⟨p.set.lateCopy, p.profile, true⟩ := by
  simp [FrameTimer.lateSlot, ended, fresh]

/-- Settles O23. -/
theorem commitOutcomesFixTheAppliedSet : Obligations.CommitOutcomesFixTheAppliedSet := by
  intro dt s c rest waits now level driven cleared outcome lateOutcome
  have waiting : (s.elapse dt).fxc.commits = c :: rest := waits
  have current (slot : PipeSlot) (settled : slot.settled = true) (fresh : c.age = 0) :
      (s.elapse dt).commitOutcome c rest slot = outcome slot.set slot.profile := by
    obtain ⟨f, w, _⟩ := slot
    subst settled
    exact State.commitOutcome_current rest _ fresh
  have ended (slot : PipeSlot) (settled : slot.settled = true) (passed : c.age = 1) :
      (s.elapse dt).commitOutcome c rest slot = lateOutcome slot.set slot.profile := by
    obtain ⟨f, w, _⟩ := slot
    subst settled
    exact State.commitOutcome_ended rest _ passed
  refine ⟨fun idle => ⟨?_, ?_⟩, fun w write plain => ?_, fun p before fresh due few => ?_, fun early => ?_⟩
  · exact congrArg Host.Outcome.next (State.writeStarts_of_idle (s := s.elapse dt) idle waiting)
  · exact congrArg Host.Outcome.next
      (State.writeCompletes_of_unsent (s := s.elapse dt) waiting (SensorPort.allSent_of_idle idle))
  · have sent : (s.elapse dt).ssp.allSent = decide (6 ≤ s.ssp.sent.length) := SensorPort.allSent_of_write write plain
    have running : (s.elapse dt).ssp.startingUp = false := SensorPort.startingUp_of_write write plain
    refine ⟨?_, fun all fresh => ?_, fun all passed => ?_, fun all => ?_, fun few => ?_⟩
    · exact congrArg Host.Outcome.next (State.writeStarts_of_busy (s := s.elapse dt) write)
    · exact congrArg Host.Outcome.next ((State.writeCompletes_of_sent waiting (sent.trans (decide_eq_true all)) running).trans
        (current _ rfl fresh))
    · exact congrArg Host.Outcome.next ((State.writeCompletes_of_sent waiting (sent.trans (decide_eq_true all)) running).trans
        (ended _ rfl passed))
    · exact congrArg Host.Outcome.next
        (State.commitExpires_of_early waiting fun both =>
          absurd both.2 (by rw [sent, decide_eq_true all]; decide))
    · exact congrArg Host.Outcome.next
        (State.writeCompletes_of_unsent waiting (sent.trans (decide_eq_false (Nat.not_le.mpr few))))
  · have unsent : (s.elapse dt).ssp.allSent = false := by
      cases write : s.ssp.write with
      | none => exact SensorPort.allSent_of_idle write
      | some w =>
        have size : 6 ≤ w.size := by
          unfold SensorWrite.size
          split <;> omega
        have short : ¬ w.size ≤ s.ssp.sent.length := Nat.not_le.mpr (Nat.lt_of_lt_of_le (few w write) size)
        have unsent : s.ssp.allSent = false := by simp [SensorPort.allSent, write, short]
        exact unsent
    have expired := State.commitExpires_of_due (s := s.elapse dt) waiting due unsent
    rw [FrameTimer.lateSlot_of_fresh c (show (s.elapse dt).fxc.ended = some p from before) fresh] at expired
    exact congrArg Host.Outcome.next (expired.trans (current _ rfl fresh))
  · exact congrArg Host.Outcome.next
      (State.commitExpires_of_early (s := s.elapse dt) waiting fun both => absurd both.1 (Nat.not_le.mpr early))

end Sys2Proof.Machine
end

