-- ==== Sys2Proof/Proofs/Wire.lean ====
section
/-! PROOFS. Frames on the wire (spec/10 section 10.1, spec/12 section 12.1): the encoded fields, and what the two receive
framers make of a run of bytes. -/

namespace Sys2Proof.Machine

/-! ## The encoded fields (spec/12 section 12.1) -/

theorem u8_toNat (a : Byte) : u8 a.toNat = [a] := by simp [u8]

theorem u16_pair (a b : Byte) : u16 (a.toNat * 256 + b.toNat) = [a, b] := by
  have high : BitVec.ofNat 8 ((a.toNat * 256 + b.toNat) / 256) = a := by
    apply BitVec.eq_of_toNat_eq
    rw [BitVec.toNat_ofNat]
    omega
  have low : BitVec.ofNat 8 (a.toNat * 256 + b.toNat) = b := by
    apply BitVec.eq_of_toNat_eq
    rw [BitVec.toNat_ofNat]
    omega
  rw [u16, high, low]

theorem u16At_pair (a b : Byte) : u16At [a, b] 0 = a.toNat * 256 + b.toNat := by simp [u16At, byteAt]

theorem u32At_quad (a b c d : Byte) :
    u32At [a, b, c, d] 0 = (a.toNat * 256 + b.toNat) * 65536 + (c.toNat * 256 + d.toNat) := by
  simp [u32At, u16At, byteAt]

theorem u32_quad (a b c d : Byte) :
    u32 (((a.toNat * 256 + b.toNat) * 256 + c.toNat) * 256 + d.toNat) = [a, b, c, d] := by
  have high : (((a.toNat * 256 + b.toNat) * 256 + c.toNat) * 256 + d.toNat) / 65536 = a.toNat * 256 + b.toNat := by omega
  have low : (((a.toNat * 256 + b.toNat) * 256 + c.toNat) * 256 + d.toNat) % 65536 = c.toNat * 256 + d.toNat := by omega
  rw [u32, high, low, u16_pair, u16_pair]
  rfl

theorem u16At_u16 (n : Nat) : u16At (u16 n) 0 = n % 65536 := by
  rw [u16, u16At_pair, BitVec.toNat_ofNat, BitVec.toNat_ofNat]
  omega

theorem u32At_u32 (n : Nat) : u32At (u32 n) 0 = n % 4294967296 := by
  have halves : u32At (u32 n) 0 = u16At (u16 (n / 65536)) 0 * 65536 + u16At (u16 (n % 65536)) 0 := rfl
  rw [halves, u16At_u16, u16At_u16]
  omega

theorem s16_eq {v : Int} (least : -32768 ≤ v) (most : v ≤ 32767) : s16 v = u16 (if v < 0 then v + 65536 else v).toNat := by
  have residue : v % 65536 = if v < 0 then v + 65536 else v := by split <;> omega
  rw [s16, residue]

theorem s16At_s16 {v : Int} (least : -32768 ≤ v) (most : v ≤ 32767) : s16At (s16 v) 0 = v := by
  unfold s16At s16
  rw [u16At_u16]
  dsimp only
  split <;> omega

theorem s16optAt_s16 {v : Int} (least : -32768 < v) (most : v ≤ 32767) : s16optAt (s16 v) 0 = some v := by
  have held : u16At (s16 v) 0 ≠ 32768 := by
    rw [s16, u16At_u16]
    omega
  rw [s16optAt, if_neg held, s16At_s16 (Int.le_of_lt least) most]

theorem s32_eq {v : Int} (least : -2147483648 ≤ v) (most : v ≤ 2147483647) :
    s32 v = u32 (if v < 0 then v + 4294967296 else v).toNat := by
  have residue : v % 4294967296 = if v < 0 then v + 4294967296 else v := by split <;> omega
  rw [s32, residue]

theorem s32At_s32 {v : Int} (least : -2147483648 ≤ v) (most : v ≤ 2147483647) : s32At (s32 v) 0 = v := by
  unfold s32At s32
  rw [u32At_u32]
  dsimp only
  split <;> omega

/-- The number whose bits, from the least significant one on, are a list. -/
def bitsValue (bits : List Bool) : Nat := bits.foldr (fun b n => 2 * n + (if b then 1 else 0)) 0

theorem bitsValue_testBit (bits : List Bool) (n : Nat) : (bitsValue bits).testBit n = bits.getD n false := by
  induction bits generalizing n with
  | nil => simp [bitsValue]
  | cons b bits ih =>
    have value : bitsValue (b :: bits) = 2 * bitsValue bits + (if b then 1 else 0) := rfl
    have half : bitsValue (b :: bits) / 2 = bitsValue bits := by
      rw [value]
      split <;> omega
    cases n with
    | zero => cases b <;> simp [value, Nat.testBit_zero]
    | succ n => rw [Nat.testBit_succ, half, ih, List.getD_cons_succ]

theorem flags_getLsbD (bits : List Bool) {n : Nat} (inside : n < 8) :
    (BitVec.ofNat 8 (bitsValue bits)).getLsbD n = bits.getD n false := by
  rw [BitVec.getLsbD_ofNat, bitsValue_testBit]
  simp [inside]

/-! ## Feeding a framer -/

theorem feedRun_single (feed : Framer → Byte → Framer × Option RxEvent) (f : Framer) (b : Byte) :
    feedRun feed f [b] = some (feed f b) := rfl

theorem feedRun_quiet {feed : Framer → Byte → Framer × Option RxEvent} {f g : Framer} {b : Byte}
    (quiet : feed f b = (g, none)) (rest : List Byte) : feedRun feed f (b :: rest) = feedRun feed g rest := by
  cases rest with
  | nil => exact congrArg some quiet
  | cons c rest => simp only [feedRun, quiet]

/-- A link carries body bytes in an encoding: the encoded byte collects it. -/
structure Carries (feed : Framer → Byte → Framer × Option RxEvent) (encode : Byte → List Byte) : Prop where
  last : ∀ (pre : List Byte) (b : Byte),
    feedRun feed (.collecting false pre) (encode b) = some (collect pre b)
  more : ∀ (pre : List Byte) (b : Byte) (rest : List Byte), collect pre b = (.collecting false (pre ++ [b]), none) →
    feedRun feed (.collecting false pre) (encode b ++ rest) = feedRun feed (.collecting false (pre ++ [b])) rest

theorem carriage_carries : Carries carriageFeed (fun b => [b]) where
  last _ _ := rfl
  more _ _ rest quiet := feedRun_quiet quiet rest

theorem tetherFeed_escaped (pre : List Byte) {b : Byte} (escaped : b = 0x7E ∨ b = 0x7D) :
    tetherFeed (.collecting true pre) (b ^^^ 0x20) = collect pre b := by
  rcases escaped with rfl | rfl <;> rfl

theorem tetherFeed_plain (pre : List Byte) {b : Byte} (plain : ¬ (b = 0x7E ∨ b = 0x7D)) :
    tetherFeed (.collecting false pre) b = collect pre b := by
  obtain ⟨flag, escape⟩ := not_or.mp plain
  unfold tetherFeed
  dsimp only
  rw [if_neg flag, if_neg Bool.false_ne_true, if_neg escape]

theorem tether_carries : Carries tetherFeed escapeByte where
  last pre b := by
    unfold escapeByte
    split
    · next escaped =>
      rw [feedRun_quiet (show tetherFeed (.collecting false pre) 0x7D = (.collecting true pre, none) from rfl),
        feedRun_single, tetherFeed_escaped pre escaped]
    · next plain => rw [feedRun_single, tetherFeed_plain pre plain]
  more pre b rest quiet := by
    unfold escapeByte
    split
    · next escaped =>
      rw [List.cons_append,
        feedRun_quiet (show tetherFeed (.collecting false pre) 0x7D = (.collecting true pre, none) from rfl),
        List.cons_append, feedRun_quiet ((tetherFeed_escaped pre escaped).trans quiet), List.nil_append]
    · next plain =>
      rw [List.cons_append, feedRun_quiet ((tetherFeed_plain pre plain).trans quiet), List.nil_append]

/-- The bytes of a whole frame: a LEN in range with as many bytes as it says. -/
structure WholeFrame (bytes : List Byte) : Prop where
  inRange : badLen (byteAt bytes 0) = false
  length : bytes.length = byteAt bytes 0 + 3

/-- A hunting framer's frame, once begun, ends with its last byte in the judgement of its CRC. -/
theorem Carries.collects {feed : Framer → Byte → Framer × Option RxEvent} {encode : Byte → List Byte}
    (carries : Carries feed encode) {pre rest : List Byte} (comes : rest ≠ []) (whole : WholeFrame (pre ++ rest)) :
    feedRun feed (.collecting false pre) (rest.flatMap encode) = some (.hunt, some (checkBody (pre ++ rest))) := by
  induction rest generalizing pre with
  | nil => exact absurd rfl comes
  | cons b rest ih =>
    obtain ⟨inRange, length⟩ := id whole
    have split : pre ++ b :: rest = (pre ++ [b]) ++ rest := by simp
    have len : byteAt (pre ++ b :: rest) 0 = byteAt (pre ++ [b]) 0 := by cases pre <;> rfl
    rw [len] at inRange length
    rw [List.length_append, List.length_cons] at length
    cases rest with
    | nil =>
      have done : collect pre b = (.hunt, some (checkBody (pre ++ [b]))) := by
        unfold collect
        dsimp only
        rw [if_neg (by rw [inRange]; decide), if_pos (by simpa using length)]
      simpa [done] using carries.last pre b
    | cons c rest =>
      have quiet : collect pre b = (.collecting false (pre ++ [b]), none) := by
        unfold collect
        dsimp only
        rw [if_neg (by rw [inRange]; decide), if_neg]
        rw [List.length_append, List.length_singleton]
        rw [List.length_cons] at length
        omega
      rw [List.flatMap_cons, carries.more pre b _ quiet, ih (by simp) (split ▸ whole), split]

/-! ## A frame's bytes -/

theorem Frame.body_length (f : Frame) : f.body.length = f.payload.length + 3 := rfl

theorem crcBytes_length (body : List Byte) : (crcBytes body).length = 2 := rfl

/-- The body of a frame whose payload fits, behind any two CRC bytes, is a whole frame. -/
theorem Frame.body_whole {f : Frame} (fits : f.payload.length ≤ 120) (x y : Byte) : WholeFrame (f.body ++ [x, y]) := by
  have len : byteAt (f.body ++ [x, y]) 0 = 2 + f.payload.length := by
    have first : byteAt (f.body ++ [x, y]) 0 = (BitVec.ofNat 8 (2 + f.payload.length)).toNat := rfl
    rw [first, BitVec.toNat_ofNat]
    omega
  constructor
  · rw [len]
    simp [badLen]
    omega
  · rw [len, List.length_append, Frame.body_length]
    simp only [List.length_cons, List.length_nil]
    omega

theorem Frame.checkBody_eq (f : Frame) (x y : Byte) :
    checkBody (f.body ++ [x, y]) = if [x, y] = crcBytes f.body then .valid f else .crcError := by
  have before : (f.body ++ [x, y]).length - 2 = f.body.length := by simp
  unfold checkBody
  rw [before, List.take_left, List.drop_left]
  rfl

/-- A frame's body and two CRC bytes, on a link that hunts. -/
theorem Carries.frame {feed : Framer → Byte → Framer × Option RxEvent} {encode : Byte → List Byte}
    (carries : Carries feed encode) (opens : feed .hunt 0x7E = (.collecting false [], none)) {f : Frame}
    (fits : f.payload.length ≤ 120) (x y : Byte) :
    feedRun feed .hunt (0x7E :: (f.body ++ [x, y]).flatMap encode)
      = some (.hunt, some (if [x, y] = crcBytes f.body then .valid f else .crcError)) := by
  have run := carries.collects (pre := []) (rest := f.body ++ [x, y]) (by simp) (Frame.body_whole fits x y)
  rw [List.nil_append, Frame.checkBody_eq] at run
  exact (feedRun_quiet opens _).trans run

theorem crcBytes_eq (body : List Byte) :
    crcBytes body = [BitVec.ofNat 8 ((crc16 body).toNat / 256), BitVec.ofNat 8 (crc16 body).toNat] := rfl

theorem flatMap_bytes (l : List Byte) : l.flatMap (fun b => [b]) = l := by simp

theorem feedRun_tether {f : Frame} (fits : f.payload.length ≤ 120) :
    feedRun tetherFeed .hunt f.tetherBytes = some (.hunt, some (.valid f)) :=
  (tether_carries.frame rfl fits _ _).trans (by rw [if_pos (crcBytes_eq f.body).symm])

theorem feedRun_carriage {f : Frame} (fits : f.payload.length ≤ 120) :
    feedRun carriageFeed .hunt f.carriageBytes = some (.hunt, some (.valid f)) := by
  have plain := carriage_carries.frame rfl fits (BitVec.ofNat 8 ((crc16 f.body).toNat / 256))
    (BitVec.ofNat 8 (crc16 f.body).toNat)
  rw [flatMap_bytes, if_pos (crcBytes_eq f.body).symm] at plain
  exact plain

theorem feedRun_tether_wrong {f : Frame} (fits : f.payload.length ≤ 120) {x y : Byte} (wrong : [x, y] ≠ crcBytes f.body) :
    feedRun tetherFeed .hunt (0x7E :: (f.body ++ [x, y]).flatMap escapeByte) = some (.hunt, some .crcError) :=
  (tether_carries.frame rfl fits x y).trans (by rw [if_neg wrong])

theorem feedRun_carriage_wrong {f : Frame} (fits : f.payload.length ≤ 120) {x y : Byte}
    (wrong : [x, y] ≠ crcBytes f.body) :
    feedRun carriageFeed .hunt (0x7E :: (f.body ++ [x, y])) = some (.hunt, some .crcError) := by
  have plain := carriage_carries.frame rfl fits x y
  rw [flatMap_bytes, if_neg wrong] at plain
  exact plain

theorem crc16_append (l : List Byte) (b : Byte) : crc16 (l ++ [b]) = crcByte (crc16 l) b := by
  rw [crc16, List.foldl_append]
  rfl

/-- Settles O55. -/
theorem framesSurviveTheWire : Obligations.FramesSurviveTheWire := by
  refine ⟨⟨rfl, fun l b => crc16_append l b⟩, ⟨u8_toNat, fun a b => ⟨u16_pair a b, u16At_pair a b⟩, fun a b c d => ⟨u32_quad a b c d, ?_⟩,
    fun v least most => ⟨s16_eq least most, s16At_s16 least most⟩,
    fun v least most => ⟨s32_eq least most, s32At_s32 least most⟩,
    fun v least most => ⟨rfl, s16optAt_s16 least most, rfl⟩, by decide, by decide, by decide, fun bits _ => ?_⟩, fun f fits => ?_⟩
  · rw [u32At_quad]
    omega
  · exact ⟨BitVec.ofNat 8 (bitsValue bits), rfl, fun n inside => flags_getLsbD bits inside⟩
  · exact ⟨rfl, rfl, rfl, rfl, feedRun_tether fits, feedRun_carriage fits,
      fun x y wrong => ⟨feedRun_tether_wrong fits wrong, feedRun_carriage_wrong fits wrong⟩⟩

/-! ## A reel report arrives -/

theorem State.tetherRun_valid {s : State} {f : Frame} (fits : f.payload.length ≤ 120) (hunts : s.tlp.framer = .hunt) :
    s.tetherRun f.tetherBytes = some (.hunt, some (.valid f)) := by
  rw [State.tetherRun, hunts, feedRun_tether fits]

theorem State.putTetherFramer_hunt {s : State} (hunts : s.tlp.framer = .hunt) : s.putTetherFramer .hunt = s := by
  rw [State.putTetherFramer, ← hunts]

/-- Settles O9. -/
theorem reelReportsReachTheReelInput : Obligations.ReelReportsReachTheReelInput := by
  intro dt s tag payload fits hunts
  have arrived : (s.elapse dt).tetherReel (Frame.tetherBytes ⟨tag, 0x01, payload⟩)
      = (s.elapse dt).tetherValid.reelArrival payload := by
    unfold State.tetherReel
    rw [State.tetherRun_valid (s := s.elapse dt) (f := ⟨tag, 0x01, payload⟩) fits hunts]
    dsimp only
    rw [if_pos rfl, State.putTetherFramer_hunt (s := s.elapse dt) hunts]
  exact congrArg Host.Outcome.next arrived

end Sys2Proof.Machine
end

