-- ==== Sys2Proof/Proofs/TetherArrivals.lean ====
section
/-! PROOFS. The frames that arrive on the tether (spec/10 sections 10.1 to 10.3). -/

namespace Sys2Proof.Machine

/-! ## What a framer makes of a bad LEN and of a flag -/

theorem collect_badLen {n : Byte} (bad : n.toNat < 2 ∨ 122 < n.toNat) : collect [] n = (.hunt, some .lengthError) := by
  have out : badLen (byteAt ([] ++ [n]) 0) = true := by
    have first : byteAt ([] ++ [n]) 0 = n.toNat := rfl
    rw [first]
    simpa [badLen] using bad
  unfold collect
  dsimp only
  rw [if_pos out]

theorem feedRun_tether_badLen {n : Byte} (bad : n.toNat < 2 ∨ 122 < n.toNat) (noFlag : n ≠ 0x7E) (noEscape : n ≠ 0x7D) :
    feedRun tetherFeed .hunt [0x7E, n] = some (.hunt, some .lengthError) := by
  rw [feedRun_quiet (show tetherFeed .hunt 0x7E = (.collecting false [], none) from rfl), feedRun_single,
    tetherFeed_plain [] (fun both => both.elim noFlag noEscape), collect_badLen bad]

theorem feedRun_carriage_badLen {n : Byte} (bad : n.toNat < 2 ∨ 122 < n.toNat) :
    feedRun carriageFeed .hunt [0x7E, n] = some (.hunt, some .lengthError) := by
  rw [feedRun_quiet (show carriageFeed .hunt 0x7E = (.collecting false [], none) from rfl), feedRun_single]
  exact congrArg some (collect_badLen bad)

/-! ## A valid frame -/

/-- The tether port with a valid frame counted and its timer restarted. -/
def State.heard (s : State) : TetherPort :=
  { s.tlp with
    alive := s.startTimer (s.set.nat .linkTimeout)
    counters := { s.tlp.counters with valid := sat16 s.tlp.counters.valid 1 } }

theorem State.tetherValid_of_up {s : State} (up : s.tlp.up = true) : s.tetherValid = { s with tlp := s.heard } := by
  unfold State.tetherValid
  dsimp only
  exact if_pos up

theorem State.tetherValid_of_lost {s : State} (lost : s.tlp.up = false) (silent : s.tlp.transmit = []) :
    s.tetherValid = State.streamDecision { s with
      tlp := { s.heard with up := true, transmit := if s.attention .tether = true then [.attention] else [] }
      ldr := { s.ldr with override := none } } := by
  unfold State.tetherValid
  dsimp only
  rw [if_neg (by simp [lost])]
  have awake : ({ s with tlp := { s.tlp with counters := s.heard.counters } } : State).becomeUp
      = State.streamDecision (if s.attention .tether = true
          then State.placeAttention { s with tlp := { s.heard with up := true }, ldr := { s.ldr with override := none } }
          else { s with tlp := { s.heard with up := true }, ldr := { s.ldr with override := none } }) := rfl
  refine awake.trans (congrArg State.streamDecision ?_)
  have heard : s.heard.transmit = [] := silent
  split
  · simp [State.placeAttention, heard]
  · rw [← heard]

theorem State.tetherArrival_of_valid {s : State} {f : Frame} (fits : f.payload.length ≤ 120)
    (hunts : s.tlp.framer = .hunt) (other : f.kind ≠ 0x01) :
    s.tetherArrival f.tetherBytes = { s.tetherValid with tlp := s.tetherValid.tlp.take f } := by
  unfold State.tetherArrival
  rw [State.tetherRun_valid fits hunts]
  dsimp only
  rw [if_neg other, State.putTetherFramer_hunt hunts]

theorem TetherPort.take_drive {t : TetherPort} {f : Frame} (drive : f.kind = 0x02) :
    t.take f = { t with counters := { t.counters with wrongLink := sat16 t.counters.wrongLink 1 } } := if_pos drive

theorem TetherPort.take_room {t : TetherPort} {f : Frame} (request : f.kind ≠ 0x02) (room : t.requests.length ≤ 3) :
    t.take f = { t with requests := t.requests ++ [f] } := by
  unfold TetherPort.take
  rw [if_neg request, if_pos (Nat.lt_succ_of_le room)]

theorem TetherPort.take_full {t : TetherPort} {f : Frame} (request : f.kind ≠ 0x02) (full : 4 ≤ t.requests.length) :
    t.take f = t.refuse f := by
  unfold TetherPort.take
  rw [if_neg request, if_neg (Nat.not_lt.mpr full)]

/-! ## A frame in error -/

theorem State.tetherError_of_run {s : State} {rx : List Byte} {g : Framer} {e : RxEvent} {c : PortCounters}
    (run : feedRun tetherFeed s.tlp.framer rx = some (g, some e)) (counted : s.tlp.counters.countError e = some c) :
    s.tetherError rx = { s with tlp := { s.tlp with framer := g, counters := c } } := by
  unfold State.tetherError State.tetherRun
  rw [run]
  dsimp only
  rw [counted]

/-- Settles O51. -/
theorem tetherFramesArrive : Obligations.TetherFramesArrive := by
  intro dt s f fits hunts one k alive port good arrives
  have arrival (up : s.tlp.up = true) (other : f.kind ≠ 0x01) : arrives = port (good.take f) := by
    have taken := State.tetherArrival_of_valid (s := s.elapse dt) fits hunts other
    rw [State.tetherValid_of_up (s := s.elapse dt) up] at taken
    exact congrArg Host.Outcome.next taken
  have full : good.refusals = s.tlp.refusals := rfl
  have error {rx : List Byte} {e : RxEvent} {c : PortCounters}
      (run : feedRun tetherFeed .hunt rx = some (.hunt, some e)) (counted : s.tlp.counters.countError e = some c) :
      exec (.tetherFrameError dt rx) s = port { s.tlp with counters := c } := by
    rw [← hunts] at run
    exact congrArg Host.Outcome.next (State.tetherError_of_run (s := s.elapse dt) run counted)
  refine ⟨fun up drive => ?_, fun up other request room => ?_, fun up other request busy room => ?_,
    fun up other request busy crowded => ?_, fun lost other request idle silent => ?_, fun n bad noFlag noEscape => ?_, ?_,
    fun x y wrong => error (feedRun_tether_wrong fits wrong) rfl⟩
  · exact (arrival up (by rw [drive]; decide)).trans (congrArg port (TetherPort.take_drive drive))
  · exact (arrival up other).trans (congrArg port (TetherPort.take_room request room))
  · have refused : good.refuse f = { good with
        transmit := s.tlp.transmit ++ [.refusal ⟨f.tag, replyKind f.kind, [3]⟩]
        counters := { good.counters with busy := one k.busy } } := if_pos (Nat.lt_succ_of_le room)
    exact (arrival up other).trans (congrArg port ((TetherPort.take_full (t := good) request busy).trans refused))
  · have dropped : good.refuse f = { good with
        counters := { good.counters with busy := one k.busy, dropped := one k.dropped } } :=
      if_neg (Nat.not_lt.mpr crowded)
    exact (arrival up other).trans (congrArg port ((TetherPort.take_full (t := good) request busy).trans dropped))
  · intro woken decided
    have taken := State.tetherArrival_of_valid (s := s.elapse dt) fits hunts other
    have valid : (s.elapse dt).tetherValid = decided := State.tetherValid_of_lost (s := s.elapse dt) lost silent
    obtain ⟨_, _, _, same⟩ := woken.streamDecision_keeps
    have none : decided.tlp.requests = [] := (congrArg TetherPort.requests same).trans idle
    rw [valid, TetherPort.take_room request (by simp [none]), none] at taken
    exact congrArg Host.Outcome.next taken
  · exact error (feedRun_tether_badLen bad noFlag noEscape) rfl
  · have run : feedRun tetherFeed s.tlp.framer [0x7E, 0x7E] = some (.collecting false [], some .broken) := by
      rw [hunts]
      rfl
    exact congrArg Host.Outcome.next (State.tetherError_of_run (s := s.elapse dt) run rfl)

end Sys2Proof.Machine
end

