-- ==== Sys2Proof/Proofs/CarriagePortRules.lean ====
section
/-! PROOFS. The carriage transactions (spec/10 sections 10.4 and 10.5). -/

namespace Sys2Proof.Machine

/-! ## The reply that is clocked out -/

theorem Frame.carriageBytes_length (f : Frame) : f.carriageBytes.length = f.payload.length + 6 := by
  rw [Frame.carriageBytes, Frame.checked, List.length_cons, List.length_append, Frame.body_length, crcBytes_length]

theorem PendingReply.total_eq (r : PendingReply) : r.total = r.frame.payload.length + 6 := r.frame.carriageBytes_length

theorem CarriagePort.sending_eq (p : CarriagePort) :
    p.sending = if p.transaction = .active true then p.slot else none := by
  unfold CarriagePort.sending
  cases held : p.transaction with
  | absent => rfl
  | ignored => rfl
  | active sending => cases sending <;> rfl

/-- A reply is clocked out in an open transaction that began with one. -/
theorem CarriagePort.sending_some {p : CarriagePort} {r : PendingReply} (active : p.transaction = .active true)
    (slot : p.slot = some r) : p.sending = some r := by rw [p.sending_eq, if_pos active, slot]

theorem CarriagePort.sending_none {p : CarriagePort} (silent : p.transaction ≠ .active true) : p.sending = none := by
  rw [p.sending_eq, if_neg silent]

/-- The slot after `n` more bytes have been clocked. -/
def CarriagePort.clockedSlot (p : CarriagePort) (n : Nat) : Option PendingReply :=
  if p.transaction = .active true then p.slot.map fun r => { r with clocked := r.clocked + n } else p.slot

theorem CarriagePort.clock_eq (p : CarriagePort) (n : Nat) : p.clock n = { p with slot := p.clockedSlot n } := by
  unfold CarriagePort.clock CarriagePort.clockedSlot
  by_cases active : p.transaction = .active true
  · rw [if_pos active]
    cases slot : p.slot with
    | none =>
      rw [p.sending_eq, if_pos active, slot]
      dsimp only [Option.map_none]
      rw [← slot]
    | some r =>
      rw [CarriagePort.sending_some active slot]
      rfl
  · rw [if_neg active, CarriagePort.sending_none active]

theorem CarriagePort.clockedSlot_isSome (p : CarriagePort) (n : Nat) : (p.clockedSlot n).isSome = p.slot.isSome := by
  unfold CarriagePort.clockedSlot
  split <;> simp

theorem CarriagePort.clockedSlot_none {p : CarriagePort} (empty : p.slot = none) (n : Nat) : p.clockedSlot n = none := by
  simp [CarriagePort.clockedSlot, empty]

theorem CarriagePort.within_of_fits {p : CarriagePort} {n : Nat}
    (fits : ∀ r, p.transaction = .active true → p.slot = some r → r.clocked + n ≤ r.frame.payload.length + 6) :
    p.within n = true := by
  unfold CarriagePort.within
  cases sending : p.sending with
  | none => rfl
  | some r =>
    rw [p.sending_eq] at sending
    split at sending
    · next active => exact decide_eq_true (r.total_eq ▸ fits r active sending)
    · cases sending

/-! ## MISO -/

theorem CarriagePort.miso_of_sending {p : CarriagePort} {r : PendingReply} (sending : p.sending = some r) (n : Nat) :
    p.miso n = (r.frame.carriageBytes.drop r.clocked ++ List.replicate n 0).take n := by
  unfold CarriagePort.miso
  rw [sending]

/-- The reply is clocked from its flag on, and 0x00 after its last byte. -/
theorem CarriagePort.miso_past {p : CarriagePort} {r : PendingReply} (sending : p.sending = some r) (n : Nat)
    (fresh : r.clocked = 0) :
    p.miso (r.frame.payload.length + 6 + n) = r.frame.carriageBytes ++ List.replicate n 0 := by
  rw [CarriagePort.miso_of_sending sending, fresh, List.drop_zero, ← Frame.carriageBytes_length,
    List.take_length_add_append, List.take_replicate, Nat.min_eq_left (Nat.le_add_left _ _)]

theorem CarriagePort.miso_inside {p : CarriagePort} {r : PendingReply} (sending : p.sending = some r) {n : Nat}
    (inside : r.clocked + n ≤ r.frame.payload.length + 6) :
    p.miso n = (r.frame.carriageBytes.drop r.clocked).take n := by
  rw [CarriagePort.miso_of_sending sending, List.take_append_of_le_length]
  rw [List.length_drop, Frame.carriageBytes_length]
  omega

/-! ## Frames on MOSI -/

theorem CarriagePort.run_eq {p : CarriagePort} {mosi : List Byte} {sending : Bool} {e : RxEvent}
    (active : p.transaction = .active sending) (within : p.within mosi.length = true)
    (run : feedRun carriageFeed p.framer mosi = some (p.framer, some e)) :
    p.run mosi = some ({ p with slot := p.clockedSlot mosi.length }, e) := by
  have listening : p.listening = true := by simp [CarriagePort.listening, active]
  unfold CarriagePort.run
  rw [listening, within, run, p.clock_eq]
  rfl

theorem CarriagePort.arrival_of_run {p q : CarriagePort} {mosi : List Byte} {f : Frame}
    (run : p.run mosi = some (q, .valid f)) : p.arrival mosi = q.take f := by
  unfold CarriagePort.arrival
  rw [run]

theorem CarriagePort.error_of_run {p q : CarriagePort} {mosi : List Byte} {e : RxEvent} {c : PortCounters}
    (run : p.run mosi = some (q, e)) (counted : q.counters.countError e = some c) :
    p.error mosi = { q with counters := c } := by
  unfold CarriagePort.error
  rw [run]
  dsimp only
  rw [counted]

theorem CarriagePort.strayByte_of_run {p q : CarriagePort} {mosi : List Byte} (run : p.run mosi = some (q, .stray)) :
    p.strayByte mosi = { q with counters := { q.counters with stray := sat16 q.counters.stray 1 } } := by
  unfold CarriagePort.strayByte
  rw [run]

/-- The port with a valid frame counted. -/
def CarriagePort.heard (p : CarriagePort) : CarriagePort :=
  { p with counters := { p.counters with valid := sat16 p.counters.valid 1 } }

theorem CarriagePort.take_reel {p : CarriagePort} {f : Frame} (reel : f.kind = 0x01) : p.take f
    = { p.heard with counters := { p.heard.counters with wrongLink := sat16 p.counters.wrongLink 1 } } := if_pos reel

theorem CarriagePort.take_room {p : CarriagePort} {f : Frame} (request : f.kind ≠ 0x01) (room : p.requests.length ≤ 3) :
    p.take f = { p.heard with requests := p.requests ++ [f] } := by
  unfold CarriagePort.take
  dsimp only
  rw [if_neg request, if_pos (Nat.lt_succ_of_le room)]
  rfl

theorem CarriagePort.take_full {p : CarriagePort} {f : Frame} (request : f.kind ≠ 0x01) (full : 4 ≤ p.requests.length) :
    p.take f = p.heard.refuse f := by
  unfold CarriagePort.take
  dsimp only
  rw [if_neg request, if_neg (Nat.not_lt.mpr full)]
  rfl

theorem CarriagePort.fillSlot_of_full {p : CarriagePort} (full : p.slot.isSome = true) : p.fillSlot = p := by
  obtain ⟨r, held⟩ := Option.isSome_iff_exists.mp full
  unfold CarriagePort.fillSlot
  rw [held]

theorem CarriagePort.fillSlot_of_empty {p : CarriagePort} {f : Frame} {rest : List Frame} (empty : p.slot = none)
    (refused : p.refusals = f :: rest) : p.fillSlot = { p with slot := some ⟨f, 0⟩, refusals := rest } := by
  unfold CarriagePort.fillSlot
  rw [empty, refused]

theorem CarriagePort.fillSlot_of_none {p : CarriagePort} (free : p.refusals = []) : p.fillSlot = p := by
  unfold CarriagePort.fillSlot
  rw [free]
  cases p.slot <;> rfl

theorem CarriagePort.refuse_room {p : CarriagePort} (f : Frame) (room : p.refusals.length ≤ 3) : p.refuse f
    = ({ p with
        counters := { p.counters with busy := sat16 p.counters.busy 1 }
        refusals := p.refusals ++ [busyFrame f] } : CarriagePort).fillSlot := if_pos (Nat.lt_succ_of_le room)

theorem CarriagePort.refuse_crowded {p : CarriagePort} (f : Frame) (crowded : 4 ≤ p.refusals.length) : p.refuse f
    = { p with counters := { p.counters with
        busy := sat16 p.counters.busy 1, dropped := sat16 p.counters.dropped 1 } } := if_neg (Nat.not_lt.mpr crowded)

/-! ## The end of a reply and of a transaction -/

theorem feedRun_carriage_zeros (n : Nat) : feedRun carriageFeed .hunt (List.replicate n 0) = some (.hunt, none) := by
  induction n with
  | zero => rfl
  | succ n ih => rw [List.replicate_succ, feedRun_quiet (show carriageFeed .hunt 0 = (.hunt, none) from rfl), ih]

theorem CarriagePort.delivers_of_last {p : CarriagePort} {r : PendingReply} {n : Nat} (sending : p.sending = some r)
    (hunts : p.framer = .hunt) (last : r.clocked + n = r.frame.payload.length + 6) :
    p.delivers (List.replicate n 0) = ({ p with transaction := .active false, slot := none } : CarriagePort).fillSlot := by
  have quiet : p.quiet (List.replicate n 0) = some p.framer := by
    unfold CarriagePort.quiet
    rw [hunts, feedRun_carriage_zeros]
  unfold CarriagePort.delivers
  rw [sending, quiet]
  dsimp only
  rw [if_pos (by rw [List.length_replicate, r.total_eq, last])]

theorem CarriagePort.closes_of_active {p : CarriagePort} {sending : Bool} (active : p.transaction = .active sending)
    (partway : p.before 0 = true) : p.closes [] = p.close p.framer := by
  unfold CarriagePort.closes
  rw [active]
  exact if_pos partway

theorem CarriagePort.opens_of_absent {p : CarriagePort} (absent : p.transaction = .absent) (free : p.heldInReset = false) :
    p.opens = { p with
      transaction := .active p.slot.isSome, framer := .hunt, slot := p.slot.map fun r => { r with clocked := 0 } } := by
  unfold CarriagePort.opens
  rw [absent]
  exact if_neg (by simp [free])

theorem CarriagePort.opens_in_reset {p : CarriagePort} (absent : p.transaction = .absent) (held : p.heldInReset = true) :
    p.opens = { p with transaction := .ignored } := by
  unfold CarriagePort.opens
  rw [absent]
  exact if_pos held

theorem Framer.partway_iff (g : Framer) : g.partway = true ↔ g ≠ .hunt := by cases g <;> simp [Framer.partway]

end Sys2Proof.Machine
end

