-- ==== Sys2Proof/Proofs/CarriageTransactions.lean ====
section
/-! PROOFS. A carriage transaction from CS falling to CS rising (spec/10 section 10.4). -/

namespace Sys2Proof.Machine

/-- The closing of a transaction whose reply, if one is clocked out, is not out whole. -/
theorem CarriagePort.closes_partway {p : CarriagePort} {sending : Bool} (active : p.transaction = .active sending)
    (partway : sending = true → ∃ r, p.slot = some r ∧ r.clocked < r.frame.payload.length + 6) :
    p.closes [] = { p with
      transaction := .absent, framer := .hunt, slot := p.slot.map fun r => { r with clocked := 0 }
      counters := { p.counters with
        partials := if p.framer = .hunt then p.counters.partials else sat16 p.counters.partials 1
        resends := if sending = true then sat16 p.counters.resends 1 else p.counters.resends } } := by
  have counted : (if p.framer.partway then { p.counters with partials := sat16 p.counters.partials 1 } else p.counters)
      = { p.counters with
          partials := if p.framer = .hunt then p.counters.partials else sat16 p.counters.partials 1 } := by
    by_cases hunts : p.framer = .hunt
    · rw [if_neg (by simp [hunts, Framer.partway]), if_pos hunts]
    · rw [if_pos (p.framer.partway_iff.mpr hunts), if_neg hunts]
  have before : p.before 0 = true ∧ p.sending.isSome = sending := by
    unfold CarriagePort.before
    cases sending with
    | true =>
      obtain ⟨r, slot, short⟩ := partway rfl
      rw [CarriagePort.sending_some active slot]
      exact ⟨decide_eq_true (r.total_eq ▸ short), rfl⟩
    | false =>
      rw [CarriagePort.sending_none (by simp [active])]
      exact ⟨rfl, rfl⟩
  obtain ⟨early, sends⟩ := before
  rw [CarriagePort.closes_of_active active early, CarriagePort.close, counted, sends]
  cases sending <;> rfl

/-- What a run of bytes with an event does on the port, event by event. -/
theorem CarriagePort.takes_of_run {p : CarriagePort} {f : Frame} {sending : Bool} (fits : f.payload.length ≤ 120)
    (active : p.transaction = .active sending) (hunts : p.framer = .hunt)
    (within : p.within (f.payload.length + 6) = true) :
    p.arrival f.carriageBytes = ({ p with slot := p.clockedSlot (f.payload.length + 6) } : CarriagePort).take f := by
  have run := CarriagePort.run_eq (e := .valid f) (mosi := f.carriageBytes) active (by rw [f.carriageBytes_length, within])
    (by rw [hunts, feedRun_carriage fits])
  rw [f.carriageBytes_length] at run
  exact CarriagePort.arrival_of_run run

/-- Settles O53. -/
theorem carriageTransactions : Obligations.CarriageTransactions := by
  intro dt s p k one port opened fits clocked
  have done {op : CarriagePort → CarriagePort} {q : CarriagePort} (same : op p = q) :
      Host.Outcome.next { s.elapse dt with cgp := op p } = port q := congrArg port same
  refine ⟨fun absent free => ⟨?_, fun r n slot => ?_, fun empty n => ?_⟩, fun r n active slot inside => ?_,
    fun silent n => ?_, fun absent held => ?_, fun f sending payload active hunts room => ?_,
    fun n sending bad active hunts room => ?_, fun b sending nonzero noFlag active hunts room => ?_,
    fun r n active slot hunts last => ⟨fun next more refused => ?_, fun free => ?_⟩, fun ignored => ?_,
    fun sending active partway => ?_⟩
  · exact done (op := CarriagePort.opens) (CarriagePort.opens_of_absent absent free)
  · have sends : opened.sending = some { r with clocked := 0 } :=
      CarriagePort.sending_some (congrArg Transaction.active (by rw [slot]; rfl)) (by
        show p.slot.map _ = _
        rw [slot]
        rfl)
    exact CarriagePort.miso_past sends n rfl
  · have silent : opened.sending = none := CarriagePort.sending_none fun active => by
      have some : p.slot.isSome = true := Transaction.active.inj active
      rw [empty] at some
      exact Bool.false_ne_true some
    exact CarriagePort.miso_of_silent silent n
  · exact CarriagePort.miso_inside (CarriagePort.sending_some active slot) inside
  · exact CarriagePort.miso_of_silent (CarriagePort.sending_none silent) n
  · exact done (op := CarriagePort.opens) (CarriagePort.opens_in_reset absent held)
  · intro q good arrives refusal
    have arrival : p.arrival f.carriageBytes = q.take f :=
      CarriagePort.takes_of_run payload active hunts (CarriagePort.within_of_fits room)
    have taken {u : CarriagePort} (same : q.take f = u) : arrives = port u :=
      done (op := fun c => c.arrival f.carriageBytes) (arrival.trans same)
    refine ⟨fun reel => ?_, fun other free => ?_, fun other full free busy => ?_, fun other full free empty => ?_,
      fun other full crowded => ?_, fun x y wrong => ?_⟩
    · exact taken (CarriagePort.take_reel reel)
    · exact taken (CarriagePort.take_room other free)
    · have refused := CarriagePort.refuse_room (p := q.heard) f free
      rw [CarriagePort.fillSlot_of_full ((p.clockedSlot_isSome _).trans busy)] at refused
      exact taken ((CarriagePort.take_full (p := q) other full).trans refused)
    · have refused := CarriagePort.refuse_room (p := q.heard) f (by
        show p.refusals.length ≤ 3
        rw [free]
        exact Nat.zero_le 3)
      rw [CarriagePort.fillSlot_of_empty (f := refusal) (rest := []) (CarriagePort.clockedSlot_none empty _)
        (by
          show p.refusals ++ [refusal] = _
          rw [free]
          rfl)] at refused
      refine taken (((CarriagePort.take_full (p := q) other full).trans refused).trans ?_)
      show ({ q with counters := { good with busy := one k.busy }, slot := some ⟨refusal, 0⟩, refusals := [] } : CarriagePort)
        = { q with counters := { good with busy := one k.busy }, slot := some ⟨refusal, 0⟩ }
      rw [show q.refusals = [] from free]
    · exact taken ((CarriagePort.take_full (p := q) other full).trans (CarriagePort.refuse_crowded (p := q.heard) f crowded))
    · have length : (0x7E :: (f.body ++ [x, y])).length = f.payload.length + 6 := by simp [Frame.body_length]
      have run := CarriagePort.run_eq (e := .crcError) (mosi := 0x7E :: (f.body ++ [x, y])) active
        (by rw [length, CarriagePort.within_of_fits room]) (by rw [hunts, feedRun_carriage_wrong payload wrong])
      rw [length] at run
      exact done (op := fun c => c.error (0x7E :: (f.body ++ [x, y]))) (CarriagePort.error_of_run run rfl)
  · have run := CarriagePort.run_eq (e := .lengthError) (mosi := [0x7E, n]) active (CarriagePort.within_of_fits room)
      (by rw [hunts, feedRun_carriage_badLen bad])
    exact done (op := fun c => c.error [0x7E, n]) (CarriagePort.error_of_run run rfl)
  · have stray : feedRun carriageFeed p.framer [b] = some (p.framer, some .stray) := by
      rw [hunts, feedRun_single]
      unfold carriageFeed
      dsimp only
      rw [if_neg nonzero, if_neg noFlag]
    have run := CarriagePort.run_eq (e := .stray) (mosi := [b]) active (CarriagePort.within_of_fits room) stray
    exact done (op := fun c => c.strayByte [b]) (CarriagePort.strayByte_of_run run)
  · have delivered := CarriagePort.delivers_of_last (CarriagePort.sending_some active slot) hunts last
    exact done (op := fun c => c.delivers (List.replicate n 0))
      (delivered.trans (CarriagePort.fillSlot_of_empty rfl refused))
  · have delivered := CarriagePort.delivers_of_last (CarriagePort.sending_some active slot) hunts last
    exact done (op := fun c => c.delivers (List.replicate n 0)) (delivered.trans (CarriagePort.fillSlot_of_none free))
  · have closed : p.closes [] = { p with transaction := .absent } := by
      unfold CarriagePort.closes
      rw [ignored]
    exact done (op := fun c => c.closes []) closed
  · exact done (op := fun c => c.closes []) (CarriagePort.closes_partway active partway)

end Sys2Proof.Machine
end

