-- ==== Sys2Proof/Proofs/PortTests.lean ====
section
/-! PROOFS. The port's tests of a request (spec/10 section 10.5, spec/12 section 12.2), and the two resets (spec/10 section
10.4, spec/11 sections 11.3 and 11.4). -/

namespace Sys2Proof.Machine

/-! ## The kinds that a command serves -/

/-- The KINDs that a command of the model serves. -/
def servedKinds : List Byte :=
  [0x02, 0x10, 0x11, 0x18, 0x19, 0x20, 0x21, 0x22, 0x23, 0x24, 0x25, 0x28, 0x2C, 0x30, 0x31, 0x32, 0x33, 0x34, 0x35,
    0x36, 0x38, 0x3C, 0x3D, 0x3F]

/-- A command is the service of a KIND on a link, with or without the stream's decision behind it. -/
def Serves (dt : Nat) (l : Link) (kind : Byte) (c : Instr) : Prop :=
  ∀ s : State, ∃ act, exec c s = .next ((s.elapse dt).serve l kind act) ∨
    exec c s = .next (streamAfter l (fun t => t.serve l kind act) (s.elapse dt))

theorem serves_of_servedBy {dt : Nat} {l : Link} {kind : Byte} {c : Instr} (served : servedBy dt l kind = some c) :
    Serves dt l kind c ∧ kind ∈ servedKinds ∧ kind ≠ 0x02 := by
  have of_toNat {n : Nat} (code : kind.toNat = n) : kind = BitVec.ofNat 8 n := by simp [← code]
  unfold servedBy at served
  split at served
  case h_24 => cases served
  case h_3 code | h_20 code =>
    rw [of_toNat code]
    cases served
    exact ⟨fun _ => ⟨_, .inr rfl⟩, by decide, by decide⟩
  all_goals
    next code =>
    rw [of_toNat code]
    cases served
    exact ⟨fun _ => ⟨_, .inl rfl⟩, by decide, by decide⟩

theorem serves_driveReport (dt : Nat) : Serves dt .carriage 0x02 (.driveReport dt) := fun _ => ⟨_, .inl rfl⟩

/-- A service that every block would answer alike. -/
theorem Serves.answers {dt : Nat} {l : Link} {kind : Byte} {c : Instr} (serves : Serves dt l kind c) {s t : State}
    {f : Frame} {st : Status} {content : List Byte}
    (answer : ∀ act, (s.elapse dt).serve l kind act = t.answered l f st content) :
    exec c s = .next (t.answered l f st content) := by
  obtain ⟨act, plain | streams⟩ := serves s
  · rw [plain, answer]
  · rw [streams, streamAfter_answered (answer act)]

/-- A service that no block comes to. -/
theorem Serves.idles {dt : Nat} {l : Link} {kind : Byte} {c : Instr} (serves : Serves dt l kind c) {s : State}
    (idle : ∀ act, (s.elapse dt).serve l kind act = s.elapse dt) : exec c s = .next (s.elapse dt) := by
  obtain ⟨act, plain | streams⟩ := serves s
  · rw [plain, idle]
  · rw [streams, streamAfter, idle, if_neg (by simp)]

theorem servedKinds_known {kind : Byte} (member : kind ∈ servedKinds) : knownKind kind = true := by
  revert kind
  decide

/-! ## The port's tests -/

theorem allowedOn_tether_iff {kind : Byte} (drive : kind ≠ 0x02) :
    allowedOn kind .tether = false ↔ kind ∈ ([0x23, 0x24] : List Byte) := by
  revert kind
  decide +kernel

theorem allowedOn_carriage_iff {kind : Byte} (reel : kind ≠ 0x01) :
    allowedOn kind .carriage = false ↔ kind ∈ ([0x20, 0x21, 0x22, 0x36, 0x3F] : List Byte) := by
  revert kind
  decide +kernel

theorem setSettingLength_iff (p : List Byte) : setSettingLength p = true
    ↔ (byteAt p 2 = 0 ∧ p.length = 7) ∨ (byteAt p 2 = 2 ∧ p.length = 5) ∨
      (byteAt p 2 = 1 ∧ 4 ≤ p.length ∧ p.length = 4 + byteAt p 3) := by
  unfold setSettingLength
  generalize byteAt p 2 = code
  match code with
  | 0 => simp; omega
  | 1 => simp
  | 2 => simp; omega
  | n + 3 => simp

/-- The payload lengths of the table. -/
def FitsKind (kind : Byte) (p : List Byte) : Prop :=
  (p.length = 0 ∧ kind ∈ ([0x10, 0x20, 0x22, 0x23, 0x24, 0x25, 0x28, 0x3C, 0x3F] : List Byte)) ∨
  (p.length = 1 ∧ kind ∈ ([0x2C, 0x38] : List Byte)) ∨
  (p.length = 2 ∧ kind ∈ ([0x19, 0x32, 0x33, 0x36, 0x3D] : List Byte)) ∨
  (p.length = 3 ∧ kind = 0x35) ∨
  (p.length = 4 ∧ kind ∈ ([0x11, 0x30, 0x31] : List Byte)) ∨
  (p.length = 5 ∧ kind ∈ ([0x02, 0x21] : List Byte)) ∨
  (kind = 0x18 ∧ ((byteAt p 2 = 0 ∧ p.length = 7) ∨ (byteAt p 2 = 2 ∧ p.length = 5) ∨
    (byteAt p 2 = 1 ∧ 4 ≤ p.length ∧ p.length = 4 + byteAt p 3))) ∨
  (kind = 0x34 ∧ 3 ≤ p.length ∧ p.length = 3 + byteAt p 2)

/-- The test of the length, KIND by KIND of the served ones. -/
theorem lengthFits_iff {kind : Byte} (member : kind ∈ servedKinds) (p : List Byte) :
    lengthFits kind p = true ↔ FitsKind kind p := by
  simp only [servedKinds, List.mem_cons, List.not_mem_nil, or_false] at member
  rcases member with
    rfl | rfl | rfl | rfl | rfl | rfl | rfl | rfl | rfl | rfl | rfl | rfl |
    rfl | rfl | rfl | rfl | rfl | rfl | rfl | rfl | rfl | rfl | rfl | rfl
  case inr.inr.inr.inl => simp [lengthFits, FitsKind, setSettingLength_iff]
  all_goals simp [lengthFits, FitsKind, annotateLength]

theorem knownKind_eq_false {kind : Byte}
    (missing : kind ∉ ([0x01, 0x02, 0x10, 0x11, 0x18, 0x19, 0x20, 0x21, 0x22, 0x23, 0x24, 0x25, 0x28, 0x2C, 0x30, 0x31, 0x32,
      0x33, 0x34, 0x35, 0x36, 0x38, 0x3C, 0x3D, 0x3F] : List Byte)) : knownKind kind = false := by
  revert kind
  decide +kernel

theorem State.serveBadKind_ready {s : State} {l : Link} {tag kind : Byte} {p : List Byte} {rest : List Frame} (dt : Nat)
    (ready : s.readyFor l ⟨tag, kind, p⟩ rest) (unknown : knownKind kind = false) :
    (s.elapse dt).serveBadKind l = (s.taken dt l rest).reply l ⟨tag, 0xFF, [9]⟩ := by
  obtain ⟨queued, free⟩ := State.readyFor_elapse dt ready
  unfold State.serveBadKind
  rw [queued]
  dsimp only
  rw [if_pos ⟨unknown, free⟩, replyFrame, replyKind, unknown]
  rfl

/-- A request that fails a test is answered by the port. -/
theorem State.serve_refused {s : State} {l : Link} {tag kind : Byte} {p : List Byte} {rest : List Frame} (dt : Nat)
    (ready : s.readyFor l ⟨tag, kind, p⟩ rest) (known : knownKind kind = true) {act : List Byte → State → Answer}
    {st : Status} (answer : (s.taken dt l rest).answer l ⟨tag, kind, p⟩ act = .bare (s.taken dt l rest) st) :
    (s.elapse dt).serve l kind act = (s.taken dt l rest).answered l ⟨tag, kind, p⟩ st [] := by
  rw [show (s.elapse dt).serve l kind act = _ from State.serve_ready dt act ready, answer, Answer.payload_bare,
    replyFrame, replyKind, known]
  rfl

/-- A KIND restricted to the other link, among those that the command for it serves. -/
theorem restricted_iff {l : Link} {kind : Byte} (reel : kind ≠ 0x01) (drive : kind = 0x02 → l = .carriage) :
    allowedOn kind l = false ↔
      (l = .carriage ∧ kind ∈ ([0x20, 0x21, 0x22, 0x36, 0x3F] : List Byte)) ∨
        (l = .tether ∧ kind ∈ ([0x23, 0x24] : List Byte)) := by
  cases l with
  | tether => simpa using allowedOn_tether_iff (fun is => nomatch drive is)
  | carriage => simpa using allowedOn_carriage_iff reel

/-- Settles O50. -/
theorem portsRefuseByTheirTests : Obligations.PortsRefuseByTheirTests := by
  intro dt s l tag kind p rest c served u restricted fits
  have command : Serves dt l kind c ∧ kind ∈ servedKinds ∧ (kind = 0x02 → l = .carriage) := by
    rcases served with request | ⟨rfl, rfl, rfl⟩
    · obtain ⟨serves, member, other⟩ := serves_of_servedBy request
      exact ⟨serves, member, fun drive => absurd drive other⟩
    · exact ⟨serves_driveReport dt, by decide, fun _ => rfl⟩
  obtain ⟨serves, member, drive⟩ := command
  have known := servedKinds_known member
  have reel : kind ≠ 0x01 := fun is => absurd (is ▸ member) (by decide)
  have tested : allowedOn kind l = false ↔ restricted := restricted_iff reel drive
  refine ⟨fun ready => ⟨fun other => ?_, fun own short => ?_⟩, fun idle => ?_, fun bad missing ready => ?_⟩
  · exact serves.answers fun act =>
      State.serve_refused dt ready known (State.answer_wrongLink (f := ⟨tag, kind, p⟩) (tested.mpr other))
  · have allowed : allowedOn kind l = true := by
      rw [← Bool.not_eq_false]
      exact fun refused => own (tested.mp refused)
    have wrong : lengthFits kind p = false := by
      rw [← Bool.not_eq_true]
      exact fun formed => short ((lengthFits_iff member p).mp formed)
    exact serves.answers fun act =>
      State.serve_refused dt ready known (State.answer_badLength (f := ⟨tag, kind, p⟩) allowed wrong)
  · refine serves.idles fun act => ?_
    rcases idle with blocked | empty
    · exact State.serve_blocked (by cases l <;> exact blocked)
    · exact State.serve_empty (by cases l <;> exact empty)
  · exact congrArg Host.Outcome.next (State.serveBadKind_ready dt ready (knownKind_eq_false missing))

/-! ## The carriage port reset and the survey restart -/

theorem State.portResets_of_free {s : State} (free : s.cgp.heldInReset = false) : s.portResets = s.carriageReset := by
  unfold State.portResets
  exact if_neg (by simp [free])

theorem State.portResets_of_held {s : State} (held : s.cgp.heldInReset = true) : s.portResets = s := if_pos held

theorem CarriagePort.reset_eq (p : CarriagePort) : p.reset
    = ⟨.hunt, if p.transaction = .absent then .absent else .ignored, [], none, [], true,
        ⟨0, 0, 0, 0, 0, 0, 0, 0, 0, 0, 0⟩⟩ := by
  unfold CarriagePort.reset
  cases p.transaction <;> rfl

/-- Settles O54. -/
theorem portResetAndSurveyRestart : Obligations.PortResetAndSurveyRestart := by
  constructor
  · intro dt s writePoint port
    have reset : s.cgp.reset = port := s.cgp.reset_eq
    refine ⟨⟨rfl, fun n => ?_⟩, fun free => ?_, fun held => ⟨?_, ?_⟩⟩
    · refine CarriagePort.miso_of_silent (CarriagePort.sending_none fun active => ?_) n
      have transaction : (if s.cgp.transaction = .absent then Transaction.absent else .ignored) = .active true := active
      split at transaction <;> cases transaction
    · have whole : (s.elapse dt).portResets = { (s.elapse dt).carriageReset with cgp := port } := by
        rw [State.portResets_of_free (s := s.elapse dt) free, ← reset]
        rfl
      exact congrArg Host.Outcome.next whole
    · exact congrArg Host.Outcome.next (State.portResets_of_held (s := s.elapse dt) held)
    · have released : (s.elapse dt).portReleased
          = { s.elapse dt with cgp := { s.cgp with heldInReset := false, framer := .hunt } } := by
        unfold State.portReleased
        rw [show (s.elapse dt).cgp.heldInReset = true from held]
        rfl
      exact congrArg Host.Outcome.next released
  · intro dt s tag rest ready u discarded
    exact congrArg Host.Outcome.next
      (State.serve_answered dt ready (by decide) rfl rfl (act := answerRestartSurvey) rfl rfl)

end Sys2Proof.Machine
end

