-- ==== Sys2Proof/Proofs/Marks.lean ====
section
/-! PROOFS. The marks and the creations of the observation log (spec/08 sections 8.2 to 8.4). -/

namespace Sys2Proof.Machine

/-! ## The clock position -/

/-- Settles O43. -/
theorem clockPositionIsTheHour : Obligations.ClockPositionIsTheHour := by
  intro pan tilt circle
  refine ⟨fun absent => ?_, fun p t panHeld tiltHeld => ⟨fun low => ?_, fun high => ?_⟩⟩
  · rcases absent with rfl | rfl
    · rfl
    · cases pan <;> rfl
  · rw [panHeld, tiltHeld]
    exact if_neg (Nat.not_le.mpr low)
  · obtain ⟨least, most⟩ := circle p panHeld
    have sector : (p + 150).tdiv 300 = (p + 150) / 300 := Int.tdiv_eq_ediv_of_nonneg (by omega)
    rw [panHeld, tiltHeld, sector]
    refine ⟨_, if_pos high, ?_⟩
    split <;> omega

/-! ## What the log reads of the state that takes a request -/

theorem State.taken_chainageNow (s : State) (dt : Nat) (l : Link) (rest : List Frame) :
    (s.taken dt l rest).chainageNow = s.chainageNow := by
  have now : (s.taken dt l rest).provisionalNow = s.provisionalNow :=
    State.provisionalNow_of_same (State.taken_chr ..) (State.taken_wct ..) (State.taken_rin ..)
  simp only [State.chainageNow, now, State.linkMm, State.withLens, State.taken_chr, State.taken_set]

/-! ## The guard merge -/

/-- A guard-memory record of a code whose start lies within GUARD of the present chainage. -/
def State.near (s : State) (code : List Byte) (r : Observation) : Prop :=
  r.id ∈ s.obl.guardMemory ∧ r.code = code ∧
    ∃ x here : Int, r.start = some x ∧ s.chainageNow = some here ∧ ((x - here).natAbs : Int) ≤ s.set.num .guardWidth

theorem State.qualifies_iff {s : State} {here : Int} (present : s.chainageNow = some here) (code : List Byte)
    (r : Observation) : s.obl.qualifies code here (s.set.num .guardWidth) r = true ↔ s.near code r := by
  unfold ObsLog.qualifies State.near
  cases r.start with
  | none => simp
  | some x => simp [present, and_assoc]

/-- The record a mark merges into is the newest of the near ones. -/
theorem State.candidate_of_near {s : State} {code : List Byte} {older newer : List Observation} {r : Observation}
    (held : s.obl.records = older ++ r :: newer) (near : s.near code r) (later : ∀ q ∈ newer, ¬ s.near code q) :
    s.obl.candidate code s.chainageNow (s.set.num .guardWidth) = some r := by
  obtain ⟨_, _, _, here, _, present, _⟩ := id near
  unfold ObsLog.candidate
  rw [present]
  exact getLast_filter_of_later _ held ((State.qualifies_iff present code r).mpr near) fun q member => by
    rw [← Bool.not_eq_true, State.qualifies_iff present]
    exact later q member

theorem State.candidate_of_none {s : State} {code : List Byte} (apart : ∀ r ∈ s.obl.records, ¬ s.near code r) :
    s.obl.candidate code s.chainageNow (s.set.num .guardWidth) = none := by
  unfold ObsLog.candidate
  cases present : s.chainageNow with
  | none => rfl
  | some here =>
    exact getLast_filter_of_none _ fun q member => by
      rw [← Bool.not_eq_true, State.qualifies_iff present]
      exact apart q member

/-- A change of the record with an id changes it alone, where it stands. -/
theorem ObsLog.change_of_sole {o : ObsLog} {id : Nat} {older newer : List Observation} {r : Observation}
    (held : o.records = older ++ r :: newer) (named : r.id = id) (before : ∀ q ∈ older, q.id ≠ id)
    (behind : ∀ q ∈ newer, q.id ≠ id) (f : Observation → Observation) :
    o.change id f = { o with records := older ++ f r :: newer } := by
  have kept {l : List Observation} (others : ∀ q ∈ l, q.id ≠ id) : l.map (fun r => if r.id = id then f r else r) = l :=
    (List.map_congr_left (g := fun q => q) fun q member => if_neg (others q member)).trans (List.map_id' l)
  unfold ObsLog.change
  rw [held, List.map_append, List.map_cons, kept before, kept behind, if_pos named]

theorem markContent_eq (r : Observation) (merged : Bool) : markContent r merged
    = u16 r.id ++ flags [r.stillFrame.isSome, merged, r.clock.isSome] ++ s32opt r.start
        ++ u8 (match r.clock with
          | some h => h
          | none => 0)
        ++ u32 (match r.stillFrame with
          | some n => n.toNat
          | none => 0) := by
  unfold markContent
  cases r.clock <;> cases r.stillFrame <;> rfl

theorem Observation.joinedBy_eq (r : Observation) (l : Link) : r.joinedBy l
    = match l with
      | .tether => { r with fromTether := true }
      | .carriage => { r with fromCarriage := true } := by
  cases l <;> rfl

theorem ObsLog.full_iff (o : ObsLog) : o.full = true ↔ 96 ≤ o.records.length ∨ 65536 ≤ o.nextId := by
  simp [ObsLog.full]

theorem State.taken_near (s : State) (dt : Nat) (l : Link) (rest : List Frame) (code : List Byte) (r : Observation) :
    (s.taken dt l rest).near code r ↔ s.near code r := by
  simp only [State.near, State.taken_obl, State.taken_set, State.taken_chainageNow]

theorem lengthFits_mark {p : List Byte} (length : p.length = 4) : lengthFits 0x30 p = true := by
  simp [lengthFits, length]

theorem lengthFits_open {p : List Byte} (length : p.length = 4) : lengthFits 0x31 p = true := by
  simp [lengthFits, length]

/-- A mark that no record is near to makes none when the log is full. -/
theorem State.markPoint_full {s : State} {p : List Byte} (length : p.length = 4) (l : Link)
    (apart : ∀ r ∈ s.obl.records, ¬ s.near p r) (full : s.obl.full = true) : s.markPoint l p = .bare s .full := by
  unfold State.markPoint
  rw [List.take_of_length_le (Nat.le_of_eq length)]
  dsimp only
  rw [State.candidate_of_none apart]
  exact if_pos full

/-- Settles O44. -/
theorem marksMergeWithinTheGuard : Obligations.MarksMergeWithinTheGuard := by
  intro dt s l tag p rest length ready f near joined content
  have known : knownKind 0x30 = true := by decide
  have allowed : allowedOn 0x30 l = true := by cases l <;> rfl
  refine ⟨fun older newer r held here later before behind => ?_, fun apart full => ?_⟩
  · have merged : answerMarkPoint l p (s.taken dt l rest)
        = ⟨{ s.taken dt l rest with
            obl := { s.obl with records := older ++ joined r :: newer }
            stu := { s.stu with pendingMark := some ⟨r.id, p⟩ } }, .merged, content r⟩ := by
      have held' : (s.taken dt l rest).obl.records = older ++ r :: newer := by rw [State.taken_obl, held]
      have candidate := State.candidate_of_near held' ((State.taken_near ..).mpr here)
        fun q member => (State.taken_near ..).not.mpr (later q member)
      obtain ⟨_, code, _⟩ := here
      unfold answerMarkPoint State.markPoint
      rw [List.take_of_length_le (Nat.le_of_eq length)]
      dsimp only
      rw [candidate]
      dsimp only
      rw [ObsLog.change_of_sole held' rfl before behind, show markContent r true = content r from markContent_eq r true,
        show r.joinedBy l = joined r from r.joinedBy_eq l, State.handMark, code, State.taken_obl, State.taken_stu]
    exact congrArg Host.Outcome.next
      (State.serve_answered dt ready known allowed (lengthFits_mark length) merged rfl)
  · have refused : answerMarkPoint l p (s.taken dt l rest) = .bare (s.taken dt l rest) .full := by
      refine State.markPoint_full length l (fun r member => ?_) ?_
      · rw [State.taken_near]
        exact apart r (State.taken_obl s dt l rest ▸ member)
      · rw [State.taken_obl, ObsLog.full_iff]
        omega
    exact congrArg Host.Outcome.next
      (State.serve_bare dt ready known allowed (lengthFits_mark length) refused)

end Sys2Proof.Machine
end

