-- ==== Sys2Proof/Proofs/Creations.lean ====
section
/-! PROOFS. The creations of the observation log (spec/08 sections 8.3, 8.4 and 8.8, spec/03 section 3.5). -/

namespace Sys2Proof.Machine

/-! ## The still and the record of a creation -/

/-- The frame that a still asked for now would be. -/
def FrameTimer.choice (f : FrameTimer) : Count := if f.ended = none then 2 else f.counter + 1

theorem FrameTimer.stillChoice_eq (f : FrameTimer) : f.stillChoice = f.choice := by
  unfold FrameTimer.stillChoice FrameTimer.choice
  cases f.ended <;> simp

/-- The frame timer after a creation's still, and the frame that the record names. -/
def State.stillAsked (s : State) (l : Link) : FrameTimer × Option Count :=
  if s.set.nat .autoStill = 0 then (s.fxc, none)
  else match s.fxc.pendingStill with
    | some q => (s.fxc, some q.frame)
    | none =>
      ({ s.fxc with pendingStill := some ⟨s.fxc.choice, l, decide (s.set.nat .autoStill = 2)⟩ }, some s.fxc.choice)

theorem State.autoStill_eq (s : State) (l : Link) : s.autoStill l = s.stillAsked l := by
  unfold State.autoStill State.stillAsked
  generalize s.set.nat .autoStill = setting
  cases setting with
  | zero => rfl
  | succ k =>
    rw [if_neg (Nat.succ_ne_zero k)]
    dsimp only
    unfold FrameTimer.askStill
    rw [FrameTimer.stillChoice_eq]
    cases s.fxc.pendingStill with
    | some q => rfl
    | none => simp [Bool.beq_eq_decide_eq]

/-- The record that a creation makes. -/
def State.recordMade (s : State) (l : Link) (kind : ObsKind) (code : List Byte) : Observation :=
  { s.newObservation l kind code with stillFrame := (s.stillAsked l).2 }

/-- The guard memory after a creation. -/
def State.memoryMade (s : State) (kind : ObsKind) : List Nat :=
  if kind = .point ∧ s.chainageNow.isSome = true then s.obl.guardMemory ++ [s.obl.nextId] else s.obl.guardMemory

/-- The state with a record created, before LOG_NEAR_FULL. -/
def State.withRecord (s : State) (asked : FrameTimer) (r : Observation) (o : ObsLog) (memory : List Nat) : State :=
  { s with
    fxc := asked
    obl := ⟨o.records ++ [r], o.nextId + 1, memory⟩
    stu := { s.stu with pendingMark := some ⟨o.nextId, r.code⟩ } }

theorem State.createObservation_eq (s : State) (l : Link) (kind : ObsKind) (code : List Byte) :
    s.createObservation l kind code
      = (if s.obl.records.length = 87
          then (s.withRecord (s.stillAsked l).1 (s.recordMade l kind code) s.obl (s.memoryMade kind)).raise .logNearFull
          else s.withRecord (s.stillAsked l).1 (s.recordMade l kind code) s.obl (s.memoryMade kind),
        s.recordMade l kind code) := by
  have joined : State.handMark { s with fxc := (s.stillAsked l).1, obl := s.obl.append (s.recordMade l kind code) }
        s.obl.nextId code
      = s.withRecord (s.stillAsked l).1 (s.recordMade l kind code) s.obl (s.memoryMade kind) := rfl
  have length : (s.withRecord (s.stillAsked l).1 (s.recordMade l kind code) s.obl (s.memoryMade kind)).obl.records.length
      = s.obl.records.length + 1 := by simp [State.withRecord]
  have made : s.createObservation l kind code
      = (if (State.handMark { s with fxc := (s.autoStill l).1, obl := s.obl.append { s.newObservation l kind code with
              stillFrame := (s.autoStill l).2 } } s.obl.nextId code).obl.records.length = 88
          then (State.handMark { s with fxc := (s.autoStill l).1, obl := s.obl.append { s.newObservation l kind code with
              stillFrame := (s.autoStill l).2 } } s.obl.nextId code).raise .logNearFull
          else State.handMark { s with fxc := (s.autoStill l).1, obl := s.obl.append { s.newObservation l kind code with
              stillFrame := (s.autoStill l).2 } } s.obl.nextId code,
        { s.newObservation l kind code with stillFrame := (s.autoStill l).2 }) := rfl
  rw [made, State.autoStill_eq]
  rw [show { s.newObservation l kind code with stillFrame := (s.stillAsked l).2 } = s.recordMade l kind code from rfl,
    joined, length]
  simp only [Nat.reduceEqDiff]

/-! ## A creation in the state that takes the request -/

section
variable (s : State) (dt : Nat) (l : Link) (rest : List Frame)

theorem State.taken_stillAsked : (s.taken dt l rest).stillAsked l = s.stillAsked l := by
  simp only [State.stillAsked, State.taken_set, State.taken_fxc]

theorem State.taken_recordMade (kind : ObsKind) (code : List Byte) :
    (s.taken dt l rest).recordMade l kind code = s.recordMade l kind code := by
  simp only [State.recordMade, State.newObservation, State.taken_stillAsked, State.taken_obl, State.taken_chainageNow,
    State.taken_hdp, State.taken_fxc]

theorem State.taken_createObservation (kind : ObsKind) (code : List Byte) :
    (s.taken dt l rest).createObservation l kind code
      = (if s.obl.records.length = 87
          then ((s.taken dt l rest).withRecord (s.stillAsked l).1 (s.recordMade l kind code) s.obl
            (s.memoryMade kind)).raise .logNearFull
          else (s.taken dt l rest).withRecord (s.stillAsked l).1 (s.recordMade l kind code) s.obl (s.memoryMade kind),
        s.recordMade l kind code) := by
  have memory : (s.taken dt l rest).memoryMade kind = s.memoryMade kind := by
    simp only [State.memoryMade, State.taken_chainageNow, State.taken_obl]
  rw [State.createObservation_eq, State.taken_stillAsked, State.taken_recordMade, memory, State.taken_obl]

end

theorem ObsLog.full_eq_false {o : ObsLog} (room : o.records.length ≤ 95 ∧ o.nextId ≤ 65535) : o.full = false := by
  rw [← Bool.not_eq_true, ObsLog.full_iff]
  omega

/-- No record is near while the chainage is absent, or when every one of the code is beyond GUARD. -/
theorem State.not_near {s : State} {p : List Byte} (beyond : s.chainageNow = none ∨ ∃ x, s.chainageNow = some x ∧
      ∀ r ∈ s.obl.records, r.id ∈ s.obl.guardMemory → r.code = p → ∀ y, r.start = some y →
        s.set.num .guardWidth < ((y - x).natAbs : Int)) : ∀ r ∈ s.obl.records, ¬ s.near p r := by
  rintro r member ⟨memory, code, x, here, start, present, reach⟩
  rcases beyond with absent | ⟨x', present', far⟩
  · rw [absent] at present
    cases present
  · have same : x' = here := Option.some.inj (present'.symm.trans present)
    subst same
    exact absurd reach (Int.not_le.mpr (far r member memory code x start))

theorem State.markPoint_creates {s : State} {p : List Byte} (length : p.length = 4) (l : Link)
    (apart : ∀ r ∈ s.obl.records, ¬ s.near p r) (room : s.obl.records.length ≤ 95 ∧ s.obl.nextId ≤ 65535) :
    s.markPoint l p = ⟨(s.createObservation l .point p).1, .done, markContent (s.createObservation l .point p).2 false⟩ := by
  unfold State.markPoint
  rw [List.take_of_length_le (Nat.le_of_eq length)]
  dsimp only
  rw [State.candidate_of_none apart]
  exact if_neg (by simp [ObsLog.full_eq_false room])

theorem State.openObs_creates {s : State} {p : List Byte} (length : p.length = 4) (l : Link)
    (room : s.obl.records.length ≤ 95 ∧ s.obl.nextId ≤ 65535) (few : s.obl.openOnes.length ≤ 3) :
    s.openObs l p
      = ⟨(s.createObservation l .continuous p).1, .done, markContent (s.createObservation l .continuous p).2 false⟩ := by
  unfold State.openObs
  rw [List.take_of_length_le (Nat.le_of_eq length), if_neg (by simp [ObsLog.full_eq_false room]),
    if_neg (Nat.not_le.mpr (Nat.lt_succ_of_le few))]

theorem State.openObs_full {s : State} (l : Link) (p : List Byte)
    (full : 4 ≤ s.obl.openOnes.length ∨ 96 ≤ s.obl.records.length ∨ 65536 ≤ s.obl.nextId) :
    s.openObs l p = .bare s .full := by
  unfold State.openObs
  split
  · rfl
  · next room =>
    rw [ObsLog.full_iff] at room
    exact if_pos (full.resolve_right room)

/-- Settles O45. -/
theorem creationsAppendARecord : Obligations.CreationsAppendARecord := by
  intro dt s l tag p rest length choice asked made created content room opened beyond
  have allowed (kind : Byte) (either : kind = 0x30 ∨ kind = 0x31) : allowedOn kind l = true := by
    rcases either with rfl | rfl <;> cases l <;> rfl
  have pointMade (memory : List Nat) (same : s.memoryMade .point = memory) :
      (s.taken dt l rest).createObservation l .point p = (created (made .point .closed) memory, made .point .closed) := by
    rw [State.taken_createObservation, same, State.withRecord, State.taken_stu]
    rfl
  have continuousMade : (s.taken dt l rest).createObservation l .continuous p
      = (created (made .continuous .opened) s.obl.guardMemory, made .continuous .opened) := by
    rw [State.taken_createObservation, State.withRecord, State.taken_stu]
    rfl
  have told (r : Observation) : markContent r false = content r := markContent_eq r false
  have apart {r : Observation} (here : s.chainageNow = none ∨ ∃ x, s.chainageNow = some x ∧ beyond x)
      (member : r ∈ (s.taken dt l rest).obl.records) : ¬ (s.taken dt l rest).near p r := by
    rw [State.taken_near]
    rw [State.taken_obl] at member
    exact State.not_near here r member
  have takenRoom (free : room) :
      (s.taken dt l rest).obl.records.length ≤ 95 ∧ (s.taken dt l rest).obl.nextId ≤ 65535 := by
    rw [State.taken_obl]
    exact free
  refine ⟨fun ready => ?_, fun ready => ⟨fun free few => ?_, fun full => ?_⟩⟩
  · have point (memory : List Nat) (here : s.chainageNow = none ∨ ∃ x, s.chainageNow = some x ∧ beyond x) (free : room)
        (same : s.memoryMade .point = memory) :
        exec (.markPoint dt l) s = .next ((created (made .point .closed) memory).answered l ⟨tag, 0x30, p⟩ .done
          (content (made .point .closed))) := by
      have answer := State.markPoint_creates length l (fun r => apart here) (takenRoom free)
      rw [pointMade memory same, told] at answer
      exact congrArg Host.Outcome.next
        (State.serve_answered dt ready (by decide) (allowed 0x30 (.inl rfl)) (lengthFits_mark length)
          (act := answerMarkPoint l) answer rfl)
    refine ⟨fun free absent => ?_, fun x free present far => ?_, fun here full => ?_⟩
    · exact point _ (.inl absent) free (by simp [State.memoryMade, absent])
    · exact point _ (.inr ⟨x, present, far⟩) free (by simp [State.memoryMade, present])
    · have answer := State.markPoint_full length l (fun r => apart here)
        (by rw [State.taken_obl, ObsLog.full_iff]; exact full)
      exact congrArg Host.Outcome.next
        (State.serve_bare dt ready (by decide) (allowed 0x30 (.inl rfl)) (lengthFits_mark length)
          (act := answerMarkPoint l) answer)
  · have answer := State.openObs_creates length l (takenRoom free) (by rw [State.taken_obl]; exact few)
    rw [continuousMade, told] at answer
    exact congrArg Host.Outcome.next
      (State.serve_answered dt ready (by decide) (allowed 0x31 (.inr rfl)) (lengthFits_open length)
        (act := answerOpenObs l) answer rfl)
  · have answer := State.openObs_full (s := s.taken dt l rest) l p (by rw [State.taken_obl]; exact full)
    exact congrArg Host.Outcome.next
      (State.serve_bare dt ready (by decide) (allowed 0x31 (.inr rfl)) (lengthFits_open length)
        (act := answerOpenObs l) answer)

end Sys2Proof.Machine
end

