-- ==== Sys2Proof/Proofs/Records.lean ====
section
/-! PROOFS. The records of the observation log: close, void, annotate, read and trim (spec/08 sections 8.4 to 8.6, spec/12
section 12.7). -/

namespace Sys2Proof.Machine

/-! ## The record with an id -/

/-- A record that alone has an id, and where it stands. -/
structure ObsLog.Sole (o : ObsLog) (id : Nat) (older newer : List Observation) (r : Observation) : Prop where
  held : o.records = older ++ r :: newer
  named : r.id = id
  before : ∀ q ∈ older, q.id ≠ id
  behind : ∀ q ∈ newer, q.id ≠ id

theorem ObsLog.find_of_absent {o : ObsLog} {id : Nat} (absent : ∀ r ∈ o.records, r.id ≠ id) : o.find id = none := by
  rw [ObsLog.find, List.find?_eq_none]
  intro r member
  simpa using absent r member

theorem ObsLog.Sole.find {o : ObsLog} {id : Nat} {older newer : List Observation} {r : Observation}
    (sole : o.Sole id older newer r) : o.find id = some r := by
  have others : older.find? (fun q => q.id == id) = none := by
    rw [List.find?_eq_none]
    intro q member
    simpa using sole.before q member
  rw [ObsLog.find, sole.held, List.find?_append, others, Option.none_or, List.find?_cons_of_pos]
  simpa using sole.named

theorem ObsLog.Sole.change {o : ObsLog} {id : Nat} {older newer : List Observation} {r : Observation}
    (sole : o.Sole id older newer r) (f : Observation → Observation) :
    o.change id f = { o with records := older ++ f r :: newer } :=
  ObsLog.change_of_sole sole.held sole.named sole.before sole.behind f

/-! ## Close, void and annotate -/

section
variable {s : State} {p : List Byte} {older newer : List Observation} {r : Observation}

theorem State.closeObs_of_absent (absent : s.obl.find (u16At p 0) = none) : s.closeObs p = .bare s .noSuch := by
  unfold State.closeObs
  dsimp only
  rw [absent]

theorem State.closeObs_of_closed (found : s.obl.find (u16At p 0) = some r) (closed : r.state ≠ .opened) :
    s.closeObs p = .bare s .wrongState := by
  unfold State.closeObs
  dsimp only
  rw [found]
  exact if_pos closed

theorem State.closeObs_of_opened (found : s.obl.find (u16At p 0) = some r) (opened : r.state = .opened) :
    s.closeObs p = match s.chainageNow with
      | none => .bare s .notReady
      | some x =>
        ⟨{ s with obl := s.obl.change (u16At p 0) fun r =>
            { r with state := .closed, finish := some x, closedByDatum := false } },
          .done, u16 (u16At p 0) ++ s32opt r.start ++ s32 x⟩ := by
  unfold State.closeObs
  dsimp only
  rw [found]
  exact if_neg (not_not.mpr opened)

theorem State.voidObs_of_absent (l : Link) (absent : s.obl.find (u16At p 0) = none) :
    s.voidObs l p = .bare s .noSuch := by
  unfold State.voidObs
  dsimp only
  rw [absent]

theorem State.voidObs_of_foreign {l : Link} (found : s.obl.find (u16At p 0) = some r)
    (foreign : l = .carriage ∧ r.fromCarriage = false) : s.voidObs l p = .bare s .notPermitted := by
  unfold State.voidObs
  dsimp only
  rw [found]
  exact if_pos (by simp [foreign])

theorem State.voidObs_of_own {l : Link} (found : s.obl.find (u16At p 0) = some r)
    (own : l = .tether ∨ r.fromCarriage = true) :
    s.voidObs l p = if r.state = .voided then .bare s .wrongState
      else ⟨{ s with obl := { s.obl.change (u16At p 0) (fun r => { r with state := .voided, finish := none }) with
          guardMemory := s.obl.guardMemory.filter fun g => g != u16At p 0 } }, .done, u16 (u16At p 0)⟩ := by
  unfold State.voidObs
  dsimp only
  rw [found]
  refine if_neg fun foreign => ?_
  rcases own with tether | origin
  · exact nomatch tether.symm.trans foreign.1
  · simp [origin] at foreign

theorem State.annotate_of_absent (absent : s.obl.find (u16At p 0) = none) : s.annotate p = .bare s .noSuch := by
  unfold State.annotate
  dsimp only
  rw [absent]

theorem State.annotate_of_found (found : s.obl.find (u16At p 0) = some r) :
    s.annotate p = if r.state = .voided then .bare s .wrongState
      else ⟨{ s with obl := s.obl.change (u16At p 0) fun r => { r with remark := (textAt p 2).take 32 } },
        doneOr (decide (32 < (textAt p 2).length)), u16 (u16At p 0) ++ u8 ((textAt p 2).take 32).length⟩ := by
  unfold State.annotate
  dsimp only
  rw [found]

end

/-- A payload whose text follows its count at byte 2. -/
theorem annotate_payload {p text : List Byte} (short : text.length ≤ 117)
    (split : p.drop 2 = BitVec.ofNat 8 text.length :: text) :
    lengthFits 0x34 p = true ∧ textAt p 2 = text := by
  have length : p.length = 3 + text.length := by
    have := congrArg List.length split
    rw [List.length_drop, List.length_cons] at this
    omega
  have count : byteAt p 2 = text.length := by
    have head : p.getD 2 0 = BitVec.ofNat 8 text.length := by
      have := congrArg (fun l : List Byte => l.getD 0 0) split
      simpa [List.getD_eq_getElem?_getD, List.getElem?_drop] using this
    rw [byteAt, head, BitVec.toNat_ofNat]
    omega
  constructor
  · simp [lengthFits, annotateLength, length, count]
  · have behind : p.drop (2 + 1) = text := by
      rw [← List.drop_drop, split]
      rfl
    rw [textAt, behind, count, List.take_length]

theorem lengthFits_close {p : List Byte} (length : p.length = 2) : lengthFits 0x32 p = true := by
  simp [lengthFits, length]

theorem lengthFits_void {p : List Byte} (length : p.length = 2) : lengthFits 0x33 p = true := by
  simp [lengthFits, length]

/-- Settles O46. -/
theorem recordsCloseVoidAndAnnotate : Obligations.RecordsCloseVoidAndAnnotate := by
  intro dt s l tag p rest id u absent put sole
  have obl : u.obl = s.obl := State.taken_obl ..
  have missing (none : absent) : u.obl.find id = Option.none := by
    rw [obl]
    exact ObsLog.find_of_absent none
  have alone {older newer : List Observation} {r : Observation} (held : sole older newer r) :
      s.obl.Sole id older newer r := by
    obtain ⟨records, named, before, behind⟩ := held
    exact ⟨records, named, before, behind⟩
  have found {older newer : List Observation} {r : Observation} (held : sole older newer r) :
      u.obl.find id = some r := by
    rw [obl]
    exact (alone held).find
  have changed {older newer : List Observation} {r : Observation} (held : sole older newer r)
      (f : Observation → Observation) : u.obl.change id f = { s.obl with records := older ++ f r :: newer } := by
    rw [obl]
    exact (alone held).change f
  refine ⟨fun length ready => ?_, fun length ready => ?_, fun text short split ready => ?_⟩
  · have bare {st : Status} (answer : u.closeObs p = .bare u st) :
        exec (.closeObs dt l) s = .next (u.answered l ⟨tag, 0x32, p⟩ st []) :=
      congrArg Host.Outcome.next (State.serve_bare dt ready (by decide) (by cases l <;> rfl) (lengthFits_close length)
        (act := answerCloseObs) answer)
    refine ⟨fun none => bare (State.closeObs_of_absent (missing none)), fun older newer r held =>
      ⟨fun closed => bare (State.closeObs_of_closed (found held) closed), fun opened unknown => bare ?_,
        fun x opened present => ?_⟩⟩
    · rw [State.closeObs_of_opened (found held) opened, State.taken_chainageNow, unknown]
    · have answer := State.closeObs_of_opened (found held) opened
      rw [State.taken_chainageNow, present] at answer
      dsimp only at answer
      rw [changed held] at answer
      exact congrArg Host.Outcome.next (State.serve_answered dt ready (by decide) (by cases l <;> rfl)
        (lengthFits_close length) (act := answerCloseObs) answer rfl)
  · have bare {st : Status} (answer : u.voidObs l p = .bare u st) :
        exec (.voidObs dt l) s = .next (u.answered l ⟨tag, 0x33, p⟩ st []) :=
      congrArg Host.Outcome.next (State.serve_bare dt ready (by decide) (by cases l <;> rfl) (lengthFits_void length)
        (act := answerVoidObs l) answer)
    refine ⟨fun none => bare (State.voidObs_of_absent l (missing none)), fun older newer r held =>
      ⟨fun carriage foreign => bare (State.voidObs_of_foreign (found held) ⟨carriage, foreign⟩),
        fun own voided => bare ?_, fun own live => ?_⟩⟩
    · rw [State.voidObs_of_own (found held) own, if_pos voided]
    · have answer := State.voidObs_of_own (found held) own
      rw [if_neg live, changed held, obl] at answer
      exact congrArg Host.Outcome.next (State.serve_answered dt ready (by decide) (by cases l <;> rfl)
        (lengthFits_void length) (act := answerVoidObs l) answer rfl)
  · obtain ⟨formed, textIs⟩ := annotate_payload short split
    have bare {st : Status} (answer : u.annotate p = .bare u st) :
        exec (.annotate dt l) s = .next (u.answered l ⟨tag, 0x34, p⟩ st []) :=
      congrArg Host.Outcome.next (State.serve_bare dt ready (by decide) (by cases l <;> rfl) formed
        (act := answerAnnotate) answer)
    refine ⟨fun none => bare (State.annotate_of_absent (missing none)), fun older newer r held =>
      ⟨fun voided => bare ?_, fun live => ?_⟩⟩
    · rw [State.annotate_of_found (found held), if_pos voided]
    · have answer := State.annotate_of_found (found held)
      have cut : doneOr (decide (32 < text.length)) = if text.length ≤ 32 then .done else .clamped := by
        rw [← doneOr_decide]
        simp only [Nat.not_le]
      rw [if_neg live, changed held, textIs, cut, List.length_take] at answer
      refine congrArg Host.Outcome.next (State.serve_answered dt ready (by decide) (by cases l <;> rfl) formed
        (act := answerAnnotate) answer ?_)
      split <;> rfl

end Sys2Proof.Machine
end

