-- ==== Sys2Proof/Proofs/LogReading.lean ====
section
/-! PROOFS. READ LOG and TRIM LOG, and the log as sent (spec/08 sections 8.5 and 8.6, spec/12 sections 12.5 and 12.7). -/

namespace Sys2Proof.Machine

/-! ## The summary and a record as sent -/

theorem ObsLog.summary_eq (o : ObsLog) : o.summary
    = u8 o.records.length ++ u8 (o.records.filter fun r => r.state == .opened).length
        ++ flags [decide (o.records ≠ [])]
        ++ u16 (match o.records with
          | r :: _ => r.id
          | [] => 0)
        ++ u16 (match o.records.getLast? with
          | some r => r.id
          | none => 0)
        ++ u32 o.nextId := by
  have oldest : (o.records.head?.map (·.id)).getD 0 = match o.records with
      | r :: _ => r.id
      | [] => 0 := by
    cases o.records <;> rfl
  have newest : (o.records.getLast?.map (·.id)).getD 0 = match o.records.getLast? with
      | some r => r.id
      | none => 0 := by
    cases o.records.getLast? <;> rfl
  have present : (!o.records.isEmpty) = decide (o.records ≠ []) := by
    cases o.records <;> rfl
  rw [ObsLog.summary, oldest, newest, present]
  rfl

/-- An optional chainage of a record: nothing when it is absent. -/
def chainageField : Option Int → List Byte := fun x => match x with
  | some v => s32 v
  | none => []

theorem Observation.encode_eq (r : Observation) : r.encode
    = u16 r.id ++ r.code
        ++ flags [r.start.isSome, r.finish.isSome, r.clock.isSome, r.stillFrame.isSome, r.closedByDatum, r.fromTether,
          r.fromCarriage, decide (r.kind = .continuous)]
        ++ u8 (match r.state with
          | .opened => 0
          | .closed => 1
          | .voided => 2)
        ++ u32 r.frame.toNat ++ chainageField r.start ++ chainageField r.finish
        ++ (match r.clock with
          | some h => u8 h
          | none => [])
        ++ (match r.stillFrame with
          | some n => u32 n.toNat
          | none => [])
        ++ u8 r.remark.length ++ r.remark := by
  have state : r.state.code = match r.state with
      | .opened => 0
      | .closed => 1
      | .voided => 2 := by
    cases r.state <;> rfl
  have chainage (x : Option Int) : (x.map s32).getD [] = chainageField x := by cases x <;> rfl
  have clock : (r.clock.map u8).getD [] = match r.clock with
      | some h => u8 h
      | none => [] := by
    cases r.clock <;> rfl
  have still : (r.stillFrame.map fun f => u32 f.toNat).getD [] = match r.stillFrame with
      | some n => u32 n.toNat
      | none => [] := by
    cases r.stillFrame <;> rfl
  rw [Observation.encode, state, chainage, chainage, clock, still, textField, ← List.append_assoc]
  rfl

/-! ## READ LOG -/

theorem lengthFits_readLog {p : List Byte} (length : p.length = 3) : lengthFits 0x35 p = true := by
  simp [lengthFits, length]

theorem lengthFits_trimLog {p : List Byte} (length : p.length = 2) : lengthFits 0x36 p = true := by
  simp [lengthFits, length]

theorem State.readLog_eq {s : State} {p : List Byte} {sent : List Observation}
    (fitted : takeFitting 107 (((s.obl.records.filter fun r => decide (u16At p 0 ≤ r.id)).take (max 1 (min 3 (byteAt p 2)))).map
      Observation.encode) = sent.map Observation.encode) :
    s.readLog p = ⟨s, if max 1 (min 3 (byteAt p 2)) = byteAt p 2 then .done else .clamped,
      s.obl.summary ++ u8 sent.length ++ sent.flatMap Observation.encode⟩ := by
  have read : s.readLog p = ⟨s, doneOr (max 1 (min 3 (byteAt p 2)) != byteAt p 2),
      s.obl.summary ++ u8 (takeFitting 107 (((s.obl.records.filter fun r => decide (u16At p 0 ≤ r.id)).take
          (max 1 (min 3 (byteAt p 2)))).map Observation.encode)).length
        ++ (takeFitting 107 (((s.obl.records.filter fun r => decide (u16At p 0 ≤ r.id)).take
          (max 1 (min 3 (byteAt p 2)))).map Observation.encode)).flatten⟩ := rfl
  have status : doneOr (max 1 (min 3 (byteAt p 2)) != byteAt p 2)
      = if max 1 (min 3 (byteAt p 2)) = byteAt p 2 then .done else .clamped := by
    rw [← doneOr_decide]
    simp [bne, beq_eq_decide]
  rw [read, fitted, status, List.length_map, List.flatMap_def]

/-! ## TRIM LOG -/

theorem Observation.trimmable_iff (upTo : Nat) (r : Observation) :
    r.trimmable upTo = true ↔ r.id ≤ upTo ∧ r.state ≠ .opened := by
  simp [Observation.trimmable]

/-- A trim removes exactly the settled front. -/
theorem ObsLog.trim_eq {o : ObsLog} {upTo : Nat} {gone kept : List Observation} (held : o.records = gone ++ kept)
    (settled : ∀ r ∈ gone, r.id ≤ upTo ∧ r.state ≠ .opened)
    (stays : ∀ r more, kept = r :: more → upTo < r.id ∨ r.state = .opened) :
    o.trim upTo = { o with
      records := kept, guardMemory := o.guardMemory.filter fun g => !(gone.map (·.id)).contains g } := by
  have front : ∀ r ∈ gone, r.trimmable upTo = true := fun r member => (r.trimmable_iff upTo).mpr (settled r member)
  have ends (r : Observation) (more : List Observation) (first : kept = r :: more) : r.trimmable upTo = false := by
    rw [← Bool.not_eq_true, r.trimmable_iff]
    rintro ⟨early, closed⟩
    rcases stays r more first with late | opened
    · omega
    · exact closed opened
  have taken : kept.takeWhile (Observation.trimmable upTo) = [] ∧ kept.dropWhile (Observation.trimmable upTo) = kept := by
    cases kept with
    | nil => exact ⟨rfl, rfl⟩
    | cons r more =>
      have stop := ends r more rfl
      exact ⟨List.takeWhile_cons_of_neg (by simp [stop]), List.dropWhile_cons_of_neg (by simp [stop])⟩
  unfold ObsLog.trim
  rw [held, List.takeWhile_append_of_pos front, List.dropWhile_append_of_pos front, taken.1, taken.2, List.append_nil]

/-- Settles O47. -/
theorem logIsReadAndTrimmed : Obligations.LogIsReadAndTrimmed := by
  intro dt s l tag p rest u id summary chainage encoded
  have obl : u.obl = s.obl := State.taken_obl ..
  have encodedIs (r : Observation) : r.encode = encoded r := r.encode_eq
  have encodes : Observation.encode = encoded := funext encodedIs
  refine ⟨fun length ready => ?_, fun length tether ready gone kept held settled stays => ?_⟩
  · intro n
    obtain ⟨sent, after, split, few, fitted, room, maximal⟩ := takeFitting_encoded Observation.encode 107
      (s.obl.records.filter fun r => decide (id ≤ r.id)) n
    have answer := State.readLog_eq (s := u) (p := p) (sent := sent) (by rw [obl]; exact fitted)
    rw [obl, ObsLog.summary_eq, encodes] at answer
    rw [encodes] at room maximal
    refine ⟨sent, after, split, few, room, maximal, congrArg Host.Outcome.next (State.serve_answered dt ready (by decide)
      (by cases l <;> rfl) (lengthFits_readLog length) (act := answerReadLog) answer ?_)⟩
    split <;> rfl
  · intro o
    have trimmed : u.obl.trim id = o := by
      rw [obl]
      exact ObsLog.trim_eq held settled stays
    have removed : u.obl.records.length - o.records.length = gone.length := by
      rw [obl, held, List.length_append]
      exact Nat.add_sub_cancel ..
    have answer : u.trimLog p = ⟨{ u with obl := o }, .done, u8 gone.length ++ summary o⟩ := by
      have made : u.trimLog p = ⟨{ u with obl := u.obl.trim id }, .done,
          u8 (u.obl.records.length - (u.obl.trim id).records.length) ++ (u.obl.trim id).summary⟩ := rfl
      rw [made, trimmed, removed]
      exact congrArg (fun c => (⟨{ u with obl := o }, .done, u8 gone.length ++ c⟩ : Answer)) o.summary_eq
    exact congrArg Host.Outcome.next (State.serve_answered dt ready (by decide) (by rw [tether]; rfl)
      (lengthFits_trimLog length) (act := answerTrimLog) answer rfl)

end Sys2Proof.Machine
end

