-- ==== Sys2Proof/Proofs/Queries.lean ====
section
/-! PROOFS. The requests that read (spec/02 section 2.8, spec/04 section 4.7, spec/05 section 5.10, spec/11 section 11.1,
spec/12 section 12.5), and STILL (spec/03 section 3.5). -/

namespace Sys2Proof.Machine

/-! ## What a reply reads of the state that takes the request -/

section
variable (s : State) (dt : Nat) (l : Link) (rest : List Frame)

theorem State.taken_quality : (s.taken dt l rest).quality = s.quality := by
  unfold State.quality State.inAcquire
  rw [State.taken_chr, State.taken_rin]

theorem State.taken_chainageContent : (s.taken dt l rest).chainageContent = s.chainageContent := by
  unfold State.chainageContent State.slackMm
  rw [State.taken_chainageNow, State.taken_quality, State.taken_chr, State.taken_rin, State.taken_wct, State.taken_drv]

theorem State.taken_sourceInForce : (s.taken dt l rest).sourceInForce = s.sourceInForce := by
  rw [State.sourceInForce_eq, State.sourceInForce_eq, State.taken_ldr, State.taken_set]

theorem State.taken_manualInForce : (s.taken dt l rest).manualInForce = s.manualInForce := by
  rw [State.manualInForce_eq, State.manualInForce_eq, State.taken_ldr, State.taken_set]

theorem State.taken_lampContent : (s.taken dt l rest).lampContent = s.lampContent := by
  simp only [State.lampContent, State.lampSourceBytes, State.lampDriveBytes, State.taken_sourceInForce,
    State.taken_manualInForce, State.pavail, State.effDemand, State.motorAllowance, State.taken_set, State.taken_ldr,
    State.taken_ist, State.taken_ltm, State.taken_drv]

end

/-! ## Lengths of the fields -/

theorem s32opt_length (v : Option Int) : (s32opt v).length = 4 := by cases v <;> rfl
theorem s16opt_length (v : Option Int) : (s16opt v).length = 2 := by cases v <;> rfl

theorem ReelStats.encode_length (r : ReelStats) : r.encode.length = 14 := rfl

theorem measureBytes_length (m : Option Measure) : (measureBytes m).length = 4 := by cases m <;> rfl

theorem completionBytes_length (c : Option Completion) : (completionBytes c).length = 10 := by
  cases c with
  | none => rfl
  | some c => simp only [completionBytes, List.length_append, u8_length, s16opt_length, u32_length]

theorem operationBytes_length (o : Option HeadOperation) : (operationBytes o).length = 3 := by cases o <;> rfl

theorem AxisRecord.encode_length (ax : Axis) (now : Nat) (a : AxisRecord) : (a.encode ax now).length = 11 := by
  simp only [AxisRecord.encode, List.length_append, u8_length, flags_length, s16opt_length, s16_length, u16_length]

theorem State.chainageContent_length (s : State) : s.chainageContent.length = 48 := by
  unfold State.chainageContent
  simp only [List.length_append, s32opt_length, u8_length, flags_length, s16_length, u16_length, ReelStats.encode_length,
    u32_length]

theorem State.headContent_length (s : State) (l : Link) : (s.headContent l).length = 38 := by
  simp only [State.headContent, List.length_append, AxisRecord.encode_length, u8_length, operationBytes_length,
    completionBytes_length]

theorem State.lampContent_length (s : State) : s.lampContent.length = 60 := by
  simp only [State.lampContent, State.lampSourceBytes, State.lampDriveBytes, ThermalMonitor.encode, List.length_append,
    u8_length, u16_length, flags_length, u32_length, s16opt_length, measureBytes_length]

/-! ## The fields of the replies -/

/-- A live count is sent as the signed number it is. -/
theorem s32_toInt (c : Count) : s32 c.toInt = u32 c.toNat := by
  have bound := c.isLt
  rw [s32, BitVec.toInt_eq_toNat_cond]
  congr 1
  split <;> omega

theorem DriveState.driveByte_eq (d : DriveState) : d.driveByte
    = if d.fresh = true then directionCode (some d.direction) + 128 else directionCode none := by
  unfold DriveState.driveByte DriveState.effDirection
  cases d.fresh <;> rfl

theorem LampSource.code_of_ite (P Q : Prop) [Decidable P] [Decidable Q] :
    (if P then LampSource.manual else if Q then .auto else .off).code = if P then 1 else if Q then 0 else 2 := by
  split
  · rfl
  · split <;> rfl

theorem operationBytes_eq (o : Option HeadOperation) : operationBytes o
    = match o with
      | some o => u8 o.kind.code ++ u8 (linkCode o.origin) ++ u8 (if o.stopping = true then 1 else 0)
      | none => [0, 0, 0] := by
  cases o <;> rfl

theorem completionBytes_eq (c : Option Completion) : completionBytes c
    = match c with
      | some d => u8 d.kind.code ++ u8 d.outcome.code ++ s16opt d.pan ++ s16opt d.tilt ++ u32 d.time
      | none => [0, 0, 0x80, 0, 0x80, 0, 0, 0, 0, 0] := by
  cases c <;> rfl

theorem measureBytes_eq (m : Option Measure) : measureBytes m
    = match m with
      | some i => u16 i.mean ++ u16 i.clip
      | none => [0, 0, 0, 0] := by
  cases m <;> rfl

theorem startPending_byte (a : AxisRecord) : (!(a.startPending == .clear)) = decide (a.startPending ≠ .clear) := by
  simp [beq_eq_decide]

theorem HeadPositioner.completion_eq (h : HeadPositioner) (l : Link) : h.completion l
    = match l with
      | .tether => h.doneTether
      | .carriage => h.doneCarriage := by
  cases l <;> rfl

/-! ## GET SETTING and STILL -/

theorem answerGetSetting_of_ofId {p : List Byte} {s : State} {r : SettingRef}
    (named : SettingRef.ofId (u16At p 0) = some r) : answerGetSetting p s
      = ⟨s, .done, u16 r.id ++ u8 (linkCode r.owner) ++ (s.set.value r).encode ++ r.range⟩ := by
  unfold answerGetSetting
  rw [SettingRef.id_of_ofId named, named]

theorem lengthFits_getSetting {p : List Byte} (length : p.length = 2) : lengthFits 0x19 p = true := by
  simp [lengthFits, length]

theorem lengthFits_still {p : List Byte} (length : p.length = 1) : lengthFits 0x2C p = true := by
  simp [lengthFits, length]

theorem answerStill_of_none {s : State} (free : s.fxc.pendingStill = none) (l : Link) (p : List Byte) :
    answerStill l p s = ⟨{ s with fxc := { s.fxc with
        pendingStill := some ⟨s.fxc.choice, l, decide (byteAt p 0 ≠ 0)⟩ } }, .done, u32 s.fxc.choice.toNat⟩ := by
  unfold answerStill FrameTimer.askStill
  rw [free, FrameTimer.stillChoice_eq]
  rfl

/-- Settles O49. -/
theorem queriesReadAndStillIsPending : Obligations.QueriesReadAndStillIsPending := by
  refine ⟨by decide, fun dt s l tag p rest => ?_⟩
  intro u
  have allowed (kind : Byte) (open_ : kind ∈ ([0x10, 0x25, 0x28, 0x19, 0x2C] : List Byte)) : allowedOn kind l = true := by
    revert kind
    cases l <;> decide
  refine ⟨fun ready => ?_, fun ready => ?_, fun ready => ?_, fun length ready => ?_, fun length ready => ?_⟩
  · intro c r w content
    have contentIs : s.chainageContent = content := by
      unfold State.chainageContent ReelStats.encode
      simp only [content, c, r, w, s32_toInt, DriveState.driveByte_eq, List.append_assoc, State.slackMm, truncDiv]
    have answer : answerChainageQuery [] u = ⟨u, .done, content⟩ := by
      rw [answerChainageQuery, State.taken_chainageContent, contentIs]
    exact ⟨congrArg Host.Outcome.next (State.serve_answered dt ready (by decide) (allowed _ (by decide)) rfl answer rfl),
      contentIs ▸ s.chainageContent_length⟩
  · intro axis operation held completion content
    have axisIs (ax : Axis) (a : AxisRecord) : a.encode ax u.timeBase = axis ax a := by
      rw [AxisRecord.encode, startPending_byte]
    have operationIs : operationBytes s.hdp.op = operation := operationBytes_eq _
    have completionIs : completionBytes (s.hdp.completion l) = completion := by
      rw [show s.hdp.completion l = held from s.hdp.completion_eq l]
      exact completionBytes_eq _
    have contentIs : u.headContent l = content := by
      unfold State.headContent
      rw [State.taken_hdp, State.taken_fxc, axisIs, axisIs, operationIs, completionIs]
    have answer : answerHeadQuery l [] u = ⟨u, .done, content⟩ := by
      rw [answerHeadQuery, contentIs]
    exact ⟨congrArg Host.Outcome.next (State.serve_answered dt ready (by decide) (allowed _ (by decide)) rfl answer rfl),
      contentIs ▸ u.headContent_length l⟩
  · intro nat num d m k source demand image content
    have sourceIs : s.sourceInForce.code = source := by
      rw [State.sourceInForce_eq]
      exact LampSource.code_of_ite ..
    have imageIs : measureBytes s.ist.held = image := measureBytes_eq _
    have contentIs : s.lampContent = content := by
      unfold State.lampContent State.lampSourceBytes State.lampDriveBytes ThermalMonitor.encode
      rw [sourceIs, imageIs, State.manualInForce_eq]
      simp only [content, List.append_assoc]
      rfl
    have answer : answerLampQuery [] u = ⟨u, .done, content⟩ := by
      rw [answerLampQuery, State.taken_lampContent, contentIs]
    exact ⟨congrArg Host.Outcome.next (State.serve_answered dt ready (by decide) (allowed _ (by decide)) rfl answer rfl),
      contentIs ▸ s.lampContent_length⟩
  · have served {content : List Byte} (answer : answerGetSetting p u = ⟨u, .done, content⟩) :
        exec (.getSetting dt l) s = .next (u.answered l ⟨tag, 0x19, p⟩ .done content) :=
      congrArg Host.Outcome.next
        (State.serve_answered dt ready (by decide) (allowed _ (by decide)) (lengthFits_getSetting length) answer rfl)
    refine ⟨fun unknown => ?_, fun n named => served ?_, fun m named => served ?_, fun k named => served ?_⟩
    · have answer : answerGetSetting p u = .bare u .noSuch := by
        unfold answerGetSetting
        rw [unknown]
      exact congrArg Host.Outcome.next
        (State.serve_bare dt ready (by decide) (allowed _ (by decide)) (lengthFits_getSetting length) answer)
    · rw [answerGetSetting_of_ofId named, State.taken_set]
      simp only [SettingRef.id, textId, SettingRef.owner, linkCode, Settings.value, SettingValue.encode, SettingRef.range,
        textField, List.length_nil, List.append_nil, List.append_assoc]
    · rw [answerGetSetting_of_ofId named, State.taken_set, SettingRef.id_of_ofId named]
      simp only [SettingRef.owner, Settings.value, SettingValue.encode, SettingRef.range, List.append_nil, List.append_assoc]
    · rw [answerGetSetting_of_ofId named, State.taken_set]
      simp only [SettingRef.id, SettingRef.owner, Settings.value, SettingValue.encode, SettingRef.range, List.append_assoc]
  · have formed := lengthFits_still length
    refine ⟨fun pending => ?_, fun free => ?_⟩
    · have answer : answerStill l p u = .bare u .busy := by
        unfold answerStill
        exact if_pos (by rw [State.taken_fxc]; exact pending)
      exact congrArg Host.Outcome.next
        (State.serve_bare dt ready (by decide) (allowed _ (by decide)) formed (act := answerStill l) answer)
    · intro frame
      have answer := answerStill_of_none (s := u) (by rw [State.taken_fxc]; exact free) l p
      rw [State.taken_fxc] at answer
      exact congrArg Host.Outcome.next
        (State.serve_answered dt ready (by decide) (allowed _ (by decide)) formed (act := answerStill l) answer rfl)

end Sys2Proof.Machine
end

