-- ==== Sys2Proof/Proofs/HeadOperations.lean ====
section
/-! PROOFS. The operations of the head: clearance, completion and stop (spec/05 sections 5.2, 5.5, 5.8 and 5.9), with HEAD
HOME, HEAD STOP and HEAD RELEASE. -/

namespace Sys2Proof.Machine

/-! ## The end of an operation -/

/-- The completion record of the operation in flight as it would end now. -/
def State.completionNow (s : State) (o : HeadOperation) : Completion :=
  ⟨o.kind, s.hdp.outcome, s.hdp.pan.pos, s.hdp.tilt.pos, s.surveyTime s.timeBase⟩

/-- A state differs from another in the head, the clearance, the counts and what waits on the tether alone. -/
def HeadFrame (s t : State) : Prop :=
  t = { s with hdp := t.hdp, fxc := t.fxc, cnd := t.cnd, tlp := { s.tlp with transmit := t.tlp.transmit } }

theorem HeadFrame.refl (s : State) : HeadFrame s s := rfl

/-- HEAD_DONE is counted for a link alone. -/
def HeadDoneFor (s t : State) (k : Link) : Prop :=
  ∀ (l : Link) (n : Fin 16), (t.cnd.counts l)[n]
    = if l = k ∧ n = 11 then min 255 ((s.cnd.counts l)[n] + 1) else (s.cnd.counts l)[n]

theorem State.endOperation_of_op {s : State} {o : HeadOperation} (op : s.hdp.op = some o) :
    s.endOperation = State.raiseFor
      { s with hdp := { s.hdp.putCompletion o.origin (s.completionNow o) with op := none } } .headDone o.origin := by
  unfold State.endOperation
  rw [op]
  rfl

theorem State.endOperation_ends {s : State} {o : HeadOperation} (op : s.hdp.op = some o) :
    s.endOperation.hdp = { s.hdp.putCompletion o.origin (s.completionNow o) with op := none } ∧
      s.endOperation.fxc = s.fxc ∧ HeadDoneFor s s.endOperation o.origin ∧ HeadFrame s s.endOperation ∧
      s.endOperation.timeBase = s.timeBase := by
  rw [State.endOperation_of_op op]
  refine ⟨State.raiseFor_hdp .., State.raiseFor_fxc .., fun l n => ?_, ?_, State.raiseFor_timeBase ..⟩
  · rw [State.raiseFor_counts]
    simp [Condition.audience, Condition.latch]
  · obtain ⟨_, _, changed⟩ := State.raiseFor_changes
      { s with hdp := { s.hdp.putCompletion o.origin (s.completionNow o) with op := none } } .headDone o.origin
    unfold HeadFrame
    rw [changed]

/-- On a LOST tether no ATTENTION message waits, so that the transmit queue stays. -/
theorem State.endOperation_tlp_of_lost {s : State} (lost : s.tlp.up = false) : s.endOperation.tlp = s.tlp := by
  cases op : s.hdp.op with
  | none =>
    unfold State.endOperation
    rw [op]
  | some o =>
    rw [State.endOperation_of_op op, State.raiseFor_tlp, State.raiseFor_transmit, if_neg (by simp [lost])]

theorem HeadPositioner.putCompletion_atRest (h : HeadPositioner) (l : Link) (c : Completion) :
    (h.putCompletion l c).atRest = h.atRest := by
  cases l <;> rfl

/-! ## Settling -/

theorem State.settleHead_of_busy {s : State} {o : HeadOperation} (busy : s.hdp.finished = false) (op : s.hdp.op = some o) :
    s.settleHead = s := by
  have same : (if s.hdp.finished then s.endOperation else s) = s := if_neg (by simp [busy])
  unfold State.settleHead
  rw [same]
  exact if_neg (by simp [op])

/-- A head that moves settles nothing. -/
theorem State.settleHead_of_moving {s : State} (moving : s.hdp.atRest = false) : s.settleHead = s := by
  have busy : s.hdp.finished = false := by simp [HeadPositioner.finished, moving]
  have same : (if s.hdp.finished then s.endOperation else s) = s := if_neg (by simp [busy])
  unfold State.settleHead
  rw [same]
  exact if_neg (by simp [moving])

/-- An operation with no travel to come ends, and the clearance is given back. -/
theorem State.settleHead_ends {s : State} {o : HeadOperation} (finished : s.hdp.finished = true)
    (op : s.hdp.op = some o) :
    s.settleHead.hdp = { s.hdp.putCompletion o.origin (s.completionNow o) with op := none, demand := false } ∧
      s.settleHead.fxc = { s.fxc with clearance := .unasked } ∧ HeadDoneFor s s.settleHead o.origin ∧
      HeadFrame s s.settleHead ∧ (s.tlp.up = false → s.settleHead.tlp = s.tlp) := by
  obtain ⟨rest, _⟩ := HeadPositioner.atRest_of_finished finished
  obtain ⟨hdp, fxc, counts, frame, _⟩ := State.endOperation_ends op
  have settled : s.settleHead = { s.endOperation with
      hdp := { s.endOperation.hdp with demand := false }, fxc := { s.endOperation.fxc with clearance := .unasked } } := by
    unfold State.settleHead
    rw [if_pos finished]
    refine if_pos ?_
    rw [hdp]
    have resting : (s.hdp.putCompletion o.origin (s.completionNow o)).atRest = true :=
      (HeadPositioner.putCompletion_atRest ..).trans rest
    rw [Bool.and_eq_true]
    exact ⟨resting, rfl⟩
  rw [settled]
  refine ⟨?_, ?_, counts, ?_, State.endOperation_tlp_of_lost⟩
  · show { s.endOperation.hdp with demand := false } = _
    rw [hdp]
  · show { s.endOperation.fxc with clearance := .unasked } = _
    rw [fxc]
  · exact congrArg (fun w : State => { w with
      hdp := { s.endOperation.hdp with demand := false }, fxc := { s.endOperation.fxc with clearance := .unasked } }) frame

/-- With no operation in flight a head at rest gives its clearance back. -/
theorem State.settleHead_of_none {s : State} (rest : s.hdp.atRest = true) (idle : s.hdp.op = none) :
    s.settleHead = { s with hdp := { s.hdp with demand := false }, fxc := { s.fxc with clearance := .unasked } } := by
  have same : (if s.hdp.finished then s.endOperation else s) = s := by
    split
    · unfold State.endOperation
      rw [idle]
    · rfl
  unfold State.settleHead
  rw [same]
  exact if_pos (by simp [rest, idle])

/-! ## Asking for clearance -/

theorem State.askClearance_of_none {s : State} (none : s.hdp.anyPending = false) : s.askClearance = s := by
  unfold State.askClearance
  exact if_neg (by simp [none])

theorem State.askClearance_of_unasked {s : State} (any : s.hdp.anyPending = true) (unasked : s.fxc.clearance = .unasked) :
    s.askClearance
      = { s with hdp := { s.hdp with demand := true }, fxc := { s.fxc with clearance := .waiting } } := by
  unfold State.askClearance
  rw [if_pos any, unasked]

theorem State.askClearance_of_waiting {s : State} (any : s.hdp.anyPending = true) (waiting : s.fxc.clearance = .waiting) :
    s.askClearance = s := by
  unfold State.askClearance
  rw [if_pos any, waiting]

theorem State.askClearance_of_given {s : State} (any : s.hdp.anyPending = true) (given : s.fxc.clearance = .given) :
    s.askClearance = { s with hdp := s.hdp.beginPending s.timeBase } := by
  unfold State.askClearance
  rw [if_pos any, given]

theorem AxisRecord.begin_of_clear {a : AxisRecord} (clear : a.startPending = .clear) (ax : Axis) (tiltIndex : Bool)
    (now : Nat) : a.begin_ ax tiltIndex now = a := by
  unfold AxisRecord.begin_
  rw [clear]

theorem HeadPositioner.anyPending_iff (h : HeadPositioner) :
    h.anyPending = true ↔ h.pan.startPending ≠ .clear ∨ h.tilt.startPending ≠ .clear := by
  simp [HeadPositioner.anyPending]

theorem HeadPositioner.beginPending_of_none {h : HeadPositioner} (none : h.anyPending = false) (now : Nat) :
    h.beginPending now = h := by
  have clear : h.pan.startPending = .clear ∧ h.tilt.startPending = .clear := by
    simpa [HeadPositioner.anyPending] using none
  unfold HeadPositioner.beginPending
  rw [AxisRecord.begin_of_clear clear.1, AxisRecord.begin_of_clear clear.2]

/-! ## Stopping -/

/-- An axis stopped from its motion at the instant `now`. -/
def AxisRecord.halted (ax : Axis) (now : Nat) (a : AxisRecord) : AxisRecord :=
  { a.advance ax now with
    startPending := .clear, searchOwed := false, target := none, togo := 0
    state := if a.state = .unhomed ∨ a.state = .idle then a.state else .stopping }

theorem AxisRecord.stop_advance (ax : Axis) (now : Nat) (a : AxisRecord) : (a.advance ax now).stop = a.halted ax now := by
  unfold AxisRecord.stop AxisRecord.halted
  rw [AxisRecord.advance_isAtRest]
  by_cases rest : a.state = .unhomed ∨ a.state = .idle
  · rw [if_pos rest, if_pos (a.atRest_iff.mpr rest), ← AxisRecord.advance_state ax now a]
  · rw [if_neg rest, if_neg (a.atRest_iff.not.mpr rest)]

/-- The head as a stop of the operation in flight leaves it, before it settles. -/
def HeadPositioner.stopped (h : HeadPositioner) (o : HeadOperation) (outcome : HeadOutcome) (now : Nat) : HeadPositioner :=
  { h with
    pan := h.pan.halted .pan now, tilt := h.tilt.halted .tilt now, op := some { o with stopping := true }
    outcome := if h.outcome = .lost then .lost else outcome }

theorem HeadPositioner.stopped_atRest (h : HeadPositioner) (o : HeadOperation) (outcome : HeadOutcome) (now : Nat) :
    (h.stopped o outcome now).atRest = h.atRest := by
  have axis (ax : Axis) (a : AxisRecord) : (a.halted ax now).atRest = a.atRest := by
    rw [← AxisRecord.stop_advance, AxisRecord.stop_atRest, AxisRecord.advance_isAtRest]
  exact congrArg₂ (· && ·) (axis .pan h.pan) (axis .tilt h.tilt)

theorem HeadPositioner.stopped_finished {h : HeadPositioner} (rest : h.atRest = true) (o : HeadOperation)
    (outcome : HeadOutcome) (now : Nat) : (h.stopped o outcome now).finished = true := by
  have still : (h.stopped o outcome now).atRest = true := (h.stopped_atRest ..).trans rest
  have none : (h.stopped o outcome now).anyPending = false := rfl
  unfold HeadPositioner.finished
  rw [still, none]
  rfl

theorem State.stopOperation_of_none {s : State} (outcome : HeadOutcome)
    (idle : s.hdp.op = none ∨ ∃ o, s.hdp.op = some o ∧ o.stopping = true) : s.stopOperation outcome = s := by
  unfold State.stopOperation
  rcases idle with none | ⟨o, some, stopping⟩
  · rw [none]
  · rw [some]
    exact if_pos stopping

theorem State.stopOperation_of_active {s : State} {o : HeadOperation} (op : s.hdp.op = some o)
    (active : o.stopping = false) (outcome : HeadOutcome) :
    s.stopOperation outcome = State.settleHead { s with hdp := s.hdp.stopped o outcome s.timeBase } := by
  unfold State.stopOperation
  rw [op]
  dsimp only
  rw [if_neg (by simp [active]), HeadPositioner.stopAxes, AxisRecord.stop_advance, AxisRecord.stop_advance]
  rfl

/-- An operation in motion stops and goes on to its rest. -/
theorem State.stopOperation_in_motion {s : State} {o : HeadOperation} (op : s.hdp.op = some o)
    (active : o.stopping = false) (moving : s.hdp.atRest = false) (outcome : HeadOutcome) :
    s.stopOperation outcome = { s with hdp := s.hdp.stopped o outcome s.timeBase } := by
  rw [State.stopOperation_of_active op active]
  exact State.settleHead_of_moving ((HeadPositioner.stopped_atRest ..).trans moving)

/-- An operation of a head at rest ends at once. -/
theorem State.stopOperation_at_rest {s : State} {o : HeadOperation} (op : s.hdp.op = some o)
    (active : o.stopping = false) (rest : s.hdp.atRest = true) (outcome : HeadOutcome) :
    (s.stopOperation outcome).hdp
        = { (s.hdp.stopped o outcome s.timeBase).putCompletion o.origin
              ⟨o.kind, (s.hdp.stopped o outcome s.timeBase).outcome, s.hdp.pan.pos, s.hdp.tilt.pos,
                s.surveyTime s.timeBase⟩ with op := none, demand := false } ∧
      (s.stopOperation outcome).fxc = { s.fxc with clearance := .unasked } ∧
      HeadDoneFor s (s.stopOperation outcome) o.origin ∧ HeadFrame s (s.stopOperation outcome) ∧
      (s.tlp.up = false → (s.stopOperation outcome).tlp = s.tlp) := by
  have settled := State.settleHead_ends (s := { s with hdp := s.hdp.stopped o outcome s.timeBase })
    (HeadPositioner.stopped_finished rest o outcome s.timeBase) rfl
  have panPos : (s.hdp.pan.halted .pan s.timeBase).pos = s.hdp.pan.pos := AxisRecord.advance_pos ..
  have tiltPos : (s.hdp.tilt.halted .tilt s.timeBase).pos = s.hdp.tilt.pos := AxisRecord.advance_pos ..
  have completion : State.completionNow { s with hdp := s.hdp.stopped o outcome s.timeBase } { o with stopping := true }
      = ⟨o.kind, (s.hdp.stopped o outcome s.timeBase).outcome, s.hdp.pan.pos, s.hdp.tilt.pos,
          s.surveyTime s.timeBase⟩ := by
    rw [← panPos, ← tiltPos]
    rfl
  rw [← State.stopOperation_of_active op active outcome, completion] at settled
  obtain ⟨hdp, fxc, counts, frame, silent⟩ := settled
  exact ⟨hdp, fxc, counts, frame, silent⟩

end Sys2Proof.Machine
end

