-- ==== Sys2Proof/Proofs/HeadRequests.lean ====
section
/-! PROOFS. HEAD HOME, HEAD STOP and HEAD RELEASE (spec/05 sections 5.3, 5.5 and 5.6), and the loss of the tether with the
messages on its line (spec/10 sections 10.2 and 10.3, spec/05 section 5.9). -/

namespace Sys2Proof.Machine

/-! ## HEAD HOME -/

theorem State.headHome_of_free {s : State} (free : s.hdp.lock = false) (idle : s.hdp.op = none)
    (rest : s.hdp.atRest = true) (unasked : s.fxc.clearance = .unasked) :
    s.headHome = ({ s with
      hdp := { s.hdp with
        pan := { s.hdp.pan with homingTravel := 0, startPending := .home }
        tilt := { s.hdp.tilt with homingTravel := 0, startPending := .home }
        op := some ⟨.home, .tether, false⟩, outcome := .reached, demand := true }
      fxc := { s.fxc with clearance := .waiting } }, .done) := by
  unfold State.headHome
  rw [if_neg (by simp [free]), if_neg (by simp [idle, rest])]
  exact congrArg (·, Status.done) (State.askClearance_of_unasked rfl unasked)

/-- Settles O35. -/
theorem headHomeAsksForBothSearches : Obligations.HeadHomeAsksForBothSearches := by
  intro dt s tag rest ready f u
  have bare {st : Status} (answer : answerHeadHome [] u = .bare u st) :
      exec (.headHome dt .tether) s = .next (u.answered .tether f st []) :=
    congrArg Host.Outcome.next (State.serve_bare dt ready (by decide) rfl rfl answer)
  refine ⟨fun locked => bare ?_, fun free busy => bare ?_, fun free idle rest unasked => ?_⟩
  · have answer : u.headHome = (u, .locked) := if_pos locked
    unfold answerHeadHome
    rw [answer]
    rfl
  · have answer : u.headHome = (u, .busy) := by
      unfold State.headHome
      rw [if_neg (by simp [show u.hdp.lock = false from free])]
      refine if_pos ?_
      rcases busy with inFlight | moving
      · simp [show u.hdp.op.isSome = true from inFlight]
      · simp [show u.hdp.atRest = false from moving]
    unfold answerHeadHome
    rw [answer]
    rfl
  · have answer := State.headHome_of_free (s := u) free idle rest unasked
    exact congrArg Host.Outcome.next (State.serve_answered dt ready (by decide) rfl rfl (act := answerHeadHome)
      (congrArg (fun r : State × Status => (⟨r.1, r.2, []⟩ : Answer)) answer) rfl)

/-! ## HEAD STOP and HEAD RELEASE -/

theorem State.headStop_of_free {s : State} (free : s.hdp.lock = false) :
    s.headStop = (s.stopOperation .stopped, .done) := by
  unfold State.headStop
  exact if_neg (by simp [free])

theorem HeadPositioner.parkInFlight_iff (h : HeadPositioner) :
    h.parkInFlight = true ↔ ∃ o, h.op = some o ∧ o.kind = .park := by
  unfold HeadPositioner.parkInFlight
  cases h.op <;> simp

theorem State.headRelease_of_park {s : State} {o : HeadOperation} (op : s.hdp.op = some o) (park : o.kind = .park) :
    s.headRelease = State.stopOperation { s with hdp := { s.hdp with lock := false } } .stopped := by
  unfold State.headRelease
  exact if_pos ((HeadPositioner.parkInFlight_iff _).mpr ⟨o, op, park⟩)

/-- Settles O37. -/
theorem headStopAndRelease : Obligations.HeadStopAndRelease := by
  intro dt s tag rest now halted stopped
  refine ⟨fun ready => ?_, fun ready => ?_⟩
  · intro u
    have done {t : State} (free : s.hdp.lock = false) (outcome : u.stopOperation .stopped = t) :
        exec (.headStop dt .tether) s = .next (t.answered .tether ⟨tag, 0x22, []⟩ .done []) := by
      have answer : answerHeadStop [] u = ⟨t, .done, []⟩ := by
        unfold answerHeadStop
        rw [State.headStop_of_free (s := u) free, outcome]
      exact congrArg Host.Outcome.next (State.serve_answered dt ready (by decide) rfl rfl answer rfl)
    refine ⟨fun locked => ?_, fun free idle => ?_, fun o free op active moving => ?_, fun o free op active rest => ?_⟩
    · have answer : answerHeadStop [] u = .bare u .locked := by
        have locked : u.headStop = (u, .locked) := if_pos locked
        unfold answerHeadStop
        rw [locked]
        rfl
      exact congrArg Host.Outcome.next (State.serve_bare dt ready (by decide) rfl rfl answer)
    · exact done free (State.stopOperation_of_none (s := u) .stopped idle)
    · exact done free (State.stopOperation_in_motion (s := u) op active moving .stopped)
    · intro h completion
      obtain ⟨hdp, fxc, counts, frame, _⟩ := State.stopOperation_at_rest (s := u) op active rest .stopped
      exact ⟨_, done free rfl, hdp, fxc, counts, frame⟩
  · intro u free
    have done {t : State} (outcome : u.headRelease = t) :
        exec (.headRelease dt .carriage) s = .next (t.answered .carriage ⟨tag, 0x24, []⟩ .done []) := by
      have answer : answerHeadRelease [] u = ⟨t, .done, []⟩ := by
        unfold answerHeadRelease
        rw [outcome]
      exact congrArg Host.Outcome.next (State.serve_answered dt ready (by decide) rfl rfl answer rfl)
    refine ⟨fun idle => done ?_, fun o op park active moving => done ?_, fun o op park active rest => ?_⟩
    · by_cases park : ∃ o, s.hdp.op = some o ∧ o.kind = .park
      · obtain ⟨o, op, kind⟩ := park
        have stopping : o.stopping = true := by
          rcases idle with none | ⟨o', op', other | stopping⟩
          · exact nomatch op.symm.trans none
          · obtain rfl := Option.some.inj (op.symm.trans op')
            exact absurd kind other
          · obtain rfl := Option.some.inj (op.symm.trans op')
            exact stopping
        exact (State.headRelease_of_park (s := u) op kind).trans
          (State.stopOperation_of_none (s := { u with hdp := free }) .stopped (.inr ⟨o, op, stopping⟩))
      · unfold State.headRelease
        exact if_neg ((HeadPositioner.parkInFlight_iff _).not.mpr park)
    · exact (State.headRelease_of_park (s := u) op park).trans
        (State.stopOperation_in_motion (s := { u with hdp := free }) op active moving .stopped)
    · intro h completion
      obtain ⟨hdp, fxc, counts, frame, _⟩ :=
        State.stopOperation_at_rest (s := { u with hdp := free }) op active rest .stopped
      exact ⟨_, done (State.headRelease_of_park (s := u) op park), hdp, fxc, counts, frame⟩

/-! ## The loss of the tether -/

theorem State.headLinkLost_of_other {s : State}
    (other : s.hdp.op = none ∨ ∃ o, s.hdp.op = some o ∧ (o.origin = .carriage ∨ o.stopping = true)) :
    s.headLinkLost = s := by
  unfold State.headLinkLost
  rcases other with none | ⟨o, some, carriage | stopping⟩
  · rw [none]
  · rw [some]
    exact if_neg (by simp [carriage])
  · rw [some]
    dsimp only
    rw [State.stopOperation_of_none .linkLost (.inr ⟨o, some, stopping⟩)]
    exact ite_self s

theorem State.headLinkLost_of_surface {s : State} {o : HeadOperation} (op : s.hdp.op = some o)
    (surface : o.origin = .tether) : s.headLinkLost = s.stopOperation .linkLost := by
  unfold State.headLinkLost
  rw [op]
  exact if_pos surface

/-- The state of a lost tether, before the head takes it. -/
def State.tetherLost (s : State) : State :=
  { s with
    tlp := { s.tlp with
      up := false, alive := none, requests := [], transmit := []
      counters := { s.tlp.counters with losses := sat16 s.tlp.counters.losses 1 } }
    ldr := { s.ldr with override := some (s.set.nat .lostLinkLevel) } }

theorem State.linkTimeout_of_due {s : State} {d : Nat} (up : s.tlp.up = true) (alive : s.tlp.alive = some d)
    (due : d ≤ s.timeBase) : s.linkTimeout = s.tetherLost.headLinkLost := by
  unfold State.linkTimeout
  exact if_pos (by simp [up, alive, State.due, due])

theorem flags_single (b : Bool) : flags [b] = u8 (if b = true then 1 else 0) := by cases b <;> rfl

theorem State.messageBegins_of_waiting {s : State} {m : TxMessage} {rest : List TxMessage} (free : s.tlp.line = none)
    (waits : s.tlp.transmit = m :: rest) : s.messageBegins
      = { s with tlp := { s.tlp with
          transmit := rest, line := some ⟨(s.messageFrame m).tetherBytes, s.timeBase, false⟩ } } := by
  unfold State.messageBegins
  rw [free, waits]

theorem State.messageEnds_of_line {s : State} {m : LineMessage} (line : s.tlp.line = some m) : s.messageEnds
    = if lineDone m s.tlp.baud s.timeBase = true then State.streamDecision { s with
          tlp := { s.tlp with line := none }
          stu := { s.stu with inFlight := if m.isStamp = true then none else s.stu.inFlight } }
      else s := by
  have stu : (if m.isStamp then { s.stu with inFlight := none } else s.stu)
      = { s.stu with inFlight := if m.isStamp = true then none else s.stu.inFlight } := by
    cases m.isStamp <;> rfl
  unfold State.messageEnds
  rw [line]
  dsimp only
  rw [stu]

/-- Settles O52. -/
theorem linkLossAndMessages : Obligations.LinkLossAndMessages := by
  intro dt s now lost
  refine ⟨fun d up alive due => ⟨rfl, rfl, fun other => ?_, fun o op surface active => ?_⟩, fun m rest free waits => ?_,
    fun m line => ?_⟩
  · have timeout := State.linkTimeout_of_due (s := s.elapse dt) up alive due
    exact congrArg Host.Outcome.next (timeout.trans (State.headLinkLost_of_other (s := lost) other))
  · intro halted outcome stopped
    have timeout : (s.elapse dt).linkTimeout = lost.stopOperation .linkLost :=
      (State.linkTimeout_of_due (s := s.elapse dt) up alive due).trans (State.headLinkLost_of_surface (s := lost) op surface)
    refine ⟨fun moving => ?_, fun rest => ?_⟩
    · exact congrArg Host.Outcome.next (timeout.trans (State.stopOperation_in_motion (s := lost) op active moving .linkLost))
    · obtain ⟨hdp, fxc, counts, frame, silent⟩ := State.stopOperation_at_rest (s := lost) op active rest .linkLost
      refine ⟨_, congrArg Host.Outcome.next timeout, hdp.trans ?_, fxc, ?_, ?_⟩
      · unfold HeadPositioner.putCompletion
        rw [surface]
        rfl
      · rw [surface] at counts
        exact counts
      · have tlp : ({ lost.tlp with transmit := (lost.stopOperation .linkLost).tlp.transmit } : TetherPort) = lost.tlp := by
          rw [silent rfl]
        exact frame.trans (congrArg (fun p : TetherPort => { lost with
          hdp := (lost.stopOperation .linkLost).hdp, fxc := (lost.stopOperation .linkLost).fxc
          cnd := (lost.stopOperation .linkLost).cnd, tlp := p }) tlp)
  · intro attention sent
    have frame : (s.elapse dt).messageFrame m = sent := by
      have flag : flags [s.attention .tether] = u8 (if s.attention .tether = true then 1 else 0) := flags_single _
      cases m with
      | reply f => rfl
      | refusal f => rfl
      | attention =>
        exact congrArg (fun b : List Byte => (⟨0, 0xC1, countBytes s.cnd.tether ++ u16 s.set.tetherMask.toNat ++ b⟩ : Frame)) flag
    have begun := State.messageBegins_of_waiting (s := s.elapse dt) free waits
    rw [frame] at begun
    exact congrArg Host.Outcome.next begun
  · intro rate
    have done : lineDone m s.tlp.baud now = decide (m.wire.length * 10 * 1000000 ≤ (now - m.begun) * rate) := by
      rw [Nat.mul_assoc]
      rfl
    have ended := State.messageEnds_of_line (s := s.elapse dt) line
    refine ⟨fun whole => ?_, fun early => ?_⟩
    · exact congrArg Host.Outcome.next (ended.trans (if_pos (done.trans (decide_eq_true whole))))
    · have unfinished : lineDone m s.tlp.baud now = false := done.trans (decide_eq_false (Nat.not_le.mpr early))
      exact congrArg Host.Outcome.next (ended.trans (if_neg (Bool.eq_false_iff.mp unfinished)))

end Sys2Proof.Machine
end

