-- ==== Sys2Proof/Proofs/HeadMove.lean ====
section
/-! PROOFS. HEAD MOVE (spec/05 section 5.4). -/

namespace Sys2Proof.Machine

/-! ## A request answered with a status alone -/

/-- A block's answer whose status carries no content, whatever it computed beside it. -/
theorem State.serve_dropping {s : State} {l : Link} {tag kind : Byte} {p : List Byte} {rest : List Frame}
    {act : List Byte → State → Answer} (dt : Nat) (ready : s.readyFor l ⟨tag, kind, p⟩ rest)
    (known : knownKind kind = true) (allowed : allowedOn kind l = true) (formed : lengthFits kind p = true) {t : State}
    {st : Status} {content : List Byte} (answer : act p (s.taken dt l rest) = ⟨t, st, content⟩)
    (drops : st.carries = false) : (s.elapse dt).serve l kind act = t.answered l ⟨tag, kind, p⟩ st [] := by
  have payload : (Answer.mk t st content).payload = u8 st.code ++ [] := by simp [Answer.payload, drops]
  rw [State.serve_passing dt act ready known allowed formed, answer, payload]
  rfl

/-! ## Aiming an axis -/

section
variable {ax : Axis} {a : AxisRecord} {p target : Int}

theorem AxisRecord.aim_away (homed : a.pos = some p) (rest : a.atRest = true) (away : wayTo ax p target ≠ 0) :
    a.aim ax target = { a with target := some target, togo := wayTo ax p target, startPending := .move } := by
  unfold AxisRecord.aim
  rw [homed]
  dsimp only
  rw [if_pos rest, if_neg away, ← homed]

theorem AxisRecord.aim_here (homed : a.pos = some p) (rest : a.atRest = true) (here : wayTo ax p target = 0) :
    a.aim ax target = { a with target := none, togo := 0, startPending := .clear } := by
  unfold AxisRecord.aim
  rw [homed]
  dsimp only
  rw [if_pos rest, if_pos here, ← homed]

theorem AxisRecord.aim_moving (homed : a.pos = some p) (moving : a.atRest = false) :
    a.aim ax target = { a with state := .moving, target := some target, togo := wayTo ax p target } := by
  unfold AxisRecord.aim
  rw [homed]
  dsimp only
  rw [if_neg (by simp [moving]), ← homed]

end

theorem wayTo_self (ax : Axis) (p : Int) : wayTo ax p p = 0 := by
  cases ax <;> simp [wayTo]

theorem wayTo_tilt_ne_zero {p q : Int} (apart : q ≠ p) : wayTo .tilt p q ≠ 0 := by
  unfold wayTo
  dsimp only
  omega

theorem wayTo_pan_ne_zero {p q : Int} (circle : 0 ≤ p ∧ p ≤ 3599) (target : 0 ≤ q ∧ q ≤ 3599) (apart : q ≠ p) :
    wayTo .pan p q ≠ 0 := by
  unfold wayTo
  dsimp only
  split <;> omega

theorem HeadPositioner.advance_of_rest {h : HeadPositioner} (rest : h.atRest = true) (now : Nat) : h.advance now = h := by
  obtain ⟨pan, tilt⟩ : h.pan.atRest = true ∧ h.tilt.atRest = true := by simpa [HeadPositioner.atRest] using rest
  rw [HeadPositioner.advance, AxisRecord.advance_atRest pan, AxisRecord.advance_atRest tilt]

/-! ## A move that is taken -/

/-- The head with a move to optional targets at a percentage of the maximum speeds. -/
def HeadPositioner.aimed (h : HeadPositioner) (pan tilt : Option Int) (percent : Nat) : HeadPositioner :=
  { h with
    pan := { h.pan.aimOpt .pan pan with limit := speedLimit .pan percent }
    tilt := { h.tilt.aimOpt .tilt tilt with limit := speedLimit .tilt percent }
    op := some ⟨.move, .tether, false⟩
    outcome := if h.op.isSome then h.outcome else .reached }

theorem State.moveTo_eq {s w : State} (yields : s.advanceHead.yieldToMove = w) (pan tilt : Option Int) (percent : Nat) :
    s.moveTo pan tilt percent = State.settleHead (State.askClearance { w with hdp := w.hdp.aimed pan tilt percent }) := by
  subst yields
  rfl

theorem State.takeMove_of_target {s : State} {pan tilt : Option Int} (target : pan ≠ none ∨ tilt ≠ none) (percent : Nat) :
    s.takeMove pan tilt percent = s.moveTo pan tilt percent := by
  unfold State.takeMove
  refine if_neg fun both => ?_
  simp only [Bool.and_eq_true, Option.isNone_iff_eq_none] at both
  rcases target with pan' | tilt'
  · exact pan' both.1
  · exact tilt' both.2

theorem State.yieldToMove_of_none {s : State} (idle : s.hdp.op = none) : s.yieldToMove = s := by
  unfold State.yieldToMove
  rw [idle]

theorem State.yieldToMove_of_move {s : State} {o : HeadOperation} (op : s.hdp.op = some o) (active : o.stopping = false)
    (move : o.kind = .move) : s.yieldToMove = s := by
  unfold State.yieldToMove
  rw [op]
  dsimp only
  rw [if_neg (by simp [active]), if_pos move]

/-- The outcome with which an operation gives way to a move. -/
def HeadOperation.yielded (o : HeadOperation) (outcome : HeadOutcome) : HeadOutcome :=
  if o.stopping = true then outcome else .superseded

theorem State.yieldToMove_of_other {s : State} {o : HeadOperation} (op : s.hdp.op = some o)
    (other : o.stopping = true ∨ o.kind ≠ .move) :
    s.yieldToMove = State.endOperation { s with hdp := { s.hdp with outcome := o.yielded s.hdp.outcome } } := by
  unfold State.yieldToMove HeadOperation.yielded
  rw [op]
  dsimp only
  by_cases stopping : o.stopping = true
  · rw [if_pos stopping, if_pos stopping]
  · rw [if_neg stopping, if_neg stopping, if_neg (other.resolve_left stopping)]

/-- A head at rest with no operation in flight, before a move is aimed. -/
theorem State.moveTo_from_rest {s : State} (rest : s.hdp.atRest = true) (idle : s.hdp.op = none) (pan tilt : Option Int)
    (percent : Nat) : s.moveTo pan tilt percent
      = State.settleHead (State.askClearance { s with hdp := s.hdp.aimed pan tilt percent }) := by
  have still : s.advanceHead = s := congrArg (fun h => { s with hdp := h }) (HeadPositioner.advance_of_rest rest s.timeBase)
  exact State.moveTo_eq (by rw [still]; exact State.yieldToMove_of_none idle) pan tilt percent

/-- A move with something to travel asks for clearance and waits. -/
theorem State.askAndWait {s : State} {o : HeadOperation} (any : s.hdp.anyPending = true)
    (unasked : s.fxc.clearance = .unasked) (op : s.hdp.op = some o) :
    s.askClearance.settleHead
      = { s with hdp := { s.hdp with demand := true }, fxc := { s.fxc with clearance := .waiting } } := by
  rw [State.askClearance_of_unasked any unasked]
  refine State.settleHead_of_busy (o := o) ?_ op
  have pending : ({ s.hdp with demand := true } : HeadPositioner).anyPending = true := any
  simp [HeadPositioner.finished, pending]

/-! ## The tests of a move -/

theorem HeadPositioner.moveBusy_eq_false {h : HeadPositioner} (pan : h.pan.state ≠ .homing) (tilt : h.tilt.state ≠ .homing)
    (free : ∀ o, h.op = some o → o.kind ≠ .home ∧
      (o.kind = .park → h.pan.startPending ≠ .home ∧ h.tilt.startPending ≠ .home)) : h.moveBusy = false := by
  unfold HeadPositioner.moveBusy
  cases op : h.op with
  | none => simp [pan, tilt]
  | some o =>
    obtain ⟨other, park⟩ := free o op
    by_cases kind : o.kind = .park
    · obtain ⟨panFree, tiltFree⟩ := park kind
      simp [pan, tilt, kind, panFree, tiltFree]
    · simp [pan, tilt, other, kind]

/-- An axis at rest is not homing. -/
theorem AxisRecord.not_homing_of_rest {a : AxisRecord} (rest : a.atRest = true) : a.state ≠ .homing := by
  rcases a.atRest_iff.mp rest with state | state <;> simp [state]

theorem HeadPositioner.moveBusy_of_rest {h : HeadPositioner} (rest : h.atRest = true) (idle : h.op = none) :
    h.moveBusy = false := by
  obtain ⟨pan, tilt⟩ : h.pan.atRest = true ∧ h.tilt.atRest = true := by simpa [HeadPositioner.atRest] using rest
  exact HeadPositioner.moveBusy_eq_false (AxisRecord.not_homing_of_rest pan) (AxisRecord.not_homing_of_rest tilt)
    fun o op => nomatch idle.symm.trans op

/-- A move that passes its tests. -/
theorem State.headMove_taken {s : State} (free : s.hdp.lock = false) (ready : s.hdp.moveBusy = false)
    (pan : s.hdp.pan.pos.isSome = true) (tilt : s.hdp.tilt.pos.isSome = true) (x y : Option Int) (percent : Nat) :
    s.headMove x y percent
      = (s.takeMove (x.map (storedTarget .pan)) (y.map (storedTarget .tilt)) (clampNat 1 100 percent),
          if x.map (storedTarget .pan) = x ∧ y.map (storedTarget .tilt) = y ∧ clampNat 1 100 percent = percent
            then .done else .clamped,
          x.map (storedTarget .pan), y.map (storedTarget .tilt), clampNat 1 100 percent) := by
  unfold State.headMove
  dsimp only
  rw [if_neg (by simp [free]), if_neg (by simp [ready]), if_neg]
  simp only [Bool.or_eq_true, Option.isNone_iff_eq_none]
  rintro (none | none)
  · simp [none] at pan
  · simp [none] at tilt

theorem State.headMove_locked {s : State} (locked : s.hdp.lock = true) (x y : Option Int) (percent : Nat) :
    s.headMove x y percent
      = (s, .locked, x.map (storedTarget .pan), y.map (storedTarget .tilt), clampNat 1 100 percent) := by
  unfold State.headMove
  exact if_pos locked

theorem State.headMove_busy {s : State} (free : s.hdp.lock = false) (busy : s.hdp.moveBusy = true) (x y : Option Int)
    (percent : Nat) : s.headMove x y percent
      = (s, .busy, x.map (storedTarget .pan), y.map (storedTarget .tilt), clampNat 1 100 percent) := by
  unfold State.headMove
  dsimp only
  rw [if_neg (by simp [free]), if_pos busy]

theorem State.headMove_notReady {s : State} (free : s.hdp.lock = false) (ready : s.hdp.moveBusy = false)
    (unhomed : s.hdp.pan.pos = none) (x y : Option Int) (percent : Nat) : s.headMove x y percent
      = (s, .notReady, x.map (storedTarget .pan), y.map (storedTarget .tilt), clampNat 1 100 percent) := by
  unfold State.headMove
  dsimp only
  rw [if_neg (by simp [free]), if_neg (by simp [ready]), if_pos (by simp [unhomed])]

end Sys2Proof.Machine
end

