-- ==== Sys2Proof/Proofs/HeadMoveOutcomes.lean ====
section
/-! PROOFS. What a taken HEAD MOVE comes to: from rest, in an ACTIVE move, from another operation, and without targets
(spec/05 section 5.4). -/

namespace Sys2Proof.Machine

/-- The speed limits of a percentage, on both axes. -/
def HeadPositioner.limited (h : HeadPositioner) (percent : Nat) : HeadPositioner :=
  { h with
    pan := { h.pan with limit := max 1 (600 * percent / 100) }
    tilt := { h.tilt with limit := max 1 (450 * percent / 100) } }

section
variable {s : State} {px ty xx yy : Int} {percent : Nat}

/-! ## From rest -/

/-- What the head's rules say of a head with no operation in flight. -/
theorem HeadOk.idle {s : State} (ok : HeadOk s) (idle : s.hdp.op = none) :
    s.hdp.finished = true ∧ s.hdp.atRest = true ∧ s.hdp.anyPending = false ∧ s.fxc.clearance = .unasked ∧
      s.hdp.demand = false := by
  obtain ⟨base, _, none⟩ := (headOk_iff s).mp ok
  obtain ⟨finished, unasked⟩ := none idle
  obtain ⟨rest, pending⟩ := HeadPositioner.atRest_of_finished finished
  refine ⟨finished, rest, pending, unasked, ?_⟩
  rw [← Bool.not_eq_true, base.demand, unasked]
  simp

theorem HeadPositioner.rest_axes {h : HeadPositioner} (rest : h.atRest = true) :
    h.pan.atRest = true ∧ h.tilt.atRest = true := by
  simpa [HeadPositioner.atRest] using rest

theorem HeadPositioner.clear_axes {h : HeadPositioner} (none : h.anyPending = false) :
    h.pan.startPending = .clear ∧ h.tilt.startPending = .clear := by
  simpa [HeadPositioner.anyPending] using none

theorem HeadOk.pan_range {s : State} (ok : HeadOk s) (homed : s.hdp.pan.pos = some px) : 0 ≤ px ∧ px ≤ 3599 :=
  ok.base.pan.1 px homed

theorem State.takeMove_both (ok : HeadOk s) (idle : s.hdp.op = none) (panHomed : s.hdp.pan.pos = some px)
    (tiltHomed : s.hdp.tilt.pos = some ty) (circle : 0 ≤ xx ∧ xx ≤ 3599) (panAway : xx ≠ px) (tiltAway : yy ≠ ty) :
    s.takeMove (some xx) (some yy) percent
      = { s with
          hdp := HeadPositioner.limited { s.hdp with
            pan := { s.hdp.pan with target := some xx, togo := wayTo .pan px xx, startPending := .move }
            tilt := { s.hdp.tilt with target := some yy, togo := yy - ty, startPending := .move }
            op := some ⟨.move, .tether, false⟩, outcome := .reached, demand := true } percent
          fxc := { s.fxc with clearance := .waiting } } := by
  obtain ⟨_, rest, _, unasked, _⟩ := ok.idle idle
  obtain ⟨panRest, tiltRest⟩ := HeadPositioner.rest_axes rest
  have aimed : s.hdp.aimed (some xx) (some yy) percent = HeadPositioner.limited { s.hdp with
      pan := { s.hdp.pan with target := some xx, togo := wayTo .pan px xx, startPending := .move }
      tilt := { s.hdp.tilt with target := some yy, togo := yy - ty, startPending := .move }
      op := some ⟨.move, .tether, false⟩, outcome := .reached } percent := by
    unfold HeadPositioner.aimed AxisRecord.aimOpt
    dsimp only
    rw [AxisRecord.aim_away panHomed panRest (wayTo_pan_ne_zero (ok.pan_range panHomed) circle panAway),
      AxisRecord.aim_away tiltHomed tiltRest (wayTo_tilt_ne_zero tiltAway), idle]
    rfl
  rw [State.takeMove_of_target (pan := some xx) (.inl (by simp)), State.moveTo_from_rest rest idle, aimed]
  exact State.askAndWait rfl unasked rfl

theorem State.takeMove_pan (ok : HeadOk s) (idle : s.hdp.op = none) (panHomed : s.hdp.pan.pos = some px)
    (circle : 0 ≤ xx ∧ xx ≤ 3599) (panAway : xx ≠ px) :
    s.takeMove (some xx) none percent
      = { s with
          hdp := HeadPositioner.limited { s.hdp with
            pan := { s.hdp.pan with target := some xx, togo := wayTo .pan px xx, startPending := .move }
            op := some ⟨.move, .tether, false⟩, outcome := .reached, demand := true } percent
          fxc := { s.fxc with clearance := .waiting } } := by
  obtain ⟨_, rest, _, unasked, _⟩ := ok.idle idle
  obtain ⟨panRest, _⟩ := HeadPositioner.rest_axes rest
  have aimed : s.hdp.aimed (some xx) none percent = HeadPositioner.limited { s.hdp with
      pan := { s.hdp.pan with target := some xx, togo := wayTo .pan px xx, startPending := .move }
      op := some ⟨.move, .tether, false⟩, outcome := .reached } percent := by
    unfold HeadPositioner.aimed AxisRecord.aimOpt
    dsimp only
    rw [AxisRecord.aim_away panHomed panRest (wayTo_pan_ne_zero (ok.pan_range panHomed) circle panAway), idle]
    rfl
  rw [State.takeMove_of_target (pan := some xx) (.inl (by simp)), State.moveTo_from_rest rest idle, aimed]
  exact State.askAndWait rfl unasked rfl

/-- A tilt axis that is aimed at nothing else than where it is. -/
theorem AxisRecord.aimOpt_here {y : Option Int} (homed : s.hdp.tilt.pos = some ty) (rest : s.hdp.tilt.atRest = true)
    (clear : s.hdp.tilt.startPending = .clear) (here : y = none ∨ y = some ty) :
    s.hdp.tilt.aimOpt .tilt y = if y = none then s.hdp.tilt else { s.hdp.tilt with target := none, togo := 0 } := by
  rcases here with rfl | rfl
  · rfl
  · have aimed := AxisRecord.aim_here homed rest (wayTo_self .tilt ty)
    rw [← clear] at aimed
    rw [if_neg (by simp)]
    exact aimed

/-- A move that ends at once leaves its outcome and its completion. -/
theorem HeadPositioner.ended_move {h : HeadPositioner} (idle : h.op = none) (demand : h.demand = false)
    (o : HeadOperation) (c : Completion) :
    { ({ h with op := some o, outcome := .reached } : HeadPositioner).putCompletion .tether c with
        op := none, demand := false }
      = { h with outcome := .reached, doneTether := some c } := by
  obtain ⟨_⟩ := h
  dsimp only at idle demand
  subst idle demand
  rfl

theorem State.takeMove_nowhere {y : Option Int} (ok : HeadOk s) (idle : s.hdp.op = none)
    (panHomed : s.hdp.pan.pos = some px) (tiltHomed : s.hdp.tilt.pos = some ty) (here : y = none ∨ y = some ty) :
    (s.takeMove (some px) y percent).hdp
        = { HeadPositioner.limited { s.hdp with
              pan := { s.hdp.pan with target := none, togo := 0 }
              tilt := if y = none then s.hdp.tilt else { s.hdp.tilt with target := none, togo := 0 } } percent with
            outcome := .reached, doneTether := some ⟨.move, .reached, some px, some ty, s.surveyTime s.timeBase⟩ } ∧
      (s.takeMove (some px) y percent).fxc = s.fxc ∧ HeadDoneFor s (s.takeMove (some px) y percent) .tether := by
  obtain ⟨finished, rest, pending, unasked, demand⟩ := ok.idle idle
  obtain ⟨panRest, tiltRest⟩ := HeadPositioner.rest_axes rest
  obtain ⟨panClear, tiltClear⟩ := HeadPositioner.clear_axes pending
  have aimed : s.hdp.aimed (some px) y percent = { HeadPositioner.limited { s.hdp with
        pan := { s.hdp.pan with target := none, togo := 0 }
        tilt := if y = none then s.hdp.tilt else { s.hdp.tilt with target := none, togo := 0 } } percent with
      op := some ⟨.move, .tether, false⟩, outcome := .reached } := by
    unfold HeadPositioner.aimed
    rw [AxisRecord.aimOpt_here tiltHomed tiltRest tiltClear here, idle,
      show s.hdp.pan.aimOpt .pan (some px) = s.hdp.pan.aim .pan px from rfl,
      AxisRecord.aim_here panHomed panRest (wayTo_self .pan px), ← panClear]
    rfl
  let w : State := { s with hdp := s.hdp.aimed (some px) y percent }
  have same (P : AxisRecord → Prop) (plain : P s.hdp.tilt) (spent : P { s.hdp.tilt with target := none, togo := 0 }) :
      P (if y = none then s.hdp.tilt else { s.hdp.tilt with target := none, togo := 0 }) := by
    split
    · exact plain
    · exact spent
  have quiet : w.hdp.finished = true := by
    have tiltSame (a : AxisRecord) (state : a.atRest = s.hdp.tilt.atRest) (start : a.startPending = s.hdp.tilt.startPending)
        (owed : a.searchOwed = s.hdp.tilt.searchOwed) :
        ({ HeadPositioner.limited { s.hdp with pan := { s.hdp.pan with target := none, togo := 0 }, tilt := a } percent with
          op := some ⟨.move, .tether, false⟩, outcome := .reached } : HeadPositioner).finished = s.hdp.finished := by
      have restSame : (a.state == .unhomed || a.state == .idle)
          = (s.hdp.tilt.state == .unhomed || s.hdp.tilt.state == .idle) := state
      simp only [HeadPositioner.finished, HeadPositioner.atRest, HeadPositioner.anyPending, HeadPositioner.limited,
        AxisRecord.atRest, start, owed, restSame]
    show (s.hdp.aimed (some px) y percent).finished = true
    rw [aimed, same (fun a => ({ HeadPositioner.limited { s.hdp with
      pan := { s.hdp.pan with target := none, togo := 0 }, tilt := a } percent with
      op := some ⟨.move, .tether, false⟩, outcome := .reached } : HeadPositioner).finished = s.hdp.finished)
      (tiltSame _ rfl rfl rfl) (tiltSame _ rfl rfl rfl), finished]
  have moved : s.takeMove (some px) y percent = w.settleHead := by
    rw [State.takeMove_of_target (pan := some px) (.inl (by simp)), State.moveTo_from_rest rest idle,
      State.askClearance_of_none (HeadPositioner.atRest_of_finished quiet).2]
  have op : w.hdp.op = some ⟨.move, .tether, false⟩ := rfl
  obtain ⟨hdp, fxc, counts, _⟩ := State.settleHead_ends quiet op
  rw [← moved] at hdp fxc counts
  have panPos : w.hdp.pan.pos = some px := by
    show (s.hdp.aimed (some px) y percent).pan.pos = some px
    rw [aimed]
    exact panHomed
  have tiltPos : w.hdp.tilt.pos = some ty := by
    show (s.hdp.aimed (some px) y percent).tilt.pos = some ty
    rw [aimed]
    exact same (fun a => a.pos = some ty) tiltHomed tiltHomed
  have completion : w.completionNow ⟨.move, .tether, false⟩
      = ⟨.move, .reached, some px, some ty, s.surveyTime s.timeBase⟩ := by
    unfold State.completionNow
    rw [panPos, tiltPos, show w.hdp.outcome = .reached by simp [w, HeadPositioner.aimed, idle]]
    rfl
  refine ⟨hdp.trans ?_, fxc.trans ?_, counts⟩
  · rw [completion, show w.hdp = _ from aimed]
    exact HeadPositioner.ended_move (h := HeadPositioner.limited { s.hdp with
        pan := { s.hdp.pan with target := none, togo := 0 }
        tilt := if y = none then s.hdp.tilt else { s.hdp.tilt with target := none, togo := 0 } } percent) idle demand _ _
  · show { s.fxc with clearance := .unasked } = s.fxc
    rw [← unasked]

end

end Sys2Proof.Machine
end

