-- ==== Sys2Proof/Proofs/HeadMoveTaken.lean ====
section
/-! PROOFS. HEAD MOVE with an operation in flight, and its tests (spec/05 section 5.4). -/

namespace Sys2Proof.Machine

section
variable {s : State} {px ty xx yy : Int} {percent : Nat}

/-! ## In travel -/

/-- An axis in travel takes its target from its present motion. -/
theorem AxisRecord.aim_advance {ax : Axis} {a : AxisRecord} {p : Int} (homed : a.pos = some p) (moving : a.atRest = false)
    (now : Nat) (target : Int) : (a.advance ax now).aim ax target
      = { a.advance ax now with state := .moving, target := some target, togo := wayTo ax p target } :=
  AxisRecord.aim_moving (by simp [homed]) (by simp [moving])

theorem AxisRecord.not_atRest {a : AxisRecord} (travels : a.state = .moving ∨ a.state = .stopping) : a.atRest = false := by
  rcases travels with state | state <;> simp [AxisRecord.atRest, state]

/-- A head in travel with nothing pending goes on without asking for clearance. -/
theorem State.settleHead_in_travel {s : State} (none : s.hdp.anyPending = false) (moving : s.hdp.pan.atRest = false) :
    s.askClearance.settleHead = s := by
  rw [State.askClearance_of_none none]
  exact State.settleHead_of_moving (by simp [HeadPositioner.atRest, moving])

/-- A move that an ACTIVE move goes on as keeps the operation and its outcome so far. -/
theorem HeadPositioner.aimed_of_move {h : HeadPositioner} (op : h.op = some ⟨.move, .tether, false⟩)
    (pan tilt : Option Int) (percent : Nat) : h.aimed pan tilt percent
      = { h with
          pan := { h.pan.aimOpt .pan pan with limit := speedLimit .pan percent }
          tilt := { h.tilt.aimOpt .tilt tilt with limit := speedLimit .tilt percent } } := by
  obtain ⟨_⟩ := h
  dsimp only at op
  subst op
  rfl

theorem State.takeMove_retargets (op : s.hdp.op = some ⟨.move, .tether, false⟩) (panMoving : s.hdp.pan.state = .moving)
    (tiltMoving : s.hdp.tilt.state = .moving) (panHomed : s.hdp.pan.pos = some px) (tiltHomed : s.hdp.tilt.pos = some ty)
    (none : s.hdp.anyPending = false) :
    s.takeMove (some xx) (some yy) percent
      = { s with hdp := HeadPositioner.limited { s.hdp with
          pan := { s.hdp.pan.advance .pan s.timeBase with target := some xx, togo := wayTo .pan px xx }
          tilt := { s.hdp.tilt.advance .tilt s.timeBase with target := some yy, togo := yy - ty } } percent } := by
  have panTravels : s.hdp.pan.atRest = false := AxisRecord.not_atRest (.inl panMoving)
  have yields : s.advanceHead.yieldToMove = s.advanceHead := State.yieldToMove_of_move op rfl rfl
  have aimed : s.advanceHead.hdp.aimed (some xx) (some yy) percent = HeadPositioner.limited { s.hdp with
      pan := { s.hdp.pan.advance .pan s.timeBase with target := some xx, togo := wayTo .pan px xx }
      tilt := { s.hdp.tilt.advance .tilt s.timeBase with target := some yy, togo := yy - ty } } percent := by
    have panState : (s.hdp.pan.advance .pan s.timeBase).state = .moving := by simp [panMoving]
    have tiltState : (s.hdp.tilt.advance .tilt s.timeBase).state = .moving := by simp [tiltMoving]
    have panAim := AxisRecord.aim_advance (ax := .pan) panHomed panTravels s.timeBase xx
    have tiltAim := AxisRecord.aim_advance (ax := .tilt) tiltHomed (AxisRecord.not_atRest (.inl tiltMoving)) s.timeBase yy
    rw [← panState] at panAim
    rw [← tiltState] at tiltAim
    rw [HeadPositioner.aimed_of_move (h := s.advanceHead.hdp) op]
    unfold AxisRecord.aimOpt
    dsimp only [State.advanceHead_hdp, HeadPositioner.advance_pan, HeadPositioner.advance_tilt]
    rw [panAim, tiltAim]
    rfl
  rw [State.takeMove_of_target (pan := some xx) (.inl (by simp)), State.moveTo_eq yields, aimed]
  refine State.settleHead_in_travel ?_ ?_
  · have same : (HeadPositioner.limited { s.hdp with
        pan := { s.hdp.pan.advance .pan s.timeBase with target := some xx, togo := wayTo .pan px xx }
        tilt := { s.hdp.tilt.advance .tilt s.timeBase with target := some yy, togo := yy - ty } } percent).anyPending
        = (s.hdp.advance s.timeBase).anyPending := rfl
    rw [same, HeadPositioner.advance_anyPending, none]
  · exact (AxisRecord.advance_isAtRest .pan s.timeBase s.hdp.pan).trans panTravels

/-! ## From another operation -/

/-- The head as a move takes it over, once the operation before has ended. -/
def HeadPositioner.takenOver (h : HeadPositioner) (now : Nat) (xx yy px ty : Int) : HeadPositioner :=
  { h with
    pan := { h.pan.advance .pan now with state := .moving, target := some xx, togo := wayTo .pan px xx }
    tilt := { h.tilt.advance .tilt now with state := .moving, target := some yy, togo := yy - ty }
    op := some ⟨.move, .tether, false⟩, outcome := .reached }

theorem State.takeMove_takes_over {o : HeadOperation} (op : s.hdp.op = some o) (other : o.stopping = true ∨ o.kind ≠ .move)
    (panTravels : s.hdp.pan.atRest = false) (tiltTravels : s.hdp.tilt.atRest = false) (panHomed : s.hdp.pan.pos = some px)
    (tiltHomed : s.hdp.tilt.pos = some ty) (none : s.hdp.anyPending = false) :
    (s.takeMove (some xx) (some yy) percent).hdp
        = ((s.hdp.putCompletion o.origin
              ⟨o.kind, o.yielded s.hdp.outcome, some px, some ty, s.surveyTime s.timeBase⟩).takenOver s.timeBase xx yy px
            ty).limited percent ∧
      (s.takeMove (some xx) (some yy) percent).fxc = s.fxc ∧
      HeadDoneFor s (s.takeMove (some xx) (some yy) percent) o.origin := by
  let v : State := { s.advanceHead with hdp := { s.advanceHead.hdp with outcome := o.yielded s.hdp.outcome } }
  have yields : s.advanceHead.yieldToMove = v.endOperation := State.yieldToMove_of_other op other
  obtain ⟨hdp, fxc, counts, _, _⟩ := State.endOperation_ends (s := v) op
  have completion : v.completionNow o
      = ⟨o.kind, o.yielded s.hdp.outcome, some px, some ty, s.surveyTime s.timeBase⟩ := by
    have panPos : v.hdp.pan.pos = some px := (AxisRecord.advance_pos ..).trans panHomed
    have tiltPos : v.hdp.tilt.pos = some ty := (AxisRecord.advance_pos ..).trans tiltHomed
    unfold State.completionNow
    rw [panPos, tiltPos]
    rfl
  rw [completion] at hdp
  have aimed : v.endOperation.hdp.aimed (some xx) (some yy) percent
      = ((s.hdp.putCompletion o.origin
            ⟨o.kind, o.yielded s.hdp.outcome, some px, some ty, s.surveyTime s.timeBase⟩).takenOver s.timeBase xx yy px
          ty).limited percent := by
    have panAim := AxisRecord.aim_advance (ax := .pan) panHomed panTravels s.timeBase xx
    have tiltAim := AxisRecord.aim_advance (ax := .tilt) tiltHomed tiltTravels s.timeBase yy
    rw [hdp]
    cases o.origin <;>
    · unfold HeadPositioner.aimed AxisRecord.aimOpt HeadPositioner.putCompletion HeadPositioner.takenOver
        HeadPositioner.limited
      dsimp only [v, State.advanceHead_hdp, HeadPositioner.advance_pan, HeadPositioner.advance_tilt]
      rw [panAim, tiltAim]
      rfl
  have moved : s.takeMove (some xx) (some yy) percent
      = { v.endOperation with hdp := v.endOperation.hdp.aimed (some xx) (some yy) percent } := by
    rw [State.takeMove_of_target (pan := some xx) (.inl (by simp)), State.moveTo_eq yields]
    refine State.settleHead_in_travel ?_ ?_
    · show (v.endOperation.hdp.aimed (some xx) (some yy) percent).anyPending = false
      rw [aimed]
      have same : (((s.hdp.putCompletion o.origin ⟨o.kind, o.yielded s.hdp.outcome, some px, some ty,
          s.surveyTime s.timeBase⟩).takenOver s.timeBase xx yy px ty).limited percent).anyPending
          = (s.hdp.advance s.timeBase).anyPending := by
        cases o.origin <;> rfl
      rw [same, HeadPositioner.advance_anyPending, none]
    · show (v.endOperation.hdp.aimed (some xx) (some yy) percent).pan.atRest = false
      rw [aimed]
      rfl
  rw [moved]
  exact ⟨aimed, fxc, counts⟩

/-! ## Without targets -/

theorem AxisRecord.limitTravel_advance (ax : Axis) (a : AxisRecord) (now percent : Nat) :
    (a.advance ax now).limitTravel ax percent
      = if a.atRest = true ∧ a.startPending = .clear then a
        else { a.advance ax now with limit := max 1 (maxSpeed ax * percent / 100) } := by
  have same : ((a.advance ax now).atRest && (a.advance ax now).startPending == .clear)
      = (a.atRest && a.startPending == .clear) := by simp
  unfold AxisRecord.limitTravel
  rw [same]
  by_cases rests : a.atRest = true ∧ a.startPending = .clear
  · obtain ⟨rest, clear⟩ := rests
    rw [if_pos (by simp [rest, clear]), if_pos ⟨rest, clear⟩, AxisRecord.advance_atRest rest]
  · rw [if_neg (by simpa using rests), if_neg rests]
    rfl

theorem State.takeMove_paces (s : State) (percent : Nat) : s.takeMove none none percent
    = { s with hdp := { s.hdp with
        pan := if s.hdp.pan.atRest = true ∧ s.hdp.pan.startPending = .clear then s.hdp.pan
          else { s.hdp.pan.advance .pan s.timeBase with limit := max 1 (maxSpeed .pan * percent / 100) }
        tilt := if s.hdp.tilt.atRest = true ∧ s.hdp.tilt.startPending = .clear then s.hdp.tilt
          else { s.hdp.tilt.advance .tilt s.timeBase with limit := max 1 (maxSpeed .tilt * percent / 100) } } } := by
  rw [← AxisRecord.limitTravel_advance, ← AxisRecord.limitTravel_advance]
  rfl

end

/-! ## The obligation -/

theorem lengthFits_headMove {p : List Byte} (length : p.length = 5) : lengthFits 0x21 p = true := by
  simp [lengthFits, length]

theorem storedPan_range {v : Option Int} {xx : Int} (stored : v.map (· % 3600) = some xx) : 0 ≤ xx ∧ xx ≤ 3599 := by
  obtain ⟨t, _, rfl⟩ := Option.map_eq_some_iff.mp stored
  omega

/-- Settles O36. -/
theorem headMoveTakesTargets : Obligations.HeadMoveTakesTargets := by
  intro dt s tag p rest length ready f u now x y k st content limits counted
  have formed := lengthFits_headMove length
  have refused {why : Status} (drops : why.carries = false)
      (answer : u.headMove (s16optAt p 0) (s16optAt p 2) (byteAt p 4) = (u, why, x, y, k)) :
      exec (.headMove dt .tether) s = .next (u.answered .tether f why []) := by
    have all : answerHeadMove p u = ⟨u, why, content⟩ := by
      unfold answerHeadMove
      rw [answer]
    exact congrArg Host.Outcome.next (State.serve_dropping dt ready (by decide) rfl formed all drops)
  have taken {t : State} (free : s.hdp.lock = false) (quiet : s.hdp.moveBusy = false)
      (pan : s.hdp.pan.pos.isSome = true) (tilt : s.hdp.tilt.pos.isSome = true) (moves : u.takeMove x y k = t) :
      exec (.headMove dt .tether) s = .next (t.answered .tether f st content) := by
    have all : answerHeadMove p u = ⟨t, st, content⟩ := by
      unfold answerHeadMove
      rw [State.headMove_taken (s := u) free quiet pan tilt]
      exact congrArg (fun w => (⟨w, st, content⟩ : Answer)) moves
    have carries : st.carries = true := by
      simp only [st]
      split <;> rfl
    exact congrArg Host.Outcome.next (State.serve_answered dt ready (by decide) rfl formed all carries)
  refine ⟨fun locked => ?_, fun free homing => ?_, fun free idle unhomed none tilt => ?_,
    fun px ty xx yy ok free idle panHomed tiltHomed xIs yIs panAway tiltAway => ?_,
    fun px xx ok free idle panHomed tiltHomed xIs yIs panAway => ?_,
    fun px ty ok free idle panHomed tiltHomed xIs here => ?_,
    fun px ty xx yy free op panMoving tiltMoving panHomed tiltHomed none xIs yIs => ?_,
    fun px ty xx yy o free op kind other panMotion tiltMotion panHomed tiltHomed none xIs yIs => ?_,
    fun free pan tilt panState tiltState other panStart tiltStart xIs yIs => ?_⟩
  · exact refused rfl (State.headMove_locked (s := u) locked _ _ _)
  · refine refused rfl (State.headMove_busy (s := u) free ?_ _ _ _)
    show s.hdp.moveBusy = true
    rcases homing with state | state <;> simp [HeadPositioner.moveBusy, state]
  · refine refused rfl (State.headMove_notReady (s := u) free ?_ none _ _ _)
    exact HeadPositioner.moveBusy_eq_false (by simp [show u.hdp.pan.state = .unhomed from unhomed]) tilt
      fun o op => nomatch idle.symm.trans op
  · obtain ⟨_, resting, _⟩ := ok.idle idle
    have moves := State.takeMove_both (s := u) (percent := k) ok idle panHomed tiltHomed (storedPan_range xIs) panAway tiltAway
    rw [← xIs, ← yIs] at moves
    have done := taken free (HeadPositioner.moveBusy_of_rest resting idle) (by simp [panHomed]) (by simp [tiltHomed]) moves
    rw [xIs, yIs] at done
    exact done
  · obtain ⟨_, resting, _⟩ := ok.idle idle
    have moves := State.takeMove_pan (s := u) (percent := k) ok idle panHomed (storedPan_range xIs) panAway
    rw [← xIs, ← yIs] at moves
    have done := taken free (HeadPositioner.moveBusy_of_rest resting idle) (by simp [panHomed]) tiltHomed moves
    rw [xIs] at done
    exact done
  · intro completion
    obtain ⟨_, resting, _⟩ := ok.idle idle
    obtain ⟨hdp, fxc, counts⟩ := State.takeMove_nowhere (s := u) (percent := k) ok idle panHomed tiltHomed here
    exact ⟨_, taken free (HeadPositioner.moveBusy_of_rest resting idle) (by simp [panHomed]) (by simp [tiltHomed])
      (by rw [xIs]), hdp, fxc, counts⟩
  · have moves := State.takeMove_retargets (s := u) (percent := k) (xx := xx) (yy := yy) op panMoving tiltMoving panHomed
      tiltHomed none
    have quiet : s.hdp.moveBusy = false :=
      HeadPositioner.moveBusy_eq_false (by simp [panMoving]) (by simp [tiltMoving]) fun o same => by
        obtain rfl := Option.some.inj (op.symm.trans same)
        exact ⟨nofun, nofun⟩
    exact taken free quiet (by simp [panHomed]) (by simp [tiltHomed]) (by rw [xIs, yIs]; exact moves)
  · intro outcome
    obtain ⟨panClear, tiltClear⟩ := HeadPositioner.clear_axes none
    have quiet : s.hdp.moveBusy = false := by
      refine HeadPositioner.moveBusy_eq_false ?_ ?_ fun o' same => ?_
      · rcases panMotion with state | state <;> simp [state]
      · rcases tiltMotion with state | state <;> simp [state]
      · obtain rfl := Option.some.inj (op.symm.trans same)
        exact ⟨kind, fun _ => ⟨by simp [panClear], by simp [tiltClear]⟩⟩
    have yields : o.stopping = true ∨ o.kind ≠ .move := other.imp id fun park => by simp [park]
    obtain ⟨hdp, fxc, counts⟩ := State.takeMove_takes_over (s := u) (percent := k) (xx := xx) (yy := yy) op yields
      (AxisRecord.not_atRest panMotion) (AxisRecord.not_atRest tiltMotion) panHomed tiltHomed none
    refine ⟨_, taken free quiet (by simp [panHomed]) (by simp [tiltHomed]) (by rw [xIs, yIs]), hdp.trans ?_, fxc, counts⟩
    cases o.origin <;> rfl
  · intro paced
    have quiet : s.hdp.moveBusy = false :=
      HeadPositioner.moveBusy_eq_false panState tiltState fun o op => ⟨other o op, fun _ => ⟨panStart, tiltStart⟩⟩
    exact taken free quiet pan tilt (by rw [xIs, yIs]; exact State.takeMove_paces u k)

end Sys2Proof.Machine
end

