-- ==== Sys2Proof/Proofs/HeadPark.lean ====
section
/-! PROOFS. HEAD PARK (spec/05 section 5.6). -/

namespace Sys2Proof.Machine

/-! ## An axis taken over by a park -/

/-- An axis as a park takes it over from its motion at the instant `now`. -/
def AxisRecord.parked (ax : Axis) (now : Nat) (a : AxisRecord) : AxisRecord :=
  if a.state = .homing then a.advance ax now
  else match a.pos with
    | some p =>
      if a.atRest = false then
        { a.advance ax now with state := .moving, target := some 0, togo := wayTo ax p 0, limit := maxSpeed ax }
      else if p = 0 then { a with target := none, togo := 0, startPending := .clear, limit := maxSpeed ax }
      else { a with target := some 0, togo := wayTo ax p 0, startPending := .move, limit := maxSpeed ax }
    | none =>
      if a.state = .unhomed then { a with homingTravel := 0, startPending := .home }
      else { a.advance ax now with searchOwed := true }

theorem wayTo_zero_ne_zero {ax : Axis} {p : Int} (range : ax = .pan → 0 ≤ p ∧ p ≤ 3599) (away : p ≠ 0) :
    wayTo ax p 0 ≠ 0 := by
  cases ax with
  | pan => exact wayTo_pan_ne_zero (range rfl) (by omega) (Ne.symm away)
  | tilt => exact wayTo_tilt_ne_zero (Ne.symm away)

theorem AxisRecord.park_advance {ax : Axis} {a : AxisRecord} (range : ∀ p, a.pos = some p → ax = .pan → 0 ≤ p ∧ p ≤ 3599)
    (now : Nat) : (a.advance ax now).park ax = a.parked ax now := by
  unfold AxisRecord.park AxisRecord.parked
  by_cases homing : a.state = .homing
  · rw [if_pos ((AxisRecord.advance_state ..).trans homing), if_pos homing]
  · rw [if_neg ((AxisRecord.advance_state ..).trans_ne homing), if_neg homing]
    cases homed : a.pos with
    | none =>
      have lost : ¬ ((a.advance ax now).pos.isSome = true) := by simp [homed]
      dsimp only
      rw [if_neg lost]
      by_cases unhomed : a.state = .unhomed
      · rw [if_pos ((AxisRecord.advance_state ..).trans unhomed), if_pos unhomed,
          AxisRecord.advance_atRest (a.atRest_iff.mpr (.inl unhomed)), homed]
      · rw [if_neg ((AxisRecord.advance_state ..).trans_ne unhomed), if_neg unhomed]
    | some p =>
      have held : (a.advance ax now).pos.isSome = true := by simp [homed]
      dsimp only
      rw [if_pos held]
      by_cases rest : a.atRest = true
      · rw [if_neg (by simp [rest]), AxisRecord.advance_atRest rest]
        by_cases here : p = 0
        · rw [if_pos here, AxisRecord.aim_here homed rest (here ▸ wayTo_self ax 0), homed]
        · rw [if_neg here, AxisRecord.aim_away homed rest (wayTo_zero_ne_zero (range p homed) here), homed]
      · rw [Bool.not_eq_true] at rest
        rw [if_pos rest, AxisRecord.aim_advance homed rest]

theorem AxisRecord.parked_atRest {ax : Axis} {a : AxisRecord}
    (range : ∀ p, a.pos = some p → ax = .pan → 0 ≤ p ∧ p ≤ 3599) (now : Nat) : (a.parked ax now).atRest = a.atRest := by
  rw [← AxisRecord.park_advance range, AxisRecord.park_atRest, AxisRecord.advance_isAtRest]

/-- An axis at rest away from 0 is to travel. -/
theorem AxisRecord.parked_pending {ax : Axis} {a : AxisRecord} (rest : a.atRest = true) (away : a.pos ≠ some 0)
    (unhomed : a.pos = none → a.state = .unhomed) (now : Nat) : (a.parked ax now).startPending ≠ .clear := by
  unfold AxisRecord.parked
  rw [if_neg (AxisRecord.not_homing_of_rest rest)]
  cases homed : a.pos with
  | none =>
    dsimp only
    rw [if_pos (unhomed homed)]
    simp
  | some p =>
    dsimp only
    rw [if_neg (by simp [rest]), if_neg (fun here => away (by rw [homed, here]))]
    simp

/-- An axis at rest at 0 stays. -/
theorem AxisRecord.parked_at_zero {ax : Axis} {a : AxisRecord} (rest : a.atRest = true) (here : a.pos = some 0) (now : Nat) :
    a.parked ax now = { a with target := none, togo := 0, startPending := .clear, limit := maxSpeed ax } := by
  unfold AxisRecord.parked
  rw [if_neg (AxisRecord.not_homing_of_rest rest), here]
  dsimp only
  rw [if_neg (by simp [rest]), if_pos rfl]

theorem AxisRecord.begin_moving {ax : Axis} {a : AxisRecord} (moving : a.atRest = false) (tiltIndex : Bool) (now : Nat) :
    (a.begin_ ax tiltIndex now).atRest = false := by
  unfold AxisRecord.begin_
  cases a.startPending with
  | clear => exact moving
  | move => rfl
  | home => rfl

/-! ## The head taken over -/

/-- The head as a park takes it over. -/
def HeadPositioner.parkTaken (h : HeadPositioner) (now : Nat) : HeadPositioner :=
  { h with
    lock := true, op := some ⟨.park, .carriage, false⟩, outcome := .reached
    pan := h.pan.parked .pan now, tilt := h.tilt.parked .tilt now }

section
variable {s : State}

theorem HeadOk.park_axes (ok : HeadOk s) (now : Nat) :
    (s.hdp.pan.advance .pan now).park .pan = s.hdp.pan.parked .pan now ∧
      (s.hdp.tilt.advance .tilt now).park .tilt = s.hdp.tilt.parked .tilt now :=
  ⟨AxisRecord.park_advance (ax := .pan) (fun p homed _ => ok.base.pan.1 p homed) now,
    AxisRecord.park_advance (ax := .tilt) (fun _ _ is => nomatch is) now⟩

theorem HeadOk.parkTaken_atRest (ok : HeadOk s) (now : Nat) : (s.hdp.parkTaken now).atRest = s.hdp.atRest :=
  congrArg₂ (· && ·) (AxisRecord.parked_atRest (ax := .pan) (fun p homed _ => ok.base.pan.1 p homed) now)
    (AxisRecord.parked_atRest (ax := .tilt) (fun _ _ is => nomatch is) now)

/-- The head's rules say that an operation that is no park is the surface's. -/
theorem HeadOk.surface (ok : HeadOk s) {o : HeadOperation} (op : s.hdp.op = some o) (other : o.kind ≠ .park) :
    o.origin = .tether := by
  have origin := ok.base.origin o op
  cases held : o.origin with
  | tether => rfl
  | carriage => exact absurd (origin.mpr held) other

theorem State.headPark_of_park {o : HeadOperation} (op : s.hdp.op = some o) (park : o.kind = .park) :
    s.headPark = { s with hdp := { s.hdp with lock := true } } := by
  unfold State.headPark
  exact if_pos ((HeadPositioner.parkInFlight_iff _).mpr ⟨o, op, park⟩)

theorem State.headPark_of_none (ok : HeadOk s) (idle : s.hdp.op = none) :
    s.headPark = State.settleHead (State.askClearance { s with hdp := s.hdp.parkTaken s.timeBase }) := by
  obtain ⟨panPark, tiltPark⟩ := ok.park_axes s.timeBase
  have free : ({ s.hdp with lock := true } : HeadPositioner).parkInFlight = false := by
    simp [HeadPositioner.parkInFlight, idle]
  have kept : (State.advanceHead { s with hdp := { s.hdp with lock := true } }).supersede
      = State.advanceHead { s with hdp := { s.hdp with lock := true } } := by
    unfold State.supersede
    rw [show (State.advanceHead { s with hdp := { s.hdp with lock := true } }).hdp.op = none from idle]
  have taken : s.headPark = State.settleHead (State.askClearance
      { (State.advanceHead { s with hdp := { s.hdp with lock := true } }).supersede with
        hdp := { (State.advanceHead { s with hdp := { s.hdp with lock := true } }).supersede.hdp with
          pan := (State.advanceHead { s with hdp := { s.hdp with lock := true } }).supersede.hdp.pan.park .pan
          tilt := (State.advanceHead { s with hdp := { s.hdp with lock := true } }).supersede.hdp.tilt.park .tilt
          op := some ⟨.park, .carriage, false⟩, outcome := .reached } }) := by
    unfold State.headPark
    exact if_neg (by simp [free])
  have head : ({ s.hdp.advance s.timeBase with
        lock := true, op := some ⟨.park, .carriage, false⟩, outcome := .reached
        pan := (s.hdp.pan.advance .pan s.timeBase).park .pan
        tilt := (s.hdp.tilt.advance .tilt s.timeBase).park .tilt } : HeadPositioner) = s.hdp.parkTaken s.timeBase := by
    rw [panPark, tiltPark]
    rfl
  rw [taken, kept]
  exact congrArg (fun h : HeadPositioner => State.settleHead (State.askClearance { s with hdp := h })) head

/-- What a park that supersedes the operation in flight makes of the state, before it asks for clearance. -/
theorem State.headPark_of_other (ok : HeadOk s) {o : HeadOperation} (op : s.hdp.op = some o) (other : o.kind ≠ .park) :
    ∃ x : State, s.headPark = x.askClearance.settleHead ∧
      x.hdp = { s.hdp.parkTaken s.timeBase with
        doneTether := some ⟨o.kind, .superseded, s.hdp.pan.pos, s.hdp.tilt.pos, s.surveyTime s.timeBase⟩ } ∧
      x.fxc = s.fxc ∧ x.timeBase = s.timeBase ∧ HeadDoneFor s x .tether ∧ HeadFrame s x := by
  let s0 : State := { s with hdp := { s.hdp with lock := true } }
  let v : State := { s0.advanceHead with hdp := { s0.advanceHead.hdp with outcome := .superseded } }
  obtain ⟨panPark, tiltPark⟩ := ok.park_axes s.timeBase
  have surface := ok.surface op other
  have free : s0.hdp.parkInFlight = false := by simp [s0, HeadPositioner.parkInFlight, op, other]
  have superseded : s0.advanceHead.supersede = v.endOperation := by
    unfold State.supersede
    rw [show s0.advanceHead.hdp.op = some o from op]
  obtain ⟨hdp, fxc, counts, frame, timeBase⟩ := State.endOperation_ends (s := v) op
  have completion : v.completionNow o
      = ⟨o.kind, .superseded, s.hdp.pan.pos, s.hdp.tilt.pos, s.surveyTime s.timeBase⟩ := by
    have panPos : v.hdp.pan.pos = s.hdp.pan.pos := AxisRecord.advance_pos ..
    have tiltPos : v.hdp.tilt.pos = s.hdp.tilt.pos := AxisRecord.advance_pos ..
    unfold State.completionNow
    rw [panPos, tiltPos]
    rfl
  rw [completion, surface] at hdp
  rw [surface] at counts
  refine ⟨{ v.endOperation with hdp := { v.endOperation.hdp with
    pan := v.endOperation.hdp.pan.park .pan, tilt := v.endOperation.hdp.tilt.park .tilt
    op := some ⟨.park, .carriage, false⟩, outcome := .reached } }, ?_, ?_, fxc, timeBase, counts, ?_⟩
  · have taken : s.headPark = State.settleHead (State.askClearance { s0.advanceHead.supersede with
        hdp := { s0.advanceHead.supersede.hdp with
          pan := s0.advanceHead.supersede.hdp.pan.park .pan, tilt := s0.advanceHead.supersede.hdp.tilt.park .tilt
          op := some ⟨.park, .carriage, false⟩, outcome := .reached } }) := by
      unfold State.headPark
      exact if_neg (by rw [Bool.not_eq_true]; exact free)
    rw [taken, superseded]
  · have head : ({ s.hdp.advance s.timeBase with
          lock := true, op := some ⟨.park, .carriage, false⟩, outcome := .reached
          pan := (s.hdp.pan.advance .pan s.timeBase).park .pan
          tilt := (s.hdp.tilt.advance .tilt s.timeBase).park .tilt
          doneTether := some ⟨o.kind, .superseded, s.hdp.pan.pos, s.hdp.tilt.pos, s.surveyTime s.timeBase⟩ }
          : HeadPositioner)
        = { s.hdp.parkTaken s.timeBase with
            doneTether := some ⟨o.kind, .superseded, s.hdp.pan.pos, s.hdp.tilt.pos, s.surveyTime s.timeBase⟩ } := by
      rw [panPark, tiltPark]
      rfl
    refine Eq.trans ?_ head
    rw [hdp]
    rfl
  · exact congrArg (fun w : State => { w with hdp := { v.endOperation.hdp with
      pan := v.endOperation.hdp.pan.park .pan, tilt := v.endOperation.hdp.tilt.park .tilt
      op := some ⟨.park, .carriage, false⟩, outcome := .reached } }) frame

/-! ## What the park comes to -/

/-- In travel, with clearance GIVEN, what has start pending begins at once. -/
theorem State.park_in_travel {x : State} (given : x.fxc.clearance = .given) (moving : x.hdp.atRest = false) :
    x.askClearance.settleHead = { x with hdp := x.hdp.beginPending x.timeBase } := by
  have begun : x.askClearance = { x with hdp := x.hdp.beginPending x.timeBase } := by
    by_cases any : x.hdp.anyPending = true
    · exact State.askClearance_of_given any given
    · rw [Bool.not_eq_true] at any
      rw [State.askClearance_of_none any, HeadPositioner.beginPending_of_none any]
  have still : (x.hdp.beginPending x.timeBase).atRest = false := by
    rcases Bool.and_eq_false_iff.mp moving with pan | tilt
    · exact Bool.and_eq_false_iff.mpr (.inl (AxisRecord.begin_moving pan x.hdp.tiltIndex x.timeBase))
    · exact Bool.and_eq_false_iff.mpr (.inr (AxisRecord.begin_moving tilt x.hdp.tiltIndex x.timeBase))
  rw [begun]
  exact State.settleHead_of_moving still

/-- Something is to travel when an axis rests away from 0. -/
theorem HeadPositioner.parkTaken_pending {h : HeadPositioner} (rest : h.atRest = true)
    (unhomed : ∀ ax : Axis, (h.axis ax).pos = none → (h.axis ax).state = .unhomed)
    (away : h.pan.pos ≠ some 0 ∨ h.tilt.pos ≠ some 0) (now : Nat) : (h.parkTaken now).anyPending = true := by
  obtain ⟨panRest, tiltRest⟩ := HeadPositioner.rest_axes rest
  rw [HeadPositioner.anyPending_iff]
  exact away.imp (fun pan => AxisRecord.parked_pending panRest pan (unhomed .pan) now)
    fun tilt => AxisRecord.parked_pending tiltRest tilt (unhomed .tilt) now

/-- With both axes at rest at 0 a park has nothing to do. -/
theorem HeadPositioner.parkTaken_finished {h : HeadPositioner} (rest : h.atRest = true) (pan : h.pan.pos = some 0)
    (tilt : h.tilt.pos = some 0) (panOwes : h.pan.searchOwed = false) (tiltOwes : h.tilt.searchOwed = false) (now : Nat) :
    (h.parkTaken now).finished = true := by
  obtain ⟨panRest, tiltRest⟩ := HeadPositioner.rest_axes rest
  unfold HeadPositioner.parkTaken
  rw [AxisRecord.parked_at_zero panRest pan, AxisRecord.parked_at_zero tiltRest tilt]
  have panStill : (h.pan.state == .unhomed || h.pan.state == .idle) = true := panRest
  have tiltStill : (h.tilt.state == .unhomed || h.tilt.state == .idle) = true := tiltRest
  simp [HeadPositioner.finished, HeadPositioner.atRest, AxisRecord.atRest, HeadPositioner.anyPending, panOwes, tiltOwes]
    at panStill tiltStill ⊢
  exact ⟨panStill, tiltStill⟩

theorem HeadPositioner.parkTaken_positions {h : HeadPositioner} (rest : h.atRest = true) (pan : h.pan.pos = some 0)
    (tilt : h.tilt.pos = some 0) (now : Nat) :
    (h.parkTaken now).pan.pos = some 0 ∧ (h.parkTaken now).tilt.pos = some 0 := by
  obtain ⟨panRest, tiltRest⟩ := HeadPositioner.rest_axes rest
  unfold HeadPositioner.parkTaken
  rw [AxisRecord.parked_at_zero panRest pan, AxisRecord.parked_at_zero tiltRest tilt]
  exact ⟨pan, tilt⟩

/-- A park with nothing to do ends as it is taken. -/
theorem State.park_at_zero {x : State} (finished : x.hdp.finished = true)
    (op : x.hdp.op = some ⟨.park, .carriage, false⟩) (outcome : x.hdp.outcome = .reached) (pan : x.hdp.pan.pos = some 0)
    (tilt : x.hdp.tilt.pos = some 0) :
    x.askClearance.settleHead.hdp
        = { x.hdp with
            op := none, demand := false
            doneCarriage := some ⟨.park, .reached, some 0, some 0, x.surveyTime x.timeBase⟩ } ∧
      x.askClearance.settleHead.fxc = { x.fxc with clearance := .unasked } ∧
      HeadDoneFor x x.askClearance.settleHead .carriage ∧ HeadFrame x x.askClearance.settleHead := by
  have completion : x.completionNow ⟨.park, .carriage, false⟩
      = ⟨.park, .reached, some 0, some 0, x.surveyTime x.timeBase⟩ := by
    unfold State.completionNow
    rw [outcome, pan, tilt]
  obtain ⟨hdp, fxc, counts, frame, _⟩ := State.settleHead_ends finished op
  rw [completion] at hdp
  rw [State.askClearance_of_none (HeadPositioner.atRest_of_finished finished).2]
  exact ⟨hdp, fxc, counts, frame⟩

theorem HeadFrame.trans {s t u : State} (first : HeadFrame s t) (second : HeadFrame t u) : HeadFrame s u := by
  unfold HeadFrame at *
  rw [second, first]

theorem HeadFrame.withHead {s t : State} (frame : HeadFrame s t) (h : HeadPositioner) : HeadFrame s { t with hdp := h } := by
  unfold HeadFrame at frame
  exact congrArg (fun w : State => { w with hdp := h }) frame

/-- HEAD_DONE told to both links in turn. -/
theorem HeadDoneFor.both {s t u : State} (first : HeadDoneFor s t .tether) (second : HeadDoneFor t u .carriage) (m : Link)
    (n : Fin 16) : (u.cnd.counts m)[n] = if n = 11 then min 255 ((s.cnd.counts m)[n] + 1) else (s.cnd.counts m)[n] := by
  rw [second m n, first m n]
  cases m <;> simp

/-- A superseding park, whatever it comes to, is told of by its head, its counts and its frame. -/
theorem State.headPark_takes_over (ok : HeadOk s) {o : HeadOperation} (op : s.hdp.op = some o) (other : o.kind ≠ .park) :
    let told : HeadPositioner := { s.hdp.parkTaken s.timeBase with
      doneTether := some ⟨o.kind, .superseded, s.hdp.pan.pos, s.hdp.tilt.pos, s.surveyTime s.timeBase⟩ }
    (s.hdp.atRest = false →
      s.headPark.hdp = told.beginPending s.timeBase ∧ s.headPark.fxc = s.fxc ∧ HeadDoneFor s s.headPark .tether ∧
        HeadFrame s s.headPark) ∧
    (s.hdp.atRest = true → s.fxc.clearance = .waiting → told.anyPending = true →
      s.headPark.hdp = told ∧ s.headPark.fxc = s.fxc ∧ HeadDoneFor s s.headPark .tether ∧ HeadFrame s s.headPark) ∧
    (told.finished = true → told.pan.pos = some 0 → told.tilt.pos = some 0 →
      s.headPark.hdp = { told with
        op := none, demand := false
        doneCarriage := some ⟨.park, .reached, some 0, some 0, s.surveyTime s.timeBase⟩ } ∧
      s.headPark.fxc = { s.fxc with clearance := .unasked } ∧
      (∀ (m : Link) (n : Fin 16), (s.headPark.cnd.counts m)[n]
        = if n = 11 then min 255 ((s.cnd.counts m)[n] + 1) else (s.cnd.counts m)[n]) ∧ HeadFrame s s.headPark) := by
  intro told
  obtain ⟨x, park, hdp, fxc, timeBase, counts, frame⟩ := State.headPark_of_other ok op other
  have rests : told.atRest = s.hdp.atRest := ok.parkTaken_atRest s.timeBase
  have flight : x.hdp.op = some ⟨.park, .carriage, false⟩ := congrArg HeadPositioner.op hdp
  refine ⟨fun moving => ?_, fun rest waiting any => ?_, fun finished pan tilt => ?_⟩
  · obtain ⟨given, _, _⟩ := ok.of_moving moving
    have begun : s.headPark = { x with hdp := told.beginPending s.timeBase } := by
      rw [park, State.park_in_travel (by rw [fxc]; exact given) (by rw [hdp]; exact rests.trans moving), hdp, timeBase]
    rw [begun]
    exact ⟨rfl, fxc, counts, frame.withHead _⟩
  · have waits : s.headPark = x := by
      have pending : x.hdp.anyPending = true := by rw [hdp]; exact any
      rw [park, State.askClearance_of_waiting pending (by rw [fxc]; exact waiting)]
      exact State.settleHead_of_busy (by simp [HeadPositioner.finished, pending]) flight
    rw [waits]
    exact ⟨hdp, fxc, counts, frame⟩
  · obtain ⟨hdpEnd, fxcEnd, countsEnd, frameEnd⟩ := State.park_at_zero (by rw [hdp]; exact finished) flight
      (congrArg HeadPositioner.outcome hdp) (by rw [hdp]; exact pan) (by rw [hdp]; exact tilt)
    have clock : x.surveyTime x.timeBase = s.surveyTime s.timeBase := by
      unfold State.surveyTime
      rw [timeBase, fxc]
    rw [← park] at hdpEnd fxcEnd countsEnd frameEnd
    rw [hdp, clock] at hdpEnd
    rw [fxc] at fxcEnd
    exact ⟨hdpEnd, fxcEnd, counts.both countsEnd, frame.trans frameEnd⟩

/-- A park of a head at rest with no operation in flight waits for clearance, or ends where it is. -/
theorem State.headPark_from_rest (ok : HeadOk s) (idle : s.hdp.op = none) :
    ((s.hdp.parkTaken s.timeBase).anyPending = true →
      s.headPark = { s with
        hdp := { s.hdp.parkTaken s.timeBase with demand := true }, fxc := { s.fxc with clearance := .waiting } }) ∧
    ((s.hdp.parkTaken s.timeBase).finished = true → (s.hdp.parkTaken s.timeBase).pan.pos = some 0 →
      (s.hdp.parkTaken s.timeBase).tilt.pos = some 0 →
      s.headPark.hdp = { s.hdp.parkTaken s.timeBase with
        op := none, doneCarriage := some ⟨.park, .reached, some 0, some 0, s.surveyTime s.timeBase⟩ } ∧
      s.headPark.fxc = s.fxc ∧ HeadDoneFor s s.headPark .carriage ∧ HeadFrame s s.headPark) := by
  obtain ⟨_, _, _, unasked, demand⟩ := ok.idle idle
  rw [State.headPark_of_none ok idle]
  refine ⟨fun any => ?_, fun finished pan tilt => ?_⟩
  · exact State.askAndWait (s := { s with hdp := s.hdp.parkTaken s.timeBase }) any unasked rfl
  · obtain ⟨hdp, fxc, counts, frame⟩ :=
      State.park_at_zero (x := { s with hdp := s.hdp.parkTaken s.timeBase }) finished rfl rfl pan tilt
    refine ⟨hdp.trans ?_, fxc.trans ?_, counts, frame⟩
    · unfold HeadPositioner.parkTaken
      rw [← demand]
      rfl
    · show { s.fxc with clearance := .unasked } = s.fxc
      rw [← unasked]

end

/-- Settles O38: a park goes on, takes a surface operation over, or starts from rest. -/
theorem headParkTakesOver : Obligations.HeadParkTakesOver := by
  intro dt s tag rest ready u f now parked park counted framed
  have done {t : State} (taken : u.headPark = t) : exec (.headPark dt .carriage) s = .next (t.answered .carriage f .done []) := by
    have answer : answerHeadPark [] u = ⟨t, .done, []⟩ := by
      unfold answerHeadPark
      rw [taken]
    exact congrArg Host.Outcome.next (State.serve_answered dt ready (by decide) rfl rfl answer rfl)
  refine ⟨fun o op kind => done (State.headPark_of_park (s := u) op kind), fun o ok op other => ?_, fun ok idle unhomed => ?_⟩
  · intro told
    obtain ⟨travel, waits, ends⟩ := State.headPark_takes_over (s := u) ok op other
    refine ⟨fun moving => ⟨_, done rfl, travel moving⟩, fun rest waiting unhomed => ⟨fun away => ?_, ?_⟩⟩
    · exact ⟨_, done rfl, waits rest waiting (HeadPositioner.parkTaken_pending (h := s.hdp) rest unhomed away now)⟩
    · intro pan tilt panOwes tiltOwes
      obtain ⟨panAt, tiltAt⟩ := HeadPositioner.parkTaken_positions (h := s.hdp) rest pan tilt now
      exact ⟨_, done rfl, ends (HeadPositioner.parkTaken_finished (h := s.hdp) rest pan tilt panOwes tiltOwes now) panAt tiltAt⟩
  · obtain ⟨waits, ends⟩ := State.headPark_from_rest (s := u) ok idle
    obtain ⟨finished, rest, _, _, _⟩ := HeadOk.idle ok idle
    refine ⟨fun away => done (waits (HeadPositioner.parkTaken_pending (h := s.hdp) rest unhomed away now)), fun pan tilt => ?_⟩
    have owes : s.hdp.pan.searchOwed = false ∧ s.hdp.tilt.searchOwed = false := by
      simp [HeadPositioner.finished] at finished
      exact ⟨finished.1.2, finished.2⟩
    obtain ⟨panAt, tiltAt⟩ := HeadPositioner.parkTaken_positions (h := s.hdp) rest pan tilt now
    exact ⟨_, done rfl, ends
      (HeadPositioner.parkTaken_finished (h := s.hdp) rest pan tilt owes.1 owes.2 now) panAt tiltAt⟩

end Sys2Proof.Machine
end

