-- ==== Sys2Proof/Proofs/IndexPasses.lean ====
section
/-! PROOFS. The index pass of a homed axis (spec/05 section 5.7). -/

namespace Sys2Proof.Machine

/-! ## What a pass judges -/

/-- The head as an index pass reads it: a change of the TILT input is a change of its level. -/
def HeadPositioner.passed (h : HeadPositioner) : Axis → HeadPositioner
  | .pan => h
  | .tilt => { h with tiltIndex := !h.tiltIndex }

/-- The index position of a pass. -/
def HeadPositioner.passIndex (h : HeadPositioner) : Axis → Int
  | .pan => 0
  | .tilt => match h.tilt.lastStep with
    | some up => if up = true then 0 else -1
    | none => if h.tiltIndex = true then -1 else 0

/-- The signed steps that a position is off an index position; on PAN the shorter way round. -/
def indexOffset (ax : Axis) (p q : Int) : Int :=
  match ax with
  | .pan => if p ≤ 1800 then p else p - 3600
  | .tilt => p - q

theorem HeadPositioner.passed_axis (h : HeadPositioner) (ax other : Axis) : (h.passed ax).axis other = h.axis other := by
  cases ax <;> cases other <;> rfl

theorem HeadPositioner.passed_finished (h : HeadPositioner) (ax : Axis) : (h.passed ax).finished = h.finished := by
  cases ax <;> rfl

theorem HeadPositioner.finished_of_axes {h : HeadPositioner} (ax : Axis) (rest : (h.axis ax).atRest = true)
    (otherRest : (h.axis (otherAxis ax)).atRest = true) (none : h.anyPending = false)
    (owes : (h.axis ax).searchOwed = false) (otherOwes : (h.axis (otherAxis ax)).searchOwed = false) :
    h.finished = true := by
  cases ax <;> simp_all [HeadPositioner.finished, HeadPositioner.atRest, HeadPositioner.axis, otherAxis]

theorem HeadPositioner.passIndex_tilt {h : HeadPositioner} {up : Bool}
    (step : h.tilt.lastStep = some up ∨ (h.tilt.lastStep = none ∧ up = !h.tiltIndex)) :
    h.passIndex .tilt = if up = true then 0 else -1 := by
  unfold HeadPositioner.passIndex
  rcases step with step | ⟨step, rfl⟩
  · rw [step]
  · rw [step]
    cases h.tiltIndex <;> rfl

/-- The three outcomes of an index pass. -/
theorem State.indexPass_eq (s : State) (ax : Axis) :
    s.indexPass ax =
      if ((s.hdp.axis ax).advance ax s.timeBase).seeking then
        { s with
          hdp := (s.hdp.passed ax).putAxis ax (((s.hdp.axis ax).advance ax s.timeBase).found (s.hdp.passIndex ax)) }
      else match (s.hdp.axis ax).pos with
        | none => { s with hdp := s.hdp.passed ax }
        | some p =>
          if indexError ax p (s.hdp.passIndex ax) ≤ 20 then
            { s with
              hdp := (s.hdp.passed ax).putAxis ax
                (((s.hdp.axis ax).advance ax s.timeBase).correct ax p (s.hdp.passIndex ax)) }
          else State.indexMismatch { s with hdp := s.hdp.passed ax } ax := by
  have index (risen : Bool) (level : ax = .tilt → risen = !s.hdp.tiltIndex) :
      ((s.hdp.axis ax).advance ax s.timeBase).indexPosition ax risen = s.hdp.passIndex ax := by
    cases ax with
    | pan => rfl
    | tilt =>
      unfold AxisRecord.indexPosition
      dsimp only
      rw [AxisRecord.advance_lastStep]
      show (if s.hdp.tilt.lastStep.getD risen = true then (0 : Int) else -1) = _
      cases step : s.hdp.tilt.lastStep with
      | none => simp [HeadPositioner.passIndex_tilt (.inr ⟨step, level rfl⟩)]
      | some up => simp [HeadPositioner.passIndex_tilt (.inl step)]
  unfold State.indexPass
  cases ax with
  | pan =>
    dsimp only
    rw [index true nofun, AxisRecord.advance_pos] <;> rfl
  | tilt =>
    dsimp only
    have same : ({ s with hdp := { s.hdp with tiltIndex := !s.hdp.tiltIndex } } : State).hdp.axis .tilt
      = s.hdp.axis .tilt := rfl
    rw [same, index _ fun _ => rfl, AxisRecord.advance_pos] <;> rfl

section
variable {ax : Axis} {p q : Int}

theorem indexError_eq (circle : ax = .pan → 0 ≤ p ∧ p ≤ 3599) : indexError ax p q = (indexOffset ax p q).natAbs := by
  cases ax with
  | tilt => rfl
  | pan =>
    obtain ⟨low, high⟩ := circle rfl
    simp only [indexError, indexOffset]
    split <;> omega

theorem AxisRecord.correct_eq (circle : ax = .pan → 0 ≤ p ∧ p ≤ 3599) (a : AxisRecord) :
    a.correct ax p q = { a with
      pos := some q, togo := if a.target.isSome = true then a.togo + indexOffset ax p q else a.togo
      corrections := if indexOffset ax p q = 0 then a.corrections else min 65535 (a.corrections + 1) } := by
  have none : indexError ax p q = 0 ↔ indexOffset ax p q = 0 := by
    rw [indexError_eq circle]
    omega
  cases ax with
  | pan =>
    have moved : a.togo - (if p ≤ 1800 then -p else 3600 - p) = a.togo + indexOffset .pan p q := by
      simp only [indexOffset]
      split <;> omega
    unfold AxisRecord.correct
    dsimp only
    rw [moved]
    simp only [none, sat16]
  | tilt =>
    have moved : a.togo - (q - p) = a.togo + indexOffset .tilt p q := by
      simp only [indexOffset]
      omega
    unfold AxisRecord.correct
    dsimp only
    rw [moved]
    simp only [none, sat16]

end

/-! ## A mismatch -/

theorem HeadPositioner.mismatched_of_none {h : HeadPositioner} (idle : h.op = none) (ax : Axis) (now : Nat) :
    h.mismatched ax now = h.putAxis ax (h.axis ax).lose := by
  unfold HeadPositioner.mismatched
  dsimp only
  rw [HeadPositioner.putAxis_op, idle]

theorem HeadPositioner.mismatched_of_op {h : HeadPositioner} {o : HeadOperation} (op : h.op = some o) (ax : Axis)
    (now : Nat) : h.mismatched ax now =
      if o.stopping = true then { h.putAxis ax (h.axis ax).lose with outcome := .lost }
      else
        { (h.putAxis ax (h.axis ax).lose).putAxis (otherAxis ax)
            (((h.axis (otherAxis ax)).advance (otherAxis ax) now).stop) with
          op := some { o with stopping := true }, outcome := .lost } := by
  have other : (h.putAxis ax (h.axis ax).lose).axis (otherAxis ax) = h.axis (otherAxis ax) := by cases ax <;> rfl
  unfold HeadPositioner.mismatched
  dsimp only
  rw [HeadPositioner.putAxis_op, op, other]

/-- With the other axis in motion, a mismatch leaves the head in motion. -/
theorem HeadPositioner.mismatched_moving {h : HeadPositioner} {o : HeadOperation} (op : h.op = some o) {ax : Axis}
    (moving : (h.axis (otherAxis ax)).atRest = false) (now : Nat) : (h.mismatched ax now).atRest = false := by
  refine HeadPositioner.not_atRest (ax := otherAxis ax) ?_
  have stopped : (((h.axis (otherAxis ax)).advance (otherAxis ax) now).stop).atRest = false := by
    rw [AxisRecord.stop_atRest, AxisRecord.advance_isAtRest, moving]
  rw [HeadPositioner.mismatched_of_op op]
  by_cases stopping : o.stopping = true
  · rw [if_pos stopping]
    cases ax <;> exact moving
  · rw [if_neg stopping]
    cases ax <;> exact stopped

/-- A mismatch of a head at rest with no operation in flight moves nothing else. -/
theorem State.indexMismatch_of_none {s : State} {ax : Axis} (finished : s.hdp.finished = true) (idle : s.hdp.op = none)
    (demand : s.hdp.demand = false) (unasked : s.fxc.clearance = .unasked) :
    s.indexMismatch ax = State.raise { s with hdp := s.hdp.putAxis ax (s.hdp.axis ax).lose } .headLost := by
  obtain ⟨rest, _⟩ := HeadPositioner.atRest_of_finished finished
  have lost : (s.hdp.putAxis ax (s.hdp.axis ax).lose).finished = true :=
    HeadPositioner.putAxis_finished rfl rfl rfl finished
  rw [State.indexMismatch_eq, if_pos rest, HeadPositioner.mismatched_of_none idle]
  let t := State.raise { s with hdp := s.hdp.putAxis ax (s.hdp.axis ax).lose } .headLost
  have hdp : t.hdp = s.hdp.putAxis ax (s.hdp.axis ax).lose := State.raise_hdp ..
  have fxc : t.fxc = s.fxc := State.raise_fxc ..
  have settled : t.settleHead = { t with hdp := { t.hdp with demand := false }, fxc := { t.fxc with clearance := .unasked } } :=
    State.settleHead_of_none (by rw [hdp]; exact (HeadPositioner.atRest_of_finished lost).1)
      (by rw [hdp, HeadPositioner.putAxis_op, idle])
  have kept : ({ t.hdp with demand := false } : HeadPositioner) = t.hdp := by
    have same : t.hdp.demand = false := by rw [hdp]; cases ax <;> exact demand
    rw [← same]
  have timer : ({ t.fxc with clearance := .unasked } : FrameTimer) = t.fxc := by
    rw [fxc, ← unasked]
  rw [kept, timer] at settled
  exact settled

/-- With an operation in flight and the other axis in motion the head goes on to its stop. -/
theorem State.indexMismatch_of_op {s : State} {ax : Axis} {o : HeadOperation} (op : s.hdp.op = some o)
    (moving : (s.hdp.axis (otherAxis ax)).atRest = false) :
    s.indexMismatch ax = State.raise { s with hdp := s.hdp.mismatched ax s.timeBase } .headLost := by
  have busy : (State.raise { s with hdp := s.hdp.mismatched ax s.timeBase } .headLost).hdp.atRest = false := by
    rw [State.raise_hdp]
    exact HeadPositioner.mismatched_moving op moving s.timeBase
  rw [State.indexMismatch_eq, if_neg (by simp [HeadPositioner.not_atRest moving])]
  have unnoted : (State.raise { s with hdp := s.hdp.mismatched ax s.timeBase } .headLost).noteRest
      = State.raise { s with hdp := s.hdp.mismatched ax s.timeBase } .headLost := by
    unfold State.noteRest
    exact if_neg (by rw [busy]; exact Bool.false_ne_true)
  rw [unnoted]
  exact State.settleHead_of_moving busy

theorem AxisRecord.stop_moving {a : AxisRecord} (moving : a.atRest = false) :
    a.stop = { a with state := .stopping, startPending := .clear, searchOwed := false, target := none, togo := 0 } := by
  unfold AxisRecord.stop
  exact if_neg (by simp [moving])

theorem AxisRecord.moving_of_state {a : AxisRecord} (moving : a.state = .moving ∨ a.state = .homing ∨ a.state = .stopping) :
    a.atRest = false := by
  rcases moving with state | state | state <;> simp [AxisRecord.atRest, state]

/-- Settles O34: a pass within tolerance corrects the axis; one beyond it loses the axis and stops the operation. -/
theorem indexPassesCorrectOrLose : Obligations.IndexPassesCorrectOrLose := by
  intro dt ax s a b now h q lost
  have passed : s.hdp.passed ax = h := by cases ax <;> rfl
  have index : s.hdp.passIndex ax = q := by cases ax <;> rfl
  have pass : exec (.indexPass dt ax) s = .next ((s.elapse dt).indexPass ax) := rfl
  have quiet (idle : a.pos ≠ none ∨ a.state ≠ .homing) : (a.advance ax now).seeking = false := by
    simp only [AxisRecord.seeking, AxisRecord.advance_state, AxisRecord.advance_pos]
    rcases idle with homed | other
    · simp [Option.isSome_iff_ne_none.mpr homed]
    · simp [other]
  refine ⟨fun unhomed idle => pass.trans (congrArg Host.Outcome.next ?_), ?_⟩
  · rw [State.indexPass_eq, if_neg (by rw [Bool.not_eq_true]; exact quiet (.inr idle))]
    have gone : ((s.elapse dt).hdp.axis ax).pos = none := unhomed
    rw [gone]
    exact congrArg (fun x => { s.elapse dt with hdp := x }) passed
  intro p homed circle off
  have offset : indexOffset ax p q = off := by cases ax <;> rfl
  have error : indexError ax p (s.hdp.passIndex ax) = off.natAbs := by
    rw [index, indexError_eq circle, offset]
  have judged : (s.elapse dt).indexPass ax =
      if indexError ax p (s.hdp.passIndex ax) ≤ 20 then
        { s.elapse dt with hdp := (s.hdp.passed ax).putAxis ax ((a.advance ax now).correct ax p (s.hdp.passIndex ax)) }
      else State.indexMismatch { s.elapse dt with hdp := s.hdp.passed ax } ax := by
    rw [State.indexPass_eq, if_neg (by rw [Bool.not_eq_true]; exact quiet (.inl (by simp [homed])))]
    have held : ((s.elapse dt).hdp.axis ax).pos = some p := homed
    rw [held] <;> rfl
  have axes (other : Axis) : h.axis other = s.hdp.axis other := by
    rw [← passed, HeadPositioner.passed_axis]
  refine ⟨fun near => pass.trans (congrArg Host.Outcome.next ?_), ?_, ?_⟩
  · rw [judged, if_pos (by rw [error]; omega), AxisRecord.correct_eq (by exact circle), passed, index, offset]
    simp only [AxisRecord.advance_target, AxisRecord.advance_togo, AxisRecord.advance_corrections]
  · intro far idleA idleB none unpending owesA owesB demand unasked
    refine pass.trans (congrArg Host.Outcome.next ?_)
    have finished : h.finished = true := by
      rw [← passed, HeadPositioner.passed_finished]
      exact HeadPositioner.finished_of_axes ax (AxisRecord.atRest_iff _ |>.mpr (.inr idleA))
        (AxisRecord.atRest_iff _ |>.mpr (.inr idleB)) unpending owesA owesB
    rw [judged, if_neg (by rw [error]; omega), passed]
    refine (State.indexMismatch_of_none (s := { s.elapse dt with hdp := h }) finished ?_ ?_ unasked).trans ?_
    · cases ax <;> exact none
    · cases ax <;> exact demand
    · show State.raise { s.elapse dt with hdp := h.putAxis ax (h.axis ax).lose } .headLost = _
      rw [axes]
      rfl
  · intro o far op moving
    refine pass.trans (congrArg Host.Outcome.next ?_)
    have held : h.op = some o := by cases ax <;> exact op
    have motion : (h.axis (otherAxis ax)).atRest = false := by
      rw [axes]
      exact AxisRecord.moving_of_state moving
    rw [judged, if_neg (by rw [error]; omega), passed]
    refine (State.indexMismatch_of_op (s := { s.elapse dt with hdp := h }) held motion).trans ?_
    refine congrArg (fun x : HeadPositioner => State.raise { s.elapse dt with hdp := x } .headLost) ?_
    refine (HeadPositioner.mismatched_of_op (h := h) held ax now).trans ?_
    rw [axes, axes, AxisRecord.stop_moving (by
      rw [AxisRecord.advance_isAtRest]
      exact AxisRecord.moving_of_state moving)]
    rfl

end Sys2Proof.Machine
end

