-- ==== Sys2Proof/Proofs/AxisProfile.lean ====
section
/-! PROOFS. The profile of an axis, leg by leg (spec/05 R101). -/

namespace Sys2Proof.Machine

/-! ## Square roots of any size -/

theorem isqrtFrom_lt (n : Nat) : ∀ bits r : Nat, isqrtFrom n bits r < r + 2 ^ bits
  | 0, r => by simp [isqrtFrom]
  | bits + 1, r => by
    rw [isqrtFrom, pow_succ]
    split
    · have step := isqrtFrom_lt n bits (r + 2 ^ bits)
      omega
    · have step := isqrtFrom_lt n bits r
      omega

theorem isqrtFrom_sq_le (n : Nat) : ∀ bits r : Nat, r * r ≤ n → isqrtFrom n bits r * isqrtFrom n bits r ≤ n
  | 0, _, below => below
  | bits + 1, r, below => by
    rw [isqrtFrom]
    refine isqrtFrom_sq_le n bits _ ?_
    split
    · assumption
    · exact below

theorem le_isqrtFrom (n q : Nat) (below : q * q ≤ n) : ∀ bits r : Nat, q < r + 2 ^ bits → q ≤ isqrtFrom n bits r
  | 0, r, near => by
    rw [isqrtFrom]
    omega
  | bits + 1, r, near => by
    rw [isqrtFrom]
    rw [pow_succ] at near
    refine le_isqrtFrom n q below bits _ ?_
    split
    · omega
    · next high =>
      have less : q * q < (r + 2 ^ bits) * (r + 2 ^ bits) := by omega
      exact Nat.mul_self_lt_mul_self_iff.mp less

theorem isqrt_lt (n : Nat) : isqrt n < 2 ^ 32 := by simpa [isqrt] using isqrtFrom_lt n 32 0

theorem isqrt_sq_le (n : Nat) : isqrt n * isqrt n ≤ n := isqrtFrom_sq_le n 32 0 (Nat.zero_le n)

theorem le_isqrt {n q : Nat} (small : q < 2 ^ 32) (below : q * q ≤ n) : q ≤ isqrt n :=
  le_isqrtFrom n q below 32 0 (by simpa using small)

theorem lt_sq_of_isqrt_lt {n w : Nat} (less : isqrt n < w) (small : w < 2 ^ 32) : n < w * w := by
  by_contra above
  exact absurd (le_isqrt small (Nat.not_lt.mp above)) (Nat.not_le.mpr less)

theorem isqrt_eq {n r : Nat} (small : r < 2 ^ 32) (low : r * r ≤ n) (high : n < (r + 1) * (r + 1)) : isqrt n = r := by
  refine le_antisymm ?_ (le_isqrt small low)
  exact Nat.le_of_lt_succ (Nat.mul_self_lt_mul_self_iff.mp ((isqrt_sq_le n).trans_lt high))

theorem isqrt_sq {r : Nat} (small : r < 2 ^ 32) : isqrt (r ^ 2) = r :=
  isqrt_eq small (by rw [sq]) (by rw [sq]; exact Nat.mul_self_lt_mul_self (Nat.lt_succ_self r))

@[simp] theorem isqrt_zero : isqrt 0 = 0 := isqrt_eq (by omega) (by omega) (by omega)

/-! ## What is left to a pulse and to an instant -/

/-- The distance left to the next STEP pulse. -/
def AxisRecord.room (ax : Axis) (a : AxisRecord) : Nat := stepSpan ax - a.part

/-- The time from the profile's instant to the instant `now`. -/
def AxisRecord.lag (ax : Axis) (now : Nat) (a : AxisRecord) : Nat := profileClock ax now - a.clock

section
variable (ax : Axis) (a : AxisRecord) (len w time : Nat)

@[simp] theorem AxisRecord.reach_part : (a.reach len w time).part = a.part + len := rfl
@[simp] theorem AxisRecord.reach_speedSq : (a.reach len w time).speedSq = w := rfl
@[simp] theorem AxisRecord.reach_up : (a.reach len w time).up = a.up := rfl
@[simp] theorem AxisRecord.reach_state : (a.reach len w time).state = a.state := rfl
@[simp] theorem AxisRecord.reach_pos : (a.reach len w time).pos = a.pos := rfl
@[simp] theorem AxisRecord.reach_cruiseSq : (a.reach len w time).cruiseSq = a.cruiseSq := rfl
@[simp] theorem AxisRecord.reach_ahead : (a.reach len w time).ahead = a.ahead := rfl

@[simp] theorem AxisRecord.reach_room : (a.reach len w time).room ax = a.room ax - len := Nat.sub_add_eq ..

@[simp] theorem AxisRecord.reach_wayLeft : (a.reach len w time).wayLeft ax = a.wayLeft ax - len := Nat.sub_add_eq ..

@[simp] theorem AxisRecord.reach_lag (now : Nat) : (a.reach len w (a.lag ax now)).lag ax now = 0 := by
  unfold AxisRecord.lag AxisRecord.reach
  dsimp only
  omega

/-- In no time the profile stays. -/
theorem AxisRecord.reach_nothing {len w : Nat} (none : len = 0) (same : w = a.speedSq) : a.reach len w 0 = a := by
  subst none same
  rfl

end

/-! ## One leg -/

section
variable {ax : Axis} {now : Nat} {a : AxisRecord}

theorem AxisRecord.follow_still (leg : a.leg ax = .still) : a.follow ax now = a.reach 0 a.speedSq (a.lag ax now) := by
  unfold AxisRecord.follow
  rw [leg]
  rfl

theorem AxisRecord.follow_hold {len : Nat} (leg : a.leg ax = .hold len) (far : a.room ax ≤ len) :
    a.follow ax now =
      if a.room ax / (2 * isqrt a.speedSq) ≤ a.lag ax now then
        a.reach (a.room ax) a.speedSq (a.room ax / (2 * isqrt a.speedSq))
      else a.reach (2 * isqrt a.speedSq * a.lag ax now) a.speedSq (a.lag ax now) := by
  have nearest : min len (stepSpan ax - a.part) = a.room ax := min_eq_right far
  unfold AxisRecord.follow
  rw [leg]
  dsimp only
  rw [nearest]
  exact ite_congr rfl (fun _ => rfl) fun _ => rfl

theorem AxisRecord.follow_speedUp {top : Nat} (leg : a.leg ax = .speedUp top) (far : a.speedSq + a.room ax ≤ top) :
    a.follow ax now =
      if isqrt (a.speedSq + a.room ax) - isqrt a.speedSq ≤ a.lag ax now then
        a.reach (a.room ax) (a.speedSq + a.room ax) (isqrt (a.speedSq + a.room ax) - isqrt a.speedSq)
      else
        a.reach (2 * isqrt a.speedSq * a.lag ax now + a.lag ax now ^ 2)
          (a.speedSq + 2 * isqrt a.speedSq * a.lag ax now + a.lag ax now ^ 2) (a.lag ax now) := by
  have nearest : min top (a.speedSq + (stepSpan ax - a.part)) = a.speedSq + a.room ax := min_eq_right far
  unfold AxisRecord.follow
  rw [leg]
  dsimp only
  rw [nearest, Nat.add_sub_cancel_left]
  exact ite_congr rfl (fun _ => rfl) fun _ => rfl

theorem AxisRecord.follow_slow {low : Nat} (leg : a.leg ax = .slow low) :
    a.follow ax now =
      if isqrt a.speedSq - isqrt (max low (a.speedSq - a.room ax)) ≤ a.lag ax now then
        a.reach (a.speedSq - max low (a.speedSq - a.room ax)) (max low (a.speedSq - a.room ax))
          (isqrt a.speedSq - isqrt (max low (a.speedSq - a.room ax)))
      else
        a.reach (a.speedSq - (isqrt a.speedSq - a.lag ax now) ^ 2) ((isqrt a.speedSq - a.lag ax now) ^ 2)
          (a.lag ax now) := by
  unfold AxisRecord.follow
  rw [leg]
  exact ite_congr rfl (fun _ => rfl) fun _ => rfl

/-! ## Many legs -/

theorem AxisRecord.pulseOwed_iff : a.pulseOwed ax = true ↔ a.atRest = false ∧ stepSpan ax ≤ a.part := by
  simp [AxisRecord.pulseOwed]

theorem AxisRecord.not_pulseOwed (partway : a.part < stepSpan ax) : a.pulseOwed ax = false := by
  simp [AxisRecord.pulseOwed, partway]

theorem AxisRecord.advanceLegs_of_owed (owed : a.pulseOwed ax = true) : ∀ n, a.advanceLegs ax now n = a
  | 0 => rfl
  | _ + 1 => if_pos owed

theorem AxisRecord.advanceLegs_succ (partway : a.part < stepSpan ax) (straight : a.turn = a) (n : Nat) :
    a.advanceLegs ax now (n + 1) = (a.follow ax now).advanceLegs ax now n := by
  rw [AxisRecord.advanceLegs, if_neg (by simp [AxisRecord.not_pulseOwed partway]), straight]

/-- A profile that has come to its instant stays. -/
theorem AxisRecord.advanceLegs_still (partway : a.part < stepSpan ax) (straight : a.turn = a)
    (settled : a.follow ax now = a) : ∀ n, a.advanceLegs ax now n = a
  | 0 => rfl
  | n + 1 => by rw [AxisRecord.advanceLegs_succ partway straight, settled, advanceLegs_still partway straight settled n]

theorem AxisRecord.advance_moving (moving : a.atRest = false) : a.advance ax now = a.advanceLegs ax now 8 := by
  rw [AxisRecord.advance, if_neg (by simp [moving])]

/-- The profile comes to its next pulse within one leg. -/
theorem AxisRecord.advance_to_pulse {speedSq took : Nat} (moving : a.atRest = false) (partway : a.part < stepSpan ax)
    (straight : a.turn = a) (follow : a.follow ax now = a.reach (a.room ax) speedSq took) :
    a.advance ax now = { a with part := stepSpan ax, speedSq := speedSq, clock := a.clock + took } := by
  have whole : a.part + a.room ax = stepSpan ax := Nat.add_sub_cancel' partway.le
  have come : a.reach (a.room ax) speedSq took
      = { a with part := stepSpan ax, speedSq := speedSq, clock := a.clock + took } := by
    unfold AxisRecord.reach
    rw [whole]
  rw [AxisRecord.advance_moving moving, AxisRecord.advanceLegs_succ partway straight, follow, come]
  exact AxisRecord.advanceLegs_of_owed (a := { a with part := stepSpan ax, speedSq := speedSq, clock := a.clock + took })
    (AxisRecord.pulseOwed_iff.mpr ⟨moving, le_rfl⟩) 7

/-- The profile comes to its instant within one leg. -/
theorem AxisRecord.advance_to_instant {b : AxisRecord} (moving : a.atRest = false) (partway : a.part < stepSpan ax)
    (straight : a.turn = a) (follow : a.follow ax now = b) (within : b.part < stepSpan ax) (on : b.turn = b)
    (settled : b.follow ax now = b) : a.advance ax now = b := by
  rw [AxisRecord.advance_moving moving, AxisRecord.advanceLegs_succ partway straight, follow]
  exact AxisRecord.advanceLegs_still within on settled 7

theorem AxisRecord.turn_of_ahead (ahead : a.ahead = true) : a.turn = a := by
  unfold AxisRecord.turn
  exact if_neg (by simp [ahead])

theorem AxisRecord.turn_of_speed (moves : a.speedSq ≠ 0) : a.turn = a := by
  unfold AxisRecord.turn
  exact if_neg (by simp [moves])

/-! ## The legs of a travel -/

/-- The axis travels from a known position: to its target, or back from its index. -/
def AxisRecord.Travels (a : AxisRecord) : Prop := (a.state = .moving ∨ a.state = .homing) ∧ a.pos.isSome = true

theorem AxisRecord.Travels.moving (travels : a.Travels) : a.atRest = false := by
  rcases travels.1 with state | state <;> simp [AxisRecord.atRest, state]

theorem AxisRecord.Travels.seeking (travels : a.Travels) : a.seeking = false := by
  have homed : a.pos.isNone = false := by simpa using travels.2
  simp [AxisRecord.seeking, homed]

theorem AxisRecord.Travels.leg (travels : a.Travels) : a.leg ax = a.travelLeg ax := by
  unfold AxisRecord.leg
  rcases travels.1 with state | state
  · rw [state]
  · rw [state]
    exact if_neg (by simp [travels.seeking])

theorem AxisRecord.Travels.reach (travels : a.Travels) (len w time : Nat) : (a.reach len w time).Travels := by
  simpa only [AxisRecord.Travels, AxisRecord.reach_state, AxisRecord.reach_pos] using travels

theorem AxisRecord.ahead_iff : a.ahead = true ↔ (a.up = true ∧ 0 < a.togo) ∨ (a.up = false ∧ a.togo < 0) := by
  unfold AxisRecord.ahead
  cases a.up <;> simp

/-- The target is farther than the stopping distance: the axis is sped or slowed to its limit. -/
theorem AxisRecord.Travels.cruises (travels : a.Travels) (ahead : a.ahead = true) (far : a.speedSq < a.wayLeft ax) :
    a.leg ax = a.cruiseLeg (a.wayLeft ax - a.speedSq) ((a.wayLeft ax + a.speedSq + 1) / 2) := by
  rw [travels.leg, AxisRecord.travelLeg]
  exact if_neg (by simp [ahead, far])

/-! ### Speeding up -/

/-- An axis speeds up to the next pulse. -/
structure AxisRecord.SpeedsUp (ax : Axis) (a : AxisRecord) : Prop where
  travels : a.Travels
  ahead : a.ahead = true
  partway : a.part < stepSpan ax
  below : a.speedSq + a.room ax ≤ a.cruiseSq
  far : 2 * (a.speedSq + a.room ax) ≤ a.wayLeft ax + a.speedSq

theorem AxisRecord.SpeedsUp.leg (up : a.SpeedsUp ax) : ∃ top, a.leg ax = .speedUp top ∧ a.speedSq + a.room ax ≤ top := by
  obtain ⟨travels, ahead, partway, below, far⟩ := up
  have some : 0 < a.room ax := Nat.sub_pos_of_lt partway
  refine ⟨min a.cruiseSq ((a.wayLeft ax + a.speedSq + 1) / 2), ?_, le_min below (by omega)⟩
  rw [travels.cruises ahead (by omega), AxisRecord.cruiseLeg]
  exact if_pos (by omega)

theorem AxisRecord.SpeedsUp.pulse (up : a.SpeedsUp ax)
    (inTime : isqrt (a.speedSq + a.room ax) - isqrt a.speedSq ≤ a.lag ax now) :
    a.advance ax now = { a with
      part := stepSpan ax, speedSq := a.speedSq + a.room ax
      clock := a.clock + (isqrt (a.speedSq + a.room ax) - isqrt a.speedSq) } := by
  obtain ⟨top, leg, far⟩ := up.leg
  refine AxisRecord.advance_to_pulse up.travels.moving up.partway (AxisRecord.turn_of_ahead up.ahead) ?_
  rw [AxisRecord.follow_speedUp leg far, if_pos inTime]

/-- The square of a speed that grows by a time lies between the squares of its root and of the root's successor. -/
theorem speed_grows {v s t : Nat} (low : v * v ≤ s) (high : s < (v + 1) * (v + 1)) :
    (v + t) * (v + t) ≤ s + 2 * v * t + t ^ 2 ∧ s + 2 * v * t + t ^ 2 < (v + t + 1) * (v + t + 1) := by
  constructor <;> nlinarith

theorem AxisRecord.SpeedsUp.onward (up : a.SpeedsUp ax) {d : Nat} (short : d < a.room ax) (t : Nat) :
    (a.reach d (a.speedSq + d) t).SpeedsUp ax := by
  obtain ⟨travels, ahead, partway, below, far⟩ := up
  refine ⟨travels.reach .., ahead, ?_, ?_, ?_⟩
  · rw [AxisRecord.reach_part]
    exact Nat.add_lt_of_lt_sub' short
  · rw [AxisRecord.reach_speedSq, AxisRecord.reach_room, AxisRecord.reach_cruiseSq]
    omega
  · rw [AxisRecord.reach_speedSq, AxisRecord.reach_room, AxisRecord.reach_wayLeft]
    omega

/-- A speed that grows for a time short of a pulse. -/
theorem speed_grows_short {s r t : Nat} (late : t < isqrt (s + r) - isqrt s) :
    2 * isqrt s * t + t ^ 2 < r ∧ isqrt (s + (2 * isqrt s * t + t ^ 2)) = isqrt s + t := by
  have wide := isqrt_lt (s + r)
  obtain ⟨low, high⟩ := speed_grows (t := t) (isqrt_sq_le s)
    (lt_sq_of_isqrt_lt (Nat.lt_succ_self (isqrt s)) (by omega))
  rw [Nat.add_assoc] at low high
  have short : (isqrt s + t + 1) * (isqrt s + t + 1) ≤ s + r :=
    (Nat.mul_self_le_mul_self (by omega)).trans (isqrt_sq_le (s + r))
  exact ⟨by omega, isqrt_eq (by omega) low high⟩

theorem AxisRecord.SpeedsUp.instant (up : a.SpeedsUp ax)
    (late : a.lag ax now < isqrt (a.speedSq + a.room ax) - isqrt a.speedSq) :
    (a.advance ax now).part < stepSpan ax ∧ isqrt (a.advance ax now).speedSq = isqrt a.speedSq + a.lag ax now ∧
      (a.advance ax now).up = a.up := by
  let d := 2 * isqrt a.speedSq * a.lag ax now + a.lag ax now ^ 2
  obtain ⟨short, root⟩ := speed_grows_short late
  have next : (a.reach d (a.speedSq + d) (a.lag ax now)).SpeedsUp ax := up.onward short _
  obtain ⟨top, leg, far⟩ := up.leg
  have follow : a.follow ax now = a.reach d (a.speedSq + d) (a.lag ax now) := by
    rw [AxisRecord.follow_speedUp leg far, if_neg (Nat.not_le.mpr late), Nat.add_assoc]
  obtain ⟨top', leg', far'⟩ := next.leg
  have total : a.speedSq + d + (a.room ax - d) = a.speedSq + a.room ax := by omega
  have settled := AxisRecord.follow_speedUp (now := now) leg' far'
  rw [AxisRecord.reach_speedSq, AxisRecord.reach_room, AxisRecord.reach_lag, total, root, if_neg (by omega)] at settled
  have come := AxisRecord.advance_to_instant up.travels.moving up.partway (AxisRecord.turn_of_ahead up.ahead) follow
    next.partway (AxisRecord.turn_of_ahead next.ahead) (settled.trans (AxisRecord.reach_nothing _ (by simp) (by simp)))
  rw [come]
  exact ⟨next.partway, by rw [AxisRecord.reach_speedSq, root], AxisRecord.reach_up ..⟩

/-! ### Cruising -/

/-- An axis cruises at its limit to the next pulse. -/
structure AxisRecord.Cruises (ax : Axis) (a : AxisRecord) : Prop where
  travels : a.Travels
  ahead : a.ahead = true
  partway : a.part < stepSpan ax
  cruise : a.speedSq = a.cruiseSq
  far : a.cruiseSq + a.room ax ≤ a.wayLeft ax

theorem AxisRecord.Cruises.leg (on : a.Cruises ax) : a.leg ax = .hold (a.wayLeft ax - a.speedSq) := by
  obtain ⟨travels, ahead, partway, cruise, far⟩ := on
  have some : 0 < a.room ax := Nat.sub_pos_of_lt partway
  rw [travels.cruises ahead (by omega), AxisRecord.cruiseLeg, if_neg (by omega)]
  exact if_pos cruise

theorem AxisRecord.Cruises.room_le (on : a.Cruises ax) : a.room ax ≤ a.wayLeft ax - a.speedSq := by
  have := on.cruise
  have := on.far
  omega

theorem AxisRecord.Cruises.pulse (on : a.Cruises ax) (inTime : a.room ax / (2 * isqrt a.speedSq) ≤ a.lag ax now) :
    a.advance ax now = { a with
      part := stepSpan ax, speedSq := a.speedSq, clock := a.clock + a.room ax / (2 * isqrt a.speedSq) } := by
  refine AxisRecord.advance_to_pulse on.travels.moving on.partway (AxisRecord.turn_of_ahead on.ahead) ?_
  rw [AxisRecord.follow_hold on.leg on.room_le, if_pos inTime]

theorem AxisRecord.Cruises.onward (on : a.Cruises ax) {d : Nat} (short : d < a.room ax) (t : Nat) :
    (a.reach d a.speedSq t).Cruises ax := by
  obtain ⟨travels, ahead, partway, cruise, far⟩ := on
  refine ⟨travels.reach .., ahead, ?_, ?_, ?_⟩
  · rw [AxisRecord.reach_part]
    exact Nat.add_lt_of_lt_sub' short
  · rw [AxisRecord.reach_speedSq, AxisRecord.reach_cruiseSq, cruise]
  · rw [AxisRecord.reach_room, AxisRecord.reach_wayLeft, AxisRecord.reach_cruiseSq]
    omega

/-- A way at a steady speed for a time short of a pulse, and what is left of it. -/
theorem speed_holds_short {v r t : Nat} (late : t < r / v) : v * t < r ∧ 0 < (r - v * t) / v := by
  have moves : 0 < v := by
    by_contra still
    rw [Nat.eq_zero_of_not_pos still, Nat.div_zero] at late
    omega
  have covered : (t + 1) * v ≤ r := (Nat.le_div_iff_mul_le moves).mp late
  have whole : (t + 1) * v = v * t + v := by ring
  exact ⟨by omega, (Nat.le_div_iff_mul_le moves).mpr (by omega)⟩

theorem AxisRecord.Cruises.instant (on : a.Cruises ax) (late : a.lag ax now < a.room ax / (2 * isqrt a.speedSq)) :
    (a.advance ax now).part < stepSpan ax ∧ (a.advance ax now).speedSq = a.speedSq ∧ (a.advance ax now).up = a.up := by
  let d := 2 * isqrt a.speedSq * a.lag ax now
  obtain ⟨short, left⟩ := speed_holds_short late
  have next : (a.reach d a.speedSq (a.lag ax now)).Cruises ax := on.onward short _
  have follow : a.follow ax now = a.reach d a.speedSq (a.lag ax now) := by
    rw [AxisRecord.follow_hold on.leg on.room_le, if_neg (Nat.not_le.mpr late)]
  have settled := AxisRecord.follow_hold (now := now) next.leg next.room_le
  rw [AxisRecord.reach_speedSq, AxisRecord.reach_room, AxisRecord.reach_lag, if_neg (Nat.not_le.mpr left)] at settled
  have come := AxisRecord.advance_to_instant on.travels.moving on.partway (AxisRecord.turn_of_ahead on.ahead) follow
    next.partway (AxisRecord.turn_of_ahead next.ahead)
    (settled.trans (AxisRecord.reach_nothing _ (Nat.mul_zero _) (AxisRecord.reach_speedSq ..).symm))
  rw [come]
  exact ⟨next.partway, AxisRecord.reach_speedSq .., AxisRecord.reach_up ..⟩

/-! ### Slowing -/

/-- An axis slows to the next pulse: it stops, its target lies behind it or within its stopping distance, or its limit has
been lowered. -/
structure AxisRecord.Slows (ax : Axis) (a : AxisRecord) : Prop where
  cause : a.state = .stopping ∨
    (a.Travels ∧ (a.ahead = false ∨ a.wayLeft ax ≤ a.speedSq ∨ a.cruiseSq + a.room ax ≤ a.speedSq))
  partway : a.part < stepSpan ax
  enough : a.room ax ≤ a.speedSq

theorem AxisRecord.Slows.moving (on : a.Slows ax) : a.atRest = false := by
  rcases on.cause with state | ⟨travels, _⟩
  · simp [AxisRecord.atRest, state]
  · exact travels.moving

theorem AxisRecord.Slows.speed (on : a.Slows ax) : a.speedSq ≠ 0 := by
  have some : 0 < a.room ax := Nat.sub_pos_of_lt on.partway
  have := on.enough
  omega

theorem AxisRecord.Slows.leg (on : a.Slows ax) : ∃ low, a.leg ax = .slow low ∧ low ≤ a.speedSq - a.room ax := by
  have brakes : a.brakeLeg = .slow 0 := if_neg on.speed
  have some : 0 < a.room ax := Nat.sub_pos_of_lt on.partway
  have enough := on.enough
  rcases on.cause with state | ⟨travels, cause⟩
  · refine ⟨0, ?_, Nat.zero_le _⟩
    unfold AxisRecord.leg
    rw [state]
    exact brakes
  · by_cases near : a.ahead = false ∨ a.wayLeft ax ≤ a.speedSq
    · refine ⟨0, ?_, Nat.zero_le _⟩
      rw [travels.leg, AxisRecord.travelLeg]
      exact (if_pos near).trans brakes
    · have fast : a.cruiseSq + a.room ax ≤ a.speedSq := by
        rcases cause with behind | within | fast
        · exact absurd (.inl behind) near
        · exact absurd (.inr within) near
        · exact fast
      refine ⟨a.cruiseSq, ?_, by omega⟩
      rw [travels.leg, AxisRecord.travelLeg]
      refine (if_neg near).trans ?_
      rw [AxisRecord.cruiseLeg, if_neg (by omega)]
      exact if_neg (by omega)

theorem AxisRecord.Slows.follow (on : a.Slows ax) :
    a.follow ax now =
      if isqrt a.speedSq - isqrt (a.speedSq - a.room ax) ≤ a.lag ax now then
        a.reach (a.room ax) (a.speedSq - a.room ax) (isqrt a.speedSq - isqrt (a.speedSq - a.room ax))
      else
        a.reach (a.speedSq - (isqrt a.speedSq - a.lag ax now) ^ 2) ((isqrt a.speedSq - a.lag ax now) ^ 2)
          (a.lag ax now) := by
  obtain ⟨low, leg, below⟩ := on.leg
  rw [AxisRecord.follow_slow leg, max_eq_right below, Nat.sub_sub_self on.enough]

theorem AxisRecord.Slows.pulse (on : a.Slows ax)
    (inTime : isqrt a.speedSq - isqrt (a.speedSq - a.room ax) ≤ a.lag ax now) :
    a.advance ax now = { a with
      part := stepSpan ax, speedSq := a.speedSq - a.room ax
      clock := a.clock + (isqrt a.speedSq - isqrt (a.speedSq - a.room ax)) } := by
  refine AxisRecord.advance_to_pulse on.moving on.partway (AxisRecord.turn_of_speed on.speed) ?_
  rw [on.follow, if_pos inTime]

theorem AxisRecord.Slows.onward (on : a.Slows ax) {w : Nat} (above : a.speedSq - a.room ax < w) (atMost : w ≤ a.speedSq)
    (t : Nat) : (a.reach (a.speedSq - w) w t).Slows ax := by
  have enough := on.enough
  refine ⟨?_, ?_, ?_⟩
  · rw [AxisRecord.reach_state, AxisRecord.reach_ahead, AxisRecord.reach_wayLeft, AxisRecord.reach_cruiseSq,
      AxisRecord.reach_room, AxisRecord.reach_speedSq]
    rcases on.cause with state | ⟨travels, behind | near | fast⟩
    · exact .inl state
    · exact .inr ⟨travels.reach .., .inl behind⟩
    · exact .inr ⟨travels.reach .., .inr (.inl (by omega))⟩
    · exact .inr ⟨travels.reach .., .inr (.inr (by omega))⟩
  · rw [AxisRecord.reach_part]
    have short : a.speedSq - w < a.room ax := by omega
    exact Nat.add_lt_of_lt_sub' short
  · rw [AxisRecord.reach_room, AxisRecord.reach_speedSq]
    omega

/-- A speed that falls for a time short of a pulse. -/
theorem speed_falls_short {s r t : Nat} (late : t < isqrt s - isqrt (s - r)) :
    s - r < (isqrt s - t) ^ 2 ∧ (isqrt s - t) ^ 2 ≤ s ∧ isqrt ((isqrt s - t) ^ 2) = isqrt s - t := by
  have wide := isqrt_lt s
  refine ⟨?_, ?_, isqrt_sq (by omega)⟩
  · rw [sq]
    exact lt_sq_of_isqrt_lt (by omega) (by omega)
  · rw [sq]
    exact (Nat.mul_self_le_mul_self (Nat.sub_le ..)).trans (isqrt_sq_le s)

theorem AxisRecord.Slows.instant (on : a.Slows ax)
    (late : a.lag ax now < isqrt a.speedSq - isqrt (a.speedSq - a.room ax)) :
    (a.advance ax now).part < stepSpan ax ∧ isqrt (a.advance ax now).speedSq = isqrt a.speedSq - a.lag ax now ∧
      (a.advance ax now).up = a.up := by
  let w := (isqrt a.speedSq - a.lag ax now) ^ 2
  obtain ⟨above, atMost, root⟩ := speed_falls_short late
  have next : (a.reach (a.speedSq - w) w (a.lag ax now)).Slows ax := on.onward above atMost _
  have follow : a.follow ax now = a.reach (a.speedSq - w) w (a.lag ax now) := by
    rw [on.follow, if_neg (Nat.not_le.mpr late)]
  have total : w - (a.room ax - (a.speedSq - w)) = a.speedSq - a.room ax := by
    have enough := on.enough
    have high : w ≤ a.speedSq := atMost
    omega
  have settled := next.follow (now := now)
  rw [AxisRecord.reach_speedSq, AxisRecord.reach_room, AxisRecord.reach_lag, total, root, if_neg (by omega),
    Nat.sub_zero] at settled
  have come := AxisRecord.advance_to_instant on.moving on.partway (AxisRecord.turn_of_speed on.speed) follow next.partway
    (AxisRecord.turn_of_speed next.speed)
    (settled.trans (AxisRecord.reach_nothing _ (Nat.sub_self _) (AxisRecord.reach_speedSq ..).symm))
  rw [come]
  exact ⟨next.partway, by rw [AxisRecord.reach_speedSq, root], AxisRecord.reach_up ..⟩

end

end Sys2Proof.Machine
end

