-- ==== Sys2Proof/Proofs/AxisRest.lean ====
section
/-! PROOFS. The rest of an axis, and what it ends (spec/05 sections 5.1, 5.6 and 5.8). -/

namespace Sys2Proof.Machine

/-! ## Braking to rest -/

/-- An axis with no travel left brakes to zero speed before a further whole step. -/
structure AxisRecord.Brakes (ax : Axis) (a : AxisRecord) : Prop where
  cause : a.state = .stopping ∨ (a.Travels ∧ a.togo = 0)
  short : a.part + a.speedSq < stepSpan ax

section
variable {ax : Axis} {now : Nat} {a : AxisRecord}

theorem AxisRecord.ahead_of_none (none : a.togo = 0) : a.ahead = false := by
  unfold AxisRecord.ahead
  rw [none]
  cases a.up <;> rfl

theorem AxisRecord.Brakes.moving (on : a.Brakes ax) : a.atRest = false := by
  rcases on.cause with state | ⟨travels, _⟩
  · simp [AxisRecord.atRest, state]
  · exact travels.moving

theorem AxisRecord.Brakes.partway (on : a.Brakes ax) : a.part < stepSpan ax := (Nat.le_add_right ..).trans_lt on.short

theorem AxisRecord.Brakes.leg (on : a.Brakes ax) : a.leg ax = a.brakeLeg := by
  rcases on.cause with state | ⟨travels, none⟩
  · unfold AxisRecord.leg
    rw [state]
  · rw [travels.leg, AxisRecord.travelLeg]
    exact if_pos (.inl (AxisRecord.ahead_of_none none))

theorem AxisRecord.Brakes.straight (on : a.Brakes ax) : a.turn = a := by
  unfold AxisRecord.turn
  rcases on.cause with state | ⟨_, none⟩
  · exact if_neg (by simp [AxisRecord.travelling, state])
  · exact if_neg (by simp [none])

theorem AxisRecord.Brakes.follow_at_rest (on : a.Brakes ax) (still : a.speedSq = 0) :
    a.follow ax now = a.reach 0 a.speedSq (a.lag ax now) :=
  AxisRecord.follow_still (on.leg.trans (if_pos still))

theorem AxisRecord.Brakes.follow (on : a.Brakes ax) (moves : a.speedSq ≠ 0) :
    a.follow ax now =
      if isqrt a.speedSq ≤ a.lag ax now then a.reach a.speedSq 0 (isqrt a.speedSq)
      else
        a.reach (a.speedSq - (isqrt a.speedSq - a.lag ax now) ^ 2) ((isqrt a.speedSq - a.lag ax now) ^ 2)
          (a.lag ax now) := by
  have near : a.speedSq ≤ a.room ax := (Nat.lt_sub_iff_add_lt'.mpr on.short).le
  have leg : a.leg ax = .slow 0 := on.leg.trans (if_neg moves)
  rw [AxisRecord.follow_slow leg, Nat.sub_eq_zero_of_le near, Nat.max_self, isqrt_zero, Nat.sub_zero, Nat.sub_zero]

theorem AxisRecord.Brakes.onward (on : a.Brakes ax) {d w : Nat} (whole : d + w ≤ a.speedSq) (t : Nat) :
    (a.reach d w t).Brakes ax := by
  refine ⟨on.cause.imp id fun ⟨travels, spent⟩ => ⟨travels.reach .., spent⟩, ?_⟩
  rw [AxisRecord.reach_part, AxisRecord.reach_speedSq]
  have short := on.short
  omega

theorem AxisRecord.Brakes.restDue (on : a.Brakes ax) : a.restDue ax = decide (a.speedSq = 0) := by
  have owed := AxisRecord.not_pulseOwed on.partway
  have moving := on.moving
  have sought : a.seeking = false := by
    rcases on.cause with state | ⟨travels, _⟩
    · simp [AxisRecord.seeking, state]
    · exact travels.seeking
  have done : (a.state == .stopping || decide (a.togo = 0)) = true := by
    rcases on.cause with state | ⟨_, none⟩
    · simp [state]
    · simp [none]
  simp [AxisRecord.restDue, owed, moving, sought, done]

/-- At zero speed the profile waits. -/
theorem AxisRecord.Brakes.waits (n : Nat) : ∀ {a : AxisRecord}, a.Brakes ax → a.speedSq = 0 →
    (a.advanceLegs ax now n).Brakes ax ∧ (a.advanceLegs ax now n).speedSq = 0 ∧
      (a.advanceLegs ax now n).rest = a.rest := by
  induction n with
  | zero => exact fun on still => ⟨on, still, rfl⟩
  | succ n ih =>
    intro a on still
    obtain ⟨brakes, zero, rests⟩ :=
      ih (on.onward (d := 0) (w := a.speedSq) (by omega) (a.lag ax now)) ((AxisRecord.reach_speedSq ..).trans still)
    rw [AxisRecord.advanceLegs_succ on.partway on.straight, on.follow_at_rest still]
    exact ⟨brakes, zero, rests⟩

/-- An axis that has had the time is at zero speed. -/
theorem AxisRecord.Brakes.stops (on : a.Brakes ax) (inTime : isqrt a.speedSq ≤ a.lag ax now) :
    (a.advance ax now).Brakes ax ∧ (a.advance ax now).speedSq = 0 ∧ (a.advance ax now).rest = a.rest := by
  rw [AxisRecord.advance_moving on.moving]
  by_cases still : a.speedSq = 0
  · exact AxisRecord.Brakes.waits 8 on still
  · rw [AxisRecord.advanceLegs_succ on.partway on.straight, on.follow still, if_pos inTime]
    obtain ⟨brakes, zero, rests⟩ := AxisRecord.Brakes.waits (now := now) 7
      (on.onward (d := a.speedSq) (w := 0) (by omega) (isqrt a.speedSq)) (AxisRecord.reach_speedSq ..)
    exact ⟨brakes, zero, rests⟩

/-- An axis that has not had the time still moves. -/
theorem AxisRecord.Brakes.runs (on : a.Brakes ax) (late : a.lag ax now < isqrt a.speedSq) :
    (a.advance ax now).Brakes ax ∧ (a.advance ax now).speedSq ≠ 0 := by
  have moves : a.speedSq ≠ 0 := fun still => by
    rw [still, isqrt_zero] at late
    omega
  let w := (isqrt a.speedSq - a.lag ax now) ^ 2
  obtain ⟨above, atMost, root⟩ := speed_falls_short (s := a.speedSq) (r := a.speedSq) (t := a.lag ax now)
    (by rw [Nat.sub_self, isqrt_zero]; exact late)
  have next : (a.reach (a.speedSq - w) w (a.lag ax now)).Brakes ax := on.onward (Nat.sub_add_cancel atMost).le _
  have fast : w ≠ 0 := Nat.ne_zero_of_lt above
  have follow : a.follow ax now = a.reach (a.speedSq - w) w (a.lag ax now) := by
    rw [on.follow moves, if_neg (Nat.not_le.mpr late)]
  have settled := next.follow (now := now) ((AxisRecord.reach_speedSq ..).trans_ne fast)
  rw [AxisRecord.reach_speedSq, AxisRecord.reach_lag, root, if_neg (by omega), Nat.sub_zero] at settled
  have come := AxisRecord.advance_to_instant on.moving on.partway on.straight follow next.partway next.straight
    (settled.trans (AxisRecord.reach_nothing _ (Nat.sub_self _) (AxisRecord.reach_speedSq ..).symm))
  rw [come]
  exact ⟨next, (AxisRecord.reach_speedSq ..).trans_ne fast⟩

end

/-! ## The rest of an axis -/

/-- An axis at its rest, with start pending for a search that it owes. -/
def AxisRecord.rested (a : AxisRecord) : AxisRecord :=
  if a.searchOwed = true then { a.rest with searchOwed := false, homingTravel := 0, startPending := .home } else a.rest

theorem HeadPositioner.putAxis_putAxis (h : HeadPositioner) (ax : Axis) (a b : AxisRecord) :
    (h.putAxis ax a).putAxis ax b = h.putAxis ax b := by
  cases ax <;> rfl

theorem HeadPositioner.putAxis_other (h : HeadPositioner) (ax : Axis) (a : AxisRecord) :
    (h.putAxis ax a).axis (otherAxis ax) = h.axis (otherAxis ax) := by
  cases ax <;> rfl

theorem State.axisRests_putAxis (s : State) (ax : Axis) {a b : AxisRecord} (same : a.rest = b.rest) :
    State.axisRests { s with hdp := s.hdp.putAxis ax a } ax
      = State.settleHead (State.noteRest (State.askClearance { s with hdp := s.hdp.putAxis ax b.rested })) := by
  have owes : a.rest.searchOwed = b.searchOwed := (congrArg AxisRecord.searchOwed same).trans rfl
  have put (c : AxisRecord) : ({ s with hdp := (s.hdp.putAxis ax a).putAxis ax c } : State)
      = { s with hdp := s.hdp.putAxis ax c } := by
    rw [HeadPositioner.putAxis_putAxis]
  unfold State.axisRests AxisRecord.rested
  dsimp only
  rw [HeadPositioner.putAxis_axis, put, owes, same]

section
variable {s : State} {ax : Axis}

theorem State.axisRest_early (on : (s.hdp.axis ax).Brakes ax)
    (late : (s.hdp.axis ax).lag ax s.timeBase < isqrt (s.hdp.axis ax).speedSq) : s.axisRest ax = s := by
  obtain ⟨brakes, moves⟩ := on.runs late
  unfold State.axisRest
  exact if_neg (by rw [brakes.restDue]; simpa using moves)

theorem State.axisRest_due (on : (s.hdp.axis ax).Brakes ax)
    (inTime : isqrt (s.hdp.axis ax).speedSq ≤ (s.hdp.axis ax).lag ax s.timeBase) :
    s.axisRest ax = State.settleHead (State.noteRest (State.askClearance
      { s with hdp := s.hdp.putAxis ax (s.hdp.axis ax).rested })) := by
  obtain ⟨brakes, still, rests⟩ := on.stops inTime
  unfold State.axisRest
  refine (if_pos (by rw [brakes.restDue]; simpa using still)).trans ?_
  exact s.axisRests_putAxis ax rests

theorem State.noteRest_of_moving (moving : s.hdp.atRest = false) : s.noteRest = s := by
  unfold State.noteRest
  exact if_neg (by simp [moving])

theorem State.noteRest_of_rest (rest : s.hdp.atRest = true) :
    s.noteRest = { s with hdp := { s.hdp with restTime := s.timeBase } } := if_pos rest

theorem HeadPositioner.putAxis_anyPending {h : HeadPositioner} {a : AxisRecord} (clear : a.startPending = .clear)
    (other : (h.axis (otherAxis ax)).startPending = .clear) : (h.putAxis ax a).anyPending = false := by
  cases ax <;> simp_all [HeadPositioner.anyPending, HeadPositioner.putAxis, HeadPositioner.axis, otherAxis]

theorem HeadPositioner.putAxis_pends {h : HeadPositioner} {a : AxisRecord} (pends : a.startPending ≠ .clear) :
    (h.putAxis ax a).anyPending = true := by
  cases ax <;> simp_all [HeadPositioner.anyPending, HeadPositioner.putAxis]

theorem HeadPositioner.putAxis_moving {h : HeadPositioner} (moving : (h.axis (otherAxis ax)).atRest = false)
    (a : AxisRecord) : (h.putAxis ax a).atRest = false :=
  HeadPositioner.not_atRest (ax := otherAxis ax) ((congrArg AxisRecord.atRest (h.putAxis_other ax a)).trans moving)

theorem HeadPositioner.putAxis_atRest {h : HeadPositioner} {a : AxisRecord} (rest : a.atRest = true) :
    (h.putAxis ax a).atRest = (h.axis (otherAxis ax)).atRest := by
  cases ax <;> simp [HeadPositioner.atRest, HeadPositioner.putAxis, HeadPositioner.axis, otherAxis, rest]

theorem HeadPositioner.beginPending_putAxis {h : HeadPositioner} (other : (h.axis (otherAxis ax)).startPending = .clear)
    (a : AxisRecord) (now : Nat) :
    (h.putAxis ax a).beginPending now = h.putAxis ax (a.begin_ ax h.tiltIndex now) := by
  cases ax with
  | pan =>
    have clear : h.tilt.begin_ .tilt h.tiltIndex now = h.tilt := AxisRecord.begin_of_clear other ..
    unfold HeadPositioner.beginPending
    exact congrArg (fun c => { h with pan := a.begin_ .pan h.tiltIndex now, tilt := c }) clear
  | tilt =>
    have clear : h.pan.begin_ .pan h.tiltIndex now = h.pan := AxisRecord.begin_of_clear other ..
    unfold HeadPositioner.beginPending
    exact congrArg (fun c => { h with pan := c, tilt := a.begin_ .tilt h.tiltIndex now }) clear

/-! ## What the rest of an axis comes to -/

/-- The operation goes on while the other axis moves. -/
theorem State.rested_goes_on {a : AxisRecord} (clear : a.startPending = .clear)
    (other : (s.hdp.axis (otherAxis ax)).startPending = .clear) (moving : (s.hdp.axis (otherAxis ax)).atRest = false) :
    State.settleHead (State.noteRest (State.askClearance { s with hdp := s.hdp.putAxis ax a }))
      = { s with hdp := s.hdp.putAxis ax a } := by
  have motion : (s.hdp.putAxis ax a).atRest = false := HeadPositioner.putAxis_moving moving a
  rw [State.askClearance_of_none (HeadPositioner.putAxis_anyPending clear other), State.noteRest_of_moving motion]
  exact State.settleHead_of_moving motion

/-- A search that is owed begins with clearance GIVEN. -/
theorem State.rested_searches {a : AxisRecord} (pends : a.startPending = .home)
    (other : (s.hdp.axis (otherAxis ax)).startPending = .clear) (given : s.fxc.clearance = .given) :
    State.settleHead (State.noteRest (State.askClearance { s with hdp := s.hdp.putAxis ax a }))
      = { s with hdp := s.hdp.putAxis ax (a.begin_ ax s.hdp.tiltIndex s.timeBase) } := by
  have any : (s.hdp.putAxis ax a).anyPending = true := HeadPositioner.putAxis_pends (by simp [pends])
  have begun : (a.begin_ ax s.hdp.tiltIndex s.timeBase).atRest = false := by
    unfold AxisRecord.begin_
    rw [pends]
    rfl
  have motion : (s.hdp.putAxis ax (a.begin_ ax s.hdp.tiltIndex s.timeBase)).atRest = false :=
    HeadPositioner.not_atRest (ax := ax) (by rwa [HeadPositioner.putAxis_axis])
  have asked : State.askClearance { s with hdp := s.hdp.putAxis ax a }
      = { s with hdp := s.hdp.putAxis ax (a.begin_ ax s.hdp.tiltIndex s.timeBase) } :=
    (State.askClearance_of_given (s := { s with hdp := s.hdp.putAxis ax a }) any given).trans
      (congrArg (fun h : HeadPositioner => { s with hdp := h }) (HeadPositioner.beginPending_putAxis other a s.timeBase))
  rw [asked, State.noteRest_of_moving motion]
  exact State.settleHead_of_moving motion

/-- With start pending nothing settles; the instant of rest is noted when both axes are there. -/
theorem State.noteRest_settleHead_of_pending {o : HeadOperation} (any : s.hdp.anyPending = true) (op : s.hdp.op = some o) :
    s.noteRest.settleHead
      = { s with hdp := { s.hdp with restTime := if s.hdp.atRest = true then s.timeBase else s.hdp.restTime } } := by
  have noted : s.noteRest
      = { s with hdp := { s.hdp with restTime := if s.hdp.atRest = true then s.timeBase else s.hdp.restTime } } := by
    by_cases rest : s.hdp.atRest = true
    · rw [State.noteRest_of_rest rest, if_pos rest]
    · rw [Bool.not_eq_true] at rest
      rw [State.noteRest_of_moving rest, if_neg (by simp [rest])]
  rw [noted]
  refine State.settleHead_of_busy (o := o) ?_ op
  have pending : ({ s.hdp with restTime := if s.hdp.atRest = true then s.timeBase else s.hdp.restTime } :
    HeadPositioner).anyPending = true := any
  simp [HeadPositioner.finished, pending]

/-- With both axes at rest and no travel to come the operation ends. -/
theorem State.rested_ends {a : AxisRecord} {o : HeadOperation} (rest : a.atRest = true) (clear : a.startPending = .clear)
    (owes : a.searchOwed = false) (pos : a.pos = (s.hdp.axis ax).pos)
    (otherRest : (s.hdp.axis (otherAxis ax)).atRest = true)
    (other : (s.hdp.axis (otherAxis ax)).startPending = .clear)
    (otherOwes : (s.hdp.axis (otherAxis ax)).searchOwed = false) (op : s.hdp.op = some o) :
    let t := State.settleHead (State.noteRest (State.askClearance { s with hdp := s.hdp.putAxis ax a }))
    t.hdp = { (s.hdp.putAxis ax a).putCompletion o.origin ⟨o.kind, s.hdp.outcome, s.hdp.pan.pos, s.hdp.tilt.pos,
        s.surveyTime s.timeBase⟩ with op := none, demand := false, restTime := s.timeBase } ∧
      t.fxc = { s.fxc with clearance := .unasked } ∧ HeadDoneFor s t o.origin ∧ HeadFrame s t := by
  intro t
  have unpending : (s.hdp.putAxis ax a).anyPending = false := HeadPositioner.putAxis_anyPending clear other
  have still : (s.hdp.putAxis ax a).atRest = true := (HeadPositioner.putAxis_atRest rest).trans otherRest
  let r : HeadPositioner := { s.hdp.putAxis ax a with restTime := s.timeBase }
  have settles : t = State.settleHead { s with hdp := r } := by
    show State.settleHead (State.noteRest (State.askClearance { s with hdp := s.hdp.putAxis ax a })) = _
    rw [State.askClearance_of_none unpending, State.noteRest_of_rest still]
  have finished : r.finished = true := by
    refine HeadPositioner.finished_of_axes ax ?_ ?_ unpending ?_ ?_
    · cases ax <;> exact rest
    · cases ax <;> exact otherRest
    · cases ax <;> exact owes
    · cases ax <;> exact otherOwes
  have held : r.op = some o := by cases ax <;> exact op
  obtain ⟨hdp, fxc, counts, frame, _⟩ := State.settleHead_ends (s := { s with hdp := r }) finished held
  rw [← settles] at hdp fxc counts frame
  refine ⟨hdp.trans ?_, fxc, counts, frame⟩
  have completion : State.completionNow { s with hdp := r } o
      = ⟨o.kind, s.hdp.outcome, s.hdp.pan.pos, s.hdp.tilt.pos, s.surveyTime s.timeBase⟩ := by
    unfold State.completionNow
    cases ax with
    | pan => exact congrArg (fun p => Completion.mk o.kind s.hdp.outcome p s.hdp.tilt.pos _) pos
    | tilt => exact congrArg (fun p => Completion.mk o.kind s.hdp.outcome s.hdp.pan.pos p _) pos
  rw [completion]
  cases o.origin <;> rfl

end

/-- Settles O32: an axis brakes to its rest, and the last one at rest ends the operation. -/
theorem axisRestEndsTheOperation : Obligations.AxisRestEndsTheOperation := by
  intro dt ax s o a b now time resting h cause short clear otherClear op
  have on : a.Brakes ax := by
    refine ⟨?_, short⟩
    rcases cause with state | ⟨state, homed, none⟩
    · exact .inl state
    · exact .inr ⟨⟨state, homed⟩, none⟩
  have rests (inTime : isqrt a.speedSq ≤ time) : exec (.axisRest dt ax) s = .next (State.settleHead (State.noteRest
      (State.askClearance { s.elapse dt with hdp := s.hdp.putAxis ax a.rested }))) :=
    congrArg Host.Outcome.next (State.axisRest_due (s := s.elapse dt) on inTime)
  have quiet (owes : a.searchOwed = false) : a.rested = resting := if_neg (by simp [owes])
  refine ⟨fun late => congrArg Host.Outcome.next (State.axisRest_early (s := s.elapse dt) on late), ?_, ?_, ?_⟩
  · intro inTime owes moving
    rw [rests inTime, quiet owes]
    exact congrArg Host.Outcome.next
      (State.rested_goes_on (s := s.elapse dt) clear otherClear (AxisRecord.moving_of_state moving))
  · intro inTime owes unhomed waits searches asks
    have owing : a.rested = waits := if_pos owes
    have any : (s.hdp.putAxis ax waits).anyPending = true := HeadPositioner.putAxis_pends (a := waits) nofun
    have held : (s.hdp.putAxis ax waits).op = some o := (HeadPositioner.putAxis_op ..).trans op
    have rest : waits.atRest = true := AxisRecord.rest_atRest a
    have noted : { s.hdp.putAxis ax waits with
        restTime := if (s.hdp.putAxis ax waits).atRest = true then now else (s.hdp.putAxis ax waits).restTime } = asks := by
      have same : (s.hdp.putAxis ax waits).restTime = s.hdp.restTime := by cases ax <;> rfl
      rw [HeadPositioner.putAxis_atRest rest, same]
      by_cases otherRest : b.state = .unhomed ∨ b.state = .idle
      · rw [if_pos (b.atRest_iff.mpr otherRest)]
        exact congrArg (fun n => { s.hdp.putAxis ax waits with restTime := n }) (if_pos otherRest.symm).symm
      · rw [if_neg (b.atRest_iff.not.mpr otherRest)]
        exact congrArg (fun n => { s.hdp.putAxis ax waits with restTime := n })
          (if_neg (mt Or.symm otherRest)).symm
    refine ⟨fun given => ?_, fun waiting => ?_, fun unasked => ?_⟩
    · rw [rests inTime, owing]
      refine congrArg Host.Outcome.next
        ((State.rested_searches (s := s.elapse dt) (a := waits) rfl otherClear given).trans ?_)
      have begun : waits.begin_ ax s.hdp.tiltIndex now = searches := by
        have lost : ({ searches with pos := none } : AxisRecord) = searches := by
          have same : searches.pos = none := unhomed
          rw [← same]
        refine Eq.trans ?_ lost
        cases ax <;> rfl
      exact congrArg (fun c => { s.elapse dt with hdp := s.hdp.putAxis ax c }) begun
    · rw [rests inTime, owing]
      have asked : State.askClearance { s.elapse dt with hdp := s.hdp.putAxis ax waits }
          = { s.elapse dt with hdp := s.hdp.putAxis ax waits } := State.askClearance_of_waiting any waiting
      rw [asked]
      refine congrArg Host.Outcome.next ((State.noteRest_settleHead_of_pending
        (s := { s.elapse dt with hdp := s.hdp.putAxis ax waits }) any held).trans ?_)
      exact congrArg (fun r : HeadPositioner => { s.elapse dt with hdp := r }) noted
    · rw [rests inTime, owing]
      have asked : State.askClearance { s.elapse dt with hdp := s.hdp.putAxis ax waits }
          = { s.elapse dt with
              hdp := { s.hdp.putAxis ax waits with demand := true }, fxc := { s.fxc with clearance := .waiting } } :=
        State.askClearance_of_unasked any unasked
      rw [asked]
      refine congrArg Host.Outcome.next ((State.noteRest_settleHead_of_pending (s := { s.elapse dt with
        hdp := { s.hdp.putAxis ax waits with demand := true }, fxc := { s.fxc with clearance := .waiting } })
        any held).trans ?_)
      exact congrArg (fun r : HeadPositioner => { s.elapse dt with
        hdp := { r with demand := true }, fxc := { s.fxc with clearance := .waiting } }) noted
  · intro inTime owes otherOwes otherRest
    rw [rests inTime, quiet owes]
    obtain ⟨hdp, fxc, counts, frame⟩ := State.rested_ends (s := s.elapse dt) (ax := ax) (a := resting)
      (AxisRecord.rest_atRest a) clear owes rfl (b.atRest_iff.mpr otherRest.symm) otherClear otherOwes op
    exact ⟨_, rfl, hdp, fxc, counts, frame⟩

end Sys2Proof.Machine
end

