-- ==== Sys2Proof/Proofs/AxisSteps.lean ====
section
/-! PROOFS. The STEP pulses of an axis, in travel and in a search (spec/05 sections 5.1 and 5.3). -/

namespace Sys2Proof.Machine

/-! ## A pulse issued -/

section
variable {s : State} {ax : Axis} {speedSq took : Nat}

/-- An axis whose profile has come to no pulse issues none. -/
theorem State.axisStep_of_partway (partway : ((s.hdp.axis ax).advance ax s.timeBase).part < stepSpan ax) :
    s.axisStep ax = s := by
  unfold State.axisStep
  exact if_neg (by simp [AxisRecord.not_pulseOwed partway])

theorem State.axisStep_of_rest (rest : (s.hdp.axis ax).atRest = true) : s.axisStep ax = s := by
  unfold State.axisStep
  exact if_neg (by simp [AxisRecord.pulseOwed, rest])

theorem State.axisStep_of_spent (spent : (s.hdp.axis ax).searchSpent ax = true) : s.axisStep ax = s := by
  have same : ((s.hdp.axis ax).advance ax s.timeBase).searchSpent ax = (s.hdp.axis ax).searchSpent ax := by
    simp [AxisRecord.searchSpent, AxisRecord.seeking]
  unfold State.axisStep
  exact if_neg (by simp [same, spent])

/-- A pulse that has come is issued, or ends the travel at the end of the range. -/
theorem State.axisStep_of_pulse (moving : (s.hdp.axis ax).atRest = false)
    (pulse : (s.hdp.axis ax).advance ax s.timeBase
      = { s.hdp.axis ax with part := stepSpan ax, speedSq := speedSq, clock := (s.hdp.axis ax).clock + took })
    (unspent : (s.hdp.axis ax).searchSpent ax = false) :
    s.axisStep ax =
      if (s.hdp.axis ax).leavesRange ax = true then
        s.rangeEnd ax
          { s.hdp.axis ax with part := stepSpan ax, speedSq := speedSq, clock := (s.hdp.axis ax).clock + took }
      else { s with hdp := s.hdp.putAxis ax (AxisRecord.pulse ax
          { s.hdp.axis ax with part := stepSpan ax, speedSq := speedSq, clock := (s.hdp.axis ax).clock + took }) } := by
  have owed : ((s.hdp.axis ax).advance ax s.timeBase).pulseOwed ax = true := by
    rw [pulse]
    exact AxisRecord.pulseOwed_iff.mpr ⟨moving, le_rfl⟩
  have going : ((s.hdp.axis ax).advance ax s.timeBase).searchSpent ax = false := by
    rw [pulse]
    exact unspent
  unfold State.axisStep
  refine (if_pos (by simp [owed, going])).trans ?_
  rw [pulse]
  cases ax <;> rfl

end

/-! ## The pulses of a travel -/

/-- One step in the axis's present direction. -/
def AxisRecord.way (a : AxisRecord) : Int := if a.up = true then 1 else -1

/-- An axis that travels or stops, as opposed to one that searches or rests. -/
def AxisRecord.OnTheWay (a : AxisRecord) : Prop := a.state = .stopping ∨ a.Travels

section
variable {ax : Axis} {a : AxisRecord}

theorem AxisRecord.OnTheWay.moving (on : a.OnTheWay) : a.atRest = false := by
  rcases on with state | travels
  · simp [AxisRecord.atRest, state]
  · exact travels.moving

theorem AxisRecord.OnTheWay.seeking (on : a.OnTheWay) : a.seeking = false := by
  rcases on with state | travels
  · simp [AxisRecord.seeking, state]
  · exact travels.seeking

theorem AxisRecord.travels_iff :
    ((a.state == .moving || a.state == .homing) && a.pos.isSome) = true ↔ a.Travels := by
  simp [AxisRecord.Travels]

theorem AxisRecord.OnTheWay.travelling (on : a.OnTheWay) :
    a.travelling = ((a.state == .moving || a.state == .homing) && a.pos.isSome) := by
  rcases on with state | ⟨state | state, homed⟩
  · unfold AxisRecord.travelling
    rw [state]
    cases a.pos.isSome <;> rfl
  · simp [AxisRecord.travelling, state, homed]
  · simp [AxisRecord.travelling, state, homed]

theorem AxisRecord.leavesRange_unhomed (unhomed : a.pos = none) : a.leavesRange ax = false := by
  unfold AxisRecord.leavesRange
  rw [unhomed]
  cases ax <;> rfl

theorem AxisRecord.leavesRange_tilt {p : Int} (homed : a.pos = some p) :
    a.leavesRange .tilt = decide (p + a.way < -1350 ∨ 1350 < p + a.way) := by
  unfold AxisRecord.leavesRange
  rw [homed]
  exact (Bool.decide_or ..).symm

/-- What a pulse makes of an axis that travels or stops. -/
theorem AxisRecord.OnTheWay.pulse (on : a.OnTheWay) (part speedSq clock : Nat) :
    AxisRecord.pulse ax { a with part := part, speedSq := speedSq, clock := clock } = { a with
      pos := a.pos.map fun p => stepPos ax p a.up
      togo := if ((a.state == .moving || a.state == .homing) && a.pos.isSome) = true then a.togo - a.way else a.togo
      part := 0, speedSq := speedSq, clock := clock, lastStep := some a.up } := by
  have sought : ({ a with part := part, speedSq := speedSq, clock := clock } : AxisRecord).seeking = false := on.seeking
  have travels : ({ a with part := part, speedSq := speedSq, clock := clock } : AxisRecord).travelling
      = ((a.state == .moving || a.state == .homing) && a.pos.isSome) := on.travelling
  unfold AxisRecord.pulse
  rw [sought, travels]
  rfl

/-- At the end of the range, with nothing to go, the axis is at rest. -/
theorem AxisRecord.OnTheWay.atEnd (on : a.OnTheWay) (none : a.togo = 0) (clock : Nat) :
    ({ a with speedSq := 0, part := 0, clock := clock } : AxisRecord).Brakes ax := by
  refine ⟨?_, ?_⟩
  · rcases on with state | travels
    · exact .inl state
    · exact .inr ⟨travels, none⟩
  · cases ax <;> simp [stepSpan, deceleration]

end

theorem State.elapse_zero {s : State} (small : s.timeBase < 2 ^ 64) : s.elapse 0 = s := by
  have same : (s.timeBase + 0) % 2 ^ 64 = s.timeBase := Nat.mod_eq_of_lt small
  exact congrArg (fun t => { s with timeBase := t }) same

/-- A tilt step that would leave the range: the axis is there at rest, as AXIS_REST has it, or goes on. -/
theorem State.rangeEnd_eq {s : State} {ax : Axis} (small : s.timeBase < 2 ^ 64) (on : (s.hdp.axis ax).OnTheWay)
    (part speedSq clock : Nat) :
    let atEnd : State := { s with hdp := s.hdp.putAxis ax { s.hdp.axis ax with speedSq := 0, part := 0, clock := clock } }
    Host.Outcome.next (s.rangeEnd ax { s.hdp.axis ax with part := part, speedSq := speedSq, clock := clock })
      = if (s.hdp.axis ax).togo = 0 then exec (.axisRest 0 ax) atEnd else .next atEnd := by
  intro atEnd
  by_cases none : (s.hdp.axis ax).togo = 0
  · have ends : (s.rangeEnd ax { s.hdp.axis ax with part := part, speedSq := speedSq, clock := clock })
        = atEnd.axisRests ax := if_pos none
    have there : atEnd.hdp.axis ax = { s.hdp.axis ax with speedSq := 0, part := 0, clock := clock } :=
      HeadPositioner.putAxis_axis ..
    have brakes : (atEnd.hdp.axis ax).Brakes ax := by
      rw [there]
      exact on.atEnd none clock
    have zero : isqrt (atEnd.hdp.axis ax).speedSq ≤ (atEnd.hdp.axis ax).lag ax atEnd.timeBase := by
      rw [there, isqrt_zero]
      exact Nat.zero_le _
    have still : atEnd.elapse 0 = atEnd := State.elapse_zero small
    rw [if_pos none, ends]
    refine congrArg Host.Outcome.next (Eq.trans ?_ (congrArg (fun t => State.axisRest t ax) still).symm)
    have put : ({ atEnd with hdp := atEnd.hdp.putAxis ax (atEnd.hdp.axis ax) } : State) = atEnd := by
      cases ax <;> rfl
    rw [State.axisRest_due brakes zero, ← State.axisRests_putAxis atEnd ax rfl, put]
  · rw [if_neg none]
    exact congrArg Host.Outcome.next (if_neg none)

/-- A pulse issued by an axis that travels or stops. -/
theorem State.axisStep_on_the_way {s : State} {ax : Axis} {speedSq took : Nat} (on : (s.hdp.axis ax).OnTheWay)
    (pulse : (s.hdp.axis ax).advance ax s.timeBase
      = { s.hdp.axis ax with part := stepSpan ax, speedSq := speedSq, clock := (s.hdp.axis ax).clock + took }) :
    s.axisStep ax =
      if (s.hdp.axis ax).leavesRange ax = true then
        s.rangeEnd ax
          { s.hdp.axis ax with part := stepSpan ax, speedSq := speedSq, clock := (s.hdp.axis ax).clock + took }
      else { s with hdp := s.hdp.putAxis ax { s.hdp.axis ax with
          pos := (s.hdp.axis ax).pos.map fun p => stepPos ax p (s.hdp.axis ax).up
          togo := if (((s.hdp.axis ax).state == .moving || (s.hdp.axis ax).state == .homing)
              && (s.hdp.axis ax).pos.isSome) = true
            then (s.hdp.axis ax).togo - (s.hdp.axis ax).way else (s.hdp.axis ax).togo
          part := 0, speedSq := speedSq, clock := (s.hdp.axis ax).clock + took
          lastStep := some (s.hdp.axis ax).up } } := by
  rw [State.axisStep_of_pulse on.moving pulse (by simp [AxisRecord.searchSpent, on.seeking]), on.pulse]

/-- The speed between two pulses, as HEAD QUERY reports it. -/
theorem AxisRecord.speed_of_root {ax : Axis} {now v : Nat} {a : AxisRecord} (up : (a.advance ax now).up = a.up)
    (root : isqrt (a.advance ax now).speedSq = v) : a.speed ax now = a.way * (v / 10 ^ 6 : Nat) := by
  unfold AxisRecord.speed AxisRecord.way
  dsimp only
  rw [up, root]
  cases a.up <;> simp

theorem AxisRecord.cruise_root {ax : Axis} {a : AxisRecord} (most : a.limit ≤ maxSpeed ax) :
    isqrt a.cruiseSq = a.limit * 10 ^ 6 := by
  refine isqrt_sq ?_
  have top : maxSpeed ax ≤ 600 := by cases ax <;> simp [maxSpeed]
  omega

theorem wayTo_pan_reaches {p q : Int} (fromLow : 0 ≤ p) (fromHigh : p ≤ 3599) (toLow : 0 ≤ q) (toHigh : q ≤ 3599) :
    (p + wayTo .pan p q) % 3600 = q ∧ -1800 < wayTo .pan p q ∧ wayTo .pan p q ≤ 1800 ∧ (wayTo .pan p q = 0 ↔ p = q) := by
  simp only [wayTo]
  split <;> omega

/-- Settles O31: the legs of the profile, one step at a time, and between two steps. -/
theorem axisStepsFollowTheProfile : Obligations.AxisStepsFollowTheProfile := by
  refine ⟨?_, fun p q fromLow fromHigh toLow toHigh => wayTo_pan_reaches fromLow fromHigh toLow toHigh, ?_⟩
  · intro dt ax s a now span room cruise left v time ahead way travels moved leaves atEnd stepped between partway least most
    have leaving : a.leavesRange ax = leaves := by
      cases ax with
      | pan => rfl
      | tilt =>
        cases homed : a.pos with
        | none =>
          rw [AxisRecord.leavesRange_unhomed homed]
          show false = (match Axis.tilt, a.pos with
            | .tilt, some p => decide (p + way < -1350 ∨ 1350 < p + way)
            | _, _ => false)
          rw [homed]
        | some p =>
          rw [AxisRecord.leavesRange_tilt homed]
          show _ = (match Axis.tilt, a.pos with
            | .tilt, some p => decide (p + way < -1350 ∨ 1350 < p + way)
            | _, _ => false)
          rw [homed]
          rfl
    have steps {speedSq took : Nat} (on : a.OnTheWay)
        (pulse : a.advance ax now = { a with part := span, speedSq := speedSq, clock := a.clock + took }) :
        exec (.axisStep dt ax) s = stepped speedSq took := by
      refine (congrArg Host.Outcome.next (State.axisStep_on_the_way (s := s.elapse dt) on pulse)).trans ?_
      by_cases leaves' : leaves = true
      · have small : (s.elapse dt).timeBase < 2 ^ 64 := Nat.mod_lt _ (by norm_num)
        have ends := State.rangeEnd_eq (s := s.elapse dt) (ax := ax) small on span speedSq (a.clock + took)
        refine (congrArg Host.Outcome.next (if_pos (leaving.trans leaves'))).trans (ends.trans ?_)
        exact (if_pos leaves').symm
      · refine (congrArg Host.Outcome.next (if_neg fun out => leaves' (leaving.symm.trans out))).trans ?_
        refine Eq.trans ?_ (if_neg leaves').symm
        cases ax <;> rfl
    have instant {speed : Nat} (early : (a.advance ax now).part < span) (root : isqrt (a.advance ax now).speedSq = speed)
        (up : (a.advance ax now).up = a.up) : between speed :=
      ⟨congrArg Host.Outcome.next (State.axisStep_of_partway (s := s.elapse dt) early), AxisRecord.speed_of_root up root⟩
    refine ⟨fun going front below far => ?_, fun going front cruising far => ?_, fun cause enough => ?_,
      fun stopping near => ?_, fun rest => ?_⟩
    · have on : a.SpeedsUp ax :=
        ⟨AxisRecord.travels_iff.mp going, AxisRecord.ahead_iff.mpr front, partway, below, far⟩
      refine ⟨fun inTime => steps (.inr on.travels) (on.pulse inTime), fun late => ?_⟩
      obtain ⟨early, root, up⟩ := on.instant late
      exact instant early root up
    · have on : a.Cruises ax :=
        ⟨AxisRecord.travels_iff.mp going, AxisRecord.ahead_iff.mpr front, partway, cruising, far⟩
      have root : isqrt a.speedSq = a.limit * 10 ^ 6 := (congrArg isqrt cruising).trans (AxisRecord.cruise_root most)
      refine ⟨fun inTime => ?_, fun late => ?_⟩
      · exact (steps (.inr on.travels) (on.pulse inTime)).trans
          (congrArg (fun w => stepped w (room / (2 * v))) cruising)
      · obtain ⟨early, same, up⟩ := on.instant late
        exact instant early (by rw [same, root]) up
    · have on : a.Slows ax := by
        refine ⟨cause.imp id fun ⟨going, why⟩ => ⟨AxisRecord.travels_iff.mp going, why.imp (fun behind => ?_) id⟩,
          partway, enough⟩
        rw [← Bool.not_eq_true]
        exact mt AxisRecord.ahead_iff.mp behind
      refine ⟨fun inTime => steps (on.cause.imp id And.left) (on.pulse inTime), fun late => ?_⟩
      obtain ⟨early, root, up⟩ := on.instant late
      exact instant early root up
    · have on : a.Brakes ax := ⟨.inl stopping, Nat.add_lt_of_lt_sub' near⟩
      refine congrArg Host.Outcome.next (State.axisStep_of_partway (s := s.elapse dt) ?_)
      rcases Nat.lt_or_ge (a.lag ax now) (isqrt a.speedSq) with late | inTime
      · exact (on.runs late).1.partway
      · exact (on.stops inTime).1.partway
    · exact congrArg Host.Outcome.next (State.axisStep_of_rest (s := s.elapse dt) (a.atRest_iff.mpr rest.symm))
  · intro p q
    simp only [wayTo]
    omega

/-! ## The pulses of a search -/

section
variable {ax : Axis} {now : Nat} {a : AxisRecord}

/-- An axis searches for its index. -/
structure AxisRecord.Seeks (a : AxisRecord) : Prop where
  state : a.state = .homing
  unhomed : a.pos = none

theorem AxisRecord.Seeks.seeking (on : a.Seeks) : a.seeking = true := by
  obtain ⟨state, unhomed⟩ := on
  simp [AxisRecord.seeking, state, unhomed]

theorem AxisRecord.Seeks.moving (on : a.Seeks) : a.atRest = false := by simp [AxisRecord.atRest, on.state]

theorem AxisRecord.Seeks.straight (on : a.Seeks) : a.turn = a := by
  unfold AxisRecord.turn
  exact if_neg (by simp [AxisRecord.travelling, on.state, on.unhomed])

theorem AxisRecord.Seeks.leg (on : a.Seeks) : a.leg ax = a.cruiseLeg (stepSpan ax) a.cruiseSq := by
  unfold AxisRecord.leg
  rw [on.state]
  exact if_pos on.seeking

/-- A search speeds up to its next pulse. -/
theorem AxisRecord.Seeks.speedsUp (on : a.Seeks) (partway : a.part < stepSpan ax) (below : a.speedSq + a.room ax ≤ a.cruiseSq)
    (inTime : isqrt (a.speedSq + a.room ax) - isqrt a.speedSq ≤ a.lag ax now) :
    a.advance ax now = { a with
      part := stepSpan ax, speedSq := a.speedSq + a.room ax
      clock := a.clock + (isqrt (a.speedSq + a.room ax) - isqrt a.speedSq) } := by
  have some : 0 < a.room ax := Nat.sub_pos_of_lt partway
  have leg : a.leg ax = .speedUp (min a.cruiseSq a.cruiseSq) := on.leg.trans (if_pos (by omega))
  refine AxisRecord.advance_to_pulse on.moving partway on.straight ?_
  rw [AxisRecord.follow_speedUp leg (by rwa [min_self]), if_pos inTime]

/-- A search at its speed cruises to its next pulse. -/
theorem AxisRecord.Seeks.cruises (on : a.Seeks) (partway : a.part < stepSpan ax) (cruise : a.speedSq = a.cruiseSq)
    (inTime : a.room ax / (2 * isqrt a.speedSq) ≤ a.lag ax now) :
    a.advance ax now = { a with
      part := stepSpan ax, speedSq := a.speedSq, clock := a.clock + a.room ax / (2 * isqrt a.speedSq) } := by
  have leg : a.leg ax = .hold (stepSpan ax) := by
    rw [on.leg, AxisRecord.cruiseLeg, if_neg (by omega)]
    exact if_pos cruise
  refine AxisRecord.advance_to_pulse on.moving partway on.straight ?_
  rw [AxisRecord.follow_hold leg (Nat.sub_le ..), if_pos inTime]

/-- A pulse of a search is counted. -/
theorem AxisRecord.Seeks.pulse (on : a.Seeks) (part speedSq clock : Nat) :
    AxisRecord.pulse ax { a with part := part, speedSq := speedSq, clock := clock } = { a with
      homingTravel := a.homingTravel + 1, part := 0, speedSq := speedSq, clock := clock, lastStep := some a.up } := by
  have sought : ({ a with part := part, speedSq := speedSq, clock := clock } : AxisRecord).seeking = true := on.seeking
  have travels : ({ a with part := part, speedSq := speedSq, clock := clock } : AxisRecord).travelling = false := by
    simp [AxisRecord.travelling, on.state, on.unhomed]
  unfold AxisRecord.pulse
  rw [sought, travels]
  dsimp only
  rw [on.unhomed]
  rfl

theorem AxisRecord.Seeks.searchSpent (on : a.Seeks) : a.searchSpent ax = decide (homingLimitSteps ax ≤ a.homingTravel) := by
  simp [AxisRecord.searchSpent, on.seeking]

end

/-- A pulse issued by a search that goes on. -/
theorem State.axisStep_seeking {s : State} {ax : Axis} {speedSq took : Nat} (on : (s.hdp.axis ax).Seeks)
    (going : (s.hdp.axis ax).homingTravel < homingLimitSteps ax)
    (pulse : (s.hdp.axis ax).advance ax s.timeBase
      = { s.hdp.axis ax with part := stepSpan ax, speedSq := speedSq, clock := (s.hdp.axis ax).clock + took }) :
    s.axisStep ax = { s with hdp := s.hdp.putAxis ax { s.hdp.axis ax with
      homingTravel := (s.hdp.axis ax).homingTravel + 1, part := 0, speedSq := speedSq
      clock := (s.hdp.axis ax).clock + took, lastStep := some (s.hdp.axis ax).up } } := by
  have unspent : (s.hdp.axis ax).searchSpent ax = false := by
    rw [on.searchSpent]
    simpa using going
  rw [State.axisStep_of_pulse on.moving pulse unspent, AxisRecord.leavesRange_unhomed on.unhomed, on.pulse]
  exact if_neg Bool.false_ne_true

theorem State.homingFails_eq {s : State} {ax : Axis} (on : (s.hdp.axis ax).Seeks) :
    s.homingFails ax =
      if homingLimitSteps ax ≤ (s.hdp.axis ax).homingTravel then
        State.raise { s with hdp := { s.hdp.putAxis ax { (s.hdp.axis ax).advance ax s.timeBase with
            state := .stopping, lossCause := .indexNotFound } with
          outcome := if s.hdp.op.isSome = true then .lost else s.hdp.outcome } } .headLost
      else s := by
  have spent : ((s.hdp.axis ax).advance ax s.timeBase).searchSpent ax
      = decide (homingLimitSteps ax ≤ (s.hdp.axis ax).homingTravel) := by
    rw [← on.searchSpent]
    simp [AxisRecord.searchSpent, AxisRecord.seeking]
  unfold State.homingFails
  dsimp only
  rw [spent]
  refine ite_congr (by simp) (fun _ => ?_) fun _ => rfl
  cases ax <;> rfl

/-- Settles O33: a search ends at its index or at its limit, and counts its pulses. -/
theorem searchesEndAtTheIndexOrTheLimit : Obligations.SearchesEndAtTheIndexOrTheLimit := by
  intro dt ax s a now limit room cruise v time stepped state unhomed
  have on : a.Seeks := ⟨state, unhomed⟩
  have steps : homingLimitSteps ax = limit := by cases ax <;> rfl
  have found : (s.elapse dt).indexPass ax = { s.elapse dt with
      hdp := (s.hdp.passed ax).putAxis ax ((a.advance ax now).found (s.hdp.passIndex ax)) } := by
    have seeks : (a.advance ax now).seeking = true := by
      simpa only [AxisRecord.seeking, AxisRecord.advance_state, AxisRecord.advance_pos] using on.seeking
    rw [State.indexPass_eq]
    exact if_pos seeks
  refine ⟨?_, ?_, fun going => ⟨?_, fun left below inTime => ?_, fun left cruising inTime => ?_⟩, fun spent => ⟨?_, ?_⟩⟩
  · rintro rfl
    exact congrArg Host.Outcome.next found
  · rintro up rfl step q
    refine congrArg Host.Outcome.next (found.trans ?_)
    rw [HeadPositioner.passIndex_tilt step]
    rfl
  · refine congrArg Host.Outcome.next ((State.homingFails_eq (s := s.elapse dt) on).trans (if_neg ?_))
    rw [steps]
    exact Nat.not_le.mpr going
  · exact congrArg Host.Outcome.next (State.axisStep_seeking (s := s.elapse dt) on (by rw [steps]; exact going)
      (on.speedsUp (Nat.lt_of_sub_pos left) below inTime))
  · have issued := State.axisStep_seeking (s := s.elapse dt) on (by rw [steps]; exact going)
      (on.cruises (now := now) (Nat.lt_of_sub_pos left) cruising inTime)
    refine congrArg Host.Outcome.next (issued.trans ?_)
    exact congrArg (fun w => { s.elapse dt with hdp := s.hdp.putAxis ax { a with
      homingTravel := a.homingTravel + 1, part := 0, speedSq := w, clock := a.clock + room / (2 * v)
      lastStep := some a.up } }) cruising
  · refine congrArg Host.Outcome.next ((State.homingFails_eq (s := s.elapse dt) on).trans (if_pos ?_))
    rw [steps]
    exact spent
  · refine congrArg Host.Outcome.next (State.axisStep_of_spent (s := s.elapse dt) (on.searchSpent.trans ?_))
    rw [steps]
    exact decide_eq_true spent

end Sys2Proof.Machine
end
